-- ==== Sys2Proof/Word.lean ====
section
/-! DEFINITION. The words, bytes and numbers of the machine as data: the register word (R30), the byte, and the two
shapes in which a real number of the datapath is carried (R10). Arithmetic on them stands in Machine/Number.lean. -/

namespace Sys2Proof

/-- A register, a bus word, a command word (R6: `XLEN_BUS` = 32). -/
abbrev Word := BitVec 32

/-- An element of QBUF and FILEBUF (R50). -/
abbrev Byte := BitVec 8

/-- One summand of a number in closed form: `coef × π^piPow × cos(π × angle)` (log 1). -/
structure Term where
  piPow : Int
  angle : Rat
  coef : Rat
deriving DecidableEq, Repr, Inhabited

/-- A `Num` of R10: a real number in closed form, the sum of its terms. A rational `q ≠ 0` is the one term
`q × π^0 × cos 0`, zero is the empty sum. Every constellation point, filter tap, symbol and filtered sample of the
reference numerics has such a form (R203 and R204 are sums of rationals times powers of `π` times sines and cosines of
rational multiples of `π`), and so has every finite-precision number, which is rational (log 1). -/
structure Num where
  terms : List Term
deriving DecidableEq, Repr, Inhabited

/-- A sample of the lanes WI, WQ and ILVBUF: the real number `num / √rad`. `NORM` divides by a square root (R235), so
its results need this shape; a sample the host pushes has `rad = 1` (log 1). -/
structure Sample where
  num : Num
  rad : Num
deriving DecidableEq, Repr, Inhabited

/-- A complex value: a pair of real lanes (R11). -/
structure Cplx where
  i : Num
  q : Num
deriving DecidableEq, Repr, Inhabited

end Sys2Proof
end

