-- ==== Sys2Proof/Syntax.lean ====
section
/-! DEFINITION. The 21 commands of R114, one constructor per row of the opcode table, with the operand fields of R115. -/

namespace Sys2Proof

/-- A command (R110, R114). The fields are those of the command word and no others: every other operand is a register
or a buffer that the command's rule names. -/
inductive Instr where
  /-- R351. -/
  | nop
  /-- R352. -/
  | clrerr
  /-- R353. -/
  | sreset
  /-- R143. -/
  | prbs
  /-- R144. -/
  | brep
  /-- R161. -/
  | cmclr
  /-- R162. -/
  | cmdef
  /-- R167. -/
  | map
  /-- R191. -/
  | cext
  /-- R192. -/
  | zstuff
  /-- R200. -/
  | fgen
  /-- R210. -/
  | conv
  /-- R230. -/
  | trim
  /-- R235. -/
  | norm
  /-- R240: `d` is bit 0, load the default map first. -/
  | digmod (d : Bool)
  /-- R262: `mode` is bits [15:0], the resolution-mode identifier. -/
  | pmode (mode : BitVec 16)
  /-- R265. -/
  | ilv
  /-- R275: `src` is bits [1:0], `order` is bits [3:2], the field the spec calls `end`. -/
  | vq (src order : BitVec 2)
  /-- R308. -/
  | pdwenc
  /-- R310. -/
  | pdwclr
  /-- R324. -/
  | pdwasm
deriving DecidableEq, Repr, Inhabited

end Sys2Proof
end

