-- ==== Sys2Proof/WellFormed.lean ====
section
/-! DEFINITION. The field constraints of the opcode table (R114): only `VQ` has any. -/

namespace Sys2Proof

/-- `src = 3` is reserved (R115). -/
def srcLegal (src : BitVec 2) : Bool := src != 3#2

/-- `end = 3` is reserved (R115). -/
def orderLegal (order : BitVec 2) : Bool := order != 3#2

/-- A command that some legal word stands for (R116). -/
def WellFormed : Instr → Bool
  | .nop => true
  | .clrerr => true
  | .sreset => true
  | .prbs => true
  | .brep => true
  | .cmclr => true
  | .cmdef => true
  | .map => true
  | .cext => true
  | .zstuff => true
  | .fgen => true
  | .conv => true
  | .trim => true
  | .norm => true
  | .digmod _ => true
  | .pmode _ => true
  | .ilv => true
  | .vq src order => srcLegal src && orderLegal order
  | .pdwenc => true
  | .pdwclr => true
  | .pdwasm => true

end Sys2Proof
end

