-- ==== Sys2Proof/Decode.lean ====
section
/-! DEFINITION. The decoder of R119, total on every word, and the encoder of R114. -/

namespace Sys2Proof

/-- Why a word selects no row of R114 (the three kinds of R116). -/
inductive Illegal where
  /-- The opcode byte is none of the 21 listed. -/
  | opcode
  /-- A 1 in a bit that the format marks zero. -/
  | mustBeZero
  /-- `VQ` with `src = 3` or `end = 3`. -/
  | reservedField
deriving DecidableEq, Repr

/-- The opcode byte, bits [31:24] (R111). -/
def opcodeOf (w : Word) : BitVec 8 := w.extractLsb' 24 8

/-- Format Z: bits [23:0] are zero (R111). -/
def formatZ (i : Instr) (w : Word) : Except Illegal Instr :=
  if w.extractLsb' 0 24 = 0#24 then .ok i else .error .mustBeZero

/-- Format F as `DIGMOD` uses it: bits [23:1] are zero, bit 0 is `D` (R111). -/
def formatD (w : Word) : Except Illegal Instr :=
  if w.extractLsb' 1 23 = 0#23 then .ok (.digmod (w.getLsbD 0)) else .error .mustBeZero

/-- Format M: bits [23:16] are zero, bits [15:0] the immediate (R111). -/
def formatM (w : Word) : Except Illegal Instr :=
  if w.extractLsb' 16 8 = 0#8 then .ok (.pmode (w.extractLsb' 0 16)) else .error .mustBeZero

/-- Format F as `VQ` uses it: bits [23:4] are zero, `end` is bits [3:2] and `src` bits [1:0], neither 3 (R111, R115). -/
def formatV (w : Word) : Except Illegal Instr :=
  if w.extractLsb' 4 20 = 0#20 then
    if srcLegal (w.extractLsb' 0 2) && orderLegal (w.extractLsb' 2 2) then
      .ok (.vq (w.extractLsb' 0 2) (w.extractLsb' 2 2))
    else .error .reservedField
  else .error .mustBeZero

/-- `Decode(w)` (R119): the opcode byte selects the row. -/
def decode (w : Word) : Except Illegal Instr :=
  match (opcodeOf w).toNat with
  | 0x00 => formatZ .nop w
  | 0x01 => formatZ .clrerr w
  | 0x02 => formatZ .sreset w
  | 0x10 => formatZ .prbs w
  | 0x11 => formatZ .brep w
  | 0x18 => formatZ .cmclr w
  | 0x19 => formatZ .cmdef w
  | 0x1A => formatZ .map w
  | 0x20 => formatZ .cext w
  | 0x21 => formatZ .zstuff w
  | 0x22 => formatZ .fgen w
  | 0x23 => formatZ .conv w
  | 0x28 => formatZ .trim w
  | 0x29 => formatZ .norm w
  | 0x2F => formatD w
  | 0x30 => formatM w
  | 0x31 => formatZ .ilv w
  | 0x32 => formatV w
  | 0x40 => formatZ .pdwenc w
  | 0x41 => formatZ .pdwclr w
  | 0x42 => formatZ .pdwasm w
  | _ => .error .opcode

/-- The word of a command: the column "word" of R114. -/
def encode : Instr → Word
  | .nop => 0x00000000#32
  | .clrerr => 0x01000000#32
  | .sreset => 0x02000000#32
  | .prbs => 0x10000000#32
  | .brep => 0x11000000#32
  | .cmclr => 0x18000000#32
  | .cmdef => 0x19000000#32
  | .map => 0x1A000000#32
  | .cext => 0x20000000#32
  | .zstuff => 0x21000000#32
  | .fgen => 0x22000000#32
  | .conv => 0x23000000#32
  | .trim => 0x28000000#32
  | .norm => 0x29000000#32
  | .digmod d => 0x17800000#31 ++ BitVec.ofBool d
  | .pmode mode => 0x3000#16 ++ mode
  | .ilv => 0x31000000#32
  | .vq src order => 0x3200000#28 ++ (order ++ src)
  | .pdwenc => 0x40000000#32
  | .pdwclr => 0x41000000#32
  | .pdwasm => 0x42000000#32

/-- The mask of a row of R114: the bits that select it. -/
def rowMask : Instr → Word
  | .digmod _ => 0xFFFFFFFE#32
  | .pmode _ => 0xFFFF0000#32
  | .vq _ _ => 0xFFFFFFF0#32
  | _ => 0xFFFFFFFF#32

/-- The match value of a row of R114. -/
def rowMatch : Instr → Word
  | .digmod _ => 0x2F000000#32
  | .pmode _ => 0x30000000#32
  | .vq _ _ => 0x32000000#32
  | .nop => 0x00000000#32
  | .clrerr => 0x01000000#32
  | .sreset => 0x02000000#32
  | .prbs => 0x10000000#32
  | .brep => 0x11000000#32
  | .cmclr => 0x18000000#32
  | .cmdef => 0x19000000#32
  | .map => 0x1A000000#32
  | .cext => 0x20000000#32
  | .zstuff => 0x21000000#32
  | .fgen => 0x22000000#32
  | .conv => 0x23000000#32
  | .trim => 0x28000000#32
  | .norm => 0x29000000#32
  | .ilv => 0x31000000#32
  | .pdwenc => 0x40000000#32
  | .pdwclr => 0x41000000#32
  | .pdwasm => 0x42000000#32

/-- The bits `w`, of which the table gives `nbits`, as one command word: a command is a single 32-bit value on the bus
(R110), so there are no further words and no byte order (R94 (e)). -/
def tableWord (nbits w : Nat) : Word := BitVec.ofNat 32 (w % 2 ^ nbits)

/-- What the decoder reads from a table row's bits. -/
def decodeTableWord (nbits w : Nat) : Option Instr :=
  match decode (tableWord nbits w) with
  | .ok i => some i
  | .error _ => none

end Sys2Proof
end

