-- ==== Sys2Proof/Config.lean ====
section
/-! DEFINITION. The parameters of R6 that the spec leaves open, as plain data (they stand in State, log 2), the values
of the reference model (section 4 of 93_implementation_defined.md, log 8), and the uninterpreted operations of a
`Numerics` other than the reference (R10, log 7). -/

namespace Sys2Proof

/-- The seven fields of a DeviceProfile as registers hold them (R44, R45, R261). -/
structure Profile where
  gran : Word
  minlen : Word
  binmult : Word
  shift : Word
  width : Word
  endian : Word
  idlegran : Word
deriving DecidableEq, Repr, Inhabited

namespace Config

/-- What `Round` does at an exact half (R12). -/
inductive RoundTies where
  | halfEven
  | halfAway
deriving DecidableEq, Repr, Inhabited

/-- The real arithmetic of the datapath (R10): the reference, exact real arithmetic, or another, of which nothing is
known but that each operation depends on its operands alone (the functions `impl…` below, at this identifier). -/
inductive Numerics where
  | reference
  | implementation (id : Nat)
deriving DecidableEq, Repr, Inhabited

/-- The capacity of a buffer: 1 to 2^32 − 1 elements (R51). -/
structure Cap where
  size : Nat
  pos : 1 ≤ size
  fits : size ≤ 4294967295
deriving DecidableEq, Repr

/-- 2^32 − 1, the capacity of a model that wants no limit (R51). -/
def Cap.max : Cap := ⟨4294967295, by decide, by decide⟩

/-- The capacities of R51, one for each buffer but that WI and WQ share one. -/
structure Caps where
  bit : Cap
  sym : Cap
  ext : Cap
  x : Cap
  tap : Cap
  y : Cap
  z : Cap
  w : Cap
  ilv : Cap
  q : Cap
  recs : Cap
  file : Cap
deriving DecidableEq, Repr

/-- The open parameters of R6. They are the same for a whole run (R58). `modeTable` lists the entries of `ModeTable`,
the first one with an identifier being that identifier's (R261); the two headers leave room for each other before byte
4096 (R320). -/
structure Params where
  numerics : Numerics
  ties : RoundTies
  caps : Caps
  modeTable : List (BitVec 16 × Profile)
  formatTag : BitVec 3
  fileHeader : List Byte
  blockHeader : List Byte
  headersFit : fileHeader.length + blockHeader.length ≤ 4096
deriving DecidableEq, Repr

/-- Every capacity 2^32 − 1 (R51: "a model that wants none takes every capacity as 2^32 − 1"). -/
def Caps.unlimited : Caps :=
  ⟨.max, .max, .max, .max, .max, .max, .max, .max, .max, .max, .max, .max⟩

/-- The 48 bytes of R320. -/
def defaultFileHeader : List Byte :=
  [0x53, 0x54, 0x52, 0x4D] ++ [0x01, 0x00, 0x00, 0x00] ++ [0x00, 0x10, 0x00, 0x00] ++
  [0x4B, 0x45, 0x59, 0x53] ++ List.replicate 16 0x00 ++ [0x00, 0x00, 0x00, 0x00] ++
  [0x00, 0x00, 0x00, 0x00] ++ [0x10, 0x00, 0x00, 0x00] ++ [0x00, 0x00, 0x00, 0x00]

/-- The 16 bytes of R321: block id 1, reserved 0, the sentinel size 2^64 − 1. -/
def defaultBlockHeader : List Byte :=
  [0x01, 0x00, 0x00, 0x00] ++ [0x00, 0x00, 0x00, 0x00] ++ List.replicate 8 0xFF

/-- The reference instance: exact real arithmetic, `half_even`, no limit, an empty `ModeTable`, tag 1, the default
headers (log 8). -/
def Params.reference : Params where
  numerics := .reference
  ties := .halfEven
  caps := .unlimited
  modeTable := []
  formatTag := 1#3
  fileHeader := defaultFileHeader
  blockHeader := defaultBlockHeader
  headersFit := by decide

/-- How implementation `id` carries a rational constant, a point of a constellation, a decoded binary64 value or the integer
register S_BINMULT (R273), but for the operands of the tap functions and the zeros that log 7 names. DESIGN CHOICE (log 7):
what enters through it. -/
opaque implConst : (id : Nat) → (q : Rat) → Num
/-- Addition of implementation `id`. -/
opaque implAdd : (id : Nat) → (a b : Num) → Num
/-- Multiplication of implementation `id`. -/
opaque implMul : (id : Nat) → (a b : Num) → Num
/-- Division of implementation `id`. -/
opaque implDiv : (id : Nat) → (a b : Num) → Num
/-- The sum of the products of one output sample of `CONV` in the order that implementation `id` fixes (R210). -/
opaque implSum : (id : Nat) → (products : List Num) → Num
/-- The order of implementation `id`. -/
opaque implLt : (id : Nat) → (a b : Num) → Bool
/-- The equality of implementation `id`. -/
opaque implEq : (id : Nat) → (a b : Num) → Bool
/-- `Sqrt` of implementation `id` (R236). -/
opaque implSqrt : (id : Nat) → (a : Num) → Num
/-- `TapRC` of implementation `id` (R203). DESIGN CHOICE (log 7): the decoded rolloff `a` and the position `x` are handed
to it as the exact rationals, not through `implConst`. -/
opaque implTapRC : (id : Nat) → (a x : Rat) → Num
/-- `TapRRC` of implementation `id` (R204), its operands as those of `implTapRC`. -/
opaque implTapRRC : (id : Nat) → (a x : Rat) → Num

end Config
end Sys2Proof
end

