-- ==== Sys2Proof/Machine/Number.lean ====
section
/-! DEFINITION. Exact arithmetic on the closed forms of `Num` (R10: the reference numerics), the tap formulas of R202 to
R204, and `Round` at a half (R12). -/

namespace Sys2Proof

open Sys2Proof.Config

/-! Closed forms. The terms of a `Num` are kept sorted by `(piPow, angle)`, one term for each such pair, no coefficient
0, every angle in `[0, 1/2)`, so that sums that cancel are the empty list. -/

/-- The order of two terms in a canonical form. -/
def Term.before (t u : Term) : Bool :=
  decide (t.piPow < u.piPow) || (decide (t.piPow = u.piPow) && decide (t.angle < u.angle))

/-- Adds one term to a sorted list of terms. -/
def Num.insertTerm (t : Term) : List Term → List Term
  | [] => if t.coef = 0 then [] else [t]
  | u :: us =>
    if t.piPow = u.piPow ∧ t.angle = u.angle then
      if t.coef + u.coef = 0 then us else ⟨u.piPow, u.angle, t.coef + u.coef⟩ :: us
    else if t.before u then
      if t.coef = 0 then u :: us else t :: u :: us
    else u :: Num.insertTerm t us

/-- The angle in `[0, 1]` whose cosine is that of `r` (cosine is even and has period 2 in units of `π`). -/
def foldAngle (r : Rat) : Rat :=
  let m := r - 2 * ((r / 2).floor : Rat)
  if m ≤ 1 then m else 2 - m

/-- `q × π^k × cos(π f)` for `0 ≤ f ≤ 1/2`, with the rational values `cos 0 = 1`, `cos(π/3) = 1/2`, `cos(π/2) = 0`. -/
def acuteTerm (k : Int) (f q : Rat) : Term :=
  if f = 1 / 2 then ⟨k, 0, 0⟩ else if f = 1 / 3 then ⟨k, 0, q / 2⟩ else ⟨k, f, q⟩

/-- `q × π^k × cos(π r)` with its angle in `[0, 1/2)`. -/
def cosTerm (k : Int) (r q : Rat) : Term :=
  if foldAngle r ≤ 1 / 2 then acuteTerm k (foldAngle r) q else acuteTerm k (1 - foldAngle r) (-q)

namespace Num

/-- The real 0. -/
def zero : Num := ⟨[]⟩

/-- A rational. -/
def ofRat (q : Rat) : Num := ⟨insertTerm ⟨0, 0, q⟩ []⟩

/-- The real 1. -/
def one : Num := ofRat 1

/-- The rational a closed form is, if it has no other term. -/
def rat? (a : Num) : Option Rat :=
  match a.terms with
  | [] => some 0
  | [t] => if t.piPow = 0 ∧ t.angle = 0 then some t.coef else none
  | _ => none

/-- Sum. -/
def add (a b : Num) : Num := ⟨a.terms.foldr insertTerm b.terms⟩

/-- The product of two terms: `cos α × cos β = (cos(α − β) + cos(α + β)) / 2`. -/
def mulTerm (t u : Term) (acc : List Term) : List Term :=
  insertTerm (cosTerm (t.piPow + u.piPow) (t.angle - u.angle) (t.coef * u.coef / 2))
    (insertTerm (cosTerm (t.piPow + u.piPow) (t.angle + u.angle) (t.coef * u.coef / 2)) acc)

/-- Product. -/
def mul (a b : Num) : Num :=
  ⟨a.terms.foldr (fun t acc => b.terms.foldr (fun u acc' => mulTerm t u acc') acc) []⟩

/-- Product with a rational. -/
def scale (q : Rat) (a : Num) : Num :=
  if q = 0 then zero else ⟨a.terms.map fun t => ⟨t.piPow, t.angle, q * t.coef⟩⟩

/-- Negation. -/
def neg (a : Num) : Num := scale (-1) a

/-- Difference. -/
def sub (a b : Num) : Num := add a (neg b)

/-- `π^k`. -/
def piTo (k : Int) : Num := ⟨[⟨k, 0, 1⟩]⟩

/-- `cos(π r)`. -/
def cosPi (r : Rat) : Num := ⟨insertTerm (cosTerm 0 r 1) []⟩

/-- `sin(π r) = cos(π (1/2 − r))`. -/
def sinPi (r : Rat) : Num := cosPi (1 / 2 - r)

/-- `1 / Sqrt(2) = cos(π/4)`. -/
def invSqrt2 : Num := cosPi (1 / 4)

/-- `sinc(u)` (R202). -/
def sinc (u : Rat) : Num :=
  if u = 0 then one else scale (1 / u) (mul (piTo (-1)) (sinPi u))

/-- `Tap(RC, a, x)` (R203). -/
def tapRC (a x : Rat) : Num :=
  if x = 0 then one
  else if a ≠ 0 ∧ 2 * a * |x| = 1 then mul (scale (1 / 4) (piTo 1)) (sinc (1 / (2 * a)))
  else scale (1 / (1 - (2 * a * x) ^ 2)) (mul (sinc x) (cosPi (a * x)))

/-- `Tap(RRC, a, x)` (R204). -/
def tapRRC (a x : Rat) : Num :=
  if x = 0 then add (ofRat (1 - a)) (scale (4 * a) (piTo (-1)))
  else if a ≠ 0 ∧ 4 * a * |x| = 1 then
    mul (scale a invSqrt2)
      (add (mul (add one (scale 2 (piTo (-1)))) (sinPi (1 / (4 * a))))
        (mul (sub one (scale 2 (piTo (-1)))) (cosPi (1 / (4 * a)))))
  else
    scale (1 / (x * (1 - (4 * a * x) ^ 2)))
      (mul (piTo (-1)) (add (sinPi (x * (1 - a))) (scale (4 * a * x) (cosPi (x * (1 + a))))))

end Num

/-! Rounding. -/

/-- The largest integer `r` with `r × r ≤ n`, by Newton's iteration from a start `x` above it. The iterates fall until
they reach it, so `x` steps suffice. -/
def isqrtFrom : (fuel : Nat) → (n x : Nat) → Nat
  | 0, _, x => x
  | fuel + 1, n, x =>
    let y := (x + n / x) / 2
    if y < x then isqrtFrom fuel n y else x

/-- The integer square root. -/
def isqrt (n : Nat) : Nat :=
  if n = 0 then 0 else isqrtFrom (2 ^ (Nat.log2 n / 2 + 1)) n (2 ^ (Nat.log2 n / 2 + 1))

/-- The non-negative rational whose square is `q`, if there is one ("`Sqrt` of a perfect square of a rational is that
rational", R236). -/
def ratSqrt? (q : Rat) : Option Rat :=
  if 0 ≤ q ∧ isqrt q.num.toNat * isqrt q.num.toNat = q.num.toNat ∧ isqrt q.den * isqrt q.den = q.den then
    some ((isqrt q.num.toNat : Rat) / (isqrt q.den : Rat))
  else none

/-- Which of the integers `f` and `f + 1` a value exactly half way between them is rounded to (R12). -/
def tieBreak (ties : RoundTies) (f : Int) : Int :=
  match ties with
  | .halfEven => if f % 2 = 0 then f else f + 1
  | .halfAway => if f < 0 then f else f + 1

/-- `Round` of a value `v` (R12) from `twice = (⌊2v⌋, whether 2v is that integer)`: the integer nearest to `v`, and at an
exact half what `ties` says. -/
def roundFrom (ties : RoundTies) (twice : Int × Bool) : Int :=
  if twice.1 % 2 = 0 then twice.1 / 2
  else if twice.2 then tieBreak ties (twice.1 / 2)
  else twice.1 / 2 + 1

/-- `⌊q × 2^j⌋` and whether `q × 2^j` is that integer. -/
def floorRat (j : Nat) (q : Rat) : Int × Bool :=
  ((q * 2 ^ j).floor, decide (((q * 2 ^ j).floor : Rat) = q * 2 ^ j))

end Sys2Proof
end

