-- ==== Sys2Proof/Machine/Vanishing.lean ====
section
/-! DEFINITION. Whether a closed form is the real 0 (R10: equality is the equality of the reals).

`π` is transcendental, so a sum of terms is 0 exactly when, for each power of `π`, the terms of that power sum to 0. Such
a sum, of rational multiples of cosines of rational multiples of `π`, is a rational combination of roots of unity of one
order `D`. For each prime power `pe = p^e` that divides `D` exactly, the `p`-part of the index `n` of a root is `n mod pe`;
it has a class, `n mod p^(e−1)`, and a block, `0` to `p − 1`, in its class. The `p` roots of one class that agree in their
other parts sum to 0, and with one block left out of each class the rest are linearly independent (log 6). So the
combination is 0 exactly when nothing is left once this is done for every prime. -/

namespace Sys2Proof

/-- A rational combination of roots of unity of one order `D`: `(n, c)` is `c × exp(2π i n / D)`. -/
abbrev RootSum := List (Nat × Rat)

/-- Adds `c × exp(2π i n / D)`; like roots are collected and a coefficient 0 is dropped. -/
def addRoot (n : Nat) (c : Rat) : RootSum → RootSum
  | [] => if c = 0 then [] else [(n, c)]
  | u :: us =>
    if n = u.1 then (if c + u.2 = 0 then us else (n, c + u.2) :: us)
    else u :: addRoot n c us

/-- The order: twice the least common denominator of the angles. -/
def rootOrder (ts : List Term) : Nat := 2 * ts.foldr (fun t d => Nat.lcm t.angle.den d) 1

/-- The index of `exp(π i r)` among the roots of order `order`, a multiple of `2 × r.den`. -/
def rootIndex (order : Nat) (r : Rat) : Nat := ((r.num * (order / (2 * r.den) : Nat)) % order).toNat

/-- The coefficients and angles of terms as roots of unity: `cos(π r) = (exp(π i r) + exp(−π i r)) / 2`. -/
def rootSum (order : Nat) (ts : List Term) : RootSum :=
  ts.foldr (fun t s =>
    addRoot (rootIndex order t.angle) (t.coef / 2) (addRoot (rootIndex order (-t.angle)) (t.coef / 2) s)) []

/-- The largest power of `d` that divides `n`, for `n < 2^fuel` and `2 ≤ d`. -/
def powerIn : (fuel : Nat) → (n d : Nat) → Nat
  | 0, _, _ => 1
  | fuel + 1, n, d => if n % d = 0 then d * powerIn fuel (n / d) d else 1

/-- The primes that divide `n`, each with the power of it that divides `n` exactly, from `d` on; `n` has no divisor from 2
to `d − 1`. -/
def primePowers : (fuel : Nat) → (n d : Nat) → List (Nat × Nat)
  | 0, _, _ => []
  | fuel + 1, n, d =>
    if n ≤ 1 then []
    else if n < d * d then [(n, n)]
    else if n % d = 0 then
      (d, powerIn (Nat.log2 n + 1) n d) :: primePowers fuel (n / powerIn (Nat.log2 n + 1) n d) (d + 1)
    else primePowers fuel n (d + 1)

/-- The class of a root under the prime `p`. -/
def rootClass (p pe n : Nat) : Nat := n % (pe / p)

/-- The block of a root in its class. -/
def rootBlock (p pe n : Nat) : Nat := n % pe / (pe / p)

/-- Whether every block of a class occurs in the combination; where one does not, that one is left out and nothing is
rewritten. -/
def classFull (p pe i : Nat) (s : RootSum) : Bool :=
  decide (p ≤ s.length) &&
    (List.range p).all fun b => s.any fun u => decide (rootClass p pe u.1 = i ∧ rootBlock p pe u.1 = b)

/-- Block 0 of every full class written by the other blocks: `exp(2π i n / D)` is minus the sum over `t` from 1 to
`p − 1` of `exp(2π i (n + t × D / p) / D)`. -/
def reducePrime (order p pe : Nat) (s : RootSum) : RootSum :=
  s.foldr (fun u acc =>
    if rootBlock p pe u.1 = 0 ∧ classFull p pe (rootClass p pe u.1) s then
      (List.range (p - 1)).foldr (fun t rest => addRoot ((u.1 + (t + 1) * (order / p)) % order) (-u.2) rest) acc
    else addRoot u.1 u.2 acc) []

/-- A combination of roots of order `order` on linearly independent roots. -/
def reduceRoots (order : Nat) (s : RootSum) : RootSum :=
  (primePowers order order 2).foldl (fun acc q => reducePrime order q.1 q.2 acc) s

/-- Whether terms of one power of `π` sum to 0. -/
def cosinesVanish (ts : List Term) : Bool :=
  (reduceRoots (rootOrder ts) (rootSum (rootOrder ts) ts)).isEmpty

/-- Whether a closed form is the real 0. -/
def Num.vanishes (a : Num) : Bool :=
  a.terms.all fun t => cosinesVanish (a.terms.filter fun u => decide (u.piPow = t.piPow))

end Sys2Proof
end

