-- ==== Sys2Proof/Machine/Enclosure.lean ====
section
/-! DEFINITION. The order and the floor of the reals on closed forms (R10, R12). A rational is compared by its value. Of
another closed form it is first decided whether it is 0 (Machine/Vanishing.lean); one that is not has the sign that an
enclosure between integers over `2^p` shows once it leaves 0 out, and the precision rises until one does (log 6). -/

namespace Sys2Proof

/-- An enclosure at precision `p`: the value times `2^p` lies between the two integers. -/
abbrev Enc := Int × Int

/-- Guard bits kept below the precision `p` of an enclosure while it is computed; they grow with `p` as the number of
summands does. -/
def guardBits (p : Nat) : Nat := 64 + Nat.log2 p

/-- The sum of `fuel` terms of `arctan(1/n)` scaled as `pow` is: `pow / (2i + 1)` with alternating sign, `pow` divided by
`n²` from term to term until nothing is left of it. -/
def arctanTerms : (fuel : Nat) → (nn pow i : Nat) → Int
  | 0, _, _, _ => 0
  | fuel + 1, nn, pow, i =>
    if pow = 0 then 0 else ((pow / (2 * i + 1) : Nat) : Int) - arctanTerms fuel nn (pow / nn) (i + 1)

/-- `π × 2^q` to within `10 q + 400` units (Machin: `π = 16 arctan(1/5) − 4 arctan(1/239)`). -/
def piScaled (q : Nat) : Int :=
  16 * arctanTerms (q / 4 + 8) 25 (2 ^ q / 5) 0 - 4 * arctanTerms (q / 15 + 8) 57121 (2 ^ q / 239) 0

/-- The sum of `fuel` terms of the cosine series from `term` on: each next term is `term × t2 / ((2i+1)(2i+2))`, with
`t2` the square of the angle scaled by `2^q`, signs alternating, until nothing is left of it. -/
def cosTerms : (fuel : Nat) → (q : Nat) → (t2 term i : Nat) → Int
  | 0, _, _, _, _ => 0
  | fuel + 1, q, t2, term, i =>
    if term = 0 then 0
    else (term : Int) - cosTerms fuel q t2 (term * t2 / 2 ^ q / ((2 * i + 1) * (2 * i + 2))) (i + 1)

/-- `π` at precision `p` with its guard bits. -/
def piGuarded (p : Nat) : Int := piScaled (p + guardBits p)

/-- Drops the guard bits of precision `p` and opens the enclosure by one unit below and two above. -/
def dropGuard (p : Nat) (v : Int) : Enc := (v / 2 ^ guardBits p - 1, v / 2 ^ guardBits p + 2)

/-- `cos(π r)` at precision `p`, for `0 ≤ r < 1/2`, from `pi = piGuarded p`. -/
def encloseCos (p : Nat) (pi : Int) (r : Rat) : Enc :=
  if r = 0 then (2 ^ p, 2 ^ p)
  else
    let q := p + guardBits p
    let t := (pi * r.num / r.den).toNat
    dropGuard p (cosTerms (q / 4 + 8) q (t * t / 2 ^ q) (2 ^ q) 0)

/-- The product of two enclosures of non-negative values. -/
def mulEnc (p : Nat) (a b : Enc) : Enc := (a.1 * b.1 / 2 ^ p, a.2 * b.2 / 2 ^ p + 1)

/-- `a^n` for an enclosure of a positive value. -/
def powEnc (p : Nat) (a : Enc) : Nat → Enc
  | 0 => (2 ^ p, 2 ^ p)
  | n + 1 => mulEnc p a (powEnc p a n)

/-- `π^k` at precision `p`. -/
def enclosePiTo (p : Nat) (pi : Int) (k : Int) : Enc :=
  match k with
  | .ofNat n => powEnc p (dropGuard p pi) n
  | .negSucc n =>
    powEnc p (2 ^ (2 * p) / (dropGuard p pi).2, 2 ^ (2 * p) / (dropGuard p pi).1 + 1) (n + 1)

/-- The product of an enclosure of a non-negative value with a rational. -/
def scaleEnc (c : Rat) (a : Enc) : Enc :=
  if 0 ≤ c.num then (c.num * a.1 / c.den, c.num * a.2 / c.den + 1)
  else (c.num * a.2 / c.den, c.num * a.1 / c.den + 1)

/-- A term with its angle in `[0, 1/2)` at precision `p`. -/
def encloseAcute (p : Nat) (pi : Int) (t : Term) : Enc :=
  let c := encloseCos p pi t.angle
  scaleEnc t.coef (mulEnc p (enclosePiTo p pi t.piPow) (max c.1 0, c.2))

/-- Any term at precision `p`. -/
def encloseTerm (p : Nat) (pi : Int) (t : Term) : Enc := encloseAcute p pi (cosTerm t.piPow t.angle t.coef)

/-- The sum of enclosures of the terms. -/
def encloseTerms (p : Nat) (pi : Int) : List Term → Enc
  | [] => (0, 0)
  | t :: ts =>
    ((encloseTerm p pi t).1 + (encloseTerms p pi ts).1, (encloseTerm p pi t).2 + (encloseTerms p pi ts).2)

/-- A closed form at precision `p`. -/
def Num.enclose (p : Nat) (a : Num) : Enc := encloseTerms p (piGuarded p) a.terms

/-! The sign. -/

/-- The sign that the first of `fuel` precisions shows, from `p` on and eight times as fine each time; 0 where none leaves
0 out of the enclosure. -/
def searchSign (enc : Nat → Enc) : (fuel : Nat) → (p : Nat) → Int
  | 0, _ => 0
  | fuel + 1, p => if 0 < (enc p).1 then 1 else if (enc p).2 < 0 then -1 else searchSign enc fuel (8 * p)

/-- The size of a term: four times the bits of its numbers, and its power of `π`. -/
def Term.size (t : Term) : Nat :=
  t.piPow.natAbs +
    4 * (Nat.log2 t.coef.num.natAbs + Nat.log2 t.coef.den + Nat.log2 t.angle.num.natAbs + Nat.log2 t.angle.den + 4)

/-- How many precisions there are to try: with these many, a sum of such terms that is not 0 is further from 0 than the
finest of them shows (log 6). -/
def searchSteps (ts : List Term) : Nat := 64 + (ts.map Term.size).sum

/-- `⌊v⌋` and whether `v` is that integer, for `m − 1 ≤ v < m + 1` and `sign` the sign of `v − m`. -/
def floorBeside (m sign : Int) : Int × Bool := if sign < 0 then (m - 1, false) else (m, decide (sign = 0))

/-- `⌊v × 2^j⌋`, and whether `v × 2^j` is that integer, of the value `v` that `enc` encloses. The first of `fuel`
precisions whose enclosure reaches to one integer at most gives the floor: at once if it lies strictly between two, else
by `cmp`, where `cmp m` is the sign of `v × 2^j − m`. -/
def searchFloor (enc : Nat → Option Enc) (cmp : Int → Int) (j : Nat) : (fuel : Nat) → (p : Nat) → Int × Bool
  | 0, _ => (0, true)
  | fuel + 1, p =>
    match enc (j + p) with
    | none => searchFloor enc cmp j fuel (8 * p)
    | some e =>
      if e.1 / 2 ^ p = e.2 / 2 ^ p ∧ e.1 % 2 ^ p ≠ 0 then (e.1 / 2 ^ p, false)
      else if e.2 / 2 ^ p ≤ e.1 / 2 ^ p + 1 then floorBeside (e.2 / 2 ^ p) (cmp (e.2 / 2 ^ p))
      else searchFloor enc cmp j fuel (8 * p)

namespace Num

/-- The sign of a number that is not in rational form: two coarse enclosures, then whether it is 0, then as fine an
enclosure as it takes. -/
def signIrrational (a : Num) : Int :=
  let coarse := searchSign (fun p => a.enclose p) 2 64
  if coarse ≠ 0 then coarse
  else if a.vanishes then 0
  else searchSign (fun p => a.enclose p) (searchSteps a.terms) 4096

/-- The sign of a number, -1, 0 or 1. -/
def sign (a : Num) : Int :=
  match a.rat? with
  | some q => if 0 < q then 1 else if q < 0 then -1 else 0
  | none => signIrrational a

/-- `a < b` in the reference order. -/
def lt (a b : Num) : Bool :=
  match a.rat?, b.rat? with
  | some p, some q => decide (p < q)
  | _, _ => decide (sign (sub a b) < 0)

/-- `a = b` in the reference order. -/
def eq (a b : Num) : Bool :=
  match a.rat?, b.rat? with
  | some p, some q => decide (p = q)
  | _, _ => decide (sign (sub a b) = 0)

/-- The sign of `a × 2^j − m`. -/
def compareInt (j : Nat) (a : Num) (m : Int) : Int := sign (sub (scale (2 ^ j) a) (ofRat m))

/-- `⌊a × 2^j⌋` and whether `a × 2^j` is an integer. -/
def floorAt (j : Nat) (a : Num) : Int × Bool :=
  match a.rat? with
  | some q => floorRat j q
  | none => searchFloor (fun p => some (a.enclose p)) (compareInt j a) j (searchSteps a.terms) 64

end Num

/-! Samples `num / √rad`. -/

namespace Sample

/-- A number as a sample. -/
def ofNum (a : Num) : Sample := ⟨a, Num.one⟩

/-- `num / √rad` at precision `p` from enclosures of both; none while the enclosure of `rad` reaches 0. -/
def enclose (p : Nat) (v : Sample) : Option Enc :=
  let n := v.num.enclose p
  let d := v.rad.enclose p
  let root : Enc := ((isqrt (d.1 * 2 ^ p).toNat : Nat), ((isqrt (d.2 * 2 ^ p).toNat : Nat) : Int) + 1)
  if root.1 ≤ 0 then none
  else
    some ((if 0 ≤ n.1 then n.1 * 2 ^ p / root.2 else n.1 * 2 ^ p / root.1 - 1),
     (if 0 ≤ n.2 then n.2 * 2 ^ p / root.1 + 1 else n.2 * 2 ^ p / root.2 + 1))

/-- The rational a sample is, if its number is rational and its `rad` is a rational square. -/
def rat? (v : Sample) : Option Rat :=
  match v.num.rat?, v.rad.rat? with
  | some n, some d => if n = 0 then some 0 else (ratSqrt? d).map (n / ·)
  | _, _ => none

/-- The sign of `num / √rad × 2^j − m`: where `num` and `m` have one sign, that of `num² × 4^j − m² × rad` with it. -/
def compareInt (j : Nat) (v : Sample) (m : Int) : Int :=
  let s := v.num.sign
  if s < m.sign then -1
  else if m.sign < s then 1
  else s * Num.sign (Num.sub (Num.scale (4 ^ j) (Num.mul v.num v.num)) (Num.scale (m * m : Int) v.rad))

/-- `⌊n / √d × 2^j⌋` of rationals with `0 < d`, and whether `n / √d × 2^j` is that integer: its magnitude is the root of
`q = n² × 4^j / d`, whose floor is the integer root of `⌊q⌋`. -/
def floorRoot (j : Nat) (n d : Rat) : Int × Bool :=
  let q := n * n * 4 ^ j / d
  let f := isqrt q.floor.toNat
  let exact := decide ((f * f : Rat) = q)
  if 0 ≤ n then (f, exact) else if exact then (-f, true) else (-f - 1, false)

/-- `⌊v × 2^j⌋` and whether `v × 2^j` is an integer. -/
def floorAt (j : Nat) (v : Sample) : Int × Bool :=
  match v.rat?, v.num.rat?, v.rad.rat? with
  | some q, _, _ => floorRat j q
  | none, some n, some d => floorRoot j n d
  | none, _, _ =>
    searchFloor (fun p => v.enclose p) (compareInt j v) j (searchSteps (v.num.terms ++ v.rad.terms)) 64

/-- Negation. -/
def neg (v : Sample) : Sample := ⟨v.num.neg, v.rad⟩

/-- Product with a rational. -/
def scale (q : Rat) (v : Sample) : Sample := ⟨v.num.scale q, v.rad⟩

/-- `n / Sqrt(m2)` (R235, R236): a rational root is taken at once. -/
def overRoot (n m2 : Num) : Sample :=
  match m2.rat? with
  | some q =>
    match ratSqrt? q with
    | some r => ofNum (n.scale (1 / r))
    | none => ⟨n, m2⟩
  | none => ⟨n, m2⟩

end Sample

end Sys2Proof
end

