-- ==== Sys2Proof/Machine/Binary64.lean ====
section
/-! DEFINITION. The binary64 port: `NumOf` (R90) and `F64` (R93). -/

namespace Sys2Proof

/-- `NumOf(p)` (R90): the exact rational, or none if the pattern is an infinity or a NaN. -/
def numOf (p : BitVec 64) : Option Rat :=
  let s : Rat := if p.getLsbD 63 then -1 else 1
  let e := (p.extractLsb' 52 11).toNat
  let m := (p.extractLsb' 0 52).toNat
  if e = 0x7FF then none
  else if e = 0 then some (s * m / 2 ^ 1074)
  else if e < 1075 then some (s * (2 ^ 52 + m : Nat) / 2 ^ (1075 - e))
  else some (s * (2 ^ 52 + m : Nat) * 2 ^ (e - 1075))

/-- The pattern nearest to a value `v`, ties to the even significand (R93), from the sign and
`twice = (⌊|v| × 2^1075⌋, whether |v| × 2^1075 is that integer)`. With `n = ⌊|v| × 2^1074⌋` of more than 53 bits the
low `shift` bits are rounded away; the exponent field and the carry of the significand then add up; a sum beyond the
largest finite pattern is the infinity. -/
def f64From (negative : Bool) (twice : Nat × Bool) : BitVec 64 :=
  let n := twice.1 / 2
  let shift := (if n = 0 then 0 else Nat.log2 n + 1) - 53
  let m := roundFrom .halfEven
    (((twice.1 / 2 ^ shift : Nat) : Int), twice.2 && decide (twice.1 % 2 ^ shift = 0))
  let magnitude := min (shift * 2 ^ 52 + m.toNat) (0x7FF * 2 ^ 52)
  BitVec.ofNat 64 (magnitude + if negative then 2 ^ 63 else 0)

/-- `F64(v)` of a number (R93). -/
def Num.f64 (a : Num) : BitVec 64 :=
  if a.sign < 0 then f64From true ((a.neg.floorAt 1075).1.toNat, (a.neg.floorAt 1075).2)
  else f64From false ((a.floorAt 1075).1.toNat, (a.floorAt 1075).2)

/-- `F64(v)` of a sample (R93). -/
def Sample.f64 (v : Sample) : BitVec 64 :=
  if v.num.sign < 0 then f64From true ((v.neg.floorAt 1075).1.toNat, (v.neg.floorAt 1075).2)
  else f64From false ((v.floorAt 1075).1.toNat, (v.floorAt 1075).2)

end Sys2Proof
end

