-- ==== Sys2Proof/Machine/Numerics.lean ====
section
/-! DEFINITION. The operations of the parameter `Numerics` (R6, R10): the exact ones of the reference, the uninterpreted
ones of any other. -/

namespace Sys2Proof

open Sys2Proof.Config

/-- `Round(v)` (R12). -/
def Num.round (ties : RoundTies) (a : Num) : Int := roundFrom ties (a.floorAt 1)

/-- `Round(v)` of a sample (R12). -/
def Sample.round (ties : RoundTies) (v : Sample) : Int := roundFrom ties (v.floorAt 1)

namespace Config.Numerics

/-- A rational constant, or a decoded binary64 value, as a `Num`. -/
def ofRat (ν : Numerics) (q : Rat) : Num :=
  match ν with
  | .reference => Num.ofRat q
  | .implementation id => implConst id q

/-- `+`. -/
def add (ν : Numerics) (a b : Num) : Num :=
  match ν with
  | .reference => Num.add a b
  | .implementation id => implAdd id a b

/-- `×`. -/
def mul (ν : Numerics) (a b : Num) : Num :=
  match ν with
  | .reference => Num.mul a b
  | .implementation id => implMul id a b

/-- `÷` by a rational constant. -/
def divRat (ν : Numerics) (a : Num) (q : Rat) : Num :=
  match ν with
  | .reference => Num.scale (1 / q) a
  | .implementation id => implDiv id a (implConst id q)

/-- A sum of products, in the given order (R210). -/
def sum (ν : Numerics) (products : List Num) : Num :=
  match ν with
  | .reference => products.foldl Num.add Num.zero
  | .implementation id => implSum id products

/-- `<`. -/
def lt (ν : Numerics) (a b : Num) : Bool :=
  match ν with
  | .reference => Num.lt a b
  | .implementation id => implLt id a b

/-- `=`. -/
def eq (ν : Numerics) (a b : Num) : Bool :=
  match ν with
  | .reference => Num.eq a b
  | .implementation id => implEq id a b

/-- `TapRC` (R203). -/
def tapRC (ν : Numerics) (a x : Rat) : Num :=
  match ν with
  | .reference => Num.tapRC a x
  | .implementation id => implTapRC id a x

/-- `TapRRC` (R204). -/
def tapRRC (ν : Numerics) (a x : Rat) : Num :=
  match ν with
  | .reference => Num.tapRRC a x
  | .implementation id => implTapRRC id a x

/-- `n / Sqrt(m2)` (R235, R236). -/
def overRoot (ν : Numerics) (n m2 : Num) : Sample :=
  match ν with
  | .reference => Sample.overRoot n m2
  | .implementation id => Sample.ofNum (implDiv id n (implSqrt id m2))

/-- `Round(m × v)` (R273). DESIGN CHOICE (log 7): R273 multiplies an integer register with a `Num` and does not say how
the integer becomes one; under a Numerics other than the reference it enters through `implConst`, as a constant does, and
the product is `implMul`'s. A sample with a root pending, which no implementation but the reference makes, is divided
first. -/
def roundProduct (ν : Numerics) (ties : RoundTies) (m : Rat) (v : Sample) : Int :=
  match ν with
  | .reference => (v.scale m).round ties
  | .implementation id =>
    let n := if v.rad = Num.one then v.num else implDiv id v.num (implSqrt id v.rad)
    (implMul id (implConst id m) n).round ties

end Config.Numerics
end Sys2Proof
end

