-- ==== Sys2Proof/Machine/State.lean ====
section
/-! DEFINITION. The architectural state of R30 as plain data, the reasons the model can stop, and the state after reset
(R59). Fields of the model's own (parameters, the host's transactions) are marked; the log says why they stand here. -/

namespace Sys2Proof.Machine

open Sys2Proof.Config

/-- The twelve fault codes of R371. -/
inductive FaultCode where
  | length
  | gran
  | mismatch
  | config
  | symmap
  | overflow
  | illcmd
  | capacity
  | numfmt
  | divzero
  | bitcount
  | seq
deriving DecidableEq, Repr, Inhabited

/-- `raise E(sub, val, lim)` (R370). -/
structure Raise where
  code : FaultCode
  sub : BitVec 8
  val : Int
  lim : Int
deriving DecidableEq, Repr, Inhabited

/-- The content of the fault latch: what was raised and the value of CIX then (R34, R35, R36). -/
structure FaultRecord where
  raised : Raise
  index : Word
deriving DecidableEq, Repr, Inhabited

/-- What the completion event of the command in execution will write (R97): the fault latch, with
STATE = FAULT exactly when it is loaded, and CIX. Up to `left` host transactions still come before it (log 4). -/
structure Completion where
  latch : Option FaultRecord
  cix : Word
  left : Nat
deriving DecidableEq, Repr, Inhabited

/-- STATUS.STATE (R32). -/
inductive Phase where
  | idle
  | busy (c : Completion)
  | fault
deriving DecidableEq, Repr, Inhabited

/-- A `Num` register pair (R43, R47): the low word stands at the lower address. -/
structure NumReg where
  lo : Word
  hi : Word
deriving DecidableEq, Repr, Inhabited

/-- The PDW field registers (R46, R47). -/
structure PdRegs where
  op : Word
  markers : Word
  phctl : Word
  rfoff : Word
  widx : Word
  wmask : Word
  freq : NumReg
  phase : NumReg
  time : NumReg
  power : NumReg
deriving DecidableEq, Repr, Inhabited

/-- The fourteen buffer spaces of R50 and R53: thirteen finite sequences and the constellation table. The length register
of a buffer is the length of its sequence (R48); an invalid CMAP entry has no architectural point (R53). -/
structure Memory where
  bitbuf : List Bool
  symbuf : List Cplx
  extbuf : List Cplx
  xbuf : List Cplx
  taps : List Num
  ybuf : List Cplx
  zbuf : List Cplx
  wi : List Sample
  wq : List Sample
  ilvbuf : List Sample
  qbuf : List Byte
  recbuf : List Word
  filebuf : List Byte
  cmap : Vector (Option Cplx) 32
deriving DecidableEq, Repr

/-- A register address: the word index of a byte address that is a multiple of 4 in 0x000 .. 0xFFC, so that only legal
addresses can be stated (R81). -/
abbrev RegAddr := BitVec 10

/-- What the host, or what resets the block, does next (R81, R420). -/
inductive HostEvent where
  | read (a : RegAddr)
  | write (a : RegAddr) (v : Word)
  | reset
deriving DecidableEq, Repr, Inhabited

/-- The machine (R30). The last four fields are the model's own. -/
structure State where
  /-- STATUS.STATE (R32). -/
  phase : Phase
  /-- The command index (R33). -/
  cix : Word
  /-- The fault latch: ERRCODE, ERRCIX, ERRVAL, ERRLIM, all 0 when nothing is latched (R34 to R36). -/
  latch : Option FaultRecord
  modtype : Word
  prbsord : Word
  sps : Word
  span : Word
  fkind : Word
  rolloff : NumReg
  /-- The staging registers `P_*` (R44). -/
  stage : Profile
  /-- The snapshot registers `S_*` (R45). -/
  snap : Profile
  /-- The PDW field registers (R46, R47). -/
  pd : PdRegs
  /-- The buffers and CMAP (R50, R53). -/
  mem : Memory
  bufsel : BitVec 4
  bufidx : Word
  /-- The hidden write latches WDAT0 .. WDAT3 (R57). -/
  wdat : Vector Word 4
  /-- The model's own: the parameters of R6, constant (log 2). -/
  params : Params
  /-- The model's own: the host transactions to come, the next one first (log 3). -/
  bus : List HostEvent
  /-- The model's own: the BUSY length of each command to come: 0, acceptance and completion are one event; `n + 1`, up to
  `n` host transactions come between them (log 4). -/
  latency : List Nat
  /-- The model's own: the data the last bus read returned (log 5). -/
  rdata : Word
deriving DecidableEq, Repr

/-- No behaviour of this hardware stops the machine: every fault of the spec is latched and execution goes on in a next
state (R380). So this type has no constructor. -/
inductive Fault where
deriving DecidableEq, Repr

/-- The bus accesses that the spec tells a model to refuse, and the placeholder of an instruction without a meaning.
Every one of them is safe: the model stops where the spec gives no result. -/
inductive Refusal where
  /-- Raised by no instruction of this model: every arm of `exec` has its meaning. Safe. -/
  | notModelled (mnemonic : String)
  /-- Raised by a bus transaction in the BUSY state other than a read of STATUS or CIX, a write of a `P_*` register, a
  write of CMD or the hardware reset (R86). Safe. -/
  | busyAccess
  /-- Raised by a window read at an index where the selected buffer, or CMAP, has no element (R88). Safe. -/
  | noSuchElement
  /-- Raised by a window read of an invalid CMAP entry, whose point is not architectural (R53, R88). Safe. -/
  | invalidEntry
deriving DecidableEq, Repr

/-- Every buffer empty, every CMAP entry invalid (R59). -/
def Memory.reset : Memory where
  bitbuf := []
  symbuf := []
  extbuf := []
  xbuf := []
  taps := []
  ybuf := []
  zbuf := []
  wi := []
  wq := []
  ilvbuf := []
  qbuf := []
  recbuf := []
  filebuf := []
  cmap := Vector.replicate 32 none

/-- Seven zero registers. -/
def Profile.zero : Profile := ⟨0, 0, 0, 0, 0, 0, 0⟩

/-- The PDW field registers at reset. -/
def PdRegs.zero : PdRegs := ⟨0, 0, 0, 0, 0, 0, ⟨0, 0⟩, ⟨0, 0⟩, ⟨0, 0⟩, ⟨0, 0⟩⟩

/-- The reset state of R59 under the parameters `p`, with no host transaction to come. -/
def State.resetWith (p : Params) : State where
  phase := .idle
  cix := 0
  latch := none
  modtype := 0
  prbsord := 0
  sps := 0
  span := 0
  fkind := 0
  rolloff := ⟨0, 0⟩
  stage := Profile.zero
  snap := Profile.zero
  pd := PdRegs.zero
  mem := Memory.reset
  bufsel := 0
  bufidx := 0
  wdat := Vector.replicate 4 0
  params := p
  bus := []
  latency := []
  rdata := 0

/-- The machine right after reset (R59, R420), under the reference parameters (log 8). -/
def State.reset : State := State.resetWith Params.reference

end Sys2Proof.Machine
end

