-- ==== Sys2Proof/Machine/Ops.lean ====
section
/-! DEFINITION. What all commands share: the outcome of a command's pseudocode, taking a fault and returning from one
(R380, R390), acceptance in the IDLE state (R112, R113), and the split of a command into its two events (R97). -/

namespace Sys2Proof.Machine

/-- The outcome of a command's pseudocode: all its assignments done, or a raise after some of them (R14). -/
inductive Result where
  | done (s : State)
  | raised (e : Raise) (s : State)

/-- `do X` followed by the rest (R240): the rest runs only if nothing was raised. -/
def Result.andThen (r : Result) (rest : State → Result) : Result :=
  match r with
  | .done s => rest s
  | .raised e s => .raised e s

/-- The fault latch is loaded with `e` and the present CIX, and STATE becomes FAULT (R380, and R91 for a fault of a
host write, where this is all). -/
def latchFault (e : Raise) (s : State) : State :=
  { s with latch := some ⟨e, s.cix⟩, phase := .fault }

/-- Fault entry of a command (R380): the latch, STATE = FAULT, and CIX advanced. -/
def takeFault (e : Raise) (s : State) : State :=
  { latchFault e s with cix := s.cix + 1 }

/-- The return from a fault (R352, R390): the latch cleared, STATE = IDLE; nothing is restored. -/
def returnFromFault (s : State) : State :=
  { s with latch := none, phase := .idle }

/-- A command that completed: CIX advances (R33). -/
def advanceIndex (s : State) : State := { s with cix := s.cix + 1 }

/-- The end of an accepted command (R33, R380). -/
def finish (r : Result) : State :=
  match r with
  | .done s => advanceIndex s
  | .raised e s => takeFault e s

/-- A command accepted in the IDLE state only; in the other states its word is dropped (R113). -/
def runInIdle (body : State → Result) (s : State) : Host.Outcome State Fault Refusal :=
  match s.phase with
  | .idle => .next (finish (body s))
  | .busy _ => .next s
  | .fault => .next s

/-- A command accepted in IDLE and in FAULT, with its whole effect given (R350); dropped in BUSY (R113). -/
def runUnlessBusy (effect : State → State) (s : State) : Host.Outcome State Fault Refusal :=
  match s.phase with
  | .idle => .next (effect s)
  | .busy _ => .next s
  | .fault => .next (effect s)

/-- Reset of everything the spec calls state; the parameters are constants (R58, R353), and what the host is going to do
and has read is outside the block (log 3, log 4, log 5). -/
def resetBlock (s : State) : State :=
  { State.resetWith s.params with bus := s.bus, latency := s.latency, rdata := s.rdata }

/-- The state between acceptance and completion (R97): every register and buffer as the command leaves it (`after`), but
STATE = BUSY, and the latch and CIX still as before it. -/
def accepted (left : Nat) (before after : State) : State :=
  { after with
    phase := .busy ⟨after.latch, after.cix, left⟩
    latch := before.latch
    cix := before.cix }

/-- The completion event (R97): the latch and CIX are written, STATE becomes FAULT if the latch is loaded, else IDLE. -/
def complete (c : Completion) (s : State) : State :=
  { s with
    phase := if c.latch.isSome then .fault else .idle
    latch := c.latch
    cix := c.cix }

/-- The command in execution, if any, completes. -/
def settle (s : State) : State :=
  match s.phase with
  | .idle => s
  | .busy c => complete c s
  | .fault => s

/-- A command accepted in `before` with the fused outcome `after`: it takes the next BUSY length, and is left in execution
unless that length is 0 (R97, log 4). -/
def holdBusy (before after : State) : State :=
  match before.latency with
  | [] => after
  | 0 :: rest => { after with latency := rest }
  | (n + 1) :: rest => { accepted n before after with latency := rest }

/-- A fault of a configuration value (R375). -/
def configFault (sub : BitVec 8) (val lim : Int) : Raise := ⟨.config, sub, val, lim⟩

/-- The result does not fit its destination buffer, `sub` the buffer's id (R381). -/
def capacityFault (sub : BitVec 8) (needed : Nat) (cap : Config.Cap) : Raise :=
  ⟨.capacity, sub, needed, cap.size⟩

/-- The 64-bit pattern of a register pair (R90). -/
def NumReg.pattern (r : NumReg) : BitVec 64 := r.hi ++ r.lo

/-- A pattern that is no finite number; `val` is the pattern read as a two's-complement integer (R378, log 9). -/
def numfmtFault (sub : BitVec 8) (p : BitVec 64) : Raise := ⟨.numfmt, sub, p.toInt, 0⟩

/-- An illegal command word (R379). -/
def illegalFault (w : Word) : Raise := ⟨.illcmd, 0, w.toNat, 0⟩

end Sys2Proof.Machine
end

