-- ==== Sys2Proof/Machine/Mapper.lean ====
section
/-! DEFINITION. The symbol mapper: CMCLR, CMDEF, MAP (R160 to R167). -/

namespace Sys2Proof.Machine

/-- The Gray ladder `G2` of R164. -/
def grayLadder2 : List Rat := [-3, -1, 3, 1]

/-- The Gray ladder `G3` of R164, indexed by the value of the pattern. -/
def grayLadder3 : List Rat := [-7, -5, -1, -3, 7, 5, 1, 3]

/-- `c = 707/1000` of R164. -/
def mapC : Rat := 707 / 1000

/-- The default points of BPSK (R164). -/
def bpskPoints : List (Rat × Rat) := [(1, 0), (-1, 0)]

/-- The default points of QPSK, by pattern value (R164). -/
def qpskPoints : List (Rat × Rat) := [(1, 1), (-1, 1), (1, -1), (-1, -1)]

/-- The default points of 8PSK, by pattern value (R164). -/
def psk8Points : List (Rat × Rat) :=
  [(1, 0), (mapC, mapC), (-mapC, mapC), (0, 1), (mapC, -mapC), (0, -1), (-1, 0), (-mapC, -mapC)]

/-- The default point of pattern `p` of modulation type `m` (R164). -/
def defaultPoint (m p : Nat) : Rat × Rat :=
  match m with
  | 0 => bpskPoints.getD p (0, 0)
  | 1 => qpskPoints.getD p (0, 0)
  | 2 => psk8Points.getD p (0, 0)
  | 3 => (grayLadder2.getD (p / 4) 0, grayLadder2.getD (p % 4) 0)
  | _ => (grayLadder3.getD (p / 4) 0, grayLadder2.getD (p % 4) 0)

/-- The default map of modulation type `m`: the patterns of `m + 1` bits valid, the rest invalid (R162). -/
def defaultMap (ν : Config.Numerics) (m : Nat) : Vector (Option Cplx) 32 :=
  Vector.ofFn fun p : Fin 32 =>
    if p.val < 2 ^ (m + 1) then some ⟨ν.ofRat (defaultPoint m p.val).1, ν.ofRat (defaultPoint m p.val).2⟩ else none

/-- Entry `p` of CMAP, if `p < 32` and the entry is valid (R53). -/
def cmapPoint (m : Memory) (p : Nat) : Option Cplx := (m.cmap[p]?).join

/-- The pseudocode of `CMCLR` (R161). -/
def cmclrResult (s : State) : Result := .done { s with mem := { s.mem with cmap := Vector.replicate 32 none } }

/-- `CMCLR` (R161). -/
def execCmclr (s : State) : Host.Outcome State Fault Refusal := runInIdle cmclrResult s

/-- The pseudocode of `CMDEF` (R162). -/
def cmdefResult (s : State) : Result :=
  let m := s.modtype.toNat
  if 4 < m then .raised (configFault 1 m 4) s
  else .done { s with mem := { s.mem with cmap := defaultMap s.params.numerics m } }

/-- `CMDEF` (R162). -/
def execCmdef (s : State) : Host.Outcome State Fault Refusal := runInIdle cmdefResult s

/-- The numeral a tuple spells, its first bit the most significant (R166). -/
def patternOf (tuple : List Bool) : Nat := tuple.foldl (fun acc b => 2 * acc + b.toNat) 0

/-- `pat(j)`: the pattern of the tuple of bits `j×b .. j×b + b − 1` (R166). -/
def patternAt (bits : List Bool) (b j : Nat) : Nat := patternOf ((bits.drop (j * b)).take b)

/-- The lowest pattern below `count` that CMAP does not map, if any (R167). -/
def lowestUnmapped (m : Memory) (count : Nat) : Option Nat :=
  (List.range count).find? fun p => (cmapPoint m p).isNone

/-- The point a pattern maps to (R160). `MAP` asks only for valid patterns. -/
def mapPattern (m : Memory) (p : Nat) : Cplx := (cmapPoint m p).getD ⟨Num.zero, Num.zero⟩

/-- The pseudocode of `MAP` (R167). -/
def mapResult (s : State) : Result :=
  let m := s.modtype.toNat
  if 4 < m then .raised (configFault 1 m 4) s
  else
    let b := m + 1
    let len := s.mem.bitbuf.length
    if len % b ≠ 0 then .raised ⟨.bitcount, 0, len, b⟩ s
    else
      match lowestUnmapped s.mem (2 ^ b) with
      | some p => .raised ⟨.symmap, 0, p, 2 ^ b⟩ s
      | none =>
        if s.params.caps.sym.size < len / b then .raised (capacityFault 1 (len / b) s.params.caps.sym) s
        else
          .done { s with mem := { s.mem with
            symbuf := (List.range (len / b)).map fun j => mapPattern s.mem (patternAt s.mem.bitbuf b j) } }

/-- `MAP` (R167). -/
def execMap (s : State) : Host.Outcome State Fault Refusal := runInIdle mapResult s

end Sys2Proof.Machine
end

