-- ==== Sys2Proof/Machine/Flags.lean ====
section
/-! DEFINITION. The status and error registers as the bus shows them (R32 to R36, R54, R371). The block has no other flag
(R56). -/

namespace Sys2Proof.Machine

/-- STATUS (R32): bits [1:0] are STATE, bits [31:2] are 0. -/
def statusWord (s : State) : Word :=
  match s.phase with
  | .idle => 0
  | .busy _ => 1
  | .fault => 2

/-- The number of a fault code (R371). -/
def FaultCode.number : FaultCode → BitVec 8
  | .length => 1
  | .gran => 2
  | .mismatch => 3
  | .config => 4
  | .symmap => 5
  | .overflow => 6
  | .illcmd => 7
  | .capacity => 8
  | .numfmt => 9
  | .divzero => 10
  | .bitcount => 11
  | .seq => 12

/-- What the error registers show: the latched fault in FAULT, nothing in the other states (R34: "`CODE = 0` exactly when
`STATUS.STATE ≠ FAULT`"), also while a `CLRERR` or `SRESET` accepted in FAULT is BUSY and the latch not yet updated (R97,
log 14). -/
def shownFault (s : State) : Option FaultRecord :=
  match s.phase with
  | .idle => none
  | .busy _ => none
  | .fault => s.latch

/-- ERRCODE (R34): `code + 256 × sub`, 0 when no fault is shown. -/
def errcodeWord (s : State) : Word :=
  match shownFault s with
  | none => 0
  | some r => 0#16 ++ (r.raised.sub ++ r.raised.code.number)

/-- ERRCIX (R35). -/
def errcixWord (s : State) : Word :=
  match shownFault s with
  | none => 0
  | some r => r.index

/-- The `val` of the fault shown, else 0 (R36). -/
def errval (s : State) : Int :=
  match shownFault s with
  | none => 0
  | some r => r.raised.val

/-- The `lim` of the fault shown, else 0 (R36). -/
def errlim (s : State) : Int :=
  match shownFault s with
  | none => 0
  | some r => r.raised.lim

/-- `sat64` (R36). -/
def sat64 (v : Int) : Int := min (max v (-(2 ^ 63))) (2 ^ 63 - 1)

/-- The `_LO` word of an error value (R36). -/
def errLo (v : Int) : Word := (BitVec.ofInt 64 (sat64 v)).extractLsb' 0 32

/-- The `_HI` word of an error value (R36). -/
def errHi (v : Int) : Word := (BitVec.ofInt 64 (sat64 v)).extractLsb' 32 32

/-- CMAPVALID (R54): bit `p` is the valid bit of entry `p`. -/
def cmapValidWord (m : Memory) : Word :=
  BitVec.ofBoolListLE (m.cmap.toList.map Option.isSome) |>.setWidth 32

end Sys2Proof.Machine
end

