-- ==== Sys2Proof/Machine/Operands.lean ====
section
/-! DEFINITION. The named registers and their addresses (R84), what each reads as and what a write does to it (R82, R83),
and the window's element encodings (R87). -/

namespace Sys2Proof.Machine

/-- A field of a DeviceProfile (R44). -/
inductive ProfileField where
  | gran
  | minlen
  | binmult
  | shift
  | width
  | endian
  | idlegran
deriving DecidableEq, Repr

/-- An integer PDW field register (R46). -/
inductive PdField where
  | op
  | markers
  | phctl
  | rfoff
  | widx
  | wmask
deriving DecidableEq, Repr

/-- A register pair that holds a `Num` (R43, R47). -/
inductive NumField where
  | rolloff
  | freq
  | phase
  | time
  | power
deriving DecidableEq, Repr

/-- A sequence buffer (R50, ids 0 to 12). -/
inductive Buffer where
  | bitbuf
  | symbuf
  | extbuf
  | xbuf
  | taps
  | ybuf
  | zbuf
  | wi
  | wq
  | ilvbuf
  | qbuf
  | recbuf
  | filebuf
deriving DecidableEq, Repr

/-- What BUFSEL selects (R50): a sequence buffer, CMAP, or a reserved id. -/
inductive Selection where
  | buffer (b : Buffer)
  | cmap
  | reserved
deriving DecidableEq, Repr

/-- The named registers of R84. -/
inductive Reg where
  | cmd
  | status
  | errcode
  | errcix
  | errvalLo
  | errvalHi
  | errlimLo
  | errlimHi
  | cix
  | modtype
  | prbsord
  | sps
  | span
  | fkind
  | stage (f : ProfileField)
  | snap (f : ProfileField)
  | pdField (f : PdField)
  | numLo (f : NumField)
  | numHi (f : NumField)
  | length (b : Buffer)
  | cmapvalid
  | bufsel
  | bufidx
  | bufdat (k : Fin 4)
deriving DecidableEq, Repr

/-- The control and status registers of the address map (R84): byte address and register. -/
def controlMap : List (Nat × Reg) :=
  [(0x000, .cmd), (0x004, .status), (0x008, .errcode), (0x00C, .errcix), (0x010, .errvalLo), (0x014, .errvalHi),
   (0x018, .errlimLo), (0x01C, .errlimHi), (0x020, .cix)]

/-- The operand registers of the pipeline (R84). -/
def operandMap : List (Nat × Reg) :=
  [(0x040, .modtype), (0x044, .prbsord), (0x048, .sps), (0x04C, .span), (0x050, .fkind), (0x058, .numLo .rolloff),
   (0x05C, .numHi .rolloff)]

/-- The staging and the snapshot registers (R84). -/
def profileMap : List (Nat × Reg) :=
  [(0x080, .stage .gran), (0x084, .stage .minlen), (0x088, .stage .binmult), (0x08C, .stage .shift),
   (0x090, .stage .width), (0x094, .stage .endian), (0x098, .stage .idlegran),
   (0x0A0, .snap .gran), (0x0A4, .snap .minlen), (0x0A8, .snap .binmult), (0x0AC, .snap .shift),
   (0x0B0, .snap .width), (0x0B4, .snap .endian), (0x0B8, .snap .idlegran)]

/-- The PDW field registers (R84). -/
def pdwMap : List (Nat × Reg) :=
  [(0x0C0, .pdField .op), (0x0C4, .pdField .markers), (0x0C8, .pdField .phctl), (0x0CC, .pdField .rfoff),
   (0x0D0, .pdField .widx), (0x0D4, .pdField .wmask),
   (0x0E0, .numLo .freq), (0x0E4, .numHi .freq), (0x0E8, .numLo .phase), (0x0EC, .numHi .phase),
   (0x0F0, .numLo .time), (0x0F4, .numHi .time), (0x0F8, .numLo .power), (0x0FC, .numHi .power)]

/-- The length registers, CMAPVALID and the window (R84). -/
def bufferMap : List (Nat × Reg) :=
  [(0x100, .length .bitbuf), (0x104, .length .symbuf), (0x108, .length .extbuf), (0x10C, .length .xbuf),
   (0x110, .length .taps), (0x114, .length .ybuf), (0x118, .length .zbuf), (0x11C, .length .wi),
   (0x120, .length .wq), (0x124, .length .ilvbuf), (0x128, .length .qbuf), (0x12C, .length .recbuf),
   (0x130, .length .filebuf), (0x134, .cmapvalid),
   (0x200, .bufsel), (0x204, .bufidx), (0x208, .bufdat 0), (0x20C, .bufdat 1), (0x210, .bufdat 2),
   (0x214, .bufdat 3)]

/-- The register address map (R84). -/
def addressMap : List (Nat × Reg) := controlMap ++ operandMap ++ profileMap ++ pdwMap ++ bufferMap

/-- The register at an address, none if the address is reserved (R60, R84). -/
def regAt (a : RegAddr) : Option Reg := addressMap.lookup (4 * a.toNat)

/-- The address of CMD (R31). -/
def cmdAddr : RegAddr := 0#10

/-- What BUFSEL selects (R50). -/
def selectionOf (sel : BitVec 4) : Selection :=
  match sel.toNat with
  | 0 => .buffer .bitbuf
  | 1 => .buffer .symbuf
  | 2 => .buffer .extbuf
  | 3 => .buffer .xbuf
  | 4 => .buffer .taps
  | 5 => .buffer .ybuf
  | 6 => .buffer .zbuf
  | 7 => .buffer .wi
  | 8 => .buffer .wq
  | 9 => .buffer .ilvbuf
  | 10 => .buffer .qbuf
  | 11 => .buffer .recbuf
  | 12 => .buffer .filebuf
  | 13 => .cmap
  | _ => .reserved

/-- The length of a buffer (R48). -/
def bufferLength (m : Memory) : Buffer → Nat
  | .bitbuf => m.bitbuf.length
  | .symbuf => m.symbuf.length
  | .extbuf => m.extbuf.length
  | .xbuf => m.xbuf.length
  | .taps => m.taps.length
  | .ybuf => m.ybuf.length
  | .zbuf => m.zbuf.length
  | .wi => m.wi.length
  | .wq => m.wq.length
  | .ilvbuf => m.ilvbuf.length
  | .qbuf => m.qbuf.length
  | .recbuf => m.recbuf.length
  | .filebuf => m.filebuf.length

/-- A 64-bit pattern as the window shows it: low word, high word (R87). -/
def patternWords (p : BitVec 64) : List Word := [p.extractLsb' 0 32, p.extractLsb' 32 32]

/-- A complex element, or a CMAP entry, in the window (R87). -/
def cplxWords (z : Cplx) : List Word := patternWords z.i.f64 ++ patternWords z.q.f64

/-- The number of window words of an element of a buffer (R50). -/
def bufferWords : Buffer → Nat
  | .bitbuf => 1
  | .symbuf => 4
  | .extbuf => 4
  | .xbuf => 4
  | .taps => 2
  | .ybuf => 4
  | .zbuf => 4
  | .wi => 2
  | .wq => 2
  | .ilvbuf => 2
  | .qbuf => 1
  | .recbuf => 1
  | .filebuf => 1

/-- The window words of element `idx` of a buffer, none if there is no such element (R87, R88). -/
def bufferElement (m : Memory) (b : Buffer) (idx : Nat) : Option (List Word) :=
  match b with
  | .bitbuf => m.bitbuf[idx]?.map fun x => [if x then 1 else 0]
  | .symbuf => m.symbuf[idx]?.map cplxWords
  | .extbuf => m.extbuf[idx]?.map cplxWords
  | .xbuf => m.xbuf[idx]?.map cplxWords
  | .taps => m.taps[idx]?.map fun v => patternWords v.f64
  | .ybuf => m.ybuf[idx]?.map cplxWords
  | .zbuf => m.zbuf[idx]?.map cplxWords
  | .wi => m.wi[idx]?.map fun v => patternWords v.f64
  | .wq => m.wq[idx]?.map fun v => patternWords v.f64
  | .ilvbuf => m.ilvbuf[idx]?.map fun v => patternWords v.f64
  | .qbuf => m.qbuf[idx]?.map fun y => [y.setWidth 32]
  | .recbuf => m.recbuf[idx]?.map fun w => [w]
  | .filebuf => m.filebuf[idx]?.map fun y => [y.setWidth 32]

/-- A field of a profile. -/
def profileField (p : Profile) : ProfileField → Word
  | .gran => p.gran
  | .minlen => p.minlen
  | .binmult => p.binmult
  | .shift => p.shift
  | .width => p.width
  | .endian => p.endian
  | .idlegran => p.idlegran

/-- A profile with one field replaced. -/
def setProfileField (p : Profile) (v : Word) : ProfileField → Profile
  | .gran => { p with gran := v }
  | .minlen => { p with minlen := v }
  | .binmult => { p with binmult := v }
  | .shift => { p with shift := v }
  | .width => { p with width := v }
  | .endian => { p with endian := v }
  | .idlegran => { p with idlegran := v }

/-- An integer PDW field register. -/
def pdField (p : PdRegs) : PdField → Word
  | .op => p.op
  | .markers => p.markers
  | .phctl => p.phctl
  | .rfoff => p.rfoff
  | .widx => p.widx
  | .wmask => p.wmask

/-- The PDW field registers with one integer field replaced. -/
def setPdField (p : PdRegs) (v : Word) : PdField → PdRegs
  | .op => { p with op := v }
  | .markers => { p with markers := v }
  | .phctl => { p with phctl := v }
  | .rfoff => { p with rfoff := v }
  | .widx => { p with widx := v }
  | .wmask => { p with wmask := v }

/-- A `Num` register pair. -/
def numField (s : State) : NumField → NumReg
  | .rolloff => s.rolloff
  | .freq => s.pd.freq
  | .phase => s.pd.phase
  | .time => s.pd.time
  | .power => s.pd.power

/-- The state with one `Num` register pair replaced. -/
def setNumField (s : State) (r : NumReg) : NumField → State
  | .rolloff => { s with rolloff := r }
  | .freq => { s with pd := { s.pd with freq := r } }
  | .phase => { s with pd := { s.pd with phase := r } }
  | .time => { s with pd := { s.pd with time := r } }
  | .power => { s with pd := { s.pd with power := r } }

/-- What a named register reads as (R82); BUFDAT0..3 are read by R88 instead. -/
def readReg (s : State) : Reg → Word
  | .cmd => 0
  | .status => statusWord s
  | .errcode => errcodeWord s
  | .errcix => errcixWord s
  | .errvalLo => errLo (errval s)
  | .errvalHi => errHi (errval s)
  | .errlimLo => errLo (errlim s)
  | .errlimHi => errHi (errlim s)
  | .cix => s.cix
  | .modtype => s.modtype
  | .prbsord => s.prbsord
  | .sps => s.sps
  | .span => s.span
  | .fkind => s.fkind
  | .stage f => profileField s.stage f
  | .snap f => profileField s.snap f
  | .pdField f => pdField s.pd f
  | .numLo f => (numField s f).lo
  | .numHi f => (numField s f).hi
  | .length b => BitVec.ofNat 32 (bufferLength s.mem b)
  | .cmapvalid => cmapValidWord s.mem
  | .bufsel => s.bufsel.setWidth 32
  | .bufidx => s.bufidx
  | .bufdat _ => 0

/-- A buffer the host may empty by writing 0 to its length register (R48), emptied. -/
def clearBuffer (s : State) : Buffer → State
  | .bitbuf => { s with mem := { s.mem with bitbuf := [] } }
  | .wi => { s with mem := { s.mem with wi := [] } }
  | .wq => { s with mem := { s.mem with wq := [] } }
  | .symbuf => s
  | .extbuf => s
  | .xbuf => s
  | .taps => s
  | .ybuf => s
  | .zbuf => s
  | .ilvbuf => s
  | .qbuf => s
  | .recbuf => s
  | .filebuf => s

/-- What a write does to a named register (R83); CMD is written by R112 and BUFDAT0..3 by R89 instead. Writes to
read-only registers are ignored. -/
def writeReg (s : State) (v : Word) : Reg → State
  | .cmd => s
  | .status => s
  | .errcode => s
  | .errcix => s
  | .errvalLo => s
  | .errvalHi => s
  | .errlimLo => s
  | .errlimHi => s
  | .cix => s
  | .modtype => { s with modtype := v }
  | .prbsord => { s with prbsord := v }
  | .sps => { s with sps := v }
  | .span => { s with span := v }
  | .fkind => { s with fkind := v }
  | .stage f => { s with stage := setProfileField s.stage v f }
  | .snap _ => s
  | .pdField f => { s with pd := setPdField s.pd v f }
  | .numLo f => setNumField s { numField s f with lo := v } f
  | .numHi f => setNumField s { numField s f with hi := v } f
  | .length b => if v = 0 then clearBuffer s b else s
  | .cmapvalid => s
  | .bufsel => { s with bufsel := v.setWidth 4 }
  | .bufidx => { s with bufidx := v }
  | .bufdat _ => s

end Sys2Proof.Machine
end

