-- ==== Sys2Proof/Machine/Bus.lean ====
section
/-! DEFINITION. The host's bus transactions other than a CMD write: reads, writes, the buffer window, and the hardware
reset (R81 to R92, R420). -/

namespace Sys2Proof.Machine

/-- A bus read that returned `v` (R82, log 5). -/
def returnData (s : State) (v : Word) : Host.Outcome State Fault Refusal := .next { s with rdata := v }

/-- A window read of word `k` of an element of `words` words: the last word advances BUFIDX (R88). -/
def returnElement (s : State) (words k : Nat) (element : List Word) : Host.Outcome State Fault Refusal :=
  returnData (if k + 1 = words then { s with bufidx := s.bufidx + 1 } else s) (element.getD k 0)

/-- `BusRead(BUFDATk)` (R88). -/
def windowRead (s : State) (k : Nat) : Host.Outcome State Fault Refusal :=
  match selectionOf s.bufsel with
  | .reserved => returnData s 0
  | .cmap =>
    if 4 ≤ k then returnData s 0
    else if 32 ≤ s.bufidx.toNat then .refused .noSuchElement
    else
      match cmapPoint s.mem s.bufidx.toNat with
      | none => .refused .invalidEntry
      | some z => returnElement s 4 k (cplxWords z)
  | .buffer b =>
    if bufferWords b ≤ k then returnData s 0
    else
      match bufferElement s.mem b s.bufidx.toNat with
      | none => .refused .noSuchElement
      | some words => returnElement s (bufferWords b) k words

/-- A committing window write of a pattern that is not finite (R91): `E_NUMFMT` sub 0 in IDLE, without an advance of CIX;
dropped if a fault is latched already. -/
def hostWriteFault (s : State) (p : BitVec 64) : State :=
  match s.phase with
  | .idle => latchFault (numfmtFault 0 p) s
  | .busy _ => s
  | .fault => s

/-- The pattern `WDAT1 ‖ WDAT0` (R89). -/
def latchLow (s : State) : BitVec 64 := s.wdat[1] ++ s.wdat[0]

/-- The pattern `WDAT3 ‖ WDAT2` (R92). -/
def latchHigh (s : State) : BitVec 64 := s.wdat[3] ++ s.wdat[2]

/-- A push of bit 0 of WDAT0 onto BITBUF; dropped if BITBUF is full (R89). -/
def pushBit (s : State) : State :=
  if s.mem.bitbuf.length < s.params.caps.bit.size then
    { s with mem := { s.mem with bitbuf := s.mem.bitbuf ++ [s.wdat[0].getLsbD 0] } }
  else s

/-- A push onto WI; dropped if WI is full (R89, R91). -/
def pushWi (s : State) : State :=
  match numOf (latchLow s) with
  | none => hostWriteFault s (latchLow s)
  | some v =>
    if s.mem.wi.length < s.params.caps.w.size then
      { s with mem := { s.mem with wi := s.mem.wi ++ [Sample.ofNum (s.params.numerics.ofRat v)] } }
    else s

/-- A push onto WQ; dropped if WQ is full (R89, R91). -/
def pushWq (s : State) : State :=
  match numOf (latchLow s) with
  | none => hostWriteFault s (latchLow s)
  | some v =>
    if s.mem.wq.length < s.params.caps.w.size then
      { s with mem := { s.mem with wq := s.mem.wq ++ [Sample.ofNum (s.params.numerics.ofRat v)] } }
    else s

/-- The write of CMAP entry BUFIDX from the four latches (R92). -/
def writeCmapEntry (s : State) : State :=
  if 32 ≤ s.bufidx.toNat then s
  else
    match numOf (latchLow s) with
    | none => hostWriteFault s (latchLow s)
    | some i =>
      match numOf (latchHigh s) with
      | none => hostWriteFault s (latchHigh s)
      | some q =>
        { s with
          mem := { s.mem with
            cmap := s.mem.cmap.setIfInBounds s.bufidx.toNat
              (some ⟨s.params.numerics.ofRat i, s.params.numerics.ofRat q⟩) }
          bufidx := s.bufidx + 1 }

/-- What the write of latch `k` commits (R89): only the last word of an element of BITBUF, WI, WQ or CMAP does. -/
def commitWindow (s : State) (k : Fin 4) : State :=
  match selectionOf s.bufsel with
  | .buffer .bitbuf => if k = 0 then pushBit s else s
  | .buffer .wi => if k = 1 then pushWi s else s
  | .buffer .wq => if k = 1 then pushWq s else s
  | .cmap => if k = 3 then writeCmapEntry s else s
  | .buffer .symbuf => s
  | .buffer .extbuf => s
  | .buffer .xbuf => s
  | .buffer .taps => s
  | .buffer .ybuf => s
  | .buffer .zbuf => s
  | .buffer .ilvbuf => s
  | .buffer .qbuf => s
  | .buffer .recbuf => s
  | .buffer .filebuf => s
  | .reserved => s

/-- `BusWrite(BUFDATk, v)` (R89): the latch first, then what it commits. -/
def windowWrite (s : State) (k : Fin 4) (v : Word) : State :=
  commitWindow { s with wdat := s.wdat.set k v } k

/-- A bus read in IDLE or FAULT (R82). -/
def busRead (s : State) (a : RegAddr) : Host.Outcome State Fault Refusal :=
  match regAt a with
  | none => returnData s 0
  | some (.bufdat k) => windowRead s k
  | some r => returnData s (readReg s r)

/-- A bus write in IDLE or FAULT to an address other than CMD (R83). -/
def busWrite (s : State) (a : RegAddr) (v : Word) : State :=
  match regAt a with
  | none => s
  | some (.bufdat k) => windowWrite s k v
  | some r => writeReg s v r

/-- A bus read in BUSY (R86): STATUS and CIX only. -/
def busReadBusy (s : State) (a : RegAddr) : Host.Outcome State Fault Refusal :=
  match regAt a with
  | some .status => returnData s (statusWord s)
  | some .cix => returnData s s.cix
  | _ => .refused .busyAccess

/-- A bus write in BUSY (R86): the seven `P_*` registers take it, a CMD write is dropped, nothing else may be written. -/
def busWriteBusy (s : State) (a : RegAddr) (v : Word) : Host.Outcome State Fault Refusal :=
  match regAt a with
  | some (.stage f) => .next { s with stage := setProfileField s.stage v f }
  | some .cmd => .next s
  | _ => .refused .busyAccess

/-- What the host does while a command is in execution (R86); a hardware reset is taken in any state (R420, log 13). -/
def hostEventBusy (s : State) (e : HostEvent) : Host.Outcome State Fault Refusal :=
  match e with
  | .read a => busReadBusy s a
  | .write a v => busWriteBusy s a v
  | .reset => .next (resetBlock s)

end Sys2Proof.Machine
end

