-- ==== Sys2Proof/Machine/Pdw.lean ====
section
/-! DEFINITION. The PDW field packer and the file assembler: PDWENC, PDWCLR, PDWASM (R300 to R325). -/

namespace Sys2Proof.Machine

/-- The ten encoded field values of R300, as unbounded integers. -/
structure PdwFields where
  op : Int
  freq : Int
  phase : Int
  time : Int
  power : Int
  markers : Int
  phctl : Int
  rfoff : Int
  widx : Int
  wmask : Int
deriving DecidableEq, Repr

/-- `Round(frequencyHz × 1024)` (R301). -/
def encodeFreq (p : Config.Params) (v : Rat) : Int :=
  (p.numerics.mul (p.numerics.ofRat v) (p.numerics.ofRat 1024)).round p.ties

/-- `Round(phaseDeg × 4096 / 360)` (R302). -/
def encodePhase (p : Config.Params) (v : Rat) : Int :=
  (p.numerics.divRat (p.numerics.mul (p.numerics.ofRat v) (p.numerics.ofRat 4096)) 360).round p.ties

/-- `Round(startTimeSec × 10^12)` (R303). -/
def encodeTime (p : Config.Params) (v : Rat) : Int :=
  (p.numerics.mul (p.numerics.ofRat v) (p.numerics.ofRat (10 ^ 12))).round p.ties

/-- `Round((powerDbm + 140) × 200)` (R304). -/
def encodePower (p : Config.Params) (v : Rat) : Int :=
  (p.numerics.mul (p.numerics.add (p.numerics.ofRat v) (p.numerics.ofRat 140)) (p.numerics.ofRat 200)).round p.ties

/-- The encoded values of the record in the `PD_*` registers, the four numbers decoded (R300, R305). -/
def encodeFields (p : Config.Params) (r : PdRegs) (freq phase time power : Rat) : PdwFields where
  op := r.op.toNat
  freq := encodeFreq p freq
  phase := encodePhase p phase
  time := encodeTime p time
  power := encodePower p power
  markers := r.markers.toNat
  phctl := r.phctl.toNat
  rfoff := r.rfoff.toNat
  widx := r.widx.toNat
  wmask := r.wmask.toNat

/-- A field of the record for the range check: its id, its encoded value, its width (R300). -/
structure FieldCheck where
  id : BitVec 8
  value : Int
  width : Nat
deriving DecidableEq, Repr

/-- The fields in the order of their ids (R300, R306). -/
def fieldChecks (x : PdwFields) : List FieldCheck :=
  [⟨1, x.op, 2⟩, ⟨2, x.freq, 47⟩, ⟨3, x.phase, 12⟩, ⟨4, x.time, 64⟩, ⟨5, x.power, 15⟩,
   ⟨6, x.markers, 12⟩, ⟨7, x.phctl, 1⟩, ⟨8, x.rfoff, 1⟩, ⟨9, x.widx, 16⟩, ⟨10, x.wmask, 4⟩]

/-- Whether a value does not fit its unsigned field (R306). -/
def FieldCheck.overflows (c : FieldCheck) : Bool := decide (c.value < 0 ∨ 2 ^ c.width - 1 < c.value)

/-- `E_OVERFLOW` of a field (R306). -/
def overflowFault (c : FieldCheck) : Raise := ⟨.overflow, c.id, c.value, 2 ^ c.width - 1⟩

/-- The first field that does not fit (R306). -/
def firstOverflow (x : PdwFields) : Option FieldCheck := (fieldChecks x).find? FieldCheck.overflows

/-- The six words of R307. -/
def recordWords (fmt : BitVec 3) (x : PdwFields) : List Word :=
  let f := x.freq.toNat
  let t := x.time.toNat
  [BitVec.ofNat 32 (fmt.toNat + x.op.toNat * 2 ^ 3 + (f % 2 ^ 27) * 2 ^ 5),
   BitVec.ofNat 32 (f / 2 ^ 27 + x.phase.toNat * 2 ^ 20),
   BitVec.ofNat 32 (t % 2 ^ 32),
   BitVec.ofNat 32 (t / 2 ^ 32),
   BitVec.ofNat 32 (x.power.toNat + x.markers.toNat * 2 ^ 15 + x.phctl.toNat * 2 ^ 27 + x.rfoff.toNat * 2 ^ 28),
   BitVec.ofNat 32 (x.widx.toNat + x.wmask.toNat * 2 ^ 28)]

/-- The range checks, the capacity check and the append of `PDWENC` (R308). -/
def appendRecord (x : PdwFields) (s : State) : Result :=
  match firstOverflow x with
  | some c => .raised (overflowFault c) s
  | none =>
    if s.params.caps.recs.size < s.mem.recbuf.length + 6 then
      .raised (capacityFault 11 (s.mem.recbuf.length + 6) s.params.caps.recs) s
    else .done { s with mem := { s.mem with recbuf := s.mem.recbuf ++ recordWords s.params.formatTag x } }

/-- The pseudocode of `PDWENC` (R308). -/
def pdwencResult (s : State) : Result :=
  match numOf s.pd.freq.pattern with
  | none => .raised (numfmtFault 2 s.pd.freq.pattern) s
  | some freq =>
    match numOf s.pd.phase.pattern with
    | none => .raised (numfmtFault 3 s.pd.phase.pattern) s
    | some phase =>
      match numOf s.pd.time.pattern with
      | none => .raised (numfmtFault 4 s.pd.time.pattern) s
      | some time =>
        match numOf s.pd.power.pattern with
        | none => .raised (numfmtFault 5 s.pd.power.pattern) s
        | some power => appendRecord (encodeFields s.params s.pd freq phase time power) s

/-- `PDWENC` (R308). -/
def execPdwenc (s : State) : Host.Outcome State Fault Refusal := runInIdle pdwencResult s

/-- The pseudocode of `PDWCLR` (R310). -/
def pdwclrResult (s : State) : Result := .done { s with mem := { s.mem with recbuf := [] } }

/-- `PDWCLR` (R310). -/
def execPdwclr (s : State) : Host.Outcome State Fault Refusal := runInIdle pdwclrResult s

/-- The byte offset of the first record (R6: `PDW_OFFSET`). -/
def pdwOffset : Nat := 4096

/-- `LE4(w)` (R323). -/
def le4 (w : Word) : List Byte :=
  [w.extractLsb' 0 8, w.extractLsb' 8 8, w.extractLsb' 16 8, w.extractLsb' 24 8]

/-- The file of R322. -/
def assembleFile (p : Config.Params) (records : List Word) : List Byte :=
  p.fileHeader ++ List.replicate (pdwOffset - p.blockHeader.length - p.fileHeader.length) 0x00 ++ p.blockHeader ++
    records.flatMap le4

/-- The pseudocode of `PDWASM` (R324). -/
def pdwasmResult (s : State) : Result :=
  let f := pdwOffset + 4 * s.mem.recbuf.length
  if s.params.caps.file.size < f then .raised (capacityFault 12 f s.params.caps.file) s
  else .done { s with mem := { s.mem with filebuf := assembleFile s.params s.mem.recbuf } }

/-- `PDWASM` (R324). -/
def execPdwasm (s : State) : Host.Outcome State Fault Refusal := runInIdle pdwasmResult s

end Sys2Proof.Machine
end

