-- ==== Sys2Proof/Machine/Quantizer.lean ====
section
/-! DEFINITION. The fixed-point quantizer: PMODE, ILV, VQ (R260 to R276). -/

namespace Sys2Proof.Machine

/-- `ModeTable(imm16)` (R261). -/
def modeEntry (p : Config.Params) (mode : BitVec 16) : Option Profile := p.modeTable.lookup mode

/-- The pseudocode of `PMODE imm16` (R262): all seven `P_*` in one step. -/
def pmodeResult (mode : BitVec 16) (s : State) : Result :=
  match modeEntry s.params mode with
  | none => .raised (configFault 3 mode.toNat 0) s
  | some e => .done { s with stage := e }

/-- `PMODE imm16` (R262). -/
def execPmode (mode : BitVec 16) (s : State) : Host.Outcome State Fault Refusal := runInIdle (pmodeResult mode) s

/-- `(i0, q0, i1, q1, …)` (R265). -/
def interleave {α : Type} (i q : List α) : List α := (List.zipWith (fun a b => [a, b]) i q).flatten

/-- The pseudocode of `ILV` (R265). -/
def ilvResult (s : State) : Result :=
  let n := s.mem.wi.length
  if n ≠ s.mem.wq.length then .raised ⟨.mismatch, 0, n, s.mem.wq.length⟩ s
  else if s.params.caps.ilv.size < 2 * n then .raised (capacityFault 9 (2 * n) s.params.caps.ilv) s
  else .done { s with mem := { s.mem with ilvbuf := interleave s.mem.wi s.mem.wq } }

/-- `ILV` (R265). -/
def execIlv (s : State) : Host.Outcome State Fault Refusal := runInIdle ilvResult s

/-- The source buffer of `VQ` (R275): 0 WI, 1 WQ, 2 ILVBUF. Value 3 is no legal command. -/
def vqSource (m : Memory) (src : BitVec 2) : List Sample :=
  match src.toNat with
  | 0 => m.wi
  | 1 => m.wq
  | _ => m.ilvbuf

/-- Whether the byte order is big-endian (R271): `end` 1 is little, 2 is big, 0 is the profile's. Value 3 is no legal
command. -/
def vqBigEndian (profile : Profile) (order : BitVec 2) : Bool :=
  match order.toNat with
  | 1 => false
  | 2 => true
  | _ => profile.endian = 1#32

/-- The checks of R272 on the snapshot `p` and the element count, in their order: the first that fails. -/
def vqCheck (caps : Config.Caps) (p : Profile) (len : Nat) : Option Raise :=
  let w := p.width.toNat
  if p.gran.toNat = 0 then some (configFault 8 0 1)
  else if ¬ (w = 8 ∨ w = 16 ∨ w = 32 ∨ w = 64) then some (configFault 9 w 64)
  else if w ≤ p.shift.toNat then some (configFault 10 p.shift.toNat (w - 1))
  else if 1 < p.endian.toNat then some (configFault 11 p.endian.toNat 1)
  else if len < p.minlen.toNat then some ⟨.length, 0, len, p.minlen.toNat⟩
  else if len % p.gran.toNat ≠ 0 then some ⟨.gran, 0, len, p.gran.toNat⟩
  else if caps.q.size < len * (w / 8) then some (capacityFault 10 (len * (w / 8)) caps.q)
  else none

/-- The `W`-bit pattern of `r` shifted left by `shift` bits, wrapping (R273). -/
def wrapShift (r : Int) (shift w : Nat) : Nat := ((r * 2 ^ shift) % 2 ^ w).toNat

/-- The pattern `q` of one sample (R273). -/
def quantize (params : Config.Params) (p : Profile) (v : Sample) : Nat :=
  wrapShift (params.numerics.roundProduct params.ties p.binmult.toNat v) p.shift.toNat p.width.toNat

/-- Byte `j` of a pattern, counted from the least significant (R274). -/
def patternByte (q j : Nat) : Byte := BitVec.ofNat 8 (q / 2 ^ (8 * j))

/-- The bytes of one pattern of `n` bytes (R274). -/
def sampleBytes (big : Bool) (n q : Nat) : List Byte :=
  (List.range n).map fun j => patternByte q (if big then n - 1 - j else j)

/-- The snapshot of R270. -/
def takeSnapshot (s : State) : State := { s with snap := s.stage }

/-- What `VQ` does after its snapshot (R275): the checks, then QBUF. -/
def vqConvert (src order : BitVec 2) (s : State) : Result :=
  let buf := vqSource s.mem src
  match vqCheck s.params.caps s.snap buf.length with
  | some e => .raised e s
  | none =>
    .done { s with mem := { s.mem with
      qbuf := buf.flatMap fun v =>
        sampleBytes (vqBigEndian s.snap order) (s.snap.width.toNat / 8) (quantize s.params s.snap v) } }

/-- The pseudocode of `VQ src, end` (R275). A term with a reserved field value stands for an illegal word (R115, R116,
log 11). -/
def vqResult (src order : BitVec 2) (s : State) : Result :=
  if WellFormed (.vq src order) then vqConvert src order (takeSnapshot s)
  else .raised (illegalFault (encode (.vq src order))) s

/-- `VQ src, end` (R275). -/
def execVq (src order : BitVec 2) (s : State) : Host.Outcome State Fault Refusal :=
  runInIdle (vqResult src order) s

end Sys2Proof.Machine
end

