-- ==== Sys2Proof/Machine/System.lean ====
section
/-! DEFINITION. The system commands NOP, CLRERR, SRESET (R350 to R353). -/

namespace Sys2Proof.Machine

/-- `NOP` (R351). -/
def execNop (s : State) : Host.Outcome State Fault Refusal := runInIdle Result.done s

/-- `CLRERR` (R352): the latch cleared, STATE = IDLE, CIX advanced; in IDLE and in FAULT. -/
def execClrerr (s : State) : Host.Outcome State Fault Refusal :=
  runUnlessBusy (fun t => advanceIndex (returnFromFault t)) s

/-- `SRESET` (R353): the reset state, CIX = 0; in IDLE and in FAULT. -/
def execSreset (s : State) : Host.Outcome State Fault Refusal := runUnlessBusy resetBlock s

end Sys2Proof.Machine
end

