-- ==== Sys2Proof/Machine/Fir.lean ====
section
/-! DEFINITION. The pulse-shaping filter: CEXT, ZSTUFF, FGEN, CONV (R191 to R210). -/

namespace Sys2Proof.Machine

/-- The sample `(0, 0)`. -/
def zeroSample : Cplx := ⟨Num.zero, Num.zero⟩

/-- `seq[L−h .. L) ++ seq ++ seq[0 .. h)` (R191). -/
def circularExtend {α : Type} (seq : List α) (h : Nat) : List α :=
  seq.drop (seq.length - h) ++ seq ++ seq.take h

/-- The pseudocode of `CEXT` (R191). -/
def cextResult (s : State) : Result :=
  let span := s.span.toNat
  if span % 2 ≠ 0 then .raised (configFault 6 span 2) s
  else
    let h := span / 2
    let len := s.mem.symbuf.length
    if len < h then .raised ⟨.seq, 1, len, h⟩ s
    else if s.params.caps.ext.size < len + 2 * h then
      .raised (capacityFault 2 (len + 2 * h) s.params.caps.ext) s
    else .done { s with mem := { s.mem with extbuf := circularExtend s.mem.symbuf h } }

/-- `CEXT` (R191). -/
def execCext (s : State) : Host.Outcome State Fault Refusal := runInIdle cextResult s

/-- Each element followed by `stride − 1` zero samples (R192). -/
def zeroStuff (seq : List Cplx) (stride : Nat) : List Cplx :=
  seq.flatMap fun e => e :: List.replicate (stride - 1) zeroSample

/-- The pseudocode of `ZSTUFF` (R192). -/
def zstuffResult (s : State) : Result :=
  let p := s.sps.toNat
  if p = 0 then .raised (configFault 5 0 1) s
  else if s.params.caps.x.size < s.mem.extbuf.length * p then
    .raised (capacityFault 3 (s.mem.extbuf.length * p) s.params.caps.x) s
  else .done { s with mem := { s.mem with xbuf := zeroStuff s.mem.extbuf p } }

/-- `ZSTUFF` (R192). -/
def execZstuff (s : State) : Host.Outcome State Fault Refusal := runInIdle zstuffResult s

/-- `Tap(kind, a, x)`: kind 0 is RRC, kind 1 is RC (R42, R203, R204). -/
def filterTap (ν : Config.Numerics) (kind : Nat) (a x : Rat) : Num :=
  if kind = 1 then ν.tapRC a x else ν.tapRRC a x

/-- The position of tap `j`: `x_j = (j − c) / SPS` (R201). -/
def tapPosition (c p j : Nat) : Rat := ((j : Rat) - (c : Rat)) / (p : Rat)

/-- The taps of R200. -/
def filterTaps (ν : Config.Numerics) (kind : Nat) (a : Rat) (span p : Nat) : List Num :=
  (List.range (span * p + 1)).map fun j => filterTap ν kind a (tapPosition (span * p / 2) p j)

/-- The pseudocode of `FGEN` (R200). -/
def fgenResult (s : State) : Result :=
  let kind := s.fkind.toNat
  let p := s.sps.toNat
  let span := s.span.toNat
  if 1 < kind then .raised (configFault 2 kind 1) s
  else if p = 0 then .raised (configFault 5 0 1) s
  else if span % 2 ≠ 0 then .raised (configFault 6 span 2) s
  else
    match numOf s.rolloff.pattern with
    | none => .raised (numfmtFault 1 s.rolloff.pattern) s
    | some a =>
      if a < 0 ∨ 1 < a then .raised (configFault 7 s.rolloff.pattern.toInt 1) s
      else if s.params.caps.tap.size < span * p + 1 then
        .raised (capacityFault 4 (span * p + 1) s.params.caps.tap) s
      else .done { s with mem := { s.mem with taps := filterTaps s.params.numerics kind a span p } }

/-- `FGEN` (R200). -/
def execFgen (s : State) : Host.Outcome State Fault Refusal := runInIdle fgenResult s

/-- The products `TAPS[m−k] × lane(XBUF[k])` of output sample `m`, for `k` from `max(0, m−N+1)` to `min(m, X−1)`, in
that order (R210). -/
def convProducts (ν : Config.Numerics) (taps lane : List Num) (m : Nat) : List Num :=
  let lo := m + 1 - taps.length
  let hi := min (m + 1) lane.length
  (List.range (hi - lo)).map fun d => ν.mul (taps.getD (m - (lo + d)) Num.zero) (lane.getD (lo + d) Num.zero)

/-- `y_m`: the I lane and the Q lane filtered by the same taps (R210). -/
def convSample (ν : Config.Numerics) (taps : List Num) (x : List Cplx) (m : Nat) : Cplx :=
  ⟨ν.sum (convProducts ν taps (x.map Cplx.i) m), ν.sum (convProducts ν taps (x.map Cplx.q) m)⟩

/-- The full linear convolution (R210). -/
def convolve (ν : Config.Numerics) (taps : List Num) (x : List Cplx) : List Cplx :=
  (List.range (x.length + taps.length - 1)).map (convSample ν taps x)

/-- The pseudocode of `CONV` (R210). -/
def convResult (s : State) : Result :=
  let x := s.mem.xbuf.length
  let n := s.mem.taps.length
  if x = 0 then .raised ⟨.seq, 2, 0, 1⟩ s
  else if n = 0 then .raised ⟨.seq, 2, 0, 1⟩ s
  else if s.params.caps.y.size < x + n - 1 then .raised (capacityFault 5 (x + n - 1) s.params.caps.y) s
  else .done { s with mem := { s.mem with ybuf := convolve s.params.numerics s.mem.taps s.mem.xbuf } }

/-- `CONV` (R210). -/
def execConv (s : State) : Host.Outcome State Fault Refusal := runInIdle convResult s

end Sys2Proof.Machine
end

