-- ==== Sys2Proof/Machine/Prbs.lean ====
section
/-! DEFINITION. The PRBS generator: PRBS and BREP (R140 to R144). -/

namespace Sys2Proof.Machine

/-- POLYROM (R141): the feedback tap positions of each order. -/
def polyRom : List (Nat × List Nat) :=
  [(2, [1]), (3, [2]), (4, [3]), (5, [3]), (6, [5]), (7, [6]), (8, [7, 6, 1]), (9, [5]), (10, [7]), (11, [9]),
   (12, [11, 10, 4]), (13, [12, 11, 8]), (14, [13, 12, 2]), (15, [14]), (16, [15, 13, 4]), (17, [14])] ++
  [(18, [11]), (19, [18, 17, 14]), (20, [17]), (21, [19]), (22, [21]), (23, [18]), (24, [23, 22, 17]), (25, [22]),
   (26, [25, 24, 20]), (27, [26, 25, 22]), (28, [25]), (29, [27]), (30, [29, 28, 7]), (31, [28]), (32, [31, 30, 10])]

/-- `T_n` (R141). -/
def tapSet (n : Nat) : List Nat := (polyRom.lookup n).getD []

/-- `f = s[0] XOR (XOR over t in T_n of s[t])`, with `s[j]` the entry `j` of `reg` (R140). -/
def lfsrFeedback (taps : List Nat) (reg : List Bool) : Bool :=
  taps.foldl (fun acc t => acc ^^ reg.getD t false) (reg.getD 0 false)

/-- One step of the shift register: `s[j] <- s[j+1]`, `s[n−1] <- f` (R140). -/
def lfsrStep (taps : List Nat) (reg : List Bool) : List Bool := reg.tail ++ [lfsrFeedback taps reg]

/-- The first `count` output bits from the register content `reg` on; each step outputs `s[0]` (R140). -/
def lfsrRun (taps : List Nat) : (count : Nat) → (reg : List Bool) → List Bool
  | 0, _ => []
  | count + 1, reg => reg.getD 0 false :: lfsrRun taps count (lfsrStep taps reg)

/-- One period of the PRBS of order `n`, from the register of all ones (R140). -/
def prbsPeriod (n : Nat) : List Bool := lfsrRun (tapSet n) (2 ^ n - 1) (List.replicate n true)

/-- The pseudocode of `PRBS` (R143). -/
def prbsResult (s : State) : Result :=
  let n := s.prbsord.toNat
  if n < 2 ∨ 32 < n then .raised (configFault 4 n 32) s
  else if s.params.caps.bit.size < 2 ^ n - 1 then .raised (capacityFault 0 (2 ^ n - 1) s.params.caps.bit) s
  else .done { s with mem := { s.mem with bitbuf := prbsPeriod n } }

/-- `PRBS` (R143). -/
def execPrbs (s : State) : Host.Outcome State Fault Refusal := runInIdle prbsResult s

/-- The least number of repetitions that makes `length` a multiple of `b` (R144). -/
def repeatFactor (length b : Nat) : Nat := b / Nat.gcd length b

/-- `rep(seq, r)` (R13). -/
def repeatSeq {α : Type} (seq : List α) (r : Nat) : List α := (List.replicate r seq).flatten

/-- The pseudocode of `BREP` (R144). -/
def brepResult (s : State) : Result :=
  let m := s.modtype.toNat
  if 4 < m then .raised (configFault 1 m 4) s
  else
    let r := repeatFactor s.mem.bitbuf.length (m + 1)
    if s.params.caps.bit.size < r * s.mem.bitbuf.length then
      .raised (capacityFault 0 (r * s.mem.bitbuf.length) s.params.caps.bit) s
    else .done { s with mem := { s.mem with bitbuf := repeatSeq s.mem.bitbuf r } }

/-- `BREP` (R144). -/
def execBrep (s : State) : Host.Outcome State Fault Refusal := runInIdle brepResult s

end Sys2Proof.Machine
end

