-- ==== Sys2Proof/Machine/TrimNorm.lean ====
section
/-! DEFINITION. The trimmer, the normalizer and the whole pipeline: TRIM, NORM, DIGMOD (R230 to R241). -/

namespace Sys2Proof.Machine

/-- `seq[t .. Y−t)` (R230). -/
def trimEnds {α : Type} (seq : List α) (t : Nat) : List α := (seq.drop t).take (seq.length - 2 * t)

/-- The pseudocode of `TRIM` (R230). -/
def trimResult (s : State) : Result :=
  let n := s.mem.taps.length
  let y := s.mem.ybuf.length
  if n = 0 then .raised ⟨.seq, 3, 0, 1⟩ s
  else
    let t := n - 1
    if y < 2 * t then .raised ⟨.seq, 4, y, (2 * t : Nat)⟩ s
    else if s.params.caps.z.size < y - 2 * t then .raised (capacityFault 6 (y - 2 * t) s.params.caps.z) s
    else .done { s with mem := { s.mem with zbuf := trimEnds s.mem.ybuf t } }

/-- `TRIM` (R230). -/
def execTrim (s : State) : Host.Outcome State Fault Refusal := runInIdle trimResult s

/-- `PEAK = 707/1000` (R6). -/
def peak : Rat := 707 / 1000

/-- `Mag2(i, q) = i×i + q×q` (R11). -/
def mag2 (ν : Config.Numerics) (z : Cplx) : Num := ν.add (ν.mul z.i z.i) (ν.mul z.q z.q)

/-- The largest squared magnitude of a sequence (R235); of equal ones the first. -/
def maxMag2 (ν : Config.Numerics) : List Cplx → Num
  | [] => Num.zero
  | z :: zs => zs.foldl (fun best w => if ν.lt best (mag2 ν w) then mag2 ν w else best) (mag2 ν z)

/-- `PEAK × v / M` with `M = Sqrt(M2)` (R235). -/
def normLane (ν : Config.Numerics) (m2 v : Num) : Sample := ν.overRoot (ν.mul (ν.ofRat peak) v) m2

/-- The pseudocode of `NORM` (R235). DESIGN CHOICE (log 7): the 0 that `M2` is compared with is the closed form
`Num.zero`, also where the operations are those of a `Numerics` other than the reference, and not `implConst id 0`. -/
def normResult (s : State) : Result :=
  let ν := s.params.numerics
  let z := s.mem.zbuf.length
  if z = 0 then .raised ⟨.seq, 5, 0, 1⟩ s
  else if s.params.caps.w.size < z then .raised (capacityFault 7 z s.params.caps.w) s
  else
    let m2 := maxMag2 ν s.mem.zbuf
    if ν.eq m2 Num.zero then .raised ⟨.divzero, 0, 0, 0⟩ s
    else
      .done { s with mem := { s.mem with
        wi := s.mem.zbuf.map fun v => normLane ν m2 v.i
        wq := s.mem.zbuf.map fun v => normLane ν m2 v.q } }

/-- `NORM` (R235). -/
def execNorm (s : State) : Host.Outcome State Fault Refusal := runInIdle normResult s

/-- The checks of part 1 of `DIGMOD`, which depend on configuration registers only, in their order (R240): the first that
fails. -/
def digmodPrecheck (s : State) : Option Raise :=
  if 4 < s.modtype.toNat then some (configFault 1 s.modtype.toNat 4)
  else if 1 < s.fkind.toNat then some (configFault 2 s.fkind.toNat 1)
  else if s.prbsord.toNat < 2 ∨ 32 < s.prbsord.toNat then some (configFault 4 s.prbsord.toNat 32)
  else if s.sps.toNat = 0 then some (configFault 5 0 1)
  else if s.span.toNat % 2 ≠ 0 then some (configFault 6 s.span.toNat 2)
  else
    match numOf s.rolloff.pattern with
    | none => some (numfmtFault 1 s.rolloff.pattern)
    | some a => if a < 0 ∨ 1 < a then some (configFault 7 s.rolloff.pattern.toInt 1) else none

/-- The steps of part 2 of `DIGMOD` after the map is chosen (R240). -/
def digmodSteps (s : State) : Result :=
  (((((((((prbsResult s).andThen brepResult).andThen mapResult).andThen cextResult).andThen zstuffResult).andThen
    fgenResult).andThen convResult).andThen trimResult).andThen normResult)

/-- The pseudocode of `DIGMOD D` (R240). -/
def digmodResult (d : Bool) (s : State) : Result :=
  match digmodPrecheck s with
  | some e => .raised e s
  | none => if d then (cmdefResult s).andThen digmodSteps else digmodSteps s

/-- `DIGMOD D` (R240). -/
def execDigmod (d : Bool) (s : State) : Host.Outcome State Fault Refusal := runInIdle (digmodResult d) s

end Sys2Proof.Machine
end

