-- ==== Sys2Proof/Machine/Dispatch.lean ====
section
/-! DEFINITION. The dispatch: one arm per command, one direct call of its meaning. `exec i s` is what the write of the word
of `i` to CMD does in state `s`, acceptance and completion in one (R97, R112, R113). -/

namespace Sys2Proof.Machine

def exec (i : Instr) (s : State) : Host.Outcome State Fault Refusal :=
  match i with
  | .nop => Sys2Proof.Machine.execNop s
  | .clrerr => Sys2Proof.Machine.execClrerr s
  | .sreset => Sys2Proof.Machine.execSreset s
  | .prbs => Sys2Proof.Machine.execPrbs s
  | .brep => Sys2Proof.Machine.execBrep s
  | .cmclr => Sys2Proof.Machine.execCmclr s
  | .cmdef => Sys2Proof.Machine.execCmdef s
  | .map => Sys2Proof.Machine.execMap s
  | .cext => Sys2Proof.Machine.execCext s
  | .zstuff => Sys2Proof.Machine.execZstuff s
  | .fgen => Sys2Proof.Machine.execFgen s
  | .conv => Sys2Proof.Machine.execConv s
  | .trim => Sys2Proof.Machine.execTrim s
  | .norm => Sys2Proof.Machine.execNorm s
  | .digmod d => Sys2Proof.Machine.execDigmod d s
  | .pmode mode => Sys2Proof.Machine.execPmode mode s
  | .ilv => Sys2Proof.Machine.execIlv s
  | .vq src order => Sys2Proof.Machine.execVq src order s
  | .pdwenc => Sys2Proof.Machine.execPdwenc s
  | .pdwclr => Sys2Proof.Machine.execPdwclr s
  | .pdwasm => Sys2Proof.Machine.execPdwasm s

end Sys2Proof.Machine
end

