-- ==== Sys2Proof/Machine/Issue.lean ====
section
/-! DEFINITION. Issue of commands (R112, R113), the host's next event in each state, and what the machine does in one
step. -/

namespace Sys2Proof.Machine

/-- Whether a write of `w` to CMD is accepted (R112, R113): every word in IDLE, only CLRERR and SRESET in FAULT, none in
BUSY. -/
def accepts (s : State) (w : Word) : Bool :=
  match s.phase with
  | .idle => true
  | .busy _ => false
  | .fault => w = encode .clrerr || w = encode .sreset

/-- An illegal word (R112, R116): `E_ILLCMD` in IDLE, dropped otherwise. -/
def issueIllegal (w : Word) (s : State) : Host.Outcome State Fault Refusal :=
  runInIdle (Result.raised (illegalFault w)) s

/-- The outcome of a CMD write of `w`, acceptance and completion in one. -/
def issueFused (w : Word) (s : State) : Host.Outcome State Fault Refusal :=
  match decode w with
  | .ok i => exec i s
  | .error _ => issueIllegal w s

/-- `BusWrite(CMD, w)`: an accepted command takes the next BUSY length (R97, R112). -/
def issue (w : Word) (s : State) : Host.Outcome State Fault Refusal :=
  match issueFused w s with
  | .next t => .next (if accepts s w then holdBusy s t else t)
  | .fault r => .fault r
  | .refused r => .refused r

/-- What the host does when no command is in execution (R82, R83, R112, R420). -/
def hostEventReady (s : State) (e : HostEvent) : Host.Outcome State Fault Refusal :=
  match e with
  | .read a => busRead s a
  | .write a v => if a = cmdAddr then issue v s else .next (busWrite s a v)
  | .reset => .next (resetBlock s)

/-- One step in BUSY: the completion event if the BUSY length is used up or the host does nothing more, else the host's
next transaction (R97). -/
def stepBusy (c : Completion) (s : State) : Host.Outcome State Fault Refusal :=
  match c.left, s.bus with
  | 0, _ => .next (complete c s)
  | _ + 1, [] => .next (complete c s)
  | n + 1, e :: rest => hostEventBusy { s with phase := .busy { c with left := n }, bus := rest } e

/-- One step with no command in execution: the host's next transaction; the block does nothing by itself (R421). -/
def stepReady (s : State) : Host.Outcome State Fault Refusal :=
  match s.bus with
  | [] => .next s
  | e :: rest => hostEventReady { s with bus := rest } e

/-- One step of the machine. -/
def stepMachine (s : State) : Host.Outcome State Fault Refusal :=
  match s.phase with
  | .idle => stepReady s
  | .busy c => stepBusy c s
  | .fault => stepReady s

/-- The state in which the next thing the host does is to write `w` to CMD, with no command in execution and with
acceptance and completion in one. -/
def placeCommand (s : State) (w : Word) : State :=
  { settle s with bus := .write cmdAddr w :: s.bus, latency := 0 :: s.latency }

end Sys2Proof.Machine
end

