-- ==== Sys2Proof/Machine/Step.lean ====
section
/-! DEFINITION. The step of the machine, and the placing of a command where the next step fetches it (log 3). -/

namespace Sys2Proof.Machine

/-- One step: the next host transaction, or the completion of the command in execution. -/
def step (s : State) : Host.Outcome State Fault Refusal := stepMachine s

/-- `s` with a table row's bits as the next write to CMD. -/
def State.withFetchWord (s : State) (nbits w : Nat) : State := placeCommand s (tableWord nbits w)

end Sys2Proof.Machine
end

