-- ==== Sys2Proof/Safety.lean ====
section
/-! DEFINITION. The terms that claims are stated in: the real number a closed form stands for, the invariants of the
machine, and what it is for a command to complete and for a run to be safe. -/

namespace Sys2Proof

/-! The reference numerics (R10): the real numbers. -/

/-- The real number a term stands for. -/
noncomputable def Term.toReal (t : Term) : ℝ :=
  (t.coef : ℝ) * Real.pi ^ t.piPow * Real.cos (Real.pi * (t.angle : ℝ))

/-- The real number a list of terms sums to. -/
noncomputable def termsReal (ts : List Term) : ℝ := (ts.map Term.toReal).sum

/-- The real number a closed form stands for. -/
noncomputable def Num.toReal (a : Num) : ℝ := termsReal a.terms

/-- The real number a sample stands for. -/
noncomputable def Sample.toReal (v : Sample) : ℝ := v.num.toReal / Real.sqrt v.rad.toReal

/-- The real number element `k` of a sequence stands for, 0 outside the sequence. -/
noncomputable def realAt (l : List Num) (k : Nat) : ℝ := (l.getD k Num.zero).toReal

/-- The real number sample `k` of a lane stands for, 0 outside the lane. -/
noncomputable def sampleAt (l : List Sample) (k : Nat) : ℝ := (l.getD k (Sample.ofNum Num.zero)).toReal

/-- `sinc` on the reals (R202). -/
noncomputable def realSinc (u : ℝ) : ℝ := if u = 0 then 1 else Real.sin (Real.pi * u) / (Real.pi * u)

namespace Machine

open Sys2Proof.Config

/-! The canonical form of memory. -/

/-- Every buffer within its capacity (R51), and RECBUF a whole number of records (R308). -/
def Memory.wf (caps : Caps) (m : Memory) : Bool :=
  decide (m.bitbuf.length ≤ caps.bit.size) && decide (m.symbuf.length ≤ caps.sym.size) &&
  decide (m.extbuf.length ≤ caps.ext.size) && decide (m.xbuf.length ≤ caps.x.size) &&
  decide (m.taps.length ≤ caps.tap.size) && decide (m.ybuf.length ≤ caps.y.size) &&
  decide (m.zbuf.length ≤ caps.z.size) && decide (m.wi.length ≤ caps.w.size) &&
  decide (m.wq.length ≤ caps.w.size) && decide (m.ilvbuf.length ≤ caps.ilv.size) &&
  decide (m.qbuf.length ≤ caps.q.size) && decide (m.recbuf.length ≤ caps.recs.size) &&
  decide (m.filebuf.length ≤ caps.file.size) && decide (m.recbuf.length % 6 = 0)

/-- How STATE, the latch and the completion to come agree: nothing is latched in IDLE and a fault is in FAULT (R32, R34);
in BUSY a fault is held or one is to come but not both, since only `CLRERR` and `SRESET` are accepted while one is held
(R113), and CIX is to be one higher or 0 (R33, log 14). -/
def latchAgrees (s : State) : Bool :=
  match s.phase with
  | .idle => s.latch.isNone
  | .busy c => (s.latch.isNone || c.latch.isNone) && (decide (c.cix = s.cix + 1) || decide (c.cix = 0))
  | .fault => s.latch.isSome

/-- What holds of the machine in every run. -/
def Inv (s : State) : Prop := Memory.wf s.params.caps s.mem = true ∧ latchAgrees s = true

/-! What a command leaves. -/

/-- `s` after a command that completed and left the buffers `m`: CIX one higher, every other piece of state as it was. -/
def completed (s : State) (m : Memory) : State := { s with mem := m, cix := s.cix + 1 }

/-- `s` after a command that raised `e` at this state: the latch, STATE and CIX of R380, every other piece of state as it
was. -/
def faulted (e : Raise) (s : State) : State :=
  { s with latch := some ⟨e, s.cix⟩, phase := .fault, cix := s.cix + 1 }

/-- `i`, accepted in the IDLE state `s`, completes without a fault in `t`. -/
def Completes (i : Instr) (s t : State) : Prop :=
  s.phase = .idle ∧ exec i s = .next t ∧ t.phase = .idle

/-- The commands one after the other, each accepted and completed, up to and with the first that faults. -/
def runCommands : List Instr → State → Host.Outcome State Fault Refusal
  | [], s => .next s
  | i :: rest, s =>
    match exec i s with
    | .next t => if t.phase = .fault then .next t else runCommands rest t
    | .fault r => .fault r
    | .refused r => .refused r

/-- The commands that `DIGMOD D` stands for, in their order (R240). -/
def digmodCommands (d : Bool) : List Instr :=
  (if d then [.cmdef] else []) ++ [.prbs, .brep, .map, .cext, .zstuff, .fgen, .conv, .trim, .norm]

/-- A configuration that passes part 1 of `DIGMOD` (R240). -/
def LegalConfig (s : State) : Prop :=
  s.modtype.toNat ≤ 4 ∧ s.fkind.toNat ≤ 1 ∧ 2 ≤ s.prbsord.toNat ∧ s.prbsord.toNat ≤ 32 ∧ 1 ≤ s.sps.toNat ∧
    s.span.toNat % 2 = 0 ∧ ∃ a, numOf s.rolloff.pattern = some a ∧ 0 ≤ a ∧ a ≤ 1

/-- The operand registers of R38 to R43, R46 and R47 are the same. -/
def SameOperands (s t : State) : Prop :=
  t.modtype = s.modtype ∧ t.prbsord = s.prbsord ∧ t.sps = s.sps ∧ t.span = s.span ∧ t.fkind = s.fkind ∧
    t.rolloff = s.rolloff ∧ t.pd = s.pd

/-- The window registers and latches of R49 and R57 are the same. -/
def SameWindow (s t : State) : Prop := t.bufsel = s.bufsel ∧ t.bufidx = s.bufidx ∧ t.wdat = s.wdat

/-- The model's own fields are the same. -/
def SameOutside (s t : State) : Prop :=
  t.params = s.params ∧ t.bus = s.bus ∧ t.latency = s.latency ∧ t.rdata = s.rdata

/-- No command is in execution, so that every bus transaction of R82 and R83 is allowed (R86). -/
def Ready (s : State) : Prop := s.phase = .idle ∨ s.phase = .fault

/-- The buffer samples are rational. -/
def RationalSamples (l : List Cplx) : Prop := ∀ z ∈ l, z.i.rat?.isSome = true ∧ z.q.rat?.isSome = true

/-- A run is safe as long as no step of it is refused: the host makes only accesses that the spec gives a meaning. -/
def SafeFor (n : Nat) (s : State) : Prop := ∃ t, Sys2Proof.core.run n s = .next t

end Machine
end Sys2Proof
end

