-- ==== Sys2Proof/Certificates/Slice0/Obligations.lean ====
section
/-! DEFINITION. The statements for the provers. Each docstring names the rules of spec/ it rests on and, where it rests on a
choice of the model, the log entry. -/

section

open Sys2Proof Sys2Proof.Machine Sys2Proof.Config

/-! The system commands. -/

/-- R351: `NOP` in IDLE advances CIX and changes nothing else. -/
def Obligations.NopOnlyAdvancesCix : Prop :=
  ∀ s : State, s.phase = .idle → exec .nop s = .next { s with cix := s.cix + 1 }

/-- R352: `CLRERR` in IDLE and in FAULT clears the latch, makes STATE IDLE, advances CIX and restores nothing. -/
def Obligations.ClrerrReturnsFromTheFault : Prop :=
  ∀ s : State, Ready s →
    exec .clrerr s = .next { s with latch := none, phase := .idle, cix := s.cix + 1 } ∧
      ∀ t, exec .clrerr s = .next t →
        statusWord t = 0 ∧ errcodeWord t = 0 ∧ errcixWord t = 0 ∧ errval t = 0 ∧ errlim t = 0

/-- R353, R59: `SRESET` in IDLE and in FAULT leaves every register 0, every buffer empty, every CMAP entry invalid, every
write latch 0, STATE IDLE, CIX 0 and the latch clear; the parameters stay (and so do the fields of the model's own that
are outside the block: the host's transactions, the BUSY lengths, the data last read, logs 3 to 5). A hardware reset (R420)
does the same in IDLE, in FAULT and in BUSY, where a command whose BUSY length is used up completes first (log 13). -/
def Obligations.SresetLeavesTheResetState : Prop :=
  let isReset (s t : State) : Prop :=
    SameOutside s t ∧ t.phase = .idle ∧ t.latch = none ∧ (∀ r, readReg t r = 0) ∧ t.wdat = Vector.replicate 4 0 ∧
      t.mem.cmap = Vector.replicate 32 none ∧ ∀ b, bufferLength t.mem b = 0
  (∀ s : State, Ready s → ∃ t, exec .sreset s = .next t ∧ isReset s t ∧
    ∀ rest, step { s with bus := .reset :: rest } = .next { t with bus := rest }) ∧
  ∀ (s : State) (c : Completion), s.phase = .busy c →
    ∃ t, Sys2Proof.core.run (if c.left = 0 then 2 else 1) { s with bus := .reset :: s.bus } = .next t ∧ isReset s t

/-! The PRBS generator. -/

/-- R143, with the sequence of R140: illegal orders and a period that does not fit fault; else BITBUF becomes `n` ones and
then, bit after bit, the sum over GF(2) of the bits that the recurrence names, `2^n − 1` bits in all. -/
def Obligations.PrbsGeneratesOnePeriod : Prop :=
  ∀ s : State, s.phase = .idle →
    let n := s.prbsord.toNat
    let cap := s.params.caps.bit.size
    (n < 2 ∨ 32 < n → exec .prbs s = .next (faulted ⟨.config, 4, n, 32⟩ s)) ∧
    (2 ≤ n ∧ n ≤ 32 ∧ cap < 2 ^ n - 1 →
      exec .prbs s = .next (faulted ⟨.capacity, 0, (2 ^ n - 1 : Nat), cap⟩ s)) ∧
    (2 ≤ n ∧ n ≤ 32 ∧ 2 ^ n - 1 ≤ cap →
      ∃ b : List Bool, exec .prbs s = .next (completed s { s.mem with bitbuf := b }) ∧
        b.length = 2 ^ n - 1 ∧ (∀ k < n, b[k]? = some true) ∧
        ∀ k, k + n < 2 ^ n - 1 →
          b.getD (k + n) false = (tapSet n).foldl (fun x t => x ^^ b.getD (k + t) false) (b.getD k false))

/-- R142 (a), an inference of the spec from its table of tap sets R141 (log 20): the register of every legal order comes
back to all ones after `2^n − 1` steps and not before. -/
def Obligations.PrbsIsMaximalLength : Prop :=
  ∀ n, 2 ≤ n → n ≤ 32 →
    (lfsrStep (tapSet n))^[2 ^ n - 1] (List.replicate n true) = List.replicate n true ∧
      ∀ k, 0 < k → k < 2 ^ n - 1 → (lfsrStep (tapSet n))^[k] (List.replicate n true) ≠ List.replicate n true

/-- R144: `BREP` repeats BITBUF `b / gcd(B, b)` times, which is the least number that makes the length a multiple of the
bits per symbol `b`. -/
def Obligations.BrepRepeatsTheLeastNumberOfTimes : Prop :=
  ∀ s : State, s.phase = .idle →
    let m := s.modtype.toNat
    let len := s.mem.bitbuf.length
    let cap := s.params.caps.bit.size
    let r := (m + 1) / Nat.gcd len (m + 1)
    (4 < m → exec .brep s = .next (faulted ⟨.config, 1, m, 4⟩ s)) ∧
    (m ≤ 4 → 1 ≤ r ∧ r * len % (m + 1) = 0 ∧ ∀ k, 1 ≤ k → k * len % (m + 1) = 0 → r ≤ k) ∧
    (m ≤ 4 ∧ cap < r * len → exec .brep s = .next (faulted ⟨.capacity, 0, (r * len : Nat), cap⟩ s)) ∧
    (m ≤ 4 ∧ r * len ≤ cap →
      ∃ b : List Bool, exec .brep s = .next (completed s { s.mem with bitbuf := b }) ∧
        b.length = r * len ∧ ∀ k, k < r * len → b[k]? = s.mem.bitbuf[k % len]?)

/-! The mapper. -/

/-- R161: `CMCLR` makes every entry invalid, so that CMAPVALID reads 0. -/
def Obligations.CmclrInvalidatesEveryEntry : Prop :=
  ∀ s : State, s.phase = .idle →
    exec .cmclr s = .next (completed s { s.mem with cmap := Vector.replicate 32 none }) ∧
      cmapValidWord { s.mem with cmap := Vector.replicate 32 none } = 0

/-- R162: `CMDEF` makes the entries of the patterns in use valid with the default points, and the rest invalid. -/
def Obligations.CmdefLoadsTheDefaultMap : Prop :=
  ∀ s : State, s.phase = .idle →
    let m := s.modtype.toNat
    let ν := s.params.numerics
    (4 < m → exec .cmdef s = .next (faulted ⟨.config, 1, m, 4⟩ s)) ∧
    (m ≤ 4 → ∃ table : Vector (Option Cplx) 32,
      exec .cmdef s = .next (completed s { s.mem with cmap := table }) ∧
        ∀ p, ∀ h : p < 32,
          table[p] = if p < 2 ^ (m + 1) then some ⟨ν.ofRat (defaultPoint m p).1, ν.ofRat (defaultPoint m p).2⟩ else none)

/-- R54: bit `p` of CMAPVALID is the valid bit of entry `p`; writes to it are ignored and it is 0 after reset. -/
def Obligations.CmapvalidShowsTheValidBits : Prop :=
  (∀ (s : State) (p : Nat) (h : p < 32), (readReg s .cmapvalid).getLsbD p = (s.mem.cmap[p]).isSome) ∧
  (∀ (s : State) (v : Word), writeReg s v .cmapvalid = s) ∧ readReg State.reset .cmapvalid = 0

/-- R165, an inference of the spec from R164: in each default map the points are distinct, and two points at the least
distance have patterns that differ in exactly one bit. -/
def Obligations.DefaultMapsAreGrayCoded : Prop :=
  let dist (m p q : Nat) : Rat :=
    ((defaultPoint m p).1 - (defaultPoint m q).1) ^ 2 + ((defaultPoint m p).2 - (defaultPoint m q).2) ^ 2
  ∀ m ≤ 4, ∀ p < 2 ^ (m + 1), ∀ q < 2 ^ (m + 1), p ≠ q →
    defaultPoint m p ≠ defaultPoint m q ∧
      ((∀ u < 2 ^ (m + 1), ∀ v < 2 ^ (m + 1), u ≠ v → dist m p q ≤ dist m u v) →
        ∃ i ≤ m, p ^^^ q = 2 ^ i)

/-- R167 with the patterns of R166: the three tests and the capacity test in their order; else symbol `j` is the point of
the numeral that the `b` bits of tuple `j` spell, the first bit the most significant. -/
def Obligations.MapMapsEveryTuple : Prop :=
  ∀ s : State, s.phase = .idle →
    let m := s.modtype.toNat
    let b := m + 1
    let bits := s.mem.bitbuf
    let cap := s.params.caps.sym.size
    let whole := ∀ p < 2 ^ b, (cmapPoint s.mem p).isSome = true
    (4 < m → exec .map s = .next (faulted ⟨.config, 1, m, 4⟩ s)) ∧
    (m ≤ 4 ∧ bits.length % b ≠ 0 → exec .map s = .next (faulted ⟨.bitcount, 0, bits.length, b⟩ s)) ∧
    (∀ p, m ≤ 4 ∧ bits.length % b = 0 ∧ p < 2 ^ b ∧ cmapPoint s.mem p = none ∧
        (∀ q < p, (cmapPoint s.mem q).isSome = true) →
      exec .map s = .next (faulted ⟨.symmap, 0, p, (2 ^ b : Nat)⟩ s)) ∧
    (m ≤ 4 ∧ bits.length % b = 0 ∧ whole ∧ cap < bits.length / b →
      exec .map s = .next (faulted ⟨.capacity, 1, (bits.length / b : Nat), cap⟩ s)) ∧
    (m ≤ 4 ∧ bits.length % b = 0 ∧ whole ∧ bits.length / b ≤ cap →
      ∃ y : List Cplx, exec .map s = .next (completed s { s.mem with symbuf := y }) ∧
        y.length = bits.length / b ∧
        ∀ j, j < bits.length / b →
          y[j]? = cmapPoint s.mem
            (∑ i ∈ Finset.range b, (bits.getD (j * b + i) false).toNat * 2 ^ (b - 1 - i)))

/-! The filter path. -/

/-- R191: `CEXT` puts the last `SPAN/2` symbols in front and the first `SPAN/2` behind: element `k` is symbol
`(k − h) mod L`. -/
def Obligations.CextExtendsCircularly : Prop :=
  ∀ s : State, s.phase = .idle →
    let span := s.span.toNat
    let h := span / 2
    let len := s.mem.symbuf.length
    let cap := s.params.caps.ext.size
    (span % 2 ≠ 0 → exec .cext s = .next (faulted ⟨.config, 6, span, 2⟩ s)) ∧
    (span % 2 = 0 ∧ len < h → exec .cext s = .next (faulted ⟨.seq, 1, len, h⟩ s)) ∧
    (span % 2 = 0 ∧ h ≤ len ∧ cap < len + 2 * h →
      exec .cext s = .next (faulted ⟨.capacity, 2, (len + 2 * h : Nat), cap⟩ s)) ∧
    (span % 2 = 0 ∧ h ≤ len ∧ len + 2 * h ≤ cap →
      ∃ y : List Cplx, exec .cext s = .next (completed s { s.mem with extbuf := y }) ∧
        y.length = len + 2 * h ∧ ∀ k, k < len + 2 * h → y[k]? = s.mem.symbuf[(k + len - h) % len]?)

/-- R192: `ZSTUFF` puts element `k / P` at the multiples `k` of the stride `P` and `(0, 0)` elsewhere. -/
def Obligations.ZstuffSpreadsTheSymbols : Prop :=
  ∀ s : State, s.phase = .idle →
    let p := s.sps.toNat
    let len := s.mem.extbuf.length
    let cap := s.params.caps.x.size
    (p = 0 → exec .zstuff s = .next (faulted ⟨.config, 5, 0, 1⟩ s)) ∧
    (p ≠ 0 ∧ cap < len * p → exec .zstuff s = .next (faulted ⟨.capacity, 3, (len * p : Nat), cap⟩ s)) ∧
    (p ≠ 0 ∧ len * p ≤ cap →
      ∃ y : List Cplx, exec .zstuff s = .next (completed s { s.mem with xbuf := y }) ∧
        y.length = len * p ∧
        ∀ k, k < len * p → y[k]? = if k % p = 0 then s.mem.extbuf[k / p]? else some zeroSample)

/-- R200, R201: the six tests of `FGEN` in their order; else TAPS has `SPAN × SPS + 1` elements, element `j` the tap at
position `(j − c) / SPS`. -/
def Obligations.FgenBuildsTheFilter : Prop :=
  ∀ s : State, s.phase = .idle →
    let kind := s.fkind.toNat
    let p := s.sps.toNat
    let span := s.span.toNat
    let cap := s.params.caps.tap.size
    let pattern := s.rolloff.hi ++ s.rolloff.lo
    (1 < kind → exec .fgen s = .next (faulted ⟨.config, 2, kind, 1⟩ s)) ∧
    (kind ≤ 1 ∧ p = 0 → exec .fgen s = .next (faulted ⟨.config, 5, 0, 1⟩ s)) ∧
    (kind ≤ 1 ∧ p ≠ 0 ∧ span % 2 ≠ 0 → exec .fgen s = .next (faulted ⟨.config, 6, span, 2⟩ s)) ∧
    (kind ≤ 1 ∧ p ≠ 0 ∧ span % 2 = 0 ∧ numOf pattern = none →
      exec .fgen s = .next (faulted ⟨.numfmt, 1, pattern.toInt, 0⟩ s)) ∧
    (∀ a, kind ≤ 1 ∧ p ≠ 0 ∧ span % 2 = 0 ∧ numOf pattern = some a ∧ (a < 0 ∨ 1 < a) →
      exec .fgen s = .next (faulted ⟨.config, 7, pattern.toInt, 1⟩ s)) ∧
    (∀ a, kind ≤ 1 ∧ p ≠ 0 ∧ span % 2 = 0 ∧ numOf pattern = some a ∧ 0 ≤ a ∧ a ≤ 1 ∧ cap < span * p + 1 →
      exec .fgen s = .next (faulted ⟨.capacity, 4, (span * p + 1 : Nat), cap⟩ s)) ∧
    (∀ a, kind ≤ 1 ∧ p ≠ 0 ∧ span % 2 = 0 ∧ numOf pattern = some a ∧ 0 ≤ a ∧ a ≤ 1 ∧ span * p + 1 ≤ cap →
      ∃ y : List Sys2Proof.Num, exec .fgen s = .next (completed s { s.mem with taps := y }) ∧
        y.length = span * p + 1 ∧
        ∀ j, j ≤ span * p →
          y[j]? = some (filterTap s.params.numerics kind a (((j : Rat) - ((span * p / 2 : Nat) : Rat)) / (p : Rat))))

/-- R203 with R202 (formulas that the spec takes from general knowledge, log 20): the raised-cosine tap of the reference
numerics is the real number of the rule's three branches. -/
def Obligations.RaisedCosineTap : Prop :=
  ∀ a x : ℚ, 0 ≤ a → a ≤ 1 →
    (Sys2Proof.Num.tapRC a x).toReal =
      if x = 0 then 1
      else if a ≠ 0 ∧ 2 * a * |x| = 1 then Real.pi / 4 * realSinc (1 / (2 * (a : ℝ)))
      else realSinc (x : ℝ) * Real.cos (Real.pi * (a : ℝ) * (x : ℝ)) / (1 - (2 * (a : ℝ) * (x : ℝ)) ^ 2)

/-- R204 (formulas that the spec takes from general knowledge, log 20): the root-raised-cosine tap of the reference
numerics is the real number of the rule's three branches. -/
def Obligations.RootRaisedCosineTap : Prop :=
  ∀ a x : ℚ, 0 ≤ a → a ≤ 1 →
    (Sys2Proof.Num.tapRRC a x).toReal =
      if x = 0 then 1 - (a : ℝ) + 4 * (a : ℝ) / Real.pi
      else if a ≠ 0 ∧ 4 * a * |x| = 1 then
        (a : ℝ) / Real.sqrt 2 *
          ((1 + 2 / Real.pi) * Real.sin (Real.pi / (4 * (a : ℝ))) +
            (1 - 2 / Real.pi) * Real.cos (Real.pi / (4 * (a : ℝ))))
      else
        (Real.sin (Real.pi * (x : ℝ) * (1 - (a : ℝ))) +
            4 * (a : ℝ) * (x : ℝ) * Real.cos (Real.pi * (x : ℝ) * (1 + (a : ℝ)))) /
          (Real.pi * (x : ℝ) * (1 - (4 * (a : ℝ) * (x : ℝ)) ^ 2))

/-- R205, an inference of the spec from R200 to R204: after `FGEN` in the reference numerics the taps are symmetric, an
RC filter is 1 at the center and 0 at every other whole position, an RRC filter is `1 − a + 4a/π` at the center, with
rolloff 0 both are `sinc`, and no branch divides by zero. -/
def Obligations.FilterTapsAreSymmetricAndInterpolate : Prop :=
  (∀ (s : State) (a : ℚ),
    let kind := s.fkind.toNat
    let p := s.sps.toNat
    let span := s.span.toNat
    let c := span * p / 2
    s.phase = .idle → s.params.numerics = .reference → kind ≤ 1 → p ≠ 0 → span % 2 = 0 →
    numOf (s.rolloff.hi ++ s.rolloff.lo) = some a → 0 ≤ a → a ≤ 1 → span * p + 1 ≤ s.params.caps.tap.size →
      ∃ y : List Sys2Proof.Num, exec .fgen s = .next (completed s { s.mem with taps := y }) ∧
        y.length = span * p + 1 ∧
        let tap (j : Nat) : ℝ := realAt y j
        (∀ j ≤ span * p, tap j = tap (span * p - j)) ∧
        (kind = 1 → tap c = 1 ∧ ∀ j ≤ span * p, j ≠ c → j % p = c % p → tap j = 0) ∧
        (kind = 0 → tap c = 1 - (a : ℝ) + 4 * (a : ℝ) / Real.pi) ∧
        (a = 0 → ∀ j ≤ span * p, tap j = realSinc (((j : ℝ) - (c : ℝ)) / (p : ℝ)))) ∧
  (∀ a x : ℚ, ¬ (a ≠ 0 ∧ 2 * a * |x| = 1) → 0 ≤ a → 1 - (2 * a * x) ^ 2 ≠ 0) ∧
  (∀ a x : ℚ, x ≠ 0 → ¬ (a ≠ 0 ∧ 4 * a * |x| = 1) → 0 ≤ a → x * (1 - (4 * a * x) ^ 2) ≠ 0)

/-- R210: `CONV` gives `X + N − 1` samples; in the reference numerics each lane of sample `m` is the sum of
`TAPS[m − k] × XBUF[k]` over `k` from `max(0, m − N + 1)` to `min(m, X − 1)`. -/
def Obligations.ConvIsTheFullConvolution : Prop :=
  ∀ s : State, s.phase = .idle →
    let x := s.mem.xbuf.length
    let n := s.mem.taps.length
    let cap := s.params.caps.y.size
    (x = 0 ∨ n = 0 → exec .conv s = .next (faulted ⟨.seq, 2, 0, 1⟩ s)) ∧
    (x ≠ 0 ∧ n ≠ 0 ∧ cap < x + n - 1 →
      exec .conv s = .next (faulted ⟨.capacity, 5, (x + n - 1 : Nat), cap⟩ s)) ∧
    (x ≠ 0 ∧ n ≠ 0 ∧ x + n - 1 ≤ cap →
      ∃ y : List Cplx, exec .conv s = .next (completed s { s.mem with ybuf := y }) ∧
        y.length = x + n - 1 ∧
        (s.params.numerics = .reference → ∀ m, m < x + n - 1 → ∃ z : Cplx, y[m]? = some z ∧
          z.i.toReal = ∑ k ∈ Finset.Icc (m + 1 - n) (min m (x - 1)),
            realAt s.mem.taps (m - k) * realAt (s.mem.xbuf.map Cplx.i) k ∧
          z.q.toReal = ∑ k ∈ Finset.Icc (m + 1 - n) (min m (x - 1)),
            realAt s.mem.taps (m - k) * realAt (s.mem.xbuf.map Cplx.q) k))

/-- R230: `TRIM` drops `TAPLEN − 1` samples from each end. -/
def Obligations.TrimDropsBothEnds : Prop :=
  ∀ s : State, s.phase = .idle →
    let n := s.mem.taps.length
    let t := n - 1
    let y := s.mem.ybuf.length
    let cap := s.params.caps.z.size
    (n = 0 → exec .trim s = .next (faulted ⟨.seq, 3, 0, 1⟩ s)) ∧
    (n ≠ 0 ∧ y < 2 * t → exec .trim s = .next (faulted ⟨.seq, 4, y, (2 * t : Nat)⟩ s)) ∧
    (n ≠ 0 ∧ 2 * t ≤ y ∧ cap < y - 2 * t →
      exec .trim s = .next (faulted ⟨.capacity, 6, (y - 2 * t : Nat), cap⟩ s)) ∧
    (n ≠ 0 ∧ 2 * t ≤ y ∧ y - 2 * t ≤ cap →
      ∃ z : List Cplx, exec .trim s = .next (completed s { s.mem with zbuf := z }) ∧
        z.length = y - 2 * t ∧ ∀ m, m < y - 2 * t → z[m]? = s.mem.ybuf[m + t]?)

/-- R231, an inference of the spec from R191 to R230: after `CEXT`, `ZSTUFF`, `FGEN`, `CONV`, `TRIM` in the reference
numerics ZBUF is one period of the circular convolution of the symbols' impulse train with the taps, the filter delay
removed: no seam. With `P` = SPS, `c = SPAN/2 × P`, and `u` the periodic impulse train. -/
def Obligations.TrimmedWaveformWraps : Prop :=
  ∀ s s1 s2 s3 s4 s5 : State, s.params.numerics = .reference →
    Completes .cext s s1 → Completes .zstuff s1 s2 → Completes .fgen s2 s3 → Completes .conv s3 s4 →
    Completes .trim s4 s5 →
    let len := s.mem.symbuf.length
    let p := s.sps.toNat
    let c := s.span.toNat / 2 * p
    let tap (j : Nat) : ℝ := realAt s5.mem.taps j
    let train (lane : Cplx → Sys2Proof.Num) (k : ℤ) : ℝ :=
      if (p : ℤ) ∣ k then realAt (s.mem.symbuf.map lane) ((k / (p : ℤ)) % (len : ℤ)).toNat else 0
    s5.mem.zbuf.length = len * p ∧
      ∀ m, m < len * p → ∃ z : Cplx, s5.mem.zbuf[m]? = some z ∧
        z.i.toReal = ∑ d ∈ Finset.range (2 * c + 1), tap (2 * c - d) * train Cplx.i ((m : ℤ) + (d : ℤ) - (c : ℤ)) ∧
        z.q.toReal = ∑ d ∈ Finset.range (2 * c + 1), tap (2 * c - d) * train Cplx.q ((m : ℤ) + (d : ℤ) - (c : ℤ))

/-! The normalizer and the whole pipeline. -/

/-- R235: the three tests of `NORM` in their order; else both lanes have the length of ZBUF and, in the reference numerics,
are `707/1000` times the lanes of ZBUF over the square root of `M2`, the largest squared modulus. -/
def Obligations.NormScalesToThePeak : Prop :=
  ∀ s : State, s.phase = .idle →
    let ν := s.params.numerics
    let z := s.mem.zbuf
    let cap := s.params.caps.w.size
    let m2 := maxMag2 ν z
    (z.length = 0 → exec .norm s = .next (faulted ⟨.seq, 5, 0, 1⟩ s)) ∧
    (z.length ≠ 0 ∧ cap < z.length → exec .norm s = .next (faulted ⟨.capacity, 7, z.length, cap⟩ s)) ∧
    (z.length ≠ 0 ∧ z.length ≤ cap ∧ ν.eq m2 Sys2Proof.Num.zero = true →
      exec .norm s = .next (faulted ⟨.divzero, 0, 0, 0⟩ s)) ∧
    (z.length ≠ 0 ∧ z.length ≤ cap ∧ ν.eq m2 Sys2Proof.Num.zero = false →
      ∃ wi wq : List Sample, exec .norm s = .next (completed s { s.mem with wi := wi, wq := wq }) ∧
        wi.length = z.length ∧ wq.length = z.length ∧
        (ν = .reference → ∀ k, k < z.length → ∃ v : Cplx, ∃ i q : Sample,
          z[k]? = some v ∧ wi[k]? = some i ∧ wq[k]? = some q ∧
          i.toReal = 707 / 1000 * v.i.toReal / Real.sqrt m2.toReal ∧
          q.toReal = 707 / 1000 * v.q.toReal / Real.sqrt m2.toReal))

/-- R236, an inference of the spec from R235: after a completed `NORM` on rational samples in the reference numerics both
lanes are one positive multiple `g` of ZBUF's lanes, no sample's modulus is above `707/1000`, and some sample's is
exactly that. -/
def Obligations.NormReachesThePeakExactly : Prop :=
  ∀ s t : State, s.params.numerics = .reference → RationalSamples s.mem.zbuf → Completes .norm s t →
    let w (k : Nat) : ℝ × ℝ := (sampleAt t.mem.wi k, sampleAt t.mem.wq k)
    let z (k : Nat) : ℝ × ℝ := (realAt (s.mem.zbuf.map Cplx.i) k, realAt (s.mem.zbuf.map Cplx.q) k)
    (∃ g : ℝ, 0 < g ∧ ∀ k, w k = (g * (z k).1, g * (z k).2)) ∧
    (∀ k, (w k).1 ^ 2 + (w k).2 ^ 2 ≤ (707 / 1000) ^ 2) ∧
    (∀ k, |(w k).1| ≤ 707 / 1000 ∧ |(w k).2| ≤ 707 / 1000) ∧
    ∃ k, k < s.mem.zbuf.length ∧ (w k).1 ^ 2 + (w k).2 ^ 2 = (707 / 1000) ^ 2

/-- R240, part 1: an illegal configuration faults before anything is written, the first failing test reported; the `val` of
the two rolloff faults is the pattern read as a signed number, as R200 says of them. -/
def Obligations.DigmodChecksTheConfigurationFirst : Prop :=
  ∀ (d : Bool) (s : State), s.phase = .idle →
    let m := s.modtype.toNat
    let kind := s.fkind.toNat
    let n := s.prbsord.toNat
    let p := s.sps.toNat
    let span := s.span.toNat
    let pattern := s.rolloff.hi ++ s.rolloff.lo
    (4 < m → exec (.digmod d) s = .next (faulted ⟨.config, 1, m, 4⟩ s)) ∧
    (m ≤ 4 ∧ 1 < kind → exec (.digmod d) s = .next (faulted ⟨.config, 2, kind, 1⟩ s)) ∧
    (m ≤ 4 ∧ kind ≤ 1 ∧ (n < 2 ∨ 32 < n) → exec (.digmod d) s = .next (faulted ⟨.config, 4, n, 32⟩ s)) ∧
    (m ≤ 4 ∧ kind ≤ 1 ∧ 2 ≤ n ∧ n ≤ 32 ∧ p = 0 → exec (.digmod d) s = .next (faulted ⟨.config, 5, 0, 1⟩ s)) ∧
    (m ≤ 4 ∧ kind ≤ 1 ∧ 2 ≤ n ∧ n ≤ 32 ∧ p ≠ 0 ∧ span % 2 ≠ 0 →
      exec (.digmod d) s = .next (faulted ⟨.config, 6, span, 2⟩ s)) ∧
    (m ≤ 4 ∧ kind ≤ 1 ∧ 2 ≤ n ∧ n ≤ 32 ∧ p ≠ 0 ∧ span % 2 = 0 ∧ numOf pattern = none →
      exec (.digmod d) s = .next (faulted ⟨.numfmt, 1, pattern.toInt, 0⟩ s)) ∧
    (∀ a, m ≤ 4 ∧ kind ≤ 1 ∧ 2 ≤ n ∧ n ≤ 32 ∧ p ≠ 0 ∧ span % 2 = 0 ∧ numOf pattern = some a ∧ (a < 0 ∨ 1 < a) →
      exec (.digmod d) s = .next (faulted ⟨.config, 7, pattern.toInt, 1⟩ s))

/-- R240, part 2: with a legal configuration `DIGMOD` ends in the state that its steps, given as commands of their own, end
in, up to and with the first that faults; but CIX advances once, and the fault's index is that of the `DIGMOD`. -/
def Obligations.DigmodRunsItsSteps : Prop :=
  ∀ (d : Bool) (s : State), s.phase = .idle → s.latch = none → LegalConfig s →
    ∃ t, runCommands (digmodCommands d) s = .next t ∧
      exec (.digmod d) s =
        .next { t with cix := s.cix + 1, latch := t.latch.map fun r => { r with index := s.cix } }

/-- R240, the result on completion: with a legal configuration, a map that covers the patterns in use (the default map when
`D = 1`), enough capacity, at least `SPAN/2` symbols, and a waveform that is not all zero, `DIGMOD` completes with the nine
buffers below, `L = r (2^n − 1) / b` symbols and `L × SPS` samples in each lane. -/
def Obligations.DigmodCompletes : Prop :=
  ∀ (d : Bool) (s : State) (a : ℚ),
    let ν := s.params.numerics
    let caps := s.params.caps
    let b := s.modtype.toNat + 1
    let n := s.prbsord.toNat
    let p := s.sps.toNat
    let span := s.span.toNat
    let r := b / Nat.gcd (2 ^ n - 1) b
    let len := r * (2 ^ n - 1) / b
    let mem := if d then { s.mem with cmap := defaultMap ν s.modtype.toNat } else s.mem
    let bits := repeatSeq (prbsPeriod n) r
    let symbols := (List.range len).map fun j => mapPattern mem (patternAt bits b j)
    let extended := circularExtend symbols (span / 2)
    let impulses := zeroStuff extended p
    let taps := filterTaps ν s.fkind.toNat a span p
    let filtered := convolve ν taps impulses
    let wave := trimEnds filtered (span * p)
    let m2 := maxMag2 ν wave
    s.phase = .idle → LegalConfig s → numOf s.rolloff.pattern = some a →
    (∀ k < 2 ^ b, (cmapPoint mem k).isSome = true) →
    r * (2 ^ n - 1) ≤ caps.bit.size → len ≤ caps.sym.size → span / 2 ≤ len → len + span ≤ caps.ext.size →
    (len + span) * p ≤ caps.x.size → span * p + 1 ≤ caps.tap.size →
    (len + span) * p + span * p ≤ caps.y.size → len * p ≤ caps.z.size → len * p ≤ caps.w.size →
    ν.eq m2 Sys2Proof.Num.zero = false →
      exec (.digmod d) s = .next (completed s { mem with
          bitbuf := bits
          symbuf := symbols
          extbuf := extended
          xbuf := impulses
          taps := taps
          ybuf := filtered
          zbuf := wave
          wi := wave.map fun v => normLane ν m2 v.i
          wq := wave.map fun v => normLane ν m2 v.q }) ∧
        bits.length = r * (2 ^ n - 1) ∧ symbols.length = len ∧ wave.length = len * p

/-! The quantizer. -/

/-- R262, R261: `PMODE` loads all seven staging registers from the mode's entry, or faults. -/
def Obligations.PmodeLoadsTheEntry : Prop :=
  ∀ (mode : BitVec 16) (s : State), s.phase = .idle →
    (s.params.modeTable.lookup mode = none →
      exec (.pmode mode) s = .next (faulted ⟨.config, 3, mode.toNat, 0⟩ s)) ∧
    ∀ e, s.params.modeTable.lookup mode = some e →
      exec (.pmode mode) s = .next { s with stage := e, cix := s.cix + 1 }

/-- R265: `ILV` alternates the lanes, the I lane first; lanes of different lengths fault. -/
def Obligations.IlvAlternatesTheLanes : Prop :=
  ∀ s : State, s.phase = .idle →
    let n := s.mem.wi.length
    let cap := s.params.caps.ilv.size
    (n ≠ s.mem.wq.length → exec .ilv s = .next (faulted ⟨.mismatch, 0, n, s.mem.wq.length⟩ s)) ∧
    (n = s.mem.wq.length ∧ cap < 2 * n →
      exec .ilv s = .next (faulted ⟨.capacity, 9, (2 * n : Nat), cap⟩ s)) ∧
    (n = s.mem.wq.length ∧ 2 * n ≤ cap →
      ∃ y : List Sample, exec .ilv s = .next (completed s { s.mem with ilvbuf := y }) ∧ y.length = 2 * n ∧
        ∀ j, j < n → y[2 * j]? = s.mem.wi[j]? ∧ y[2 * j + 1]? = s.mem.wq[j]?)

/-- R275 with R270, R271, R273, R274: when the staged profile is legal for the number of samples, `VQ` copies it into the
snapshot and QBUF becomes the samples' patterns `(r × 2^s) mod 2^W`, `W / 8` bytes each, in the selected byte order. -/
def Obligations.VqQuantizesEverySample : Prop :=
  ∀ (src order : BitVec 2) (s : State), s.phase = .idle → src ≠ 3 → order ≠ 3 →
    let p := s.stage
    let buf := if src = 0 then s.mem.wi else if src = 1 then s.mem.wq else s.mem.ilvbuf
    let w := p.width.toNat
    let n := w / 8
    let big := order = 2 ∨ order = 0 ∧ p.endian = 1
    1 ≤ p.gran.toNat → w = 8 ∨ w = 16 ∨ w = 32 ∨ w = 64 → p.shift.toNat < w → p.endian.toNat ≤ 1 →
    p.minlen.toNat ≤ buf.length → buf.length % p.gran.toNat = 0 → buf.length * n ≤ s.params.caps.q.size →
      ∃ y : List Byte,
        exec (.vq src order) s = .next { completed s { s.mem with qbuf := y } with snap := p } ∧
        y.length = buf.length * n ∧
        ∀ k v, buf[k]? = some v → ∀ j, j < n →
          let r := s.params.numerics.roundProduct s.params.ties (p.binmult.toNat : Rat) v
          let q := (r * 2 ^ p.shift.toNat) % 2 ^ w
          y[k * n + j]? = some (BitVec.ofInt 8 (q / 2 ^ (8 * (if big then n - 1 - j else j))))

/-- R272, R270: the seven tests of `VQ` on the snapshot, in their order; a `VQ` that faults has taken its snapshot and
changes no buffer. -/
def Obligations.VqChecksTheProfileThenTheLength : Prop :=
  ∀ (src order : BitVec 2) (s : State), s.phase = .idle → src ≠ 3 → order ≠ 3 →
    let p := s.stage
    let len := (if src = 0 then s.mem.wi else if src = 1 then s.mem.wq else s.mem.ilvbuf).length
    let w := p.width.toNat
    let gran := p.gran.toNat
    let cap := s.params.caps.q.size
    let after (e : Raise) : State := { faulted e s with snap := p }
    let width := w = 8 ∨ w = 16 ∨ w = 32 ∨ w = 64
    (gran = 0 → exec (.vq src order) s = .next (after ⟨.config, 8, 0, 1⟩)) ∧
    (gran ≠ 0 ∧ ¬ width → exec (.vq src order) s = .next (after ⟨.config, 9, w, 64⟩)) ∧
    (gran ≠ 0 ∧ width ∧ w ≤ p.shift.toNat →
      exec (.vq src order) s = .next (after ⟨.config, 10, p.shift.toNat, (w : Int) - 1⟩)) ∧
    (gran ≠ 0 ∧ width ∧ p.shift.toNat < w ∧ 1 < p.endian.toNat →
      exec (.vq src order) s = .next (after ⟨.config, 11, p.endian.toNat, 1⟩)) ∧
    (gran ≠ 0 ∧ width ∧ p.shift.toNat < w ∧ p.endian.toNat ≤ 1 ∧ len < p.minlen.toNat →
      exec (.vq src order) s = .next (after ⟨.length, 0, len, p.minlen.toNat⟩)) ∧
    (gran ≠ 0 ∧ width ∧ p.shift.toNat < w ∧ p.endian.toNat ≤ 1 ∧ p.minlen.toNat ≤ len ∧ len % gran ≠ 0 →
      exec (.vq src order) s = .next (after ⟨.gran, 0, len, gran⟩)) ∧
    (gran ≠ 0 ∧ width ∧ p.shift.toNat < w ∧ p.endian.toNat ≤ 1 ∧ p.minlen.toNat ≤ len ∧ len % gran = 0 ∧
        cap < len * (w / 8) →
      exec (.vq src order) s = .next (after ⟨.capacity, 10, (len * (w / 8) : Nat), cap⟩))

/-- R276, an inference of the spec from R272: for a legal profile whose minimum length is a multiple of its granularity, a
lane of exactly the minimum length or of that plus the granularity passes, one sample less fails the length test, and one
sample more fails the granularity test unless the granularity is 1. -/
def Obligations.ValidationOfTheMinimumLength : Prop :=
  ∀ s : State, s.phase = .idle →
    let p := s.stage
    let w := p.width.toNat
    let len := s.mem.wi.length
    let minlen := p.minlen.toNat
    let gran := p.gran.toNat
    1 ≤ gran → w = 8 ∨ w = 16 ∨ w = 32 ∨ w = 64 → p.shift.toNat < w → p.endian.toNat ≤ 1 → minlen % gran = 0 →
    len * (w / 8) ≤ s.params.caps.q.size →
      (len = minlen ∨ len = minlen + gran → ∃ t, Completes (.vq 0 0) s t ∧ t.mem.qbuf.length = len * (w / 8)) ∧
      (len + 1 = minlen → ∃ t, exec (.vq 0 0) s = .next t ∧ t.latch = some ⟨⟨.length, 0, len, minlen⟩, s.cix⟩) ∧
      (len = minlen + 1 → 1 < gran →
        ∃ t, exec (.vq 0 0) s = .next t ∧ t.latch = some ⟨⟨.gran, 0, len, gran⟩, s.cix⟩)

/-- R439, an inference of the spec from R236 and R273: with `Round(S_BINMULT × 707/1000) < 2^(W − 1 − S_SHIFT)` neither a
rational sample of modulus at most `707/1000` wraps, nor any sample, a root pending or not, that a completed `NORM` leaves
in either lane from rational samples in the reference numerics: its pattern, read as a signed number, is `r × 2^s` with
`r = Round(S_BINMULT × v)`, which lies within `1/2` of the real `S_BINMULT × v`. -/
def Obligations.NormalizedSamplesDoNotWrap : Prop :=
  let signed (w q : Nat) : ℤ := if q < 2 ^ (w - 1) then q else (q : ℤ) - 2 ^ w
  let round (ties : RoundTies) (x : ℚ) : ℤ := (Sys2Proof.Num.ofRat x).round ties
  let fits (ties : RoundTies) (p : Profile) : Prop :=
    p.shift.toNat < p.width.toNat ∧
      round ties (p.binmult.toNat * (707 / 1000)) < 2 ^ (p.width.toNat - 1 - p.shift.toNat)
  (∀ (params : Params) (p : Profile) (v : ℚ), params.numerics = .reference → fits params.ties p → |v| ≤ 707 / 1000 →
    signed p.width.toNat (quantize params p (Sample.ofNum (Sys2Proof.Num.ofRat v))) =
      round params.ties (p.binmult.toNat * v) * 2 ^ p.shift.toNat) ∧
  ∀ (s t : State) (p : Profile), s.params.numerics = .reference → RationalSamples s.mem.zbuf → Completes .norm s t →
    fits s.params.ties p → ∀ v ∈ t.mem.wi ++ t.mem.wq,
      let r := (v.scale p.binmult.toNat).round s.params.ties
      signed p.width.toNat (quantize s.params p v) = r * 2 ^ p.shift.toNat ∧
        |(p.binmult.toNat : ℝ) * v.toReal - r| ≤ 1 / 2

/-! The PDW packer. -/

/-- R307 with R300 to R305, `PDWENC` of R308 on completion: when the four numbers are finite, every encoded value fits its
field and six more words fit, RECBUF grows by six words that hold the fields at the places of the rule's table, the unused
bits 0. -/
def Obligations.PdwencAppendsTheRecord : Prop :=
  ∀ (s : State) (freq phase time power : ℚ), s.phase = .idle →
    numOf s.pd.freq.pattern = some freq → numOf s.pd.phase.pattern = some phase →
    numOf s.pd.time.pattern = some time → numOf s.pd.power.pattern = some power →
    let x := encodeFields s.params s.pd freq phase time power
    (0 ≤ x.op ∧ x.op < 2 ^ 2) → (0 ≤ x.freq ∧ x.freq < 2 ^ 47) → (0 ≤ x.phase ∧ x.phase < 2 ^ 12) →
    (0 ≤ x.time ∧ x.time < 2 ^ 64) → (0 ≤ x.power ∧ x.power < 2 ^ 15) → (0 ≤ x.markers ∧ x.markers < 2 ^ 12) →
    (0 ≤ x.phctl ∧ x.phctl < 2) → (0 ≤ x.rfoff ∧ x.rfoff < 2) → (0 ≤ x.widx ∧ x.widx < 2 ^ 16) →
    (0 ≤ x.wmask ∧ x.wmask < 2 ^ 4) → s.mem.recbuf.length + 6 ≤ s.params.caps.recs.size →
      ∃ w0 w1 w2 w3 w4 w5 : Word,
        exec .pdwenc s =
          .next (completed s { s.mem with recbuf := s.mem.recbuf ++ [w0, w1, w2, w3, w4, w5] }) ∧
        w0.extractLsb' 0 3 = s.params.formatTag ∧ ((w0.extractLsb' 3 2).toNat : Int) = x.op ∧
        ((w0.extractLsb' 5 27).toNat : Int) = x.freq % 2 ^ 27 ∧
        ((w1.extractLsb' 0 20).toNat : Int) = x.freq / 2 ^ 27 ∧ ((w1.extractLsb' 20 12).toNat : Int) = x.phase ∧
        (w2.toNat : Int) = x.time % 2 ^ 32 ∧ (w3.toNat : Int) = x.time / 2 ^ 32 ∧
        ((w4.extractLsb' 0 15).toNat : Int) = x.power ∧ ((w4.extractLsb' 15 12).toNat : Int) = x.markers ∧
        ((w4.extractLsb' 27 1).toNat : Int) = x.phctl ∧ ((w4.extractLsb' 28 1).toNat : Int) = x.rfoff ∧
        w4.extractLsb' 29 3 = 0#3 ∧ ((w5.extractLsb' 0 16).toNat : Int) = x.widx ∧ w5.extractLsb' 16 12 = 0#12 ∧
        ((w5.extractLsb' 28 4).toNat : Int) = x.wmask

/-- R306 and the tests of R308 in their order: a pattern that is no number, then the first field that does not fit its
width, then the capacity; nothing is appended. The `val` of a pattern that is no number is the pattern read as a signed
number: the model's reading, log 9. -/
def Obligations.PdwencChecksEveryField : Prop :=
  ∀ s : State, s.phase = .idle →
    let pd := s.pd
    let cap := s.params.caps.recs.size
    (numOf pd.freq.pattern = none → exec .pdwenc s = .next (faulted ⟨.numfmt, 2, pd.freq.pattern.toInt, 0⟩ s)) ∧
    (numOf pd.freq.pattern ≠ none ∧ numOf pd.phase.pattern = none →
      exec .pdwenc s = .next (faulted ⟨.numfmt, 3, pd.phase.pattern.toInt, 0⟩ s)) ∧
    (numOf pd.freq.pattern ≠ none ∧ numOf pd.phase.pattern ≠ none ∧ numOf pd.time.pattern = none →
      exec .pdwenc s = .next (faulted ⟨.numfmt, 4, pd.time.pattern.toInt, 0⟩ s)) ∧
    (numOf pd.freq.pattern ≠ none ∧ numOf pd.phase.pattern ≠ none ∧ numOf pd.time.pattern ≠ none ∧
        numOf pd.power.pattern = none →
      exec .pdwenc s = .next (faulted ⟨.numfmt, 5, pd.power.pattern.toInt, 0⟩ s)) ∧
    ∀ freq phase time power : ℚ,
      numOf pd.freq.pattern = some freq → numOf pd.phase.pattern = some phase →
      numOf pd.time.pattern = some time → numOf pd.power.pattern = some power →
      let x := encodeFields s.params pd freq phase time power
      let value : List Int := [x.op, x.freq, x.phase, x.time, x.power, x.markers, x.phctl, x.rfoff, x.widx, x.wmask]
      let width : List Nat := [2, 47, 12, 64, 15, 12, 1, 1, 16, 4]
      let fits (k : Nat) : Prop := 0 ≤ value.getD k 0 ∧ value.getD k 0 ≤ 2 ^ width.getD k 0 - 1
      (∀ k < 10, ¬ fits k → (∀ j < k, fits j) →
        exec .pdwenc s =
          .next (faulted ⟨.overflow, BitVec.ofNat 8 (k + 1), value.getD k 0, 2 ^ width.getD k 0 - 1⟩ s)) ∧
      ((∀ k < 10, fits k) → cap < s.mem.recbuf.length + 6 →
        exec .pdwenc s = .next (faulted ⟨.capacity, 11, (s.mem.recbuf.length + 6 : Nat), cap⟩ s))

/-- R309, an inference of the spec from R300 to R307: decoding the six words that a completed `PDWENC` appended gives each
physical value back within half a step, and the integer fields exactly. -/
def Obligations.PdwRoundTrip : Prop :=
  ∀ (s t : State) (freq phase time power : ℚ), s.params.numerics = .reference → Completes .pdwenc s t →
    numOf s.pd.freq.pattern = some freq → numOf s.pd.phase.pattern = some phase →
    numOf s.pd.time.pattern = some time → numOf s.pd.power.pattern = some power →
      ∃ w0 w1 w2 w3 w4 w5 : Word, t.mem.recbuf = s.mem.recbuf ++ [w0, w1, w2, w3, w4, w5] ∧
        let f : Nat := (w0.extractLsb' 5 27).toNat + (w1.extractLsb' 0 20).toNat * 2 ^ 27
        let ph : Nat := (w1.extractLsb' 20 12).toNat
        let ti : Nat := w2.toNat + w3.toNat * 2 ^ 32
        let pw : Nat := (w4.extractLsb' 0 15).toNat
        |(f : ℚ) / 1024 - freq| ≤ 1 / 2048 ∧ |(ph : ℚ) * 360 / 4096 - phase| ≤ 360 / 8192 ∧
        |(ti : ℚ) / 10 ^ 12 - time| ≤ 1 / (2 * 10 ^ 12) ∧ |(pw : ℚ) / 200 - 140 - power| ≤ 1 / 400 ∧
        (w0.extractLsb' 3 2).toNat = s.pd.op.toNat ∧ (w4.extractLsb' 15 12).toNat = s.pd.markers.toNat ∧
        (w4.extractLsb' 27 1).toNat = s.pd.phctl.toNat ∧ (w4.extractLsb' 28 1).toNat = s.pd.rfoff.toNat ∧
        (w5.extractLsb' 0 16).toNat = s.pd.widx.toNat ∧ (w5.extractLsb' 28 4).toNat = s.pd.wmask.toNat

/-- R310: `PDWCLR` empties RECBUF and nothing else. -/
def Obligations.PdwclrEmptiesTheRecords : Prop :=
  ∀ s : State, s.phase = .idle → exec .pdwclr s = .next (completed s { s.mem with recbuf := [] })

/-- R324 with R322 and R323: FILEBUF becomes the file header, zeros, the block header up to byte 4095, and from byte 4096
on the records, each word its least significant byte first. -/
def Obligations.PdwasmLaysOutTheFile : Prop :=
  ∀ s : State, s.phase = .idle →
    let n := s.mem.recbuf.length
    let cap := s.params.caps.file.size
    let head := s.params.fileHeader
    let block := s.params.blockHeader
    (cap < 4096 + 4 * n → exec .pdwasm s = .next (faulted ⟨.capacity, 12, (4096 + 4 * n : Nat), cap⟩ s)) ∧
    (4096 + 4 * n ≤ cap →
      ∃ y : List Byte, exec .pdwasm s = .next (completed s { s.mem with filebuf := y }) ∧
        y.length = 4096 + 4 * n ∧
        (∀ k, k < head.length → y[k]? = head[k]?) ∧
        (∀ k, head.length ≤ k → k < 4096 - block.length → y[k]? = some 0) ∧
        (∀ k, k < block.length → y[4096 - block.length + k]? = block[k]?) ∧
        ∀ i w, s.mem.recbuf[i]? = some w → ∀ j < 4,
          y[4096 + 4 * i + j]? = some (w.extractLsb' (8 * j) 8))

/-! Numbers at the port. -/

/-- R12: `Round` of a rational, and of a sample `n / √d` with rational `n` and `0 < d`, is the nearest integer; exactly half
way it is the even one or the one further from zero, as `RoundTies` says. -/
def Obligations.RoundIsNearest : Prop :=
  (∀ (ties : RoundTies) (q : ℚ),
    let r := (Sys2Proof.Num.ofRat q).round ties
    |q - r| ≤ 1 / 2 ∧
      (|q - r| = 1 / 2 → (ties = .halfEven → r % 2 = 0) ∧ (ties = .halfAway → |q| < |(r : ℚ)|))) ∧
  ∀ (ties : RoundTies) (n d : ℚ), 0 < d →
    let v : Sample := ⟨Sys2Proof.Num.ofRat n, Sys2Proof.Num.ofRat d⟩
    let r := v.round ties
    |v.toReal - r| ≤ 1 / 2 ∧
      (|v.toReal - r| = 1 / 2 → (ties = .halfEven → r % 2 = 0) ∧ (ties = .halfAway → |v.toReal| < |(r : ℝ)|))

/-- R90, R93: the window's encoding of the number that a finite pattern stands for is that pattern, and `+0` for both
zeros, whether the number is an element of a buffer of numbers or a sample of WI, WQ or ILVBUF. Of every sample `n / √d`
with rational `n` and `0 < d` (a rational among them, of which the encoding as a number is the same) it is a finite pattern to
whose number none is nearer, and if another number is as near one with an even significand; from the half way between the
largest finite number and `2^1024` on it is the infinity of the right sign; and it is `+0` for 0. (A negative value that
rounds to zero may be either zero here; the model's is −0, log 15.) -/
def Obligations.WindowEncodingInvertsNumOf : Prop :=
  (∀ (p : BitVec 64) (v : ℚ), numOf p = some v →
    (Sys2Proof.Num.ofRat v).f64 = (if v = 0 then 0 else p) ∧
    (Sample.ofNum (Sys2Proof.Num.ofRat v)).f64 = if v = 0 then 0 else p) ∧
  (∀ v : ℚ, (Sys2Proof.Num.ofRat v).f64 = (Sample.ofNum (Sys2Proof.Num.ofRat v)).f64) ∧
  ∀ n d : ℚ, 0 < d →
    let v : Sample := ⟨Sys2Proof.Num.ofRat n, Sys2Proof.Num.ofRat d⟩
    let p := v.f64
    (∀ x, numOf p = some x → ∀ p' x', numOf p' = some x' →
      |v.toReal - x| ≤ |v.toReal - x'| ∧ (|v.toReal - x| = |v.toReal - x'| → x ≠ x' → p.getLsbD 0 = false)) ∧
    (numOf p = none ↔ ((2 : ℝ) ^ 54 - 1) * 2 ^ 970 ≤ |v.toReal|) ∧
    (numOf p = none → p = if 0 < n then 0x7FF0000000000000 else 0xFFF0000000000000) ∧
    (n = 0 → p = 0)

/-- R10: what the reference order of the model shows is so of the reals: a closed form whose sign it gives as positive or
negative is a positive or negative real, one that its test for 0 takes as 0 is 0, and `a < b` holds of the reals where it
gives it. (That the search for a sign ends with one for every other closed form rests on mathematics outside this package,
log 6.) -/
def Obligations.TheReferenceOrderIsSound : Prop :=
  ∀ a b : Sys2Proof.Num,
    (a.sign = 1 → 0 < a.toReal) ∧ (a.sign = -1 → a.toReal < 0) ∧ (a.vanishes = true → a.toReal = 0) ∧
      (a.lt b = true → a.toReal < b.toReal)

/-- R36: on the bus an error value is its 64-bit two's-complement pattern, saturated. -/
def Obligations.ErrorValuesSaturate : Prop :=
  ∀ s : State,
    (readReg s .errvalHi ++ readReg s .errvalLo).toInt = min (max (errval s) (-(2 ^ 63))) (2 ^ 63 - 1) ∧
    (readReg s .errlimHi ++ readReg s .errlimLo).toInt = min (max (errlim s) (-(2 ^ 63))) (2 ^ 63 - 1)

/-! Encoding. -/

/-- R119: the words of R114 written out decode to their commands. -/
def Obligations.SomeWordsDecode : Prop :=
  decode 0x00000000#32 = .ok .nop ∧ decode 0x1A000000#32 = .ok .map ∧ decode 0x22000000#32 = .ok .fgen ∧
    decode 0x2F000001#32 = .ok (.digmod true) ∧ decode 0x30000012#32 = .ok (.pmode 0x0012) ∧
    decode 0x32000006#32 = .ok (.vq 2 1) ∧ decode 0x42000000#32 = .ok .pdwasm ∧
    decode 0x3200000C#32 = .error .reservedField ∧ decode 0x10000001#32 = .error .mustBeZero

/-- R119, R114: decoding the word of a well-formed command gives the command back. -/
def Obligations.DecodeInvertsEncode : Prop :=
  ∀ i : Instr, WellFormed i = true → decode (encode i) = .ok i

/-- R119, R114: a word that decodes is the word of the command it decodes to, and that command is well-formed: no bit of a
command word is dropped. -/
def Obligations.EncodeInvertsDecode : Prop :=
  ∀ (w : Word) (i : Instr), decode w = .ok i → WellFormed i = true ∧ encode i = w ∧ w &&& rowMask i = rowMatch i

/-- R116, R112, R379: the illegal words are those with an unlisted opcode, a 1 in a bit that must be 0, or a reserved field
of `VQ`; writing one to CMD in IDLE raises `E_ILLCMD` with the word as `val`, and nothing else changes but CIX. -/
def Obligations.IllegalWordsRaiseIllcmd : Prop :=
  ∀ w : Word,
    let op := (w.extractLsb' 24 8).toNat
    let plain := [0x00, 0x01, 0x02, 0x10, 0x11, 0x18, 0x19, 0x1A, 0x20, 0x21, 0x22, 0x23, 0x28, 0x29, 0x31, 0x40, 0x41, 0x42]
    let illegal :=
      (op ∉ plain ∧ op ≠ 0x2F ∧ op ≠ 0x30 ∧ op ≠ 0x32) ∨
      (op ∈ plain ∧ w.extractLsb' 0 24 ≠ 0) ∨ (op = 0x2F ∧ w.extractLsb' 1 23 ≠ 0) ∨
      (op = 0x30 ∧ w.extractLsb' 16 8 ≠ 0) ∨
      (op = 0x32 ∧ (w.extractLsb' 4 20 ≠ 0 ∨ w.extractLsb' 0 2 = 3 ∨ w.extractLsb' 2 2 = 3))
    (illegal ↔ ¬ ∃ i, decode w = .ok i) ∧
    (illegal → ∀ s : State, s.phase = .idle → ∀ rest,
      step { s with bus := .write cmdAddr w :: rest, latency := 0 :: s.latency } =
        .next (faulted ⟨.illcmd, 0, w.toNat, 0⟩ { s with bus := rest }))

/-! Issue, the two events of a command, and faults. -/

/-- R112, R97: when no command is in execution and the host's next transaction writes the word of a command that the state
accepts, the step runs that command on the state after the transaction; it ends in the command's next state, or, where the
command's BUSY length is not zero, in BUSY with every register and buffer written but the latch and CIX. `withFetchWord`
makes a state whose next step runs the command (logs 3 and 4). -/
def Obligations.StepRunsTheDecodedCommand : Prop :=
  (∀ (s : State) (w : Word) (i : Instr) (rest : List HostEvent) (n : Nat) (lengths : List Nat),
    decode w = .ok i → (s.phase = .idle ∨ s.phase = .fault ∧ (i = .clrerr ∨ i = .sreset)) →
    s.bus = .write cmdAddr w :: rest → s.latency = n :: lengths →
      ∃ t, exec i { s with bus := rest } = .next t ∧
        (n = 0 → step s = .next { t with latency := lengths }) ∧
        ∀ k, n = k + 1 → step s = .next { t with
          phase := .busy ⟨t.latch, t.cix, k⟩
          latch := s.latch
          cix := s.cix
          latency := lengths }) ∧
  (∀ (s : State) (i : Instr), s.phase = .idle → WellFormed i = true →
    ∃ t, exec i { s with latency := 0 :: s.latency } = .next t ∧
      step (s.withFetchWord 32 (encode i).toNat) = .next { t with latency := s.latency })

/-- R113: in FAULT every CMD write but `CLRERR` and `SRESET` is dropped, and in BUSY every CMD write is: nothing changes but
that the host has made its transaction (logs 3 and 4). -/
def Obligations.DroppedCommandsChangeNothing : Prop :=
  (∀ (s : State) (w : Word) (rest : List HostEvent), s.phase = .fault → w ≠ 0x01000000#32 → w ≠ 0x02000000#32 →
    s.bus = .write cmdAddr w :: rest → step s = .next { s with bus := rest }) ∧
  (∀ (s : State) (w : Word) (rest : List HostEvent) (c : Completion) (n : Nat),
    s.phase = .busy c → c.left = n + 1 → s.bus = .write cmdAddr w :: rest →
      step s = .next { s with phase := .busy { c with left := n }, bus := rest })

/-- R8, R33, R356: every command has a next state in every state; one accepted in IDLE ends with CIX one higher, `SRESET`
with CIX 0. -/
def Obligations.EveryCommandAdvancesCix : Prop :=
  ∀ (i : Instr) (s : State), ∃ t, exec i s = .next t ∧
    (s.phase = .idle → t.cix = if i = .sreset then 0 else s.cix + 1)

/-- R380, with the two exceptions it names: a command that faults loads the latch with its own index, and leaves every
operand register, every staging register and the window as they were; it leaves every buffer as it was but for `DIGMOD`,
which keeps its steps' results and never writes WI or WQ; and the snapshot but for `VQ`. -/
def Obligations.FaultsAreFailFast : Prop :=
  ∀ (i : Instr) (s t : State), s.phase = .idle → exec i s = .next t → t.phase = .fault →
    (∃ e, t.latch = some ⟨e, s.cix⟩) ∧ t.cix = s.cix + 1 ∧ SameOperands s t ∧ SameWindow s t ∧ SameOutside s t ∧
    t.stage = s.stage ∧ ((∃ src order, i = .vq src order) ∨ t.snap = s.snap) ∧
    ((∃ d, i = .digmod d) ∨ t.mem = s.mem) ∧ t.mem.wi = s.mem.wi ∧ t.mem.wq = s.mem.wq

/-- R37: no command writes an operand register but `PMODE` the staging registers, and `SRESET`; the write latches and the
window registers are written by no command but `SRESET`. -/
def Obligations.CommandsKeepTheOperandRegisters : Prop :=
  ∀ (i : Instr) (s t : State), i ≠ .sreset → exec i s = .next t →
    SameOperands s t ∧ SameWindow s t ∧ SameOutside s t ∧ ((∃ mode, i = .pmode mode) ∨ t.stage = s.stage)

/-- R390, R91, R437: a step in FAULT leaves the latch and STATE as they are, unless the host writes `CLRERR` or `SRESET` to
CMD or resets the block. -/
def Obligations.TheFaultLatchIsSticky : Prop :=
  ∀ s t : State, s.phase = .fault → step s = .next t →
    (∀ rest, s.bus ≠ .write cmdAddr 0x01000000#32 :: rest) →
    (∀ rest, s.bus ≠ .write cmdAddr 0x02000000#32 :: rest) → (∀ rest, s.bus ≠ .reset :: rest) →
      t.phase = .fault ∧ t.latch = s.latch

/-- R97: an accepted command that is BUSY while the host makes `es.length` transactions, each a write of a staging
register or a read of STATUS or CIX, ends in the state of the fused reading, but for the data last read; in the fused
reading the host makes them right after the command, so that its writes land after those of `PMODE` and `SRESET`. The
command is any word in IDLE, or `CLRERR` or `SRESET` in FAULT. And the completion event, when the BUSY length is used up or
the host does nothing more, writes the latch and CIX and makes STATE FAULT if a fault is latched, else IDLE. The BUSY
lengths are those of log 4. -/
def Obligations.FusedAndSplitCommandsAgree : Prop :=
  (∀ (s : State) (w : Word) (es rest : List HostEvent) (lengths : List Nat),
    s.phase = .idle ∧ s.latch = none ∨ s.phase = .fault ∧ (w = 0x01000000#32 ∨ w = 0x02000000#32) →
    (∀ e ∈ es, e = .read 1#10 ∨ e = .read 8#10 ∨
      ∃ (f : ProfileField) (a : RegAddr) (v : Word), regAt a = some (.stage f) ∧ e = .write a v) →
      let start (l : Nat) : State := { s with bus := .write cmdAddr w :: (es ++ rest), latency := l :: lengths }
      ∃ a b, Sys2Proof.core.run (es.length + 2) (start (es.length + 1)) = .next a ∧
        Sys2Proof.core.run (es.length + 1) (start 0) = .next b ∧ a = { b with rdata := a.rdata }) ∧
  ∀ (s : State) (c : Completion), s.phase = .busy c → c.left = 0 ∨ s.bus = [] →
    step s = .next { s with
      phase := if c.latch.isSome then .fault else .idle
      latch := c.latch
      cix := c.cix }

/-! The bus. -/

/-- R82, R84 with R32 to R35, R371 and R48: a read of a named register gives that register: STATE, CIX, the code, the
sub-code, the index and the two values of the latched fault in FAULT (R36: each value saturated to 64 bits) and 0 in IDLE,
every operand, staging and snapshot register, every buffer's length, CMAPVALID (R54) and the window's registers. The data
read stands in the model's own field of log 5. -/
def Obligations.ReadsGiveTheNamedRegister : Prop :=
  ∀ (s : State) (rest : List HostEvent), Ready s →
    let gives (n : Nat) (v : Word) : Prop :=
      step { s with bus := .read (BitVec.ofNat 10 (n / 4)) :: rest } = .next { s with bus := rest, rdata := v }
    let len (k : Nat) : Word := BitVec.ofNat 32 k
    let codes : List (FaultCode × Nat) :=
      [(.length, 1), (.gran, 2), (.mismatch, 3), (.config, 4), (.symmap, 5), (.overflow, 6), (.illcmd, 7),
       (.capacity, 8), (.numfmt, 9), (.divzero, 10), (.bitcount, 11), (.seq, 12)]
    gives 0x000 0 ∧ gives 0x004 (if s.phase = .fault then 2 else 0) ∧ gives 0x020 s.cix ∧
    (s.phase = .idle → ∀ n ∈ [0x008, 0x00C, 0x010, 0x014, 0x018, 0x01C], gives n 0) ∧
    (∀ r c, s.phase = .fault → s.latch = some r → (r.raised.code, c) ∈ codes →
      gives 0x008 (BitVec.ofNat 32 (c + 256 * r.raised.sub.toNat)) ∧ gives 0x00C r.index ∧
        ∃ valLo valHi limLo limHi : Word,
          gives 0x010 valLo ∧ gives 0x014 valHi ∧ gives 0x018 limLo ∧ gives 0x01C limHi ∧
          (valHi ++ valLo).toInt = min (max r.raised.val (-(2 ^ 63))) (2 ^ 63 - 1) ∧
          (limHi ++ limLo).toInt = min (max r.raised.lim (-(2 ^ 63))) (2 ^ 63 - 1)) ∧
    (∃ valid : Word, gives 0x134 valid ∧ ∀ p, ∀ h : p < 32, valid.getLsbD p = (s.mem.cmap[p]).isSome) ∧
    gives 0x200 (s.bufsel.setWidth 32) ∧
    (∀ q ∈ [(0x040, s.modtype), (0x044, s.prbsord), (0x048, s.sps), (0x04C, s.span), (0x050, s.fkind),
        (0x058, s.rolloff.lo), (0x05C, s.rolloff.hi), (0x0C0, s.pd.op), (0x0C4, s.pd.markers), (0x0C8, s.pd.phctl),
        (0x0CC, s.pd.rfoff), (0x0D0, s.pd.widx), (0x0D4, s.pd.wmask), (0x0E0, s.pd.freq.lo), (0x0E4, s.pd.freq.hi),
        (0x0E8, s.pd.phase.lo), (0x0EC, s.pd.phase.hi), (0x0F0, s.pd.time.lo), (0x0F4, s.pd.time.hi),
        (0x0F8, s.pd.power.lo), (0x0FC, s.pd.power.hi), (0x204, s.bufidx)], gives q.1 q.2) ∧
    (∀ q ∈ [(0x080, s.stage), (0x0A0, s.snap)],
      gives q.1 q.2.gran ∧ gives (q.1 + 0x04) q.2.minlen ∧ gives (q.1 + 0x08) q.2.binmult ∧
        gives (q.1 + 0x0C) q.2.shift ∧ gives (q.1 + 0x10) q.2.width ∧ gives (q.1 + 0x14) q.2.endian ∧
        gives (q.1 + 0x18) q.2.idlegran) ∧
    ∀ q ∈ [(0x100, s.mem.bitbuf.length), (0x104, s.mem.symbuf.length), (0x108, s.mem.extbuf.length),
        (0x10C, s.mem.xbuf.length), (0x110, s.mem.taps.length), (0x114, s.mem.ybuf.length),
        (0x118, s.mem.zbuf.length), (0x11C, s.mem.wi.length), (0x120, s.mem.wq.length),
        (0x124, s.mem.ilvbuf.length), (0x128, s.mem.qbuf.length), (0x12C, s.mem.recbuf.length),
        (0x130, s.mem.filebuf.length)], gives q.1 (len q.2)

/-- R60, R83, R48: a read of a reserved address gives 0; a write to a reserved address, to a read-only register, or of a
value other than 0 to a length register is ignored; and a write of 0 to BITLEN, WILEN or WQLEN empties that buffer. The data
read stands in the model's own field of log 5. -/
def Obligations.ReservedAndReadOnlyAddresses : Prop :=
  ∀ (s : State) (a : RegAddr) (v : Word) (rest : List HostEvent), Ready s →
    let n := 4 * a.toNat
    let reserved := ¬ (n ≤ 0x20 ∨ (0x40 ≤ n ∧ n ≤ 0x50) ∨ n = 0x58 ∨ n = 0x5C ∨ (0x80 ≤ n ∧ n ≤ 0x98) ∨
      (0xA0 ≤ n ∧ n ≤ 0xB8) ∨ (0xC0 ≤ n ∧ n ≤ 0xD4) ∨ (0xE0 ≤ n ∧ n ≤ 0x134) ∨ (0x200 ≤ n ∧ n ≤ 0x214))
    let readOnly := (4 ≤ n ∧ n ≤ 0x20) ∨ (0xA0 ≤ n ∧ n ≤ 0xB8) ∨ (0x100 ≤ n ∧ n ≤ 0x134)
    let clearable := n = 0x100 ∨ n = 0x11C ∨ n = 0x120
    (reserved → step { s with bus := .read a :: rest } = .next { s with bus := rest, rdata := 0 }) ∧
    (reserved ∨ (readOnly ∧ ¬ (clearable ∧ v = 0)) →
      step { s with bus := .write a v :: rest } = .next { s with bus := rest }) ∧
    (n = 0x100 → step { s with bus := .write a 0 :: rest } =
      .next { s with bus := rest, mem := { s.mem with bitbuf := [] } }) ∧
    (n = 0x11C → step { s with bus := .write a 0 :: rest } =
      .next { s with bus := rest, mem := { s.mem with wi := [] } }) ∧
    (n = 0x120 → step { s with bus := .write a 0 :: rest } =
      .next { s with bus := rest, mem := { s.mem with wq := [] } })

/-- R37, R82, R83: an operand register, BUFSEL and BUFIDX read back the value last written (BUFSEL its low four bits), and
the write changes no other register, no buffer, no write latch and no phase. The data read stands in the field of log 5. -/
def Obligations.WrittenRegistersReadBack : Prop :=
  ∀ (s : State) (a : RegAddr) (v : Word) (rest : List HostEvent), Ready s →
    let n := 4 * a.toNat
    (0x40 ≤ n ∧ n ≤ 0x50) ∨ n = 0x58 ∨ n = 0x5C ∨ (0x80 ≤ n ∧ n ≤ 0x98) ∨ (0xC0 ≤ n ∧ n ≤ 0xD4) ∨
      (0xE0 ≤ n ∧ n ≤ 0xFC) ∨ n = 0x200 ∨ n = 0x204 →
      ∃ t, step { s with bus := .write a v :: .read a :: rest } = .next t ∧
        t.bus = .read a :: rest ∧ t.mem = s.mem ∧ t.wdat = s.wdat ∧ t.phase = s.phase ∧ t.latch = s.latch ∧
        step t = .next { t with bus := rest, rdata := if n = 0x200 then v &&& 0xF else v } ∧
        ∀ b r, b ≠ a → regAt b = some r → readReg t r = readReg s r

/-- R88 with R87 and R50: a read of BUFDATk gives 0 for the ids 14 and 15 and beyond the element's words, is refused where
there is no element or no valid entry, and otherwise gives word `k` of the element, the last word advancing BUFIDX: a bit,
a byte or a word zero-extended, a number its `F64` pattern with the low word first, a complex value its I lane before its Q
lane. The data read stands in the field of log 5, the refusals are those of log 10. -/
def Obligations.WindowReads : Prop :=
  ∀ (s : State) (k : Fin 4) (rest : List HostEvent), Ready s →
    let start : State := { s with bus := .read (BitVec.ofNat 10 (0x82 + k.val)) :: rest }
    let idx := s.bufidx.toNat
    let number (p : BitVec 64) : List Word := [p.extractLsb' 0 32, p.extractLsb' 32 32]
    let complex (z : Cplx) : List Word := number z.i.f64 ++ number z.q.f64
    let buffers : List (Nat × Nat × Option (List Word)) :=
      [(0, 1, s.mem.bitbuf[idx]?.map fun x => [BitVec.ofNat 32 x.toNat]),
       (1, 4, s.mem.symbuf[idx]?.map complex), (2, 4, s.mem.extbuf[idx]?.map complex),
       (3, 4, s.mem.xbuf[idx]?.map complex), (4, 2, s.mem.taps[idx]?.map fun v => number v.f64),
       (5, 4, s.mem.ybuf[idx]?.map complex), (6, 4, s.mem.zbuf[idx]?.map complex),
       (7, 2, s.mem.wi[idx]?.map fun v => number v.f64), (8, 2, s.mem.wq[idx]?.map fun v => number v.f64),
       (9, 2, s.mem.ilvbuf[idx]?.map fun v => number v.f64),
       (10, 1, s.mem.qbuf[idx]?.map fun y => [BitVec.ofNat 32 y.toNat]), (11, 1, s.mem.recbuf[idx]?.map fun w => [w]),
       (12, 1, s.mem.filebuf[idx]?.map fun y => [BitVec.ofNat 32 y.toNat])]
    let answer (words : Nat) (element : List Word) : State :=
      { s with
        bus := rest
        rdata := element.getD k.val 0
        bufidx := if k.val + 1 = words then s.bufidx + 1 else s.bufidx }
    (s.bufsel.toNat = 14 ∨ s.bufsel.toNat = 15 → step start = .next { s with bus := rest, rdata := 0 }) ∧
    (∀ q ∈ buffers, s.bufsel.toNat = q.1 →
      (q.2.1 ≤ k.val → step start = .next { s with bus := rest, rdata := 0 }) ∧
      (k.val < q.2.1 → q.2.2 = none → step start = .refused .noSuchElement) ∧
      ∀ element, k.val < q.2.1 → q.2.2 = some element → step start = .next (answer q.2.1 element)) ∧
    (s.bufsel.toNat = 13 →
      (32 ≤ idx → step start = .refused .noSuchElement) ∧
      (idx < 32 → cmapPoint s.mem idx = none → step start = .refused .invalidEntry) ∧
      ∀ z, cmapPoint s.mem idx = some z → step start = .next (answer 4 (complex z)))

/-- R89, R91: a write of BUFDATk stores the latch; the write of an element's last word pushes a bit onto BITBUF or a number
onto WI or WQ, is dropped where the buffer is full, and faults in IDLE where the pattern is no number (its `val` is the
pattern read as a signed number: the model's reading, log 9). -/
def Obligations.WindowPushes : Prop :=
  ∀ (s : State) (k : Fin 4) (v : Word) (rest : List HostEvent), Ready s →
    let start : State := { s with bus := .write (BitVec.ofNat 10 (0x82 + k.val)) v :: rest }
    let latched : State := { s with bus := rest, wdat := s.wdat.set k v }
    let pattern := v ++ s.wdat[0]
    let fits := s.mem.wi.length < s.params.caps.w.size
    (¬ (s.bufsel.toNat = 0 ∧ k = 0) ∧ ¬ ((s.bufsel.toNat = 7 ∨ s.bufsel.toNat = 8) ∧ k = 1) ∧
        ¬ (s.bufsel.toNat = 13 ∧ k = 3) → step start = .next latched) ∧
    (s.bufsel.toNat = 0 ∧ k = 0 → step start = .next
      (if s.mem.bitbuf.length < s.params.caps.bit.size then
        { latched with mem := { s.mem with bitbuf := s.mem.bitbuf ++ [v.getLsbD 0] } } else latched)) ∧
    (s.bufsel.toNat = 7 ∧ k = 1 → ∀ x, numOf pattern = some x → step start = .next
      (if fits then
        { latched with mem := { s.mem with wi := s.mem.wi ++ [Sample.ofNum (s.params.numerics.ofRat x)] } }
      else latched)) ∧
    (s.bufsel.toNat = 8 ∧ k = 1 → ∀ x, numOf pattern = some x → step start = .next
      (if s.mem.wq.length < s.params.caps.w.size then
        { latched with mem := { s.mem with wq := s.mem.wq ++ [Sample.ofNum (s.params.numerics.ofRat x)] } }
      else latched)) ∧
    ((s.bufsel.toNat = 7 ∨ s.bufsel.toNat = 8) ∧ k = 1 → numOf pattern = none → step start = .next
      (if s.phase = .idle then
        { latched with latch := some ⟨⟨.numfmt, 0, pattern.toInt, 0⟩, s.cix⟩, phase := .fault }
      else latched))

/-- R92, R91: the write of BUFDAT3 with CMAP selected makes entry BUFIDX valid with the two numbers in the latches and
advances BUFIDX; beyond entry 31 it is dropped; a pattern that is no number faults in IDLE, the I pattern first (its `val`
is the pattern read as a signed number: the model's reading, log 9). -/
def Obligations.CmapWrites : Prop :=
  ∀ (s : State) (v : Word) (rest : List HostEvent), Ready s → s.bufsel.toNat = 13 →
    let start : State := { s with bus := .write (BitVec.ofNat 10 0x85) v :: rest }
    let latched : State := { s with bus := rest, wdat := s.wdat.set 3 v }
    let idx := s.bufidx.toNat
    let faultWith (p : BitVec 64) : State :=
      if s.phase = .idle then { latched with latch := some ⟨⟨.numfmt, 0, p.toInt, 0⟩, s.cix⟩, phase := .fault }
      else latched
    (32 ≤ idx → step start = .next latched) ∧
    (idx < 32 → numOf (s.wdat[1] ++ s.wdat[0]) = none → step start = .next (faultWith (s.wdat[1] ++ s.wdat[0]))) ∧
    (idx < 32 → numOf (s.wdat[1] ++ s.wdat[0]) ≠ none → numOf (v ++ s.wdat[2]) = none →
      step start = .next (faultWith (v ++ s.wdat[2]))) ∧
    (∀ i q, idx < 32 → numOf (s.wdat[1] ++ s.wdat[0]) = some i → numOf (v ++ s.wdat[2]) = some q →
      ∃ t, step start = .next { latched with mem := { s.mem with cmap := t }, bufidx := s.bufidx + 1 } ∧
        ∀ p, ∀ h : p < 32,
          t[p] = if p = idx then some ⟨s.params.numerics.ofRat i, s.params.numerics.ofRat q⟩ else s.mem.cmap[p])

/-- R86: in BUSY a read of STATUS gives 1 and of CIX the index of the command in execution, a write of a staging register is
stored, a CMD write is dropped, and every other transaction is refused. The BUSY length is that of log 4, the data read
stands in the field of log 5. -/
def Obligations.BusyAccess : Prop :=
  ∀ (s : State) (c : Completion) (n : Nat) (a : RegAddr) (v : Word) (rest : List HostEvent),
    s.phase = .busy c → c.left = n + 1 →
    let s' : State := { s with phase := .busy { c with left := n }, bus := rest }
    let addr := 4 * a.toNat
    let staging := 0x80 ≤ addr ∧ addr ≤ 0x98
    (step { s with bus := .read a :: rest } =
      if addr = 0x004 then .next { s' with rdata := 1 }
      else if addr = 0x020 then .next { s' with rdata := s.cix } else .refused .busyAccess) ∧
    (addr = 0 → step { s with bus := .write a v :: rest } = .next s') ∧
    (staging → ∃ f, regAt a = some (.stage f) ∧
      step { s with bus := .write a v :: rest } = .next { s' with stage := setProfileField s.stage v f }) ∧
    (addr ≠ 0 ∧ ¬ staging → step { s with bus := .write a v :: rest } = .refused .busyAccess)

/-! Whole-machine claims. -/

/-- R32, R34, R48, R51, R308: every step keeps every buffer within its capacity, RECBUF a whole number of records, no fault
latched in IDLE and one in FAULT; in BUSY a fault is held in the latch (by a `CLRERR` or `SRESET` on its way, log 14) or is
to come at completion, but not both, and CIX is to be one higher or 0 (R33). So ERRCODE shows a code exactly in FAULT. -/
def Obligations.EveryStepKeepsTheInvariant : Prop :=
  (∀ s t : State, Inv s → step s = .next t → Inv t) ∧
  ∀ s : State, Inv s → ((errcodeWord s).extractLsb' 0 8 ≠ 0#8 ↔ s.phase = .fault)

/-- R59: the reset state has the invariant, and every register of it reads 0. -/
def Obligations.ResetHasTheInvariant : Prop :=
  Inv State.reset ∧ (∀ r, readReg State.reset r = 0) ∧ State.reset.phase = .idle ∧ State.reset.latch = none ∧
    (∀ b, bufferLength State.reset.mem b = 0) ∧ State.reset.mem.cmap = Vector.replicate 32 none ∧
    State.reset.wdat = Vector.replicate 4 0

end
end

