-- ==== Sys2Proof/Laws/Buffers.lean ====
section
/-! SUPPORT. The lengths of the sequences that the commands build. -/

namespace Sys2Proof.Machine

@[simp] theorem lfsrRun_length (taps : List Nat) (count : Nat) (reg : List Bool) :
    (lfsrRun taps count reg).length = count := by
  induction count generalizing reg with
  | zero => rfl
  | succ n ih => simp [lfsrRun, ih]

@[simp] theorem prbsPeriod_length (n : Nat) : (prbsPeriod n).length = 2 ^ n - 1 := by simp [prbsPeriod]

@[simp] theorem repeatSeq_length {α : Type} (seq : List α) (r : Nat) :
    (repeatSeq seq r).length = r * seq.length := by simp [repeatSeq]

theorem circularExtend_length {α : Type} (seq : List α) {h : Nat} (hh : h ≤ seq.length) :
    (circularExtend seq h).length = seq.length + 2 * h := by
  simp only [circularExtend, List.length_append, List.length_drop, List.length_take]
  omega

theorem zeroStuff_length (seq : List Cplx) {p : Nat} (hp : p ≠ 0) :
    (zeroStuff seq p).length = seq.length * p := by
  have h : p - 1 + 1 = p := by omega
  induction seq with
  | nil => simp [zeroStuff]
  | cons e es ih =>
    have : zeroStuff (e :: es) p = (e :: List.replicate (p - 1) zeroSample) ++ zeroStuff es p := rfl
    rw [this, List.length_append, ih, List.length_cons, List.length_replicate, h, List.length_cons]
    ring

@[simp] theorem filterTaps_length (ν : Config.Numerics) (kind : Nat) (a : Rat) (span p : Nat) :
    (filterTaps ν kind a span p).length = span * p + 1 := by simp [filterTaps]

@[simp] theorem convolve_length (ν : Config.Numerics) (taps : List Num) (x : List Cplx) :
    (convolve ν taps x).length = x.length + taps.length - 1 := by simp [convolve]

theorem trimEnds_length {α : Type} (seq : List α) (t : Nat) : (trimEnds seq t).length = seq.length - 2 * t := by
  simp only [trimEnds, List.length_take, List.length_drop]
  omega

theorem interleave_length {α : Type} (i q : List α) (h : i.length = q.length) :
    (interleave i q).length = 2 * i.length := by
  induction i generalizing q with
  | nil => simp [interleave]
  | cons a as ih =>
    cases q with
    | nil => cases h
    | cons b bs =>
      have hlen : as.length = bs.length := by simpa using h
      have : interleave (a :: as) (b :: bs) = a :: b :: interleave as bs := rfl
      rw [this, List.length_cons, List.length_cons, ih bs hlen, List.length_cons]
      omega

@[simp] theorem sampleBytes_length (big : Bool) (n q : Nat) : (sampleBytes big n q).length = n := by
  simp [sampleBytes]

theorem flatMap_length_const {α β : Type} (f : α → List β) (n : Nat) (h : ∀ a, (f a).length = n) (l : List α) :
    (l.flatMap f).length = l.length * n := by
  induction l with
  | nil => simp
  | cons a as ih =>
    rw [List.flatMap_cons, List.length_append, h, ih, List.length_cons]
    ring

@[simp] theorem recordWords_length (fmt : BitVec 3) (x : PdwFields) : (recordWords fmt x).length = 6 := rfl

@[simp] theorem le4_length (w : Word) : (le4 w).length = 4 := rfl

theorem assembleFile_length (p : Config.Params) (records : List Word) :
    (assembleFile p records).length = 4096 + 4 * records.length := by
  have h := p.headersFit
  have hr := flatMap_length_const le4 4 le4_length records
  simp only [assembleFile, List.length_append, List.length_replicate, hr, pdwOffset]
  omega

end Sys2Proof.Machine
end

