-- ==== Sys2Proof/Laws/State.lean ====
section
/-! SUPPORT. One lemma per field for each named update of State, true by unfolding. -/

namespace Sys2Proof.Machine

@[simp] theorem latchFault_phase (e : Raise) (s : State) : (latchFault e s).phase = .fault := rfl
@[simp] theorem latchFault_cix (e : Raise) (s : State) : (latchFault e s).cix = s.cix := rfl
@[simp] theorem latchFault_latch (e : Raise) (s : State) : (latchFault e s).latch = some ⟨e, s.cix⟩ := rfl
@[simp] theorem latchFault_modtype (e : Raise) (s : State) : (latchFault e s).modtype = s.modtype := rfl
@[simp] theorem latchFault_prbsord (e : Raise) (s : State) : (latchFault e s).prbsord = s.prbsord := rfl
@[simp] theorem latchFault_sps (e : Raise) (s : State) : (latchFault e s).sps = s.sps := rfl
@[simp] theorem latchFault_span (e : Raise) (s : State) : (latchFault e s).span = s.span := rfl
@[simp] theorem latchFault_fkind (e : Raise) (s : State) : (latchFault e s).fkind = s.fkind := rfl
@[simp] theorem latchFault_rolloff (e : Raise) (s : State) : (latchFault e s).rolloff = s.rolloff := rfl
@[simp] theorem latchFault_stage (e : Raise) (s : State) : (latchFault e s).stage = s.stage := rfl
@[simp] theorem latchFault_snap (e : Raise) (s : State) : (latchFault e s).snap = s.snap := rfl
@[simp] theorem latchFault_pd (e : Raise) (s : State) : (latchFault e s).pd = s.pd := rfl
@[simp] theorem latchFault_mem (e : Raise) (s : State) : (latchFault e s).mem = s.mem := rfl
@[simp] theorem latchFault_bufsel (e : Raise) (s : State) : (latchFault e s).bufsel = s.bufsel := rfl
@[simp] theorem latchFault_bufidx (e : Raise) (s : State) : (latchFault e s).bufidx = s.bufidx := rfl
@[simp] theorem latchFault_wdat (e : Raise) (s : State) : (latchFault e s).wdat = s.wdat := rfl
@[simp] theorem latchFault_params (e : Raise) (s : State) : (latchFault e s).params = s.params := rfl
@[simp] theorem latchFault_bus (e : Raise) (s : State) : (latchFault e s).bus = s.bus := rfl
@[simp] theorem latchFault_latency (e : Raise) (s : State) : (latchFault e s).latency = s.latency := rfl
@[simp] theorem latchFault_rdata (e : Raise) (s : State) : (latchFault e s).rdata = s.rdata := rfl

@[simp] theorem takeFault_phase (e : Raise) (s : State) : (takeFault e s).phase = .fault := rfl
@[simp] theorem takeFault_cix (e : Raise) (s : State) : (takeFault e s).cix = s.cix + 1 := rfl
@[simp] theorem takeFault_latch (e : Raise) (s : State) : (takeFault e s).latch = some ⟨e, s.cix⟩ := rfl
@[simp] theorem takeFault_modtype (e : Raise) (s : State) : (takeFault e s).modtype = s.modtype := rfl
@[simp] theorem takeFault_prbsord (e : Raise) (s : State) : (takeFault e s).prbsord = s.prbsord := rfl
@[simp] theorem takeFault_sps (e : Raise) (s : State) : (takeFault e s).sps = s.sps := rfl
@[simp] theorem takeFault_span (e : Raise) (s : State) : (takeFault e s).span = s.span := rfl
@[simp] theorem takeFault_fkind (e : Raise) (s : State) : (takeFault e s).fkind = s.fkind := rfl
@[simp] theorem takeFault_rolloff (e : Raise) (s : State) : (takeFault e s).rolloff = s.rolloff := rfl
@[simp] theorem takeFault_stage (e : Raise) (s : State) : (takeFault e s).stage = s.stage := rfl
@[simp] theorem takeFault_snap (e : Raise) (s : State) : (takeFault e s).snap = s.snap := rfl
@[simp] theorem takeFault_pd (e : Raise) (s : State) : (takeFault e s).pd = s.pd := rfl
@[simp] theorem takeFault_mem (e : Raise) (s : State) : (takeFault e s).mem = s.mem := rfl
@[simp] theorem takeFault_bufsel (e : Raise) (s : State) : (takeFault e s).bufsel = s.bufsel := rfl
@[simp] theorem takeFault_bufidx (e : Raise) (s : State) : (takeFault e s).bufidx = s.bufidx := rfl
@[simp] theorem takeFault_wdat (e : Raise) (s : State) : (takeFault e s).wdat = s.wdat := rfl
@[simp] theorem takeFault_params (e : Raise) (s : State) : (takeFault e s).params = s.params := rfl
@[simp] theorem takeFault_bus (e : Raise) (s : State) : (takeFault e s).bus = s.bus := rfl
@[simp] theorem takeFault_latency (e : Raise) (s : State) : (takeFault e s).latency = s.latency := rfl
@[simp] theorem takeFault_rdata (e : Raise) (s : State) : (takeFault e s).rdata = s.rdata := rfl

@[simp] theorem returnFromFault_phase (s : State) : (returnFromFault s).phase = .idle := rfl
@[simp] theorem returnFromFault_cix (s : State) : (returnFromFault s).cix = s.cix := rfl
@[simp] theorem returnFromFault_latch (s : State) : (returnFromFault s).latch = none := rfl
@[simp] theorem returnFromFault_modtype (s : State) : (returnFromFault s).modtype = s.modtype := rfl
@[simp] theorem returnFromFault_prbsord (s : State) : (returnFromFault s).prbsord = s.prbsord := rfl
@[simp] theorem returnFromFault_sps (s : State) : (returnFromFault s).sps = s.sps := rfl
@[simp] theorem returnFromFault_span (s : State) : (returnFromFault s).span = s.span := rfl
@[simp] theorem returnFromFault_fkind (s : State) : (returnFromFault s).fkind = s.fkind := rfl
@[simp] theorem returnFromFault_rolloff (s : State) : (returnFromFault s).rolloff = s.rolloff := rfl
@[simp] theorem returnFromFault_stage (s : State) : (returnFromFault s).stage = s.stage := rfl
@[simp] theorem returnFromFault_snap (s : State) : (returnFromFault s).snap = s.snap := rfl
@[simp] theorem returnFromFault_pd (s : State) : (returnFromFault s).pd = s.pd := rfl
@[simp] theorem returnFromFault_mem (s : State) : (returnFromFault s).mem = s.mem := rfl
@[simp] theorem returnFromFault_bufsel (s : State) : (returnFromFault s).bufsel = s.bufsel := rfl
@[simp] theorem returnFromFault_bufidx (s : State) : (returnFromFault s).bufidx = s.bufidx := rfl
@[simp] theorem returnFromFault_wdat (s : State) : (returnFromFault s).wdat = s.wdat := rfl
@[simp] theorem returnFromFault_params (s : State) : (returnFromFault s).params = s.params := rfl
@[simp] theorem returnFromFault_bus (s : State) : (returnFromFault s).bus = s.bus := rfl
@[simp] theorem returnFromFault_latency (s : State) : (returnFromFault s).latency = s.latency := rfl
@[simp] theorem returnFromFault_rdata (s : State) : (returnFromFault s).rdata = s.rdata := rfl

@[simp] theorem advanceIndex_phase (s : State) : (advanceIndex s).phase = s.phase := rfl
@[simp] theorem advanceIndex_cix (s : State) : (advanceIndex s).cix = s.cix + 1 := rfl
@[simp] theorem advanceIndex_latch (s : State) : (advanceIndex s).latch = s.latch := rfl
@[simp] theorem advanceIndex_modtype (s : State) : (advanceIndex s).modtype = s.modtype := rfl
@[simp] theorem advanceIndex_prbsord (s : State) : (advanceIndex s).prbsord = s.prbsord := rfl
@[simp] theorem advanceIndex_sps (s : State) : (advanceIndex s).sps = s.sps := rfl
@[simp] theorem advanceIndex_span (s : State) : (advanceIndex s).span = s.span := rfl
@[simp] theorem advanceIndex_fkind (s : State) : (advanceIndex s).fkind = s.fkind := rfl
@[simp] theorem advanceIndex_rolloff (s : State) : (advanceIndex s).rolloff = s.rolloff := rfl
@[simp] theorem advanceIndex_stage (s : State) : (advanceIndex s).stage = s.stage := rfl
@[simp] theorem advanceIndex_snap (s : State) : (advanceIndex s).snap = s.snap := rfl
@[simp] theorem advanceIndex_pd (s : State) : (advanceIndex s).pd = s.pd := rfl
@[simp] theorem advanceIndex_mem (s : State) : (advanceIndex s).mem = s.mem := rfl
@[simp] theorem advanceIndex_bufsel (s : State) : (advanceIndex s).bufsel = s.bufsel := rfl
@[simp] theorem advanceIndex_bufidx (s : State) : (advanceIndex s).bufidx = s.bufidx := rfl
@[simp] theorem advanceIndex_wdat (s : State) : (advanceIndex s).wdat = s.wdat := rfl
@[simp] theorem advanceIndex_params (s : State) : (advanceIndex s).params = s.params := rfl
@[simp] theorem advanceIndex_bus (s : State) : (advanceIndex s).bus = s.bus := rfl
@[simp] theorem advanceIndex_latency (s : State) : (advanceIndex s).latency = s.latency := rfl
@[simp] theorem advanceIndex_rdata (s : State) : (advanceIndex s).rdata = s.rdata := rfl

@[simp] theorem takeSnapshot_phase (s : State) : (takeSnapshot s).phase = s.phase := rfl
@[simp] theorem takeSnapshot_cix (s : State) : (takeSnapshot s).cix = s.cix := rfl
@[simp] theorem takeSnapshot_latch (s : State) : (takeSnapshot s).latch = s.latch := rfl
@[simp] theorem takeSnapshot_modtype (s : State) : (takeSnapshot s).modtype = s.modtype := rfl
@[simp] theorem takeSnapshot_prbsord (s : State) : (takeSnapshot s).prbsord = s.prbsord := rfl
@[simp] theorem takeSnapshot_sps (s : State) : (takeSnapshot s).sps = s.sps := rfl
@[simp] theorem takeSnapshot_span (s : State) : (takeSnapshot s).span = s.span := rfl
@[simp] theorem takeSnapshot_fkind (s : State) : (takeSnapshot s).fkind = s.fkind := rfl
@[simp] theorem takeSnapshot_rolloff (s : State) : (takeSnapshot s).rolloff = s.rolloff := rfl
@[simp] theorem takeSnapshot_stage (s : State) : (takeSnapshot s).stage = s.stage := rfl
@[simp] theorem takeSnapshot_snap (s : State) : (takeSnapshot s).snap = s.stage := rfl
@[simp] theorem takeSnapshot_pd (s : State) : (takeSnapshot s).pd = s.pd := rfl
@[simp] theorem takeSnapshot_mem (s : State) : (takeSnapshot s).mem = s.mem := rfl
@[simp] theorem takeSnapshot_bufsel (s : State) : (takeSnapshot s).bufsel = s.bufsel := rfl
@[simp] theorem takeSnapshot_bufidx (s : State) : (takeSnapshot s).bufidx = s.bufidx := rfl
@[simp] theorem takeSnapshot_wdat (s : State) : (takeSnapshot s).wdat = s.wdat := rfl
@[simp] theorem takeSnapshot_params (s : State) : (takeSnapshot s).params = s.params := rfl
@[simp] theorem takeSnapshot_bus (s : State) : (takeSnapshot s).bus = s.bus := rfl
@[simp] theorem takeSnapshot_latency (s : State) : (takeSnapshot s).latency = s.latency := rfl
@[simp] theorem takeSnapshot_rdata (s : State) : (takeSnapshot s).rdata = s.rdata := rfl

@[simp] theorem accepted_phase (n : Nat) (s t : State) : (accepted n s t).phase = .busy ⟨t.latch, t.cix, n⟩ := rfl
@[simp] theorem accepted_cix (n : Nat) (s t : State) : (accepted n s t).cix = s.cix := rfl
@[simp] theorem accepted_latch (n : Nat) (s t : State) : (accepted n s t).latch = s.latch := rfl
@[simp] theorem accepted_modtype (n : Nat) (s t : State) : (accepted n s t).modtype = t.modtype := rfl
@[simp] theorem accepted_prbsord (n : Nat) (s t : State) : (accepted n s t).prbsord = t.prbsord := rfl
@[simp] theorem accepted_sps (n : Nat) (s t : State) : (accepted n s t).sps = t.sps := rfl
@[simp] theorem accepted_span (n : Nat) (s t : State) : (accepted n s t).span = t.span := rfl
@[simp] theorem accepted_fkind (n : Nat) (s t : State) : (accepted n s t).fkind = t.fkind := rfl
@[simp] theorem accepted_rolloff (n : Nat) (s t : State) : (accepted n s t).rolloff = t.rolloff := rfl
@[simp] theorem accepted_stage (n : Nat) (s t : State) : (accepted n s t).stage = t.stage := rfl
@[simp] theorem accepted_snap (n : Nat) (s t : State) : (accepted n s t).snap = t.snap := rfl
@[simp] theorem accepted_pd (n : Nat) (s t : State) : (accepted n s t).pd = t.pd := rfl
@[simp] theorem accepted_mem (n : Nat) (s t : State) : (accepted n s t).mem = t.mem := rfl
@[simp] theorem accepted_bufsel (n : Nat) (s t : State) : (accepted n s t).bufsel = t.bufsel := rfl
@[simp] theorem accepted_bufidx (n : Nat) (s t : State) : (accepted n s t).bufidx = t.bufidx := rfl
@[simp] theorem accepted_wdat (n : Nat) (s t : State) : (accepted n s t).wdat = t.wdat := rfl
@[simp] theorem accepted_params (n : Nat) (s t : State) : (accepted n s t).params = t.params := rfl
@[simp] theorem accepted_bus (n : Nat) (s t : State) : (accepted n s t).bus = t.bus := rfl
@[simp] theorem accepted_latency (n : Nat) (s t : State) : (accepted n s t).latency = t.latency := rfl
@[simp] theorem accepted_rdata (n : Nat) (s t : State) : (accepted n s t).rdata = t.rdata := rfl

@[simp] theorem complete_phase (c : Completion) (s : State) : (complete c s).phase = if c.latch.isSome then .fault else .idle := rfl
@[simp] theorem complete_cix (c : Completion) (s : State) : (complete c s).cix = c.cix := rfl
@[simp] theorem complete_latch (c : Completion) (s : State) : (complete c s).latch = c.latch := rfl
@[simp] theorem complete_modtype (c : Completion) (s : State) : (complete c s).modtype = s.modtype := rfl
@[simp] theorem complete_prbsord (c : Completion) (s : State) : (complete c s).prbsord = s.prbsord := rfl
@[simp] theorem complete_sps (c : Completion) (s : State) : (complete c s).sps = s.sps := rfl
@[simp] theorem complete_span (c : Completion) (s : State) : (complete c s).span = s.span := rfl
@[simp] theorem complete_fkind (c : Completion) (s : State) : (complete c s).fkind = s.fkind := rfl
@[simp] theorem complete_rolloff (c : Completion) (s : State) : (complete c s).rolloff = s.rolloff := rfl
@[simp] theorem complete_stage (c : Completion) (s : State) : (complete c s).stage = s.stage := rfl
@[simp] theorem complete_snap (c : Completion) (s : State) : (complete c s).snap = s.snap := rfl
@[simp] theorem complete_pd (c : Completion) (s : State) : (complete c s).pd = s.pd := rfl
@[simp] theorem complete_mem (c : Completion) (s : State) : (complete c s).mem = s.mem := rfl
@[simp] theorem complete_bufsel (c : Completion) (s : State) : (complete c s).bufsel = s.bufsel := rfl
@[simp] theorem complete_bufidx (c : Completion) (s : State) : (complete c s).bufidx = s.bufidx := rfl
@[simp] theorem complete_wdat (c : Completion) (s : State) : (complete c s).wdat = s.wdat := rfl
@[simp] theorem complete_params (c : Completion) (s : State) : (complete c s).params = s.params := rfl
@[simp] theorem complete_bus (c : Completion) (s : State) : (complete c s).bus = s.bus := rfl
@[simp] theorem complete_latency (c : Completion) (s : State) : (complete c s).latency = s.latency := rfl
@[simp] theorem complete_rdata (c : Completion) (s : State) : (complete c s).rdata = s.rdata := rfl

@[simp] theorem resetBlock_phase (s : State) : (resetBlock s).phase = .idle := rfl
@[simp] theorem resetBlock_cix (s : State) : (resetBlock s).cix = 0 := rfl
@[simp] theorem resetBlock_latch (s : State) : (resetBlock s).latch = none := rfl
@[simp] theorem resetBlock_modtype (s : State) : (resetBlock s).modtype = 0 := rfl
@[simp] theorem resetBlock_prbsord (s : State) : (resetBlock s).prbsord = 0 := rfl
@[simp] theorem resetBlock_sps (s : State) : (resetBlock s).sps = 0 := rfl
@[simp] theorem resetBlock_span (s : State) : (resetBlock s).span = 0 := rfl
@[simp] theorem resetBlock_fkind (s : State) : (resetBlock s).fkind = 0 := rfl
@[simp] theorem resetBlock_rolloff (s : State) : (resetBlock s).rolloff = ⟨0, 0⟩ := rfl
@[simp] theorem resetBlock_stage (s : State) : (resetBlock s).stage = Profile.zero := rfl
@[simp] theorem resetBlock_snap (s : State) : (resetBlock s).snap = Profile.zero := rfl
@[simp] theorem resetBlock_pd (s : State) : (resetBlock s).pd = PdRegs.zero := rfl
@[simp] theorem resetBlock_mem (s : State) : (resetBlock s).mem = Memory.reset := rfl
@[simp] theorem resetBlock_bufsel (s : State) : (resetBlock s).bufsel = 0 := rfl
@[simp] theorem resetBlock_bufidx (s : State) : (resetBlock s).bufidx = 0 := rfl
@[simp] theorem resetBlock_wdat (s : State) : (resetBlock s).wdat = Vector.replicate 4 0 := rfl
@[simp] theorem resetBlock_params (s : State) : (resetBlock s).params = s.params := rfl
@[simp] theorem resetBlock_bus (s : State) : (resetBlock s).bus = s.bus := rfl
@[simp] theorem resetBlock_latency (s : State) : (resetBlock s).latency = s.latency := rfl
@[simp] theorem resetBlock_rdata (s : State) : (resetBlock s).rdata = s.rdata := rfl

end Sys2Proof.Machine
end

