-- ==== Sys2Proof/Laws/Ops.lean ====
section
/-! SUPPORT. For each shared operation of Machine/Ops.lean and Machine/Issue.lean, what it can do. -/

namespace Sys2Proof.Machine

/-! Results. -/

/-- A property of the state that a command's pseudocode leaves, whether it raised or not. -/
def Result.All (P : State → Prop) : Result → Prop
  | .done s => P s
  | .raised _ s => P s

theorem Result.All.mono {P Q : State → Prop} (h : ∀ s, P s → Q s) {r : Result} (hr : r.All P) : r.All Q := by
  cases r <;> exact h _ hr

@[simp] theorem andThen_done (s : State) (f : State → Result) : (Result.done s).andThen f = f s := rfl

@[simp] theorem andThen_raised (e : Raise) (s : State) (f : State → Result) :
    (Result.raised e s).andThen f = .raised e s := rfl

theorem Result.All.andThen {P : State → Prop} {r : Result} {f : State → Result} (hr : r.All P)
    (hf : ∀ s, P s → (f s).All P) : (r.andThen f).All P := by
  cases r
  · exact hf _ hr
  · exact hr

@[simp] theorem finish_done (s : State) : finish (.done s) = advanceIndex s := rfl

@[simp] theorem finish_raised (e : Raise) (s : State) : finish (.raised e s) = takeFault e s := rfl

/-! Acceptance. -/

theorem runInIdle_of_idle {body : State → Result} {s : State} (h : s.phase = .idle) :
    runInIdle body s = .next (finish (body s)) := by simp [runInIdle, h]

/-- What an idle-only command can do: its body runs in IDLE, its word is dropped elsewhere. -/
theorem runInIdle_cases {body : State → Result} {s t : State} (h : runInIdle body s = .next t) :
    (s.phase = .idle ∧ t = finish (body s)) ∨ (s.phase ≠ .idle ∧ t = s) := by
  unfold runInIdle at h
  split at h <;> cases h
  · exact .inl ⟨‹_›, rfl⟩
  · exact .inr ⟨by simp [*], rfl⟩
  · exact .inr ⟨by simp [*], rfl⟩

theorem runInIdle_next (body : State → Result) (s : State) : ∃ t, runInIdle body s = .next t := by
  unfold runInIdle
  split <;> exact ⟨_, rfl⟩

/-- What CLRERR and SRESET can do: their effect in IDLE and FAULT, nothing in BUSY. -/
theorem runUnlessBusy_cases {f : State → State} {s t : State} (h : runUnlessBusy f s = .next t) :
    ((s.phase = .idle ∨ s.phase = .fault) ∧ t = f s) ∨ ((∃ c, s.phase = .busy c) ∧ t = s) := by
  unfold runUnlessBusy at h
  split at h <;> cases h
  · exact .inl ⟨.inl ‹_›, rfl⟩
  · exact .inr ⟨⟨_, ‹_›⟩, rfl⟩
  · exact .inl ⟨.inr ‹_›, rfl⟩

theorem runUnlessBusy_next (f : State → State) (s : State) : ∃ t, runUnlessBusy f s = .next t := by
  unfold runUnlessBusy
  split <;> exact ⟨_, rfl⟩

/-- What the choice of a BUSY length can do (R97): nothing but take the length, or hold the command in execution. -/
theorem holdBusy_cases (s t : State) :
    (s.latency = [] ∧ holdBusy s t = t) ∨
    (∃ rest, s.latency = 0 :: rest ∧ holdBusy s t = { t with latency := rest }) ∨
    (∃ n rest, s.latency = (n + 1) :: rest ∧ holdBusy s t = { accepted n s t with latency := rest }) := by
  unfold holdBusy
  split
  · exact .inl ⟨‹_›, rfl⟩
  · exact .inr (.inl ⟨_, ‹_›, rfl⟩)
  · exact .inr (.inr ⟨_, _, ‹_›, rfl⟩)

/-- Completion undoes acceptance (R97): what the command left, as long as FAULT and the latch agree in it. -/
theorem complete_accepted (n : Nat) (s t : State)
    (h : t.phase = if t.latch.isSome then .fault else .idle) :
    complete ⟨t.latch, t.cix, n⟩ (accepted n s t) = t := by
  cases t
  simp_all [complete, accepted]

/-! What the error registers show (R34). -/

theorem shownFault_of_idle {s : State} (h : s.phase = .idle) : shownFault s = none := by simp [shownFault, h]

theorem shownFault_of_busy {s : State} {c : Completion} (h : s.phase = .busy c) : shownFault s = none := by
  simp [shownFault, h]

theorem shownFault_of_fault {s : State} (h : s.phase = .fault) : shownFault s = s.latch := by simp [shownFault, h]

/-! Steps. -/

theorem step_idle {s : State} (h : s.phase = .idle) : step s = stepReady s := by simp [step, stepMachine, h]

theorem step_fault {s : State} (h : s.phase = .fault) : step s = stepReady s := by simp [step, stepMachine, h]

theorem step_busy {s : State} {c : Completion} (h : s.phase = .busy c) : step s = stepBusy c s := by
  simp [step, stepMachine, h]

/-- What the write of a command word can do: what the decoded command does, or what an illegal word does. -/
theorem issueFused_cases (w : Word) (s : State) :
    (∃ i, decode w = .ok i ∧ issueFused w s = exec i s) ∨
    (∃ e, decode w = .error e ∧ issueFused w s = issueIllegal w s) := by
  unfold issueFused
  split
  · exact .inl ⟨_, ‹_›, rfl⟩
  · exact .inr ⟨_, ‹_›, rfl⟩

/-- What one step in BUSY can do: the command completes, or the host's next transaction takes place. -/
theorem stepBusy_cases (c : Completion) (s : State) :
    stepBusy c s = .next (complete c s) ∨
    ∃ n e rest, c.left = n + 1 ∧ s.bus = e :: rest ∧
      stepBusy c s = hostEventBusy { s with phase := .busy { c with left := n }, bus := rest } e := by
  obtain ⟨latch, cix, left⟩ := c
  cases left with
  | zero => exact .inl rfl
  | succ n =>
    rcases hb : s.bus with _ | ⟨e, rest⟩
    · exact .inl (by simp [stepBusy, hb])
    · exact .inr ⟨n, e, rest, rfl, rfl, by simp [stepBusy, hb]⟩

/-- What one step with no command in execution can do: nothing, or the host's next transaction. -/
theorem stepReady_cases (s : State) :
    (s.bus = [] ∧ stepReady s = .next s) ∨
    ∃ e rest, s.bus = e :: rest ∧ stepReady s = hostEventReady { s with bus := rest } e := by
  unfold stepReady
  split
  · exact .inl ⟨‹_›, rfl⟩
  · exact .inr ⟨_, _, ‹_›, rfl⟩

end Sys2Proof.Machine
end

