-- ==== Sys2Proof/Laws/Memory.lean ====
section
/-! SUPPORT. Memory.wf is kept by every operation on the buffers: what each command's pseudocode writes, what the window
pushes and what the host clears. -/

namespace Sys2Proof.Machine

open Sys2Proof.Config

/-- Memory.wf, as the conjunction of its parts. -/
theorem Memory.wf_iff (caps : Caps) (m : Memory) : Memory.wf caps m = true ↔
    m.bitbuf.length ≤ caps.bit.size ∧ m.symbuf.length ≤ caps.sym.size ∧ m.extbuf.length ≤ caps.ext.size ∧
    m.xbuf.length ≤ caps.x.size ∧ m.taps.length ≤ caps.tap.size ∧ m.ybuf.length ≤ caps.y.size ∧
    m.zbuf.length ≤ caps.z.size ∧ m.wi.length ≤ caps.w.size ∧ m.wq.length ≤ caps.w.size ∧
    m.ilvbuf.length ≤ caps.ilv.size ∧ m.qbuf.length ≤ caps.q.size ∧ m.recbuf.length ≤ caps.recs.size ∧
    m.filebuf.length ≤ caps.file.size ∧ m.recbuf.length % 6 = 0 := by
  simp only [Memory.wf, Bool.and_eq_true, decide_eq_true_eq, and_assoc]

theorem Memory.reset_wf (caps : Caps) : Memory.wf caps Memory.reset = true := by
  simp [Memory.wf_iff, Memory.reset]

theorem reset_mem_wf : Memory.wf State.reset.params.caps State.reset.mem = true := Memory.reset_wf _

/-- The memory of `s` is in canonical form, under parameters `p`. -/
def MemOk (p : Params) (s : State) : Prop := s.params = p ∧ Memory.wf p.caps s.mem = true

theorem prbsResult_wf {p : Params} {s : State} (h : MemOk p s) : (prbsResult s).All (MemOk p) := by
  obtain ⟨rfl, h⟩ := h
  simp only [prbsResult]
  split
  · exact ⟨rfl, h⟩
  · split
    · exact ⟨rfl, h⟩
    · rw [Memory.wf_iff] at h
      refine ⟨rfl, (Memory.wf_iff _ _).2 ⟨?_, h.2⟩⟩
      rw [prbsPeriod_length]
      exact Nat.le_of_not_lt ‹_›

theorem brepResult_wf {p : Params} {s : State} (h : MemOk p s) : (brepResult s).All (MemOk p) := by
  obtain ⟨rfl, h⟩ := h
  simp only [brepResult]
  split
  · exact ⟨rfl, h⟩
  · split
    · exact ⟨rfl, h⟩
    · rw [Memory.wf_iff] at h
      refine ⟨rfl, (Memory.wf_iff _ _).2 ⟨?_, h.2⟩⟩
      simpa using Nat.le_of_not_lt ‹_›

theorem cmclrResult_wf {p : Params} {s : State} (h : MemOk p s) : (cmclrResult s).All (MemOk p) := h

theorem cmdefResult_wf {p : Params} {s : State} (h : MemOk p s) : (cmdefResult s).All (MemOk p) := by
  obtain ⟨rfl, h⟩ := h
  simp only [cmdefResult]
  split
  · exact ⟨rfl, h⟩
  · rw [Memory.wf_iff] at h
    exact ⟨rfl, (Memory.wf_iff _ _).2 h⟩

theorem mapResult_wf {p : Params} {s : State} (h : MemOk p s) : (mapResult s).All (MemOk p) := by
  obtain ⟨rfl, h⟩ := h
  simp only [mapResult]
  split
  · exact ⟨rfl, h⟩
  · split
    · exact ⟨rfl, h⟩
    · split
      · exact ⟨rfl, h⟩
      · split
        · exact ⟨rfl, h⟩
        · rw [Memory.wf_iff] at h
          refine ⟨rfl, (Memory.wf_iff _ _).2 ⟨h.1, ?_, h.2.2⟩⟩
          simpa using Nat.le_of_not_lt ‹_›

theorem cextResult_wf {p : Params} {s : State} (h : MemOk p s) : (cextResult s).All (MemOk p) := by
  obtain ⟨rfl, h⟩ := h
  simp only [cextResult]
  split
  · exact ⟨rfl, h⟩
  · split
    · exact ⟨rfl, h⟩
    · split
      · exact ⟨rfl, h⟩
      · rw [Memory.wf_iff] at h
        refine ⟨rfl, (Memory.wf_iff _ _).2 ⟨h.1, h.2.1, ?_, h.2.2.2⟩⟩
        rw [circularExtend_length _ (Nat.le_of_not_lt ‹¬ s.mem.symbuf.length < _›)]
        exact Nat.le_of_not_lt ‹_›

theorem zstuffResult_wf {p : Params} {s : State} (h : MemOk p s) : (zstuffResult s).All (MemOk p) := by
  obtain ⟨rfl, h⟩ := h
  simp only [zstuffResult]
  split
  · exact ⟨rfl, h⟩
  · split
    · exact ⟨rfl, h⟩
    · rw [Memory.wf_iff] at h
      refine ⟨rfl, (Memory.wf_iff _ _).2 ⟨h.1, h.2.1, h.2.2.1, ?_, h.2.2.2.2⟩⟩
      rw [zeroStuff_length _ ‹_›]
      exact Nat.le_of_not_lt ‹_›

theorem fgenResult_wf {p : Params} {s : State} (h : MemOk p s) : (fgenResult s).All (MemOk p) := by
  obtain ⟨rfl, h⟩ := h
  simp only [fgenResult]
  split
  · exact ⟨rfl, h⟩
  · split
    · exact ⟨rfl, h⟩
    · split
      · exact ⟨rfl, h⟩
      · split
        · exact ⟨rfl, h⟩
        · split
          · exact ⟨rfl, h⟩
          · split
            · exact ⟨rfl, h⟩
            · rw [Memory.wf_iff] at h
              refine ⟨rfl, (Memory.wf_iff _ _).2 ⟨h.1, h.2.1, h.2.2.1, h.2.2.2.1, ?_, h.2.2.2.2.2⟩⟩
              rw [filterTaps_length]
              exact Nat.le_of_not_lt ‹_›

theorem convResult_wf {p : Params} {s : State} (h : MemOk p s) : (convResult s).All (MemOk p) := by
  obtain ⟨rfl, h⟩ := h
  simp only [convResult]
  split
  · exact ⟨rfl, h⟩
  · split
    · exact ⟨rfl, h⟩
    · split
      · exact ⟨rfl, h⟩
      · rw [Memory.wf_iff] at h
        refine ⟨rfl, (Memory.wf_iff _ _).2 ⟨h.1, h.2.1, h.2.2.1, h.2.2.2.1, h.2.2.2.2.1, ?_, h.2.2.2.2.2.2⟩⟩
        rw [convolve_length]
        exact Nat.le_of_not_lt ‹_›

theorem trimResult_wf {p : Params} {s : State} (h : MemOk p s) : (trimResult s).All (MemOk p) := by
  obtain ⟨rfl, h⟩ := h
  simp only [trimResult]
  split
  · exact ⟨rfl, h⟩
  · split
    · exact ⟨rfl, h⟩
    · split
      · exact ⟨rfl, h⟩
      · rw [Memory.wf_iff] at h
        refine ⟨rfl, (Memory.wf_iff _ _).2
          ⟨h.1, h.2.1, h.2.2.1, h.2.2.2.1, h.2.2.2.2.1, h.2.2.2.2.2.1, ?_, h.2.2.2.2.2.2.2⟩⟩
        rw [trimEnds_length]
        exact Nat.le_of_not_lt ‹_›

theorem normResult_wf {p : Params} {s : State} (h : MemOk p s) : (normResult s).All (MemOk p) := by
  obtain ⟨rfl, h⟩ := h
  simp only [normResult]
  split
  · exact ⟨rfl, h⟩
  · split
    · exact ⟨rfl, h⟩
    · split
      · exact ⟨rfl, h⟩
      · rw [Memory.wf_iff] at h
        obtain ⟨h1, h2, h3, h4, h5, h6, h7, -, -, h10⟩ := h
        have hz := Nat.le_of_not_lt ‹¬ s.params.caps.w.size < _›
        refine ⟨rfl, (Memory.wf_iff _ _).2 ⟨h1, h2, h3, h4, h5, h6, h7, ?_, ?_, h10⟩⟩ <;> simpa using hz

theorem digmodSteps_wf {p : Params} {s : State} (h : MemOk p s) : (digmodSteps s).All (MemOk p) :=
  ((((((((prbsResult_wf h).andThen fun _ => brepResult_wf).andThen fun _ => mapResult_wf).andThen
    fun _ => cextResult_wf).andThen fun _ => zstuffResult_wf).andThen fun _ => fgenResult_wf).andThen
    fun _ => convResult_wf).andThen fun _ => trimResult_wf).andThen fun _ => normResult_wf

theorem digmodResult_wf {p : Params} {s : State} (d : Bool) (h : MemOk p s) :
    (digmodResult d s).All (MemOk p) := by
  unfold digmodResult
  split
  · exact h
  · split
    · exact (cmdefResult_wf h).andThen fun _ => digmodSteps_wf
    · exact digmodSteps_wf h

theorem pmodeResult_wf {p : Params} {s : State} (mode : BitVec 16) (h : MemOk p s) :
    (pmodeResult mode s).All (MemOk p) := by
  unfold pmodeResult
  split <;> exact h

theorem ilvResult_wf {p : Params} {s : State} (h : MemOk p s) : (ilvResult s).All (MemOk p) := by
  obtain ⟨rfl, h⟩ := h
  simp only [ilvResult]
  split
  · exact ⟨rfl, h⟩
  · split
    · exact ⟨rfl, h⟩
    · rw [Memory.wf_iff] at h
      obtain ⟨h1, h2, h3, h4, h5, h6, h7, h8, h9, -, h11⟩ := h
      refine ⟨rfl, (Memory.wf_iff _ _).2 ⟨h1, h2, h3, h4, h5, h6, h7, h8, h9, ?_, h11⟩⟩
      rw [interleave_length _ _ (by simp_all)]
      exact Nat.le_of_not_lt ‹_›

/-- What the checks of `VQ` say when none fails (R272). -/
theorem vqCheck_none {caps : Caps} {p : Profile} {len : Nat} (h : vqCheck caps p len = none) :
    len * (p.width.toNat / 8) ≤ caps.q.size := by
  simp only [vqCheck] at h
  repeat (split at h; · cases h)
  exact Nat.le_of_not_lt ‹_›

theorem vqConvert_wf {p : Params} {s : State} (src order : BitVec 2) (h : MemOk p s) :
    (vqConvert src order s).All (MemOk p) := by
  obtain ⟨rfl, h⟩ := h
  simp only [vqConvert]
  split
  · exact ⟨rfl, h⟩
  · rw [Memory.wf_iff] at h
    obtain ⟨h1, h2, h3, h4, h5, h6, h7, h8, h9, h10, -, h12⟩ := h
    refine ⟨rfl, (Memory.wf_iff _ _).2 ⟨h1, h2, h3, h4, h5, h6, h7, h8, h9, h10, ?_, h12⟩⟩
    rw [flatMap_length_const _ _ fun _ => sampleBytes_length _ _ _]
    exact vqCheck_none ‹_›

theorem vqResult_wf {p : Params} {s : State} (src order : BitVec 2) (h : MemOk p s) :
    (vqResult src order s).All (MemOk p) := by
  unfold vqResult
  split
  · exact vqConvert_wf src order (s := takeSnapshot s) h
  · exact h

theorem appendRecord_wf {p : Params} {s : State} (x : PdwFields) (h : MemOk p s) :
    (appendRecord x s).All (MemOk p) := by
  obtain ⟨rfl, h⟩ := h
  simp only [appendRecord]
  split
  · exact ⟨rfl, h⟩
  · split
    · exact ⟨rfl, h⟩
    · rw [Memory.wf_iff] at h
      obtain ⟨h1, h2, h3, h4, h5, h6, h7, h8, h9, h10, h11, h12, h13, h14⟩ := h
      have hr := Nat.le_of_not_lt ‹¬ s.params.caps.recs.size < _›
      refine ⟨rfl, (Memory.wf_iff _ _).2 ⟨h1, h2, h3, h4, h5, h6, h7, h8, h9, h10, h11, ?_, h13, ?_⟩⟩
      · simpa using hr
      · simp only [List.length_append, recordWords_length]
        omega

theorem pdwencResult_wf {p : Params} {s : State} (h : MemOk p s) : (pdwencResult s).All (MemOk p) := by
  unfold pdwencResult
  split
  · exact h
  · split
    · exact h
    · split
      · exact h
      · split
        · exact h
        · exact appendRecord_wf _ h

theorem pdwclrResult_wf {p : Params} {s : State} (h : MemOk p s) : (pdwclrResult s).All (MemOk p) := by
  obtain ⟨rfl, h⟩ := h
  rw [Memory.wf_iff] at h
  obtain ⟨h1, h2, h3, h4, h5, h6, h7, h8, h9, h10, h11, -, h13, -⟩ := h
  exact ⟨rfl, (Memory.wf_iff _ _).2 ⟨h1, h2, h3, h4, h5, h6, h7, h8, h9, h10, h11, Nat.zero_le _, h13, rfl⟩⟩

theorem pdwasmResult_wf {p : Params} {s : State} (h : MemOk p s) : (pdwasmResult s).All (MemOk p) := by
  obtain ⟨rfl, h⟩ := h
  simp only [pdwasmResult]
  split
  · exact ⟨rfl, h⟩
  · rw [Memory.wf_iff] at h
    obtain ⟨h1, h2, h3, h4, h5, h6, h7, h8, h9, h10, h11, h12, -, h14⟩ := h
    refine ⟨rfl, (Memory.wf_iff _ _).2 ⟨h1, h2, h3, h4, h5, h6, h7, h8, h9, h10, h11, h12, ?_, h14⟩⟩
    rw [assembleFile_length]
    exact Nat.le_of_not_lt ‹_›

/-! The host's operations. -/

theorem hostWriteFault_wf {p : Params} {s : State} (v : BitVec 64) (h : MemOk p s) :
    MemOk p (hostWriteFault s v) := by
  unfold hostWriteFault
  split <;> exact h

theorem pushBit_wf {p : Params} {s : State} (h : MemOk p s) : MemOk p (pushBit s) := by
  unfold pushBit
  split
  · obtain ⟨rfl, h⟩ := h
    rw [Memory.wf_iff] at h
    refine ⟨rfl, (Memory.wf_iff _ _).2 ⟨?_, h.2⟩⟩
    simpa using Nat.succ_le_of_lt ‹_›
  · exact h

theorem pushWi_wf {p : Params} {s : State} (h : MemOk p s) : MemOk p (pushWi s) := by
  unfold pushWi
  split
  · exact hostWriteFault_wf _ h
  · split
    · obtain ⟨rfl, h⟩ := h
      rw [Memory.wf_iff] at h
      obtain ⟨h1, h2, h3, h4, h5, h6, h7, -, h9⟩ := h
      refine ⟨rfl, (Memory.wf_iff _ _).2 ⟨h1, h2, h3, h4, h5, h6, h7, ?_, h9⟩⟩
      simpa using Nat.succ_le_of_lt ‹_›
    · exact h

theorem pushWq_wf {p : Params} {s : State} (h : MemOk p s) : MemOk p (pushWq s) := by
  unfold pushWq
  split
  · exact hostWriteFault_wf _ h
  · split
    · obtain ⟨rfl, h⟩ := h
      rw [Memory.wf_iff] at h
      obtain ⟨h1, h2, h3, h4, h5, h6, h7, h8, -, h10⟩ := h
      refine ⟨rfl, (Memory.wf_iff _ _).2 ⟨h1, h2, h3, h4, h5, h6, h7, h8, ?_, h10⟩⟩
      simpa using Nat.succ_le_of_lt ‹_›
    · exact h

theorem writeCmapEntry_wf {p : Params} {s : State} (h : MemOk p s) : MemOk p (writeCmapEntry s) := by
  unfold writeCmapEntry
  split
  · exact h
  · split
    · exact hostWriteFault_wf _ h
    · split
      · exact hostWriteFault_wf _ h
      · exact h

theorem windowWrite_wf {p : Params} {s : State} (k : Fin 4) (v : Word) (h : MemOk p s) :
    MemOk p (windowWrite s k v) := by
  have h' : MemOk p { s with wdat := s.wdat.set k v } := h
  unfold windowWrite commitWindow
  split <;> try exact h'
  · split
    · exact pushBit_wf h'
    · exact h'
  · split
    · exact pushWi_wf h'
    · exact h'
  · split
    · exact pushWq_wf h'
    · exact h'
  · split
    · exact writeCmapEntry_wf h'
    · exact h'

theorem clearBuffer_wf {p : Params} {s : State} (b : Buffer) (h : MemOk p s) : MemOk p (clearBuffer s b) := by
  have h' := h
  obtain ⟨rfl, hw⟩ := h
  rw [Memory.wf_iff] at hw
  obtain ⟨h1, h2, h3, h4, h5, h6, h7, h8, h9, h10⟩ := hw
  cases b <;> try exact h'
  · exact ⟨rfl, (Memory.wf_iff _ _).2 ⟨Nat.zero_le _, h2, h3, h4, h5, h6, h7, h8, h9, h10⟩⟩
  · exact ⟨rfl, (Memory.wf_iff _ _).2 ⟨h1, h2, h3, h4, h5, h6, h7, Nat.zero_le _, h9, h10⟩⟩
  · exact ⟨rfl, (Memory.wf_iff _ _).2 ⟨h1, h2, h3, h4, h5, h6, h7, h8, Nat.zero_le _, h10⟩⟩

theorem writeReg_wf {p : Params} {s : State} (v : Word) (r : Reg) (h : MemOk p s) : MemOk p (writeReg s v r) := by
  cases r <;> try exact h
  · rename_i f
    cases f <;> exact h
  · rename_i f
    cases f <;> exact h
  · simp only [writeReg]
    split
    · exact clearBuffer_wf _ h
    · exact h

theorem busWrite_wf {p : Params} {s : State} (a : RegAddr) (v : Word) (h : MemOk p s) :
    MemOk p (busWrite s a v) := by
  unfold busWrite
  split
  · exact h
  · exact windowWrite_wf _ v h
  · exact writeReg_wf v _ h

end Sys2Proof.Machine
end

