-- ==== Sys2Proof/Laws/Number.lean ====
section
/-! SUPPORT. What the operations on closed forms do to the real numbers they stand for. -/

namespace Sys2Proof

open Real

@[simp] theorem termsReal_nil : termsReal [] = 0 := rfl

@[simp] theorem termsReal_cons (t : Term) (ts : List Term) : termsReal (t :: ts) = t.toReal + termsReal ts := by
  simp [termsReal]

theorem Num.toReal_mk (ts : List Term) : Num.toReal ⟨ts⟩ = termsReal ts := rfl

@[simp] theorem Num.toReal_zero : Num.zero.toReal = 0 := rfl

theorem Term.toReal_of_coef_zero {t : Term} (h : t.coef = 0) : t.toReal = 0 := by simp [Term.toReal, h]

theorem termsReal_insertTerm (t : Term) (ts : List Term) :
    termsReal (Num.insertTerm t ts) = t.toReal + termsReal ts := by
  induction ts with
  | nil =>
    unfold Num.insertTerm
    split
    · simp [Term.toReal_of_coef_zero ‹_›]
    · simp
  | cons u us ih =>
    unfold Num.insertTerm
    split
    · rename_i hkey
      have hsum : t.toReal + u.toReal =
          ((t.coef + u.coef : ℚ) : ℝ) * π ^ u.piPow * Real.cos (π * (u.angle : ℝ)) := by
        simp only [Term.toReal, hkey.1, hkey.2, Rat.cast_add]
        ring
      split
      · rename_i h0
        rw [h0] at hsum
        simp only [Rat.cast_zero, zero_mul] at hsum
        rw [termsReal_cons, ← add_assoc, hsum, zero_add]
      · rw [termsReal_cons, termsReal_cons, ← add_assoc, hsum]
        rfl
    · split
      · split
        · simp [Term.toReal_of_coef_zero ‹_›]
        · simp
      · rw [termsReal_cons, ih, termsReal_cons]
        ring

@[simp] theorem Num.toReal_ofRat (q : ℚ) : (Num.ofRat q).toReal = (q : ℝ) := by
  rw [Num.ofRat, Num.toReal_mk, termsReal_insertTerm]
  simp [Term.toReal]

@[simp] theorem Num.toReal_one : Num.one.toReal = 1 := by simp [Num.one]

@[simp] theorem Num.toReal_add (a b : Num) : (Num.add a b).toReal = a.toReal + b.toReal := by
  obtain ⟨ts⟩ := a
  rw [Num.add, Num.toReal_mk, Num.toReal_mk]
  induction ts with
  | nil => simp [Num.toReal]
  | cons t ts ih =>
    rw [List.foldr_cons, termsReal_insertTerm, ih, termsReal_cons]
    ring

theorem cos_foldAngle (r : ℚ) : Real.cos (π * (foldAngle r : ℝ)) = Real.cos (π * (r : ℝ)) := by
  have hm : Real.cos (π * ((r - 2 * ((r / 2).floor : ℚ) : ℚ) : ℝ)) = Real.cos (π * (r : ℝ)) := by
    have h : π * ((r - 2 * ((r / 2).floor : ℚ) : ℚ) : ℝ) = π * (r : ℝ) - ((r / 2).floor : ℤ) * (2 * π) := by
      push_cast
      ring
    rw [h, Real.cos_sub_int_mul_two_pi]
  simp only [foldAngle]
  split
  · exact hm
  · rw [← hm, ← Real.cos_two_pi_sub]
    congr 1
    push_cast
    ring

theorem toReal_acuteTerm (k : ℤ) (f q : ℚ) :
    (acuteTerm k f q).toReal = (q : ℝ) * π ^ k * Real.cos (π * (f : ℝ)) := by
  unfold acuteTerm
  split
  · rename_i h
    subst h
    have : π * ((1 / 2 : ℚ) : ℝ) = π / 2 := by push_cast; ring
    rw [this, Real.cos_pi_div_two]
    simp [Term.toReal]
  · split
    · rename_i h
      subst h
      have : π * ((1 / 3 : ℚ) : ℝ) = π / 3 := by push_cast; ring
      rw [this, Real.cos_pi_div_three]
      simp [Term.toReal]
      ring
    · rfl

theorem toReal_cosTerm (k : ℤ) (r q : ℚ) :
    (cosTerm k r q).toReal = (q : ℝ) * π ^ k * Real.cos (π * (r : ℝ)) := by
  unfold cosTerm
  split
  · rw [toReal_acuteTerm, cos_foldAngle]
  · rw [toReal_acuteTerm]
    have h : π * ((1 - foldAngle r : ℚ) : ℝ) = π - π * (foldAngle r : ℝ) := by push_cast; ring
    rw [h, Real.cos_pi_sub, cos_foldAngle]
    push_cast
    ring

@[simp] theorem Num.toReal_cosPi (r : ℚ) : (Num.cosPi r).toReal = Real.cos (π * (r : ℝ)) := by
  rw [Num.cosPi, Num.toReal_mk, termsReal_insertTerm, toReal_cosTerm]
  simp

@[simp] theorem Num.toReal_sinPi (r : ℚ) : (Num.sinPi r).toReal = Real.sin (π * (r : ℝ)) := by
  rw [Num.sinPi, Num.toReal_cosPi, ← Real.cos_pi_div_two_sub]
  congr 1
  push_cast
  ring

@[simp] theorem Num.toReal_piTo (k : ℤ) : (Num.piTo k).toReal = π ^ k := by
  simp [Num.piTo, Num.toReal_mk, Term.toReal]

@[simp] theorem Num.toReal_invSqrt2 : Num.invSqrt2.toReal = 1 / Real.sqrt 2 := by
  rw [Num.invSqrt2, Num.toReal_cosPi]
  have h : π * ((1 / 4 : ℚ) : ℝ) = π / 4 := by push_cast; ring
  rw [h, Real.cos_pi_div_four, eq_div_iff (by positivity), div_mul_eq_mul_div,
    Real.mul_self_sqrt (by norm_num)]
  norm_num

theorem termsReal_mulTerm (t u : Term) (acc : List Term) :
    termsReal (Num.mulTerm t u acc) = t.toReal * u.toReal + termsReal acc := by
  rw [Num.mulTerm, termsReal_insertTerm, termsReal_insertTerm, toReal_cosTerm, toReal_cosTerm]
  have hsub : π * ((t.angle - u.angle : ℚ) : ℝ) = π * (t.angle : ℝ) - π * (u.angle : ℝ) := by push_cast; ring
  have hadd : π * ((t.angle + u.angle : ℚ) : ℝ) = π * (t.angle : ℝ) + π * (u.angle : ℝ) := by push_cast; ring
  rw [hsub, hadd, Real.cos_sub, Real.cos_add, zpow_add₀ Real.pi_ne_zero]
  simp only [Term.toReal]
  push_cast
  ring

@[simp] theorem Num.toReal_mul (a b : Num) : (Num.mul a b).toReal = a.toReal * b.toReal := by
  obtain ⟨ts⟩ := a
  obtain ⟨us⟩ := b
  simp only [Num.mul, Num.toReal_mk]
  have inner : ∀ (t : Term) (us acc : List Term),
      termsReal (us.foldr (fun u acc' => Num.mulTerm t u acc') acc) = t.toReal * termsReal us + termsReal acc := by
    intro t us acc
    induction us with
    | nil => simp
    | cons u us ih =>
      rw [List.foldr_cons, termsReal_mulTerm, ih, termsReal_cons]
      ring
  induction ts with
  | nil => simp
  | cons t ts ih =>
    rw [List.foldr_cons, inner, ih, termsReal_cons]
    ring

@[simp] theorem Num.toReal_scale (q : ℚ) (a : Num) : (Num.scale q a).toReal = (q : ℝ) * a.toReal := by
  obtain ⟨ts⟩ := a
  unfold Num.scale
  split
  · simp_all
  · simp only [Num.toReal_mk]
    induction ts with
    | nil => simp
    | cons t ts ih =>
      rw [List.map_cons, termsReal_cons, ih, termsReal_cons]
      simp only [Term.toReal]
      push_cast
      ring

@[simp] theorem Num.toReal_neg (a : Num) : (Num.neg a).toReal = -a.toReal := by simp [Num.neg]

@[simp] theorem Num.toReal_sub (a b : Num) : (Num.sub a b).toReal = a.toReal - b.toReal := by
  simp [Num.sub, sub_eq_add_neg]

/-- A closed form in rational form stands for that rational. -/
theorem Num.toReal_of_rat? {a : Num} {q : ℚ} (h : a.rat? = some q) : a.toReal = (q : ℝ) := by
  obtain ⟨ts⟩ := a
  unfold Num.rat? at h
  split at h
  · rename_i h'
    simp only at h'
    subst h'
    cases h
    simp [Num.toReal]
  · rename_i t h'
    simp only at h'
    subst h'
    split at h
    · simp_all [Num.toReal, Term.toReal]
    · cases h
  · cases h

/-! The search for a sign and for a floor: what an answer shows. -/

/-- A sign that the search answers was shown by the enclosure at some precision. -/
theorem searchSign_cases (enc : Nat → Enc) (fuel p : Nat) :
    searchSign enc fuel p = 0 ∨ (searchSign enc fuel p = 1 ∧ ∃ q, 0 < (enc q).1) ∨
      (searchSign enc fuel p = -1 ∧ ∃ q, (enc q).2 < 0) := by
  induction fuel generalizing p with
  | zero => exact .inl rfl
  | succ fuel ih =>
    unfold searchSign
    split
    · exact .inr (.inl ⟨rfl, p, ‹_›⟩)
    · split
      · exact .inr (.inr ⟨rfl, p, ‹_›⟩)
      · exact ih (8 * p)

/-- What the sign of a number not in rational form rests on: a coarse enclosure, the test for 0, or a fine enclosure. -/
theorem Num.signIrrational_cases (a : Num) :
    (a.signIrrational = 1 ∧ ∃ q, 0 < (a.enclose q).1) ∨ (a.signIrrational = -1 ∧ ∃ q, (a.enclose q).2 < 0) ∨
      a.signIrrational = 0 := by
  unfold Num.signIrrational
  rcases searchSign_cases (fun p => a.enclose p) 2 64 with h | ⟨h, hq⟩ | ⟨h, hq⟩
  · rw [h]
    by_cases hv : a.vanishes = true
    · simp [hv]
    · rcases searchSign_cases (fun p => a.enclose p) (searchSteps a.terms) 4096 with h' | ⟨h', hq⟩ | ⟨h', hq⟩
      · simp [hv, h']
      · exact .inl ⟨by simp [hv, h'], hq⟩
      · exact .inr (.inl ⟨by simp [hv, h'], hq⟩)
  · exact .inl ⟨by simp [h], hq⟩
  · exact .inr (.inl ⟨by simp [h], hq⟩)

/-- The floor beside an integer `m`: `m − 1`, or `m`, and exact only where the sign is 0. -/
theorem floorBeside_cases (m sign : Int) :
    (sign < 0 ∧ floorBeside m sign = (m - 1, false)) ∨ (0 ≤ sign ∧ floorBeside m sign = (m, decide (sign = 0))) := by
  unfold floorBeside
  split
  · exact .inl ⟨‹_›, rfl⟩
  · exact .inr ⟨Int.not_lt.1 ‹_›, rfl⟩

/-- The sign of a number in rational form is that of the rational. -/
theorem Num.sign_of_rat? {a : Num} {q : ℚ} (h : a.rat? = some q) :
    a.sign = if 0 < q then 1 else if q < 0 then -1 else 0 := by
  rw [Num.sign, h]

@[simp] theorem Num.toReal_sinc (u : ℚ) : (Num.sinc u).toReal = realSinc (u : ℝ) := by
  unfold Num.sinc realSinc
  by_cases h : u = 0
  · simp [h]
  · have hr : (u : ℝ) ≠ 0 := by exact_mod_cast h
    simp only [h, hr, if_false, Num.toReal_scale, Num.toReal_mul, Num.toReal_piTo, Num.toReal_sinPi]
    push_cast
    rw [zpow_neg_one]
    field_simp

@[simp] theorem Sample.toReal_ofNum (a : Num) : (Sample.ofNum a).toReal = a.toReal := by
  simp [Sample.ofNum, Sample.toReal]

/-- The sum of the reference numerics stands for the sum of the reals. -/
theorem reference_sum_toReal (l : List Num) :
    (Config.Numerics.reference.sum l).toReal = (l.map Num.toReal).sum := by
  have h : ∀ (l : List Num) (acc : Num), (l.foldl Num.add acc).toReal = acc.toReal + (l.map Num.toReal).sum := by
    intro l
    induction l with
    | nil => simp
    | cons x xs ih =>
      intro acc
      rw [List.foldl_cons, ih, Num.toReal_add, List.map_cons, List.sum_cons, add_assoc]
  simpa [Config.Numerics.sum] using h l Num.zero

/-! The integer root and the floor of a root. -/

/-- One step of Newton's iteration from above stays above the root. -/
theorem newton_above {n x : Nat} (hx : 0 < x) :
    n < ((x + n / x) / 2 + 1) * ((x + n / x) / 2 + 1) := by
  have hq : n < x * (n / x + 1) := by
    have := Nat.div_add_mod n x
    have := Nat.mod_lt n hx
    rw [Nat.mul_add]
    omega
  have hy : x + (n / x + 1) ≤ 2 * ((x + n / x) / 2 + 1) := by omega
  generalize n / x + 1 = q at *
  generalize (x + n / x) / 2 + 1 = y at *
  nlinarith [sq_nonneg ((x : ℤ) - q), Nat.mul_le_mul hy hy]

theorem isqrtFrom_spec (fuel n x : Nat) (hn : 0 < n) (hx : 0 < x) (hfuel : x ≤ fuel) (habove : n < (x + 1) * (x + 1)) :
    isqrtFrom fuel n x * isqrtFrom fuel n x ≤ n ∧ n < (isqrtFrom fuel n x + 1) * (isqrtFrom fuel n x + 1) := by
  induction fuel generalizing x with
  | zero => omega
  | succ fuel ih =>
    simp only [isqrtFrom]
    split
    · rename_i hlt
      refine ih _ ?_ (by omega) (newton_above hx)
      rcases Nat.lt_or_ge 1 x with h | h
      · exact Nat.div_pos (Nat.le_trans h (Nat.le_add_right _ _)) (by omega)
      · obtain rfl : x = 1 := by omega
        simp at hlt ⊢
        omega
    · rename_i hge
      have hle : x ≤ n / x := by omega
      exact ⟨(Nat.le_div_iff_mul_le hx).1 hle, habove⟩

/-- The integer root is the largest integer whose square is at most `n`. -/
theorem isqrt_eq_sqrt (n : Nat) : isqrt n = Nat.sqrt n := by
  unfold isqrt
  split
  · simp [*]
  · rename_i h
    have hlog : n < 2 ^ (Nat.log2 n + 1) := Nat.lt_log2_self
    have hpow : 2 ^ (Nat.log2 n + 1) ≤ 2 ^ (Nat.log2 n / 2 + 1) * 2 ^ (Nat.log2 n / 2 + 1) := by
      rw [← Nat.pow_add]
      exact Nat.pow_le_pow_right (by omega) (by omega)
    have := isqrtFrom_spec (2 ^ (Nat.log2 n / 2 + 1)) n (2 ^ (Nat.log2 n / 2 + 1)) (by omega) (by positivity) le_rfl
      (by
        have := Nat.mul_le_mul (Nat.le_succ (2 ^ (Nat.log2 n / 2 + 1))) (Nat.le_succ (2 ^ (Nat.log2 n / 2 + 1)))
        exact lt_of_lt_of_le hlog (hpow.trans this))
    exact Nat.eq_sqrt.2 this

/-- The floor and the exactness that `floorRoot` gives are those of the real number. -/
theorem floorRoot_spec (j : Nat) (n d : ℚ) (hd : 0 < d) :
    (Sample.floorRoot j n d).1 = ⌊(n : ℝ) / √(d : ℝ) * 2 ^ j⌋ ∧
      ((Sample.floorRoot j n d).2 = true ↔ ((Sample.floorRoot j n d).1 : ℝ) = (n : ℝ) / √(d : ℝ) * 2 ^ j) := by
  have hdr : (0 : ℝ) < d := by exact_mod_cast hd
  set v : ℝ := (n : ℝ) / √(d : ℝ) * 2 ^ j with hv
  set q : ℚ := n * n * 4 ^ j / d with hq
  have hvq : v * v = (q : ℝ) := by
    have h4 : (4 : ℝ) ^ j = 2 ^ j * 2 ^ j := by rw [← mul_pow]; norm_num
    rw [hv, hq]
    push_cast
    rw [h4]
    have := Real.mul_self_sqrt hdr.le
    have := (Real.sqrt_pos.2 hdr).ne'
    field_simp
    rw [Real.sq_sqrt hdr.le]
  have hq0 : 0 ≤ q := div_nonneg (mul_nonneg (mul_self_nonneg n) (by positivity)) hd.le
  set f : Nat := isqrt q.floor.toNat with hf
  have hfloor : (q.floor.toNat : ℤ) = ⌊q⌋ := by
    rw [Int.toNat_of_nonneg (Rat.le_floor_iff.2 (by simpa using hq0))]
    rfl
  have hsq : (f : ℝ) * f ≤ q ∧ (q : ℝ) < (f + 1) * (f + 1) := by
    rw [isqrt_eq_sqrt] at hf
    have h1 := Nat.sqrt_le q.floor.toNat
    have h3 := Nat.lt_succ_sqrt q.floor.toNat
    rw [← hf] at h1 h3
    constructor
    · have : ((f * f : Nat) : ℚ) ≤ q := by
        refine le_trans ?_ (Int.floor_le q)
        rw [← hfloor]
        exact_mod_cast h1
      exact_mod_cast this
    · have : q < (((f + 1) * (f + 1) : Nat) : ℚ) := by
        have := Int.lt_floor_add_one q
        rw [← hfloor] at this
        refine lt_of_lt_of_le this ?_
        exact_mod_cast h3
      exact_mod_cast this
  have habs : (f : ℝ) ≤ |v| ∧ |v| < f + 1 := by
    rw [← hvq, ← abs_mul_abs_self v] at hsq
    exact ⟨nonneg_le_nonneg_of_sq_le_sq (abs_nonneg v) hsq.1,
      lt_of_mul_self_lt_mul_self₀ (by positivity) hsq.2⟩
  have hexact : ((f * f : ℚ) = q) ↔ (f : ℝ) = |v| := by
    rw [← mul_self_inj (by positivity) (abs_nonneg v), abs_mul_abs_self, hvq]
    exact_mod_cast Iff.rfl
  have hpos : 0 < √(d : ℝ) := Real.sqrt_pos.2 hdr
  simp only [Sample.floorRoot, ← hq, ← hf]
  by_cases hn : 0 ≤ n
  · have hv0 : 0 ≤ v := by
      have : (0 : ℝ) ≤ n := by exact_mod_cast hn
      positivity
    rw [abs_of_nonneg hv0] at habs hexact
    simp only [hn, if_true, decide_eq_true_eq, hexact]
    exact ⟨(Int.floor_eq_iff.2 (by exact_mod_cast habs)).symm, by push_cast; rfl⟩
  · have hv0 : v < 0 := by
      have : (n : ℝ) < 0 := by exact_mod_cast not_le.1 hn
      exact mul_neg_of_neg_of_pos (div_neg_of_neg_of_pos this hpos) (by positivity)
    rw [abs_of_neg hv0] at habs hexact
    simp only [hn, if_false, decide_eq_true_eq, hexact]
    by_cases he : (f : ℝ) = -v
    · simp only [he, if_true, true_iff]
      have hv' : v = ((-(f : ℤ) : ℤ) : ℝ) := by push_cast; linarith
      exact ⟨by rw [hv', Int.floor_intCast], by push_cast; linarith⟩
    · simp only [he, if_false]
      have : (f : ℝ) < -v := lt_of_le_of_ne habs.1 he
      refine ⟨(Int.floor_eq_iff.2 ⟨?_, ?_⟩).symm, ?_⟩
      · push_cast; linarith [habs.2]
      · push_cast; linarith
      · simp only [Bool.false_eq_true, false_iff]
        push_cast
        linarith [habs.2]

/-- The root that `ratSqrt?` answers is the root. -/
theorem ratSqrt?_eq_sqrt {q r : ℚ} (h : ratSqrt? q = some r) : (r : ℝ) = √(q : ℝ) := by
  unfold ratSqrt? at h
  split at h
  · rename_i hq
    obtain ⟨h0, hnum, hden⟩ := hq
    cases h
    have hq : (q : ℝ) = ((isqrt q.num.toNat : ℝ) / isqrt q.den) * ((isqrt q.num.toNat : ℝ) / isqrt q.den) := by
      rw [div_mul_div_comm]
      have hn : ((q.num.toNat : ℤ) : ℝ) = (q.num : ℝ) := by rw [Int.toNat_of_nonneg (Rat.num_nonneg.2 h0)]
      have h1 : (isqrt q.num.toNat : ℝ) * isqrt q.num.toNat = q.num := by
        rw [← hn]
        exact_mod_cast hnum
      have h2 : (isqrt q.den : ℝ) * isqrt q.den = q.den := by exact_mod_cast hden
      rw [h1, h2]
      exact_mod_cast (Rat.num_div_den q).symm
    rw [hq, Real.sqrt_mul_self (by positivity)]
    push_cast
    rfl
  · cases h

/-- The floor and the exactness that `floorRat` gives are those of the real number. -/
theorem floorRat_spec (j : Nat) (q : ℚ) :
    (floorRat j q).1 = ⌊(q : ℝ) * 2 ^ j⌋ ∧ ((floorRat j q).2 = true ↔ ((floorRat j q).1 : ℝ) = (q : ℝ) * 2 ^ j) := by
  have h : (q : ℝ) * 2 ^ j = ((q * 2 ^ j : ℚ) : ℝ) := by push_cast; rfl
  rw [h, floorRat]
  refine ⟨(Rat.floor_cast _).symm, ?_⟩
  simp only [decide_eq_true_eq]
  exact_mod_cast Iff.rfl

/-- The floor and the exactness that `floorAt` gives of a sample with rational parts are those of the real number. -/
theorem Sample.floorAt_spec {v : Sample} {n d : ℚ} (j : Nat) (hn : v.num.rat? = some n) (hd : v.rad.rat? = some d)
    (hpos : 0 < d) :
    (v.floorAt j).1 = ⌊v.toReal * 2 ^ j⌋ ∧ ((v.floorAt j).2 = true ↔ ((v.floorAt j).1 : ℝ) = v.toReal * 2 ^ j) := by
  have hv : v.toReal = (n : ℝ) / √(d : ℝ) := by
    rw [Sample.toReal, Num.toReal_of_rat? hn, Num.toReal_of_rat? hd]
  unfold Sample.floorAt
  rw [hn, hd]
  cases hr : v.rat? with
  | none => simpa only [hv] using floorRoot_spec j n d hpos
  | some q =>
    have hq : v.toReal = (q : ℝ) := by
      rw [hv]
      rw [Sample.rat?, hn, hd] at hr
      simp only at hr
      split at hr
      · cases hr
        simp [*]
      · obtain ⟨r, hroot, rfl⟩ := Option.map_eq_some_iff.1 hr
        rw [← ratSqrt?_eq_sqrt hroot]
        push_cast
        rfl
    simpa only [hq] using floorRat_spec j q
end Sys2Proof
end

