-- ==== Sys2Proof/Laws/PerInstr.lean ====
section
/-! SUPPORT. Facts about every command as syntax, one lemma per constructor. -/

namespace Sys2Proof.Laws

/-- The word of a well-formed command has the match value of its row under the row's mask, and the decoder reads the
command back from it (R114, R119). -/
def EncodesToItsRow.Statement (i : Instr) : Prop :=
  WellFormed i = true → encode i &&& rowMask i = rowMatch i ∧ decode (encode i) = .ok i

theorem EncodesToItsRow.nop : EncodesToItsRow.Statement .nop := fun _ => ⟨by decide, by decide⟩

theorem EncodesToItsRow.clrerr : EncodesToItsRow.Statement .clrerr := fun _ => ⟨by decide, by decide⟩

theorem EncodesToItsRow.sreset : EncodesToItsRow.Statement .sreset := fun _ => ⟨by decide, by decide⟩

theorem EncodesToItsRow.prbs : EncodesToItsRow.Statement .prbs := fun _ => ⟨by decide, by decide⟩

theorem EncodesToItsRow.brep : EncodesToItsRow.Statement .brep := fun _ => ⟨by decide, by decide⟩

theorem EncodesToItsRow.cmclr : EncodesToItsRow.Statement .cmclr := fun _ => ⟨by decide, by decide⟩

theorem EncodesToItsRow.cmdef : EncodesToItsRow.Statement .cmdef := fun _ => ⟨by decide, by decide⟩

theorem EncodesToItsRow.map : EncodesToItsRow.Statement .map := fun _ => ⟨by decide, by decide⟩

theorem EncodesToItsRow.cext : EncodesToItsRow.Statement .cext := fun _ => ⟨by decide, by decide⟩

theorem EncodesToItsRow.zstuff : EncodesToItsRow.Statement .zstuff := fun _ => ⟨by decide, by decide⟩

theorem EncodesToItsRow.fgen : EncodesToItsRow.Statement .fgen := fun _ => ⟨by decide, by decide⟩

theorem EncodesToItsRow.conv : EncodesToItsRow.Statement .conv := fun _ => ⟨by decide, by decide⟩

theorem EncodesToItsRow.trim : EncodesToItsRow.Statement .trim := fun _ => ⟨by decide, by decide⟩

theorem EncodesToItsRow.norm : EncodesToItsRow.Statement .norm := fun _ => ⟨by decide, by decide⟩

theorem EncodesToItsRow.digmod (d : Bool) : EncodesToItsRow.Statement (.digmod d) := by
  cases d <;> exact fun _ => ⟨by decide, by decide⟩

/-- The fields of a format M word (R111). -/
theorem formatM_fields (mode : BitVec 16) :
    (0x3000#16 ++ mode : BitVec (16 + 16)).extractLsb' 24 8 = 0x30#8 ∧
    (0x3000#16 ++ mode : BitVec (16 + 16)).extractLsb' 16 8 = 0#8 ∧
    (0x3000#16 ++ mode : BitVec (16 + 16)).extractLsb' 0 16 = mode ∧
    (0x3000#16 ++ mode : BitVec (16 + 16)) &&& 0xFFFF0000#(16 + 16) = 0x30000000#(16 + 16) := by
  refine ⟨?_, ?_, ?_, ?_⟩ <;> ext i hi
  · rw [BitVec.getElem_extractLsb', BitVec.getLsbD_append]
    interval_cases i <;> simp
  · rw [BitVec.getElem_extractLsb', BitVec.getLsbD_append]
    interval_cases i <;> simp
  · rw [BitVec.getElem_extractLsb', BitVec.getLsbD_append]
    interval_cases i <;> simp [BitVec.getLsbD_eq_getElem]
  · rw [BitVec.getElem_and, BitVec.getElem_append]
    interval_cases i <;> simp

theorem EncodesToItsRow.pmode (mode : BitVec 16) : EncodesToItsRow.Statement (.pmode mode) := by
  obtain ⟨hop, hzero, himm, hmask⟩ := formatM_fields mode
  have hop' : opcodeOf (encode (.pmode mode)) = 0x30#8 := hop
  have hzero' : (encode (.pmode mode)).extractLsb' 16 8 = 0#8 := hzero
  have himm' : (encode (.pmode mode)).extractLsb' 0 16 = mode := himm
  refine fun _ => ⟨hmask, ?_⟩
  simp [decode, hop', formatM, hzero', himm']

theorem EncodesToItsRow.ilv : EncodesToItsRow.Statement .ilv := fun _ => ⟨by decide, by decide⟩

theorem EncodesToItsRow.vq (src order : BitVec 2) : EncodesToItsRow.Statement (.vq src order) := by
  unfold EncodesToItsRow.Statement
  revert src order
  decide

theorem EncodesToItsRow.pdwenc : EncodesToItsRow.Statement .pdwenc := fun _ => ⟨by decide, by decide⟩

theorem EncodesToItsRow.pdwclr : EncodesToItsRow.Statement .pdwclr := fun _ => ⟨by decide, by decide⟩

theorem EncodesToItsRow.pdwasm : EncodesToItsRow.Statement .pdwasm := fun _ => ⟨by decide, by decide⟩

end Sys2Proof.Laws
end

