-- ==== Sys2Proof/Tests/Slice0.lean ====
section
/-! SUPPORT. The model's own tests: the well-formedness smoke test, the words of the opcode table written out, at most two
one-step tests for each command with the expected result taken from 95_test_vectors.md or from the rule's example, and for
each statement with hypotheses a witness that meets them. -/

namespace Sys2Proof.Tests

set_option Elab.async false

open Sys2Proof Sys2Proof.Machine Sys2Proof.Config

/-! Helpers. -/

/-- The next state of a command. -/
def after (i : Instr) (s : State) : State :=
  match exec i s with
  | .next t => t
  | .fault _ => s
  | .refused _ => s

/-- The next state of a step. -/
def stepped (s : State) : State :=
  match step s with
  | .next t => t
  | .fault _ => s
  | .refused _ => s

theorem exec_after (i : Instr) (s : State) : exec i s = .next (after i s) := by
  have h : ∃ t, exec i s = .next t := by
    cases i
    case clrerr => exact runUnlessBusy_next (fun t => advanceIndex (returnFromFault t)) s
    case sreset => exact runUnlessBusy_next resetBlock s
    all_goals exact runInIdle_next _ _
  obtain ⟨t, ht⟩ := h
  rw [after, ht]

/-- The reset state with the configuration registers of the pipeline. -/
def config (m n p span kind : Nat) (rolloff : Word) : State :=
  { State.reset with
    modtype := .ofNat 32 m
    prbsord := .ofNat 32 n
    sps := .ofNat 32 p
    span := .ofNat 32 span
    fkind := .ofNat 32 kind
    rolloff := ⟨0, rolloff⟩ }

/-- The state with the buffers `m`. -/
def holding (s : State) (m : Memory) : State := { s with mem := m }

/-- The state with every buffer's capacity 1. -/
def tight (s : State) : State :=
  let c : Cap := ⟨1, by decide, by decide⟩
  { s with params := { s.params with caps := ⟨c, c, c, c, c, c, c, c, c, c, c, c⟩ } }

/-- The profile of the example of R275, with a granularity and a minimum length. -/
def profile (gran minlen width shift : Nat) : Profile :=
  ⟨.ofNat 32 gran, .ofNat 32 minlen, 2047, .ofNat 32 shift, .ofNat 32 width, 0, 0⟩

/-- Rational points. -/
def points (l : List (Rat × Rat)) : List Cplx := l.map fun z => ⟨Num.ofRat z.1, Num.ofRat z.2⟩

/-- Rational samples. -/
def samples (l : List Rat) : List Sample := l.map fun v => Sample.ofNum (Num.ofRat v)

/-- The state with staging registers `p` and lane WI of `l`. -/
def lane (p : Profile) (l : List Rat) : State :=
  { State.reset with stage := p, mem := { Memory.reset with wi := samples l } }

/-- The record of S6 of 95_test_vectors.md: 1e9 Hz, 90 degrees, 1e-6 s, 0 dBm. -/
def pulse : State :=
  { State.reset with
    pd := ⟨0, 0, 0, 0, 0, 0, ⟨0, 0x41CDCD65⟩, ⟨0, 0x40568000⟩, ⟨0xA0B5ED8D, 0x3EB0C6F7⟩, ⟨0, 0⟩⟩ }

/-- A state in FAULT: `PRBS` straight after reset (R422). -/
def faultState : State := after .prbs State.reset

/-- What the latch shows: ERRCODE, ERRVAL, ERRLIM. -/
def shown (s : State) : Word × Int × Int := (errcodeWord s, errval s, errlim s)

/-! Well-formedness: one ill-formed term for each check. -/

theorem test_wellFormed_refuses_src_3 : WellFormed (.vq 3 0) = false := by decide
theorem test_wellFormed_refuses_end_3 : WellFormed (.vq 0 3) = false := by decide
theorem test_wellFormed_takes_vq : WellFormed (.vq 2 2) = true := by decide

/-! Decoding: the column "word" of R114, written out. -/

theorem test_decode_words :
    decode 0x00000000#32 = .ok .nop ∧ decode 0x01000000#32 = .ok .clrerr ∧ decode 0x02000000#32 = .ok .sreset ∧
    decode 0x10000000#32 = .ok .prbs ∧ decode 0x11000000#32 = .ok .brep ∧ decode 0x18000000#32 = .ok .cmclr ∧
    decode 0x19000000#32 = .ok .cmdef ∧ decode 0x1A000000#32 = .ok .map ∧ decode 0x20000000#32 = .ok .cext ∧
    decode 0x21000000#32 = .ok .zstuff ∧ decode 0x22000000#32 = .ok .fgen ∧ decode 0x23000000#32 = .ok .conv := by
  decide

theorem test_decode_words_rest :
    decode 0x28000000#32 = .ok .trim ∧ decode 0x29000000#32 = .ok .norm ∧
    decode 0x2F000000#32 = .ok (.digmod false) ∧ decode 0x2F000001#32 = .ok (.digmod true) ∧
    decode 0x30000012#32 = .ok (.pmode 0x12) ∧ decode 0x31000000#32 = .ok .ilv ∧
    decode 0x32000008#32 = .ok (.vq 0 2) ∧ decode 0x32000006#32 = .ok (.vq 2 1) ∧
    decode 0x40000000#32 = .ok .pdwenc ∧ decode 0x41000000#32 = .ok .pdwclr ∧ decode 0x42000000#32 = .ok .pdwasm := by
  decide

/-- Section 8 of 95_test_vectors.md. -/
theorem test_decode_illegal :
    decode 0x32000003#32 = .error .reservedField ∧ decode 0x3200000C#32 = .error .reservedField ∧
    decode 0x32000010#32 = .error .mustBeZero ∧ decode 0x10000001#32 = .error .mustBeZero ∧
    decode 0xFFFFFFFF#32 = .error .opcode ∧ decode 0x2F000002#32 = .error .mustBeZero ∧
    decode 0x30010000#32 = .error .mustBeZero := by decide

theorem test_tableWord : decodeTableWord 32 0x2F000001 = some (.digmod true) ∧ decodeTableWord 32 0x33000000 = none := by
  decide

/-! One step of each command. -/

theorem test_nop : (after .nop { State.reset with cix := 7 }).cix = 8 := by decide +kernel
theorem test_clrerr : (after .clrerr faultState).phase = .idle ∧ (after .clrerr faultState).latch = none ∧
    (after .clrerr faultState).cix = 2 := by decide +kernel
theorem test_sreset : after .sreset faultState = State.reset := by decide +kernel

/-- Section 2: order 5. -/
theorem test_prbs_order_5 : (after .prbs (config 0 5 0 0 0 0)).mem.bitbuf =
    [1, 1, 1, 1, 1, 0, 0, 1, 1, 0, 1, 0, 0, 1, 0, 0, 0, 0, 1, 0, 1, 0, 1, 1, 1, 0, 1, 1, 0, 0, 0].map (· == 1) := by
  decide +kernel

theorem test_prbs_order_33 : shown (after .prbs (config 0 33 0 0 0 0)) = (0x404, 33, 32) := by decide +kernel

/-- R144's example. -/
theorem test_brep : (after .brep (holding (config 1 2 0 0 0 0)
    { Memory.reset with bitbuf := [true, true, false] })).mem.bitbuf = [true, true, false, true, true, false] := by
  decide +kernel

theorem test_cmclr : cmapValidWord (after .cmclr (after .cmdef (config 4 0 0 0 0 0))).mem = 0 := by decide +kernel

/-- R162's example. -/
theorem test_cmdef : (after .cmdef (config 1 0 0 0 0 0)).mem.cmap.toList.take 5 =
    (points [(1, 1), (-1, 1), (1, -1), (-1, -1)]).map some ++ [none] := by decide +kernel

theorem test_cmdef_32qam_entry_26 :
    cmapPoint (after .cmdef (config 4 0 0 0 0 0)).mem 26 = some ⟨Num.ofRat 1, Num.ofRat 3⟩ := by decide +kernel

/-- R167's example. -/
theorem test_map : (after .map (holding (after .cmdef (config 1 0 0 0 0 0)) { (after .cmdef (config 1 0 0 0 0 0)).mem with
    bitbuf := [true, true, false, true, true, false] })).mem.symbuf = points [(-1, -1), (-1, 1), (1, -1)] := by
  decide +kernel

theorem test_map_reset : shown (after .map State.reset) = (0x5, 0, 2) := by decide +kernel

/-- Section 4: SPAN 4 on three symbols, and SPAN 8. -/
theorem test_cext : (after .cext (holding (config 0 0 0 4 0 0) { Memory.reset with
    symbuf := points [(1, 0), (2, 0), (3, 0)] })).mem.extbuf =
      points [(2, 0), (3, 0), (1, 0), (2, 0), (3, 0), (1, 0), (2, 0)] := by decide +kernel

theorem test_cext_span_8 : shown (after .cext (holding (config 0 0 0 8 0 0) { Memory.reset with
    symbuf := points [(1, 0), (2, 0), (3, 0)] })) = (0x10C, 3, 4) := by decide +kernel

theorem test_zstuff : (after .zstuff (holding (config 0 0 2 0 0 0) { Memory.reset with
    extbuf := points [(1, 2), (3, 4)] })).mem.xbuf = points [(1, 2), (0, 0), (3, 4), (0, 0)] := by decide +kernel

/-- Section 4: RC, SPS 2, SPAN 2, rolloff 1. -/
theorem test_fgen : (after .fgen (config 0 0 2 2 1 0x3FF00000)).mem.taps = [0, 1 / 2, 1, 1 / 2, 0].map Num.ofRat := by
  decide +kernel

/-- Section 4: rolloff −0.5. -/
theorem test_fgen_negative : shown (after .fgen (config 0 0 2 2 1 0xBFE00000)) = (0x704, -0x401FFFFF * 2 ^ 32 - 2 ^ 32, 1) := by
  decide +kernel

/-- Section 4. -/
theorem test_conv : (after .conv (holding State.reset { Memory.reset with
    xbuf := points [(1, 0), (0, 0), (-1, 0), (0, 0)]
    taps := [0, 1 / 2, 1, 1 / 2, 0].map Num.ofRat })).mem.ybuf =
      points [(0, 0), (1 / 2, 0), (1, 0), (0, 0), (-1, 0), (-1 / 2, 0), (0, 0), (0, 0)] := by decide +kernel

theorem test_trim : (after .trim (holding State.reset { Memory.reset with
    taps := [1, 1].map Num.ofRat
    ybuf := points [(1, 0), (2, 0), (3, 0), (4, 0)] })).mem.zbuf = points [(2, 0), (3, 0)] := by decide +kernel

/-- Section 5. -/
theorem test_norm : (after .norm (holding State.reset { Memory.reset with
    zbuf := points [(3, 4), (0, 0), (-3, 0)] })).mem.wi = samples [2121 / 5000, 0, -2121 / 5000] := by decide +kernel

theorem test_norm_zero : shown (after .norm (holding State.reset { Memory.reset with
    zbuf := points [(0, 0), (0, 0)] })) = (0xA, 0, 0) := by decide +kernel

/-- R240's example. -/
theorem test_digmod : (after (.digmod true) (config 0 3 1 2 1 0x3FE00000)).mem.wi =
    samples ([-1, -1, -1, 1, -1, 1, 1].map (· * (707 / 1000))) := by decide +kernel

/-- Section 5: SPAN 8 on three symbols, the completed steps' results kept. -/
theorem test_digmod_fault : shown (after (.digmod true) (config 1 2 1 8 0 0)) = (0x10C, 3, 4) ∧
    (after (.digmod true) (config 1 2 1 8 0 0)).mem.symbuf.length = 3 ∧
    (after (.digmod true) (config 1 2 1 8 0 0)).cix = 1 := by decide +kernel

/-- R262's example. -/
theorem test_pmode : (after (.pmode 0x12) { State.reset with params := { Params.reference with
    modeTable := [(0x12, ⟨8, 16, 2047, 4, 16, 0, 0⟩)] } }).stage = ⟨8, 16, 2047, 4, 16, 0, 0⟩ := by decide +kernel

theorem test_pmode_unknown : shown (after (.pmode 0x12) State.reset) = (0x304, 18, 0) := by decide +kernel

/-- R265's example. -/
theorem test_ilv : (after .ilv (holding State.reset { Memory.reset with
    wi := samples [1, 2]
    wq := samples [3, 4] })).mem.ilvbuf = samples [1, 3, 2, 4] := by decide +kernel

/-- R275's example, little-endian and big-endian. -/
theorem test_vq : (after (.vq 0 0) (lane (profile 1 1 16 4) [1, -1, 1 / 2])).mem.qbuf =
      [0xF0, 0x7F, 0x10, 0x80, 0x00, 0x40] ∧
    (after (.vq 0 2) (lane (profile 1 1 16 4) [1, -1, 1 / 2])).mem.qbuf = [0x7F, 0xF0, 0x80, 0x10, 0x40, 0x00] := by
  decide +kernel

/-- Program D: the snapshot is taken by a `VQ` that faults. -/
theorem test_vq_short : shown (after (.vq 0 0) (lane (profile 4 8 16 4) [1, 1, 1, 1, 1])) = (0x1, 5, 8) ∧
    (after (.vq 0 0) (lane (profile 4 8 16 4) [1, 1, 1, 1, 1])).snap = profile 4 8 16 4 := by decide +kernel

/-- S6 of section 1. -/
theorem test_pdwenc : (after .pdwenc pulse).mem.recbuf =
    [0x65000001, 0x40001DCD, 0x000F4240, 0x00000000, 0x00006D60, 0x00000000] := by decide +kernel

/-- Program C: 360 degrees does not fit. -/
theorem test_pdwenc_overflow : shown (after .pdwenc { pulse with pd := { pulse.pd with phase := ⟨0, 0x40768000⟩ } }) =
    (0x306, 4096, 4095) := by decide +kernel

theorem test_pdwclr : (after .pdwclr (after .pdwenc pulse)).mem.recbuf = [] := by decide +kernel

/-- R324's example: bytes 4080 on. -/
theorem test_pdwasm : ((after .pdwasm (after .pdwenc pulse)).mem.filebuf.drop 4080) =
    [0x01, 0x00, 0x00, 0x00, 0x00, 0x00, 0x00, 0x00, 0xFF, 0xFF, 0xFF, 0xFF, 0xFF, 0xFF, 0xFF, 0xFF] ++
    [0x01, 0x00, 0x00, 0x65, 0xCD, 0x1D, 0x00, 0x40, 0x40, 0x42, 0x0F, 0x00] ++
    [0x00, 0x00, 0x00, 0x00, 0x60, 0x6D, 0x00, 0x00, 0x00, 0x00, 0x00, 0x00] := by decide +kernel

/-! The order of the reals on closed forms (R10). -/

/-- `cos(π/9) × cos(2π/9) × cos(4π/9) = 1/8`; 32 units of `cos(π/5) − cos(2π/5)` are 16, and a little less are less. -/
theorem test_order_of_closed_forms :
    ((Num.cosPi (1 / 9)).mul ((Num.cosPi (2 / 9)).mul (Num.cosPi (4 / 9)))).eq (Num.ofRat (1 / 8)) = true ∧
    (((Num.cosPi (1 / 5)).sub (Num.cosPi (2 / 5))).scale 32).floorAt 0 = (16, true) ∧
    ((((Num.cosPi (1 / 5)).sub (Num.cosPi (2 / 5))).scale 32).sub (Num.ofRat (1 / 2 ^ 600))).floorAt 0 = (15, false) := by
  decide +kernel

/-- Rolloff `2^-200`, RRC, one sample per symbol, SPAN 4, impulses 1, 1, 0, 0, 0: the one trimmed sample is negative and
below `2^-590`, but not 0, and `NORM` scales it to the peak (R235, R382: only a sample that is exactly 0 faults). -/
def tinyState : State :=
  { config 0 0 1 4 0 0 with
    rolloff := ⟨0, 0x33700000⟩
    mem := { Memory.reset with xbuf := points [(1, 0), (1, 0), (0, 0), (0, 0), (0, 0)] } }

theorem test_norm_tiny : (after .norm (after .trim (after .conv (after .fgen tinyState)))).phase = .idle ∧
    (after .trim (after .conv (after .fgen tinyState))).mem.zbuf.map (fun z => z.i.sign) = [-1] := by decide +kernel

/-! The bus and the step. -/

theorem test_fetch : stepped (State.reset.withFetchWord 32 0x19000000) = after .cmdef State.reset := by decide +kernel

/-- Section 9: the last word of an element advances BUFIDX. -/
theorem test_window_read : (stepped { lane (profile 1 1 16 4) [1, -1] with
    bufsel := 7, bus := [.read 0x83] }).rdata = 0x3FF00000 ∧
    (stepped { lane (profile 1 1 16 4) [1, -1] with bufsel := 7, bus := [.read 0x83] }).bufidx = 1 := by decide +kernel

/-- Section 9: `cmap 2, 1, −1`, its last write. -/
theorem test_cmap_write : cmapPoint (stepped { State.reset with
    bufsel := 13, bufidx := 2, wdat := #v[0, 0x3FF00000, 0, 0], bus := [.write 0x85 0xBFF00000] }).mem 2 =
      some ⟨Num.ofRat 1, Num.ofRat (-1)⟩ := by decide +kernel

/-! Witnesses: for each statement with hypotheses, states that meet them, clause by clause. -/

theorem witness_NopOnlyAdvancesCix : ∃ s : State, s.phase = .idle := ⟨State.reset, by decide +kernel⟩

theorem witness_ClrerrReturnsFromTheFault : (∃ s : State, s.phase = .idle ∧ Ready s) ∧ ∃ s, s.phase = .fault ∧ Ready s :=
  ⟨⟨State.reset, rfl, .inl rfl⟩, ⟨faultState, by decide +kernel, .inr (by decide +kernel)⟩⟩

/-- `NOP` accepted with a BUSY length of two transactions, of which the host makes `e` first. -/
def busyState (e : HostEvent) : State :=
  stepped { State.reset with bus := [.write cmdAddr 0, e], latency := [3] }

theorem witness_SresetLeavesTheResetState : (∃ s : State, s.phase = .idle ∧ Ready s) ∧ (∃ s, s.phase = .fault ∧ Ready s) ∧
    (∃ s : State, s.phase = .busy ⟨none, 1, 2⟩) ∧
    ∃ s : State, s.phase = .busy ⟨none, 1, 0⟩ ∧ s.bus = [.read 8] :=
  ⟨⟨State.reset, rfl, .inl rfl⟩, ⟨faultState, by decide +kernel, .inr (by decide +kernel)⟩,
    ⟨busyState .reset, by decide +kernel⟩,
    ⟨stepped { State.reset with bus := [.write cmdAddr 0, .read 8], latency := [1] }, by decide +kernel⟩⟩

theorem witness_PrbsGeneratesOnePeriod :
    (∃ s : State, s.phase = .idle ∧ s.prbsord.toNat = 1) ∧ (∃ s : State, s.phase = .idle ∧ s.prbsord.toNat = 33) ∧
    (∃ s : State, s.phase = .idle ∧ s.prbsord.toNat = 2 ∧ s.params.caps.bit.size < 2 ^ 2 - 1) ∧
    (∃ s : State, s.phase = .idle ∧ s.prbsord.toNat = 2 ∧ 2 ^ 2 - 1 ≤ s.params.caps.bit.size) ∧
    ∃ s : State, s.phase = .idle ∧ s.prbsord.toNat = 32 ∧ 2 ^ 32 - 1 ≤ s.params.caps.bit.size :=
  ⟨⟨config 0 1 0 0 0 0, by decide +kernel⟩, ⟨config 0 33 0 0 0 0, by decide +kernel⟩,
    ⟨tight (config 0 2 0 0 0 0), by decide +kernel⟩, ⟨config 0 2 0 0 0 0, by decide +kernel⟩,
    ⟨config 0 32 0 0 0 0, by decide +kernel⟩⟩

theorem witness_PrbsIsMaximalLength : 2 ≤ 32 ∧ 32 ≤ 32 ∧ 0 < 1 ∧ 1 < 2 ^ 2 - 1 := by decide

theorem witness_BrepRepeatsTheLeastNumberOfTimes :
    (∃ s : State, s.phase = .idle ∧ s.modtype.toNat = 5) ∧
    (∃ s : State, s.phase = .idle ∧ s.modtype.toNat = 4 ∧ s.mem.bitbuf.length = 3 ∧
      s.params.caps.bit.size < 5 / Nat.gcd 3 5 * 3) ∧
    ∃ s : State, s.phase = .idle ∧ s.modtype.toNat = 4 ∧ s.mem.bitbuf.length = 3 ∧
      5 / Nat.gcd 3 5 * 3 ≤ s.params.caps.bit.size :=
  ⟨⟨config 5 0 0 0 0 0, by decide +kernel⟩,
    ⟨holding (tight (config 4 0 0 0 0 0)) { Memory.reset with bitbuf := [true, true, false] }, by decide +kernel⟩,
    ⟨holding (config 4 0 0 0 0 0) { Memory.reset with bitbuf := [true, true, false] }, by decide +kernel⟩⟩

theorem witness_CmclrInvalidatesEveryEntry : ∃ s : State, s.phase = .idle := ⟨State.reset, rfl⟩

theorem witness_CmdefLoadsTheDefaultMap :
    (∃ s : State, s.phase = .idle ∧ s.modtype.toNat = 5) ∧ ∃ s : State, s.phase = .idle ∧ s.modtype.toNat = 4 :=
  ⟨⟨config 5 0 0 0 0 0, by decide +kernel⟩, ⟨config 4 0 0 0 0 0, by decide +kernel⟩⟩

theorem witness_CmapvalidShowsTheValidBits : 31 < 32 ∧
    (readReg (after .cmdef (config 4 0 0 0 0 0)) .cmapvalid).getLsbD 31 = true := by decide +kernel

theorem witness_DefaultMapsAreGrayCoded : (0 ≤ 4 ∧ 0 < 2 ^ 1 ∧ 1 < 2 ^ 1 ∧ 0 ≠ 1) ∧
    ∀ u < 2 ^ 1, ∀ v < 2 ^ 1, u ≠ v →
      ((defaultPoint 0 0).1 - (defaultPoint 0 1).1) ^ 2 + ((defaultPoint 0 0).2 - (defaultPoint 0 1).2) ^ 2 ≤
        ((defaultPoint 0 u).1 - (defaultPoint 0 v).1) ^ 2 + ((defaultPoint 0 u).2 - (defaultPoint 0 v).2) ^ 2 := by
  decide +kernel

/-- A state for `MAP`: the default QPSK map and bits. -/
def mapState (bits : List Bool) : State :=
  holding (after .cmdef (config 1 0 0 0 0 0)) { (after .cmdef (config 1 0 0 0 0 0)).mem with bitbuf := bits }

theorem witness_MapMapsEveryTuple :
    (∃ s : State, s.phase = .idle ∧ s.modtype.toNat = 5) ∧
    (∃ s : State, s.phase = .idle ∧ s.modtype.toNat = 1 ∧ s.mem.bitbuf.length % 2 ≠ 0) ∧
    (∃ s : State, s.phase = .idle ∧ s.modtype.toNat = 4 ∧ s.mem.bitbuf.length % 5 = 0 ∧ 0 < 2 ^ 5 ∧
      cmapPoint s.mem 0 = none ∧ ∀ q < 0, (cmapPoint s.mem q).isSome = true) ∧
    (∃ s : State, s.phase = .idle ∧ s.modtype.toNat = 1 ∧ s.mem.bitbuf.length % 2 = 0 ∧
      (∀ p < 2 ^ 2, (cmapPoint s.mem p).isSome = true) ∧ s.params.caps.sym.size < s.mem.bitbuf.length / 2) ∧
    ∃ s : State, s.phase = .idle ∧ s.modtype.toNat = 1 ∧ s.mem.bitbuf.length % 2 = 0 ∧
      (∀ p < 2 ^ 2, (cmapPoint s.mem p).isSome = true) ∧ s.mem.bitbuf.length / 2 ≤ s.params.caps.sym.size :=
  ⟨⟨config 5 0 0 0 0 0, by decide +kernel⟩, ⟨mapState [true], by decide +kernel⟩,
    ⟨config 4 0 0 0 0 0, by decide +kernel⟩, ⟨tight (mapState [true, true, false, true]), by decide +kernel⟩,
    ⟨mapState [true, true, false, true], by decide +kernel⟩⟩

/-- A state for `CEXT`: three symbols. -/
def cextState (span : Nat) : State :=
  holding (config 0 0 0 span 0 0) { Memory.reset with symbuf := points [(1, 0), (2, 0), (3, 0)] }

theorem witness_CextExtendsCircularly :
    (∃ s : State, s.phase = .idle ∧ s.span.toNat % 2 ≠ 0) ∧
    (∃ s : State, s.phase = .idle ∧ s.span.toNat % 2 = 0 ∧ s.mem.symbuf.length + 1 = s.span.toNat / 2) ∧
    (∃ s : State, s.phase = .idle ∧ s.span.toNat % 2 = 0 ∧ s.span.toNat / 2 ≤ s.mem.symbuf.length ∧
      s.params.caps.ext.size < s.mem.symbuf.length + 2 * (s.span.toNat / 2)) ∧
    ∃ s : State, s.phase = .idle ∧ s.span.toNat % 2 = 0 ∧ s.span.toNat / 2 = s.mem.symbuf.length ∧
      s.mem.symbuf.length + 2 * (s.span.toNat / 2) ≤ s.params.caps.ext.size :=
  ⟨⟨cextState 1, by decide +kernel⟩, ⟨cextState 8, by decide +kernel⟩, ⟨tight (cextState 0), by decide +kernel⟩,
    ⟨cextState 6, by decide +kernel⟩⟩

theorem witness_ZstuffSpreadsTheSymbols :
    (∃ s : State, s.phase = .idle ∧ s.sps.toNat = 0) ∧
    (∃ s : State, s.phase = .idle ∧ s.sps.toNat ≠ 0 ∧ s.params.caps.x.size < s.mem.extbuf.length * s.sps.toNat) ∧
    ∃ s : State, s.phase = .idle ∧ s.sps.toNat = 1 ∧ s.mem.extbuf.length = 2 ∧
      s.mem.extbuf.length * s.sps.toNat ≤ s.params.caps.x.size :=
  ⟨⟨State.reset, by decide +kernel⟩,
    ⟨holding (tight (config 0 0 1 0 0 0)) { Memory.reset with extbuf := points [(1, 2), (3, 4)] }, by decide +kernel⟩,
    ⟨holding (config 0 0 1 0 0 0) { Memory.reset with extbuf := points [(1, 2), (3, 4)] }, by decide +kernel⟩⟩

theorem witness_FgenBuildsTheFilter :
    (∃ s : State, s.phase = .idle ∧ s.fkind.toNat = 2) ∧
    (∃ s : State, s.phase = .idle ∧ s.fkind.toNat = 1 ∧ s.sps.toNat = 0) ∧
    (∃ s : State, s.phase = .idle ∧ s.fkind.toNat ≤ 1 ∧ s.sps.toNat = 1 ∧ s.span.toNat = 1) ∧
    (∃ s : State, s.phase = .idle ∧ s.fkind.toNat ≤ 1 ∧ s.sps.toNat = 1 ∧ s.span.toNat = 2 ∧
      numOf (s.rolloff.hi ++ s.rolloff.lo) = none) ∧
    (∃ s : State, s.phase = .idle ∧ s.fkind.toNat ≤ 1 ∧ s.sps.toNat = 1 ∧ s.span.toNat = 2 ∧
      numOf (s.rolloff.hi ++ s.rolloff.lo) = some (-1 / 2) ∧ (-1 / 2 : Rat) < 0) ∧
    (∃ s : State, s.phase = .idle ∧ s.fkind.toNat ≤ 1 ∧ s.sps.toNat = 1 ∧ s.span.toNat = 2 ∧
      numOf (s.rolloff.hi ++ s.rolloff.lo) = some 1 ∧ s.params.caps.tap.size < 2 * 1 + 1) ∧
    (∃ s : State, s.phase = .idle ∧ s.fkind.toNat ≤ 1 ∧ s.sps.toNat = 1 ∧ s.span.toNat = 2 ∧
      numOf (s.rolloff.hi ++ s.rolloff.lo) = some 1 ∧ 2 * 1 + 1 ≤ s.params.caps.tap.size) ∧
    ∃ s : State, s.phase = .idle ∧ s.fkind.toNat ≤ 1 ∧ s.sps.toNat = 1 ∧ s.span.toNat = 0 ∧
      numOf (s.rolloff.hi ++ s.rolloff.lo) = some 0 ∧ 0 * 1 + 1 ≤ s.params.caps.tap.size :=
  ⟨⟨config 0 0 1 2 2 0, by decide +kernel⟩, ⟨config 0 0 0 2 1 0, by decide +kernel⟩,
    ⟨config 0 0 1 1 1 0, by decide +kernel⟩, ⟨config 0 0 1 2 1 0x7FF80000, by decide +kernel⟩,
    ⟨config 0 0 1 2 1 0xBFE00000, by decide +kernel⟩, ⟨tight (config 0 0 1 2 1 0x3FF00000), by decide +kernel⟩,
    ⟨config 0 0 1 2 1 0x3FF00000, by decide +kernel⟩, ⟨config 0 0 1 0 0 0, by decide +kernel⟩⟩

/-- The three branches: the center, a singular point, the rest. -/
theorem witness_RaisedCosineTap : (0 ≤ (1 : ℚ) ∧ (1 : ℚ) ≤ 1 ∧ (1 : ℚ) ≠ 0 ∧ 2 * 1 * |(1 / 2 : ℚ)| = 1) ∧
    0 ≤ (0 : ℚ) ∧ (0 : ℚ) ≤ 1 ∧ ¬ ((0 : ℚ) ≠ 0) := by norm_num

theorem witness_RootRaisedCosineTap : (0 ≤ (1 : ℚ) ∧ (1 : ℚ) ≤ 1 ∧ (1 : ℚ) ≠ 0 ∧ 4 * 1 * |(1 / 4 : ℚ)| = 1) ∧
    0 ≤ (0 : ℚ) ∧ (0 : ℚ) ≤ 1 ∧ ¬ ((0 : ℚ) ≠ 0) := by norm_num

theorem witness_FilterTapsAreSymmetricAndInterpolate :
    (∃ s : State, s.phase = .idle ∧ s.params.numerics = .reference ∧ s.fkind.toNat = 1 ∧ s.sps.toNat ≠ 0 ∧
      s.span.toNat % 2 = 0 ∧ numOf (s.rolloff.hi ++ s.rolloff.lo) = some 1 ∧
      s.span.toNat * s.sps.toNat + 1 ≤ s.params.caps.tap.size) ∧
    (∃ s : State, s.phase = .idle ∧ s.params.numerics = .reference ∧ s.fkind.toNat = 0 ∧ s.sps.toNat ≠ 0 ∧
      s.span.toNat % 2 = 0 ∧ numOf (s.rolloff.hi ++ s.rolloff.lo) = some 0 ∧
      s.span.toNat * s.sps.toNat + 1 ≤ s.params.caps.tap.size) ∧
    ((1 : ℚ) ≠ 0 ∧ ¬ ((0 : ℚ) ≠ 0 ∧ 2 * 0 * |(1 : ℚ)| = 1) ∧ ¬ ((0 : ℚ) ≠ 0 ∧ 4 * 0 * |(1 : ℚ)| = 1)) :=
  ⟨⟨config 0 0 2 2 1 0x3FF00000, by decide +kernel⟩, ⟨config 0 0 2 2 0 0, by decide +kernel⟩, by norm_num⟩

/-- A state for `CONV`. -/
def convState (x taps : List Rat) : State :=
  holding State.reset { Memory.reset with xbuf := points (x.map fun v => (v, 0)), taps := taps.map Num.ofRat }

theorem witness_ConvIsTheFullConvolution :
    (∃ s : State, s.phase = .idle ∧ s.mem.xbuf.length = 0 ∧ s.mem.taps.length ≠ 0) ∧
    (∃ s : State, s.phase = .idle ∧ s.mem.xbuf.length ≠ 0 ∧ s.mem.taps.length = 0) ∧
    (∃ s : State, s.phase = .idle ∧ s.mem.xbuf.length ≠ 0 ∧ s.mem.taps.length ≠ 0 ∧
      s.params.caps.y.size < s.mem.xbuf.length + s.mem.taps.length - 1) ∧
    ∃ s : State, s.phase = .idle ∧ s.mem.xbuf.length = 1 ∧ s.mem.taps.length = 1 ∧
      s.mem.xbuf.length + s.mem.taps.length - 1 ≤ s.params.caps.y.size ∧ s.params.numerics = .reference :=
  ⟨⟨convState [] [1], by decide +kernel⟩, ⟨convState [1] [], by decide +kernel⟩,
    ⟨tight (convState [1, 1] [1]), by decide +kernel⟩, ⟨convState [1] [1], by decide +kernel⟩⟩

/-- A state for `TRIM`. -/
def trimState (y taps : List Rat) : State :=
  holding State.reset { Memory.reset with ybuf := points (y.map fun v => (v, 0)), taps := taps.map Num.ofRat }

theorem witness_TrimDropsBothEnds :
    (∃ s : State, s.phase = .idle ∧ s.mem.taps.length = 0) ∧
    (∃ s : State, s.phase = .idle ∧ s.mem.taps.length ≠ 0 ∧ s.mem.ybuf.length + 1 = 2 * (s.mem.taps.length - 1)) ∧
    (∃ s : State, s.phase = .idle ∧ s.mem.taps.length ≠ 0 ∧ 2 * (s.mem.taps.length - 1) ≤ s.mem.ybuf.length ∧
      s.params.caps.z.size < s.mem.ybuf.length - 2 * (s.mem.taps.length - 1)) ∧
    ∃ s : State, s.phase = .idle ∧ s.mem.taps.length = 2 ∧ 2 * (s.mem.taps.length - 1) = s.mem.ybuf.length ∧
      s.mem.ybuf.length - 2 * (s.mem.taps.length - 1) ≤ s.params.caps.z.size :=
  ⟨⟨State.reset, by decide +kernel⟩, ⟨trimState [1] [1, 1], by decide +kernel⟩,
    ⟨tight (trimState [1, 1] [1]), by decide +kernel⟩, ⟨trimState [1, 1] [1, 1], by decide +kernel⟩⟩

/-- The state of program A before `CEXT`, with three symbols. -/
def wrapState : State :=
  holding (config 0 3 1 2 1 0x3FE00000) { Memory.reset with symbuf := points [(-1, 0), (1, 0), (1, 1)] }

theorem witness_TrimmedWaveformWraps : ∃ s s1 s2 s3 s4 s5 : State, s.params.numerics = .reference ∧
    Completes .cext s s1 ∧ Completes .zstuff s1 s2 ∧ Completes .fgen s2 s3 ∧ Completes .conv s3 s4 ∧
    Completes .trim s4 s5 ∧ s5.mem.zbuf.length = 3 :=
  ⟨wrapState, after .cext wrapState, after .zstuff (after .cext wrapState),
    after .fgen (after .zstuff (after .cext wrapState)),
    after .conv (after .fgen (after .zstuff (after .cext wrapState))),
    after .trim (after .conv (after .fgen (after .zstuff (after .cext wrapState)))), rfl,
    ⟨rfl, exec_after _ _, by decide +kernel⟩, ⟨by decide +kernel, exec_after _ _, by decide +kernel⟩,
    ⟨by decide +kernel, exec_after _ _, by decide +kernel⟩, ⟨by decide +kernel, exec_after _ _, by decide +kernel⟩,
    ⟨by decide +kernel, exec_after _ _, by decide +kernel⟩, by decide +kernel⟩

/-- A state for `NORM`. -/
def normState (z : List (Rat × Rat)) : State := holding State.reset { Memory.reset with zbuf := points z }

theorem witness_NormScalesToThePeak :
    (∃ s : State, s.phase = .idle ∧ s.mem.zbuf.length = 0) ∧
    (∃ s : State, s.phase = .idle ∧ s.mem.zbuf.length ≠ 0 ∧ s.params.caps.w.size < s.mem.zbuf.length) ∧
    (∃ s : State, s.phase = .idle ∧ s.mem.zbuf.length ≠ 0 ∧ s.mem.zbuf.length ≤ s.params.caps.w.size ∧
      s.params.numerics.eq (maxMag2 s.params.numerics s.mem.zbuf) Num.zero = true) ∧
    ∃ s : State, s.phase = .idle ∧ s.mem.zbuf.length ≠ 0 ∧ s.mem.zbuf.length ≤ s.params.caps.w.size ∧
      s.params.numerics.eq (maxMag2 s.params.numerics s.mem.zbuf) Num.zero = false ∧
      s.params.numerics = .reference :=
  ⟨⟨State.reset, by decide +kernel⟩, ⟨tight (normState [(1, 1), (-1, 0)]), by decide +kernel⟩,
    ⟨normState [(0, 0)], by decide +kernel⟩, ⟨normState [(1, 1), (-1, 0)], by decide +kernel⟩⟩

theorem witness_NormReachesThePeakExactly : ∃ s t : State, s.params.numerics = .reference ∧
    RationalSamples s.mem.zbuf ∧ Completes .norm s t :=
  ⟨normState [(1, 1), (-1, 0)], after .norm (normState [(1, 1), (-1, 0)]), rfl,
    (by decide +kernel : ∀ z ∈ (normState [(1, 1), (-1, 0)]).mem.zbuf, z.i.rat?.isSome = true ∧ z.q.rat?.isSome = true),
    rfl, exec_after _ _, by decide +kernel⟩

theorem witness_DigmodChecksTheConfigurationFirst :
    (∃ s : State, s.phase = .idle ∧ s.modtype.toNat = 5) ∧
    (∃ s : State, s.phase = .idle ∧ s.modtype.toNat = 4 ∧ s.fkind.toNat = 2) ∧
    (∃ s : State, s.phase = .idle ∧ s.modtype.toNat ≤ 4 ∧ s.fkind.toNat = 1 ∧ s.prbsord.toNat = 1) ∧
    (∃ s : State, s.phase = .idle ∧ s.modtype.toNat ≤ 4 ∧ s.fkind.toNat ≤ 1 ∧ s.prbsord.toNat = 33) ∧
    (∃ s : State, s.phase = .idle ∧ s.modtype.toNat ≤ 4 ∧ s.fkind.toNat ≤ 1 ∧ s.prbsord.toNat = 32 ∧
      s.sps.toNat = 0) ∧
    (∃ s : State, s.phase = .idle ∧ s.modtype.toNat ≤ 4 ∧ s.fkind.toNat ≤ 1 ∧ s.prbsord.toNat = 2 ∧
      s.sps.toNat = 1 ∧ s.span.toNat = 1) ∧
    (∃ s : State, s.phase = .idle ∧ s.modtype.toNat ≤ 4 ∧ s.fkind.toNat ≤ 1 ∧ s.prbsord.toNat = 2 ∧
      s.sps.toNat = 1 ∧ s.span.toNat = 0 ∧ numOf (s.rolloff.hi ++ s.rolloff.lo) = none) ∧
    ∃ s : State, s.phase = .idle ∧ s.modtype.toNat ≤ 4 ∧ s.fkind.toNat ≤ 1 ∧ s.prbsord.toNat = 2 ∧
      s.sps.toNat = 1 ∧ s.span.toNat = 0 ∧ numOf (s.rolloff.hi ++ s.rolloff.lo) = some (3 / 2) ∧ (1 : Rat) < 3 / 2 :=
  ⟨⟨config 5 0 0 0 0 0, by decide +kernel⟩, ⟨config 4 0 0 0 2 0, by decide +kernel⟩,
    ⟨config 0 1 0 0 1 0, by decide +kernel⟩, ⟨config 0 33 0 0 1 0, by decide +kernel⟩,
    ⟨config 0 32 0 0 1 0, by decide +kernel⟩, ⟨config 0 2 1 1 1 0, by decide +kernel⟩,
    ⟨config 0 2 1 0 1 0x7FF00000, by decide +kernel⟩, ⟨config 0 2 1 0 1 0x3FF80000, by decide +kernel⟩⟩

/-- The smallest configuration of section 5 is legal. -/
theorem smallConfig_legal : LegalConfig (config 0 2 1 0 1 0) :=
  ⟨by decide +kernel, by decide +kernel, by decide +kernel, by decide +kernel, by decide +kernel, by decide +kernel, 0,
    by decide +kernel, by decide +kernel, by decide +kernel⟩

theorem witness_DigmodRunsItsSteps : ∃ s : State, s.phase = .idle ∧ s.latch = none ∧ LegalConfig s :=
  ⟨config 0 2 1 0 1 0, rfl, rfl, smallConfig_legal⟩

/-- BPSK, order 2, one sample per symbol, span 0: three bits, three symbols, three samples; `D = 1` on the state after
reset, `D = 0` after a `CMDEF`; the waveform is `(−1, −1, 1)`. -/
theorem witness_DigmodCompletes : ∃ s : State, s.phase = .idle ∧ LegalConfig s ∧ numOf s.rolloff.pattern = some 0 ∧
    s.modtype.toNat + 1 = 1 ∧ s.prbsord.toNat = 2 ∧ s.sps.toNat = 1 ∧ s.span.toNat = 0 ∧
    (∀ k < 2 ^ 1, (cmapPoint { s.mem with cmap := defaultMap s.params.numerics s.modtype.toNat } k).isSome = true) ∧
    1 / Nat.gcd (2 ^ 2 - 1) 1 * (2 ^ 2 - 1) ≤ s.params.caps.bit.size ∧ 3 ≤ s.params.caps.sym.size ∧ 0 / 2 ≤ 3 ∧
    3 + 0 ≤ s.params.caps.ext.size ∧ (3 + 0) * 1 ≤ s.params.caps.x.size ∧ 0 * 1 + 1 ≤ s.params.caps.tap.size ∧
    (3 + 0) * 1 + 0 * 1 ≤ s.params.caps.y.size ∧ 3 * 1 ≤ s.params.caps.z.size ∧ 3 * 1 ≤ s.params.caps.w.size ∧
    (after (.digmod true) s).mem.zbuf = points [(-1, 0), (-1, 0), (1, 0)] ∧
    s.params.numerics.eq (maxMag2 s.params.numerics (after (.digmod true) s).mem.zbuf) Num.zero = false ∧
    (after (.digmod false) (after .cmdef s)).phase = .idle :=
  ⟨config 0 2 1 0 1 0, rfl, smallConfig_legal, by decide +kernel⟩

theorem witness_PmodeLoadsTheEntry :
    (∃ s : State, s.phase = .idle ∧ s.params.modeTable.lookup 0x12 = none) ∧
    ∃ s : State, s.phase = .idle ∧ s.params.modeTable.lookup 0x12 = some (profile 8 16 16 4) :=
  ⟨⟨State.reset, by decide +kernel⟩,
    ⟨{ State.reset with params := { Params.reference with modeTable := [(0x12, profile 8 16 16 4)] } },
      by decide +kernel⟩⟩

theorem witness_IlvAlternatesTheLanes :
    (∃ s : State, s.phase = .idle ∧ s.mem.wi.length ≠ s.mem.wq.length) ∧
    (∃ s : State, s.phase = .idle ∧ s.mem.wi.length = s.mem.wq.length ∧
      s.params.caps.ilv.size < 2 * s.mem.wi.length) ∧
    ∃ s : State, s.phase = .idle ∧ s.mem.wi.length = 1 ∧ s.mem.wi.length = s.mem.wq.length ∧
      2 * s.mem.wi.length ≤ s.params.caps.ilv.size :=
  ⟨⟨lane (profile 1 1 16 4) [1], by decide +kernel⟩,
    ⟨holding (tight State.reset) { Memory.reset with wi := samples [1], wq := samples [2] }, by decide +kernel⟩,
    ⟨holding State.reset { Memory.reset with wi := samples [1], wq := samples [2] }, by decide +kernel⟩⟩

theorem witness_VqQuantizesEverySample : ∃ s : State, s.phase = .idle ∧ (0 : BitVec 2) ≠ 3 ∧ 1 ≤ s.stage.gran.toNat ∧
    s.stage.width.toNat = 16 ∧ s.stage.shift.toNat < 16 ∧ s.stage.endian.toNat ≤ 1 ∧
    s.stage.minlen.toNat ≤ s.mem.wi.length ∧ s.mem.wi.length % s.stage.gran.toNat = 0 ∧
    s.mem.wi.length * (16 / 8) ≤ s.params.caps.q.size ∧ s.mem.wi.length = 1 :=
  ⟨lane (profile 1 1 16 15) [1], by decide +kernel⟩

/-- A legal profile but for its byte order. -/
def badOrder : Profile := { profile 1 1 16 4 with endian := 2 }

theorem witness_VqChecksTheProfileThenTheLength :
    (∃ s : State, s.phase = .idle ∧ s.stage.gran.toNat = 0) ∧
    (∃ s : State, s.phase = .idle ∧ s.stage.gran.toNat = 1 ∧ s.stage.width.toNat = 9) ∧
    (∃ s : State, s.phase = .idle ∧ s.stage.gran.toNat = 1 ∧ s.stage.width.toNat = 8 ∧ s.stage.shift.toNat = 8) ∧
    (∃ s : State, s.phase = .idle ∧ s.stage.gran.toNat = 1 ∧ s.stage.width.toNat = 16 ∧ s.stage.shift.toNat < 16 ∧
      s.stage.endian.toNat = 2) ∧
    (∃ s : State, s.phase = .idle ∧ s.stage = profile 4 8 16 4 ∧ s.mem.wi.length + 1 = s.stage.minlen.toNat) ∧
    (∃ s : State, s.phase = .idle ∧ s.stage = profile 4 0 16 4 ∧ s.stage.minlen.toNat ≤ s.mem.wi.length ∧
      s.mem.wi.length % s.stage.gran.toNat ≠ 0) ∧
    ∃ s : State, s.phase = .idle ∧ s.stage = profile 1 1 16 4 ∧ s.stage.minlen.toNat ≤ s.mem.wi.length ∧
      s.mem.wi.length % s.stage.gran.toNat = 0 ∧ s.params.caps.q.size < s.mem.wi.length * (16 / 8) :=
  ⟨⟨State.reset, by decide +kernel⟩, ⟨lane (profile 1 1 9 4) [1], by decide +kernel⟩,
    ⟨lane (profile 1 1 8 8) [1], by decide +kernel⟩, ⟨lane badOrder [1], by decide +kernel⟩,
    ⟨lane (profile 4 8 16 4) [1, 1, 1, 1, 1, 1, 1], by decide +kernel⟩,
    ⟨lane (profile 4 0 16 4) [1, 1, 1, 1, 1], by decide +kernel⟩,
    ⟨tight (lane (profile 1 1 16 4) [1]), by decide +kernel⟩⟩

theorem witness_ValidationOfTheMinimumLength :
    (∃ s : State, s.phase = .idle ∧ s.stage = profile 2 4 16 4 ∧ s.mem.wi.length = 4 ∧
      s.mem.wi.length * (16 / 8) ≤ s.params.caps.q.size) ∧
    (∃ s : State, s.phase = .idle ∧ s.stage = profile 2 4 16 4 ∧ s.mem.wi.length = 4 + 2) ∧
    (∃ s : State, s.phase = .idle ∧ s.stage = profile 2 4 16 4 ∧ s.mem.wi.length + 1 = 4) ∧
    (∃ s : State, s.phase = .idle ∧ s.stage = profile 2 4 16 4 ∧ s.mem.wi.length = 4 + 1) ∧
    1 ≤ (profile 2 4 16 4).gran.toNat ∧ (profile 2 4 16 4).width.toNat = 16 ∧
    (profile 2 4 16 4).minlen.toNat % (profile 2 4 16 4).gran.toNat = 0 :=
  ⟨⟨lane (profile 2 4 16 4) [1, 1, 1, 1], by decide +kernel⟩,
    ⟨lane (profile 2 4 16 4) [1, 1, 1, 1, 1, 1], by decide +kernel⟩,
    ⟨lane (profile 2 4 16 4) [1, 1, 1], by decide +kernel⟩,
    ⟨lane (profile 2 4 16 4) [1, 1, 1, 1, 1], by decide +kernel⟩, by decide +kernel⟩

/-- The largest multiplier that leaves room for the peak in 12 bits above the shift, and a lane with a root pending: M2 is
2, so that WI is `707/1000 / √2` and its negative. -/
theorem witness_NormalizedSamplesDoNotWrap :
    ((profile 1 1 16 4).shift.toNat < (profile 1 1 16 4).width.toNat ∧
      (Num.ofRat (2047 * (707 / 1000))).round Params.reference.ties < 2 ^ (16 - 1 - 4) ∧
      |(707 / 1000 : ℚ)| ≤ 707 / 1000) ∧
    ∃ s t : State, s.params = Params.reference ∧ RationalSamples s.mem.zbuf ∧ Completes .norm s t ∧
      t.mem.wi = [⟨Num.ofRat (707 / 1000), Num.ofRat 2⟩, ⟨Num.ofRat (-707 / 1000), Num.ofRat 2⟩] := by
  refine ⟨⟨by decide +kernel, by decide +kernel, by norm_num [abs_of_pos]⟩, normState [(1, 1), (-1, 0)],
    after .norm (normState [(1, 1), (-1, 0)]), rfl, ?_, ⟨rfl, exec_after _ _, by decide +kernel⟩, by decide +kernel⟩
  exact (by decide +kernel :
    ∀ z ∈ (normState [(1, 1), (-1, 0)]).mem.zbuf, z.i.rat?.isSome = true ∧ z.q.rat?.isSome = true)

/-- `2047 × 707/1000 / √2 = 1023.34…`, and `1023 × 2^4 = 16368`; its negative wraps to `2^16 − 16368`. -/
theorem test_quantize_root :
    quantize Params.reference (profile 1 1 16 4) ⟨Num.ofRat (707 / 1000), Num.ofRat 2⟩ = 16368 ∧
    quantize Params.reference (profile 1 1 16 4) ⟨Num.ofRat (-707 / 1000), Num.ofRat 2⟩ = 49168 := by decide +kernel

/-- The four numbers of the pulse are finite. -/
theorem pulse_numbers : numOf pulse.pd.freq.pattern = some (10 ^ 9) ∧ numOf pulse.pd.phase.pattern = some 90 ∧
    numOf pulse.pd.time.pattern = some (4722366482869645 / 2 ^ 72) ∧ numOf pulse.pd.power.pattern = some 0 := by
  decide +kernel

theorem witness_PdwencAppendsTheRecord : pulse.phase = .idle ∧ (numOf pulse.pd.freq.pattern).isSome = true ∧
    let x := encodeFields pulse.params pulse.pd (10 ^ 9) 90 (4722366482869645 / 2 ^ 72) 0
    (0 ≤ x.op ∧ x.op < 2 ^ 2) ∧ (0 ≤ x.freq ∧ x.freq < 2 ^ 47) ∧ (0 ≤ x.phase ∧ x.phase < 2 ^ 12) ∧
    (0 ≤ x.time ∧ x.time < 2 ^ 64) ∧ (0 ≤ x.power ∧ x.power < 2 ^ 15) ∧ (0 ≤ x.markers ∧ x.markers < 2 ^ 12) ∧
    (0 ≤ x.phctl ∧ x.phctl < 2) ∧ (0 ≤ x.rfoff ∧ x.rfoff < 2) ∧ (0 ≤ x.widx ∧ x.widx < 2 ^ 16) ∧
    (0 ≤ x.wmask ∧ x.wmask < 2 ^ 4) ∧ pulse.mem.recbuf.length + 6 ≤ pulse.params.caps.recs.size := by
  decide +kernel

/-- A `PD_*` pattern that is no number. -/
def nan : NumReg := ⟨0, 0x7FF80000⟩

/-- The pulse with its integer fields `op` and `wmask`. -/
def pulseWith (op wmask : Word) : State := { pulse with pd := { pulse.pd with op := op, wmask := wmask } }

theorem witness_PdwencChecksEveryField :
    (numOf ({ pulse.pd with freq := nan } : PdRegs).freq.pattern = none) ∧
    (∃ s : State, s.phase = .idle ∧ numOf s.pd.freq.pattern ≠ none ∧ numOf s.pd.phase.pattern = none) ∧
    (∃ s : State, s.phase = .idle ∧ numOf s.pd.freq.pattern ≠ none ∧ numOf s.pd.phase.pattern ≠ none ∧
      numOf s.pd.time.pattern = none) ∧
    (∃ s : State, s.phase = .idle ∧ numOf s.pd.freq.pattern ≠ none ∧ numOf s.pd.phase.pattern ≠ none ∧
      numOf s.pd.time.pattern ≠ none ∧ numOf s.pd.power.pattern = none) ∧
    (∃ s : State, s.phase = .idle ∧
      2 ^ 2 - 1 < (encodeFields s.params s.pd (10 ^ 9) 90 (4722366482869645 / 2 ^ 72) 0).op) ∧
    (∃ s : State, s.phase = .idle ∧
      2 ^ 4 - 1 < (encodeFields s.params s.pd (10 ^ 9) 90 (4722366482869645 / 2 ^ 72) 0).wmask) ∧
    ∃ s : State, s.phase = .idle ∧ firstOverflow
        (encodeFields s.params s.pd (10 ^ 9) 90 (4722366482869645 / 2 ^ 72) 0) = none ∧
      s.params.caps.recs.size < s.mem.recbuf.length + 6 :=
  ⟨by decide +kernel, ⟨{ pulse with pd := { pulse.pd with phase := nan } }, by decide +kernel⟩,
    ⟨{ pulse with pd := { pulse.pd with time := nan } }, by decide +kernel⟩,
    ⟨{ pulse with pd := { pulse.pd with power := nan } }, by decide +kernel⟩,
    ⟨pulseWith 4 0, by decide +kernel⟩, ⟨pulseWith 0 16, by decide +kernel⟩, ⟨tight pulse, by decide +kernel⟩⟩

theorem witness_PdwRoundTrip : ∃ s t : State, s.params.numerics = .reference ∧ Completes .pdwenc s t ∧
    numOf s.pd.freq.pattern = some (10 ^ 9) ∧ numOf s.pd.phase.pattern = some 90 ∧
    numOf s.pd.time.pattern = some (4722366482869645 / 2 ^ 72) ∧ numOf s.pd.power.pattern = some 0 :=
  ⟨pulse, after .pdwenc pulse, rfl, ⟨rfl, exec_after _ _, by decide +kernel⟩, pulse_numbers⟩

theorem witness_PdwclrEmptiesTheRecords : ∃ s : State, s.phase = .idle ∧ s.mem.recbuf.length = 6 :=
  ⟨after .pdwenc pulse, by decide +kernel⟩

theorem witness_PdwasmLaysOutTheFile :
    (∃ s : State, s.phase = .idle ∧ s.params.caps.file.size < 4096 + 4 * s.mem.recbuf.length) ∧
    (∃ s : State, s.phase = .idle ∧ 4096 + 4 * s.mem.recbuf.length ≤ s.params.caps.file.size ∧
      s.mem.recbuf.length = 6) ∧
    ∃ s : State, s.phase = .idle ∧ 4096 + 4 * s.mem.recbuf.length ≤ s.params.caps.file.size ∧
      s.mem.recbuf.length = 0 :=
  ⟨⟨tight State.reset, by decide +kernel⟩, ⟨after .pdwenc pulse, by decide +kernel⟩, ⟨State.reset, by decide +kernel⟩⟩

theorem witness_RoundIsNearest : (Num.ofRat (1 / 2)).round .halfEven = 0 ∧ (Num.ofRat (1 / 2)).round .halfAway = 1 ∧
    (Num.ofRat (-3 / 2)).round .halfEven = -2 ∧ (Num.ofRat (-1 / 2)).round .halfAway = -1 ∧ (0 : ℚ) < 2 ∧
    (⟨Num.ofRat (-1), Num.ofRat 2⟩ : Sample).round .halfEven = -1 ∧
    (⟨Num.ofRat (-1), Num.ofRat 4⟩ : Sample).round .halfEven = 0 := by decide +kernel

theorem witness_WindowEncodingInvertsNumOf : numOf 0x8000000000000000#64 = some 0 ∧
    numOf 1#64 = some (1 / 2 ^ 1074) ∧ numOf 0x3FF8000000000000#64 = some (3 / 2) ∧ (0 : ℚ) < 2 ∧
    (∃ x, numOf (⟨Num.ofRat 1, Num.ofRat 2⟩ : Sample).f64 = some x) ∧
    numOf (⟨Num.ofRat (2 ^ 1024), Num.one⟩ : Sample).f64 = none :=
  ⟨by decide +kernel, by decide +kernel, by decide +kernel, by decide +kernel, ⟨6369051672525773 / 2 ^ 53, by decide +kernel⟩,
    by decide +kernel⟩

/-- R93 on values computed outside the model: the peak, `1/√2`, `−1/√3`; the tie between 0 and the least subnormal, one
above the largest finite number that still rounds to it, and the half way to `2^1024`. -/
theorem test_f64_nearest : (Num.ofRat (707 / 1000)).f64 = 0x3FE69FBE76C8B439#64 ∧
    (⟨Num.ofRat 1, Num.ofRat 2⟩ : Sample).f64 = 0x3FE6A09E667F3BCD#64 ∧
    (⟨Num.ofRat (-1), Num.ofRat 3⟩ : Sample).f64 = 0xBFE279A74590331C#64 ∧
    (Num.ofRat (1 / 2 ^ 1075)).f64 = 0#64 ∧ (Num.ofRat (3 / 2 ^ 1075)).f64 = 2#64 ∧
    (Num.ofRat ((2 ^ 54 - 1) * 2 ^ 970 - 1)).f64 = 0x7FEFFFFFFFFFFFFF#64 ∧
    (Num.ofRat (-((2 ^ 54 - 1) * 2 ^ 970))).f64 = 0xFFF0000000000000#64 := by decide +kernel

/-- `cos(π/5) − cos(2π/5) − 1/2`, which is 0. -/
def fifthRoots : Num := (Num.cosPi (1 / 5)).sub ((Num.cosPi (2 / 5)).add (Num.ofRat (1 / 2)))

theorem witness_TheReferenceOrderIsSound : (Num.piTo 1).sign = 1 ∧ (Num.piTo 1).neg.sign = -1 ∧
    fifthRoots.vanishes = true ∧ (Num.ofRat (157 / 50)).lt (Num.piTo 1) = true := by decide +kernel

theorem witness_DecodeInvertsEncode : WellFormed (.vq 2 2) = true := by decide

theorem witness_EncodeInvertsDecode : decode 0x3000FFFF#32 = .ok (.pmode 0xFFFF) := by decide

theorem witness_IllegalWordsRaiseIllcmd : State.reset.phase = .idle ∧
    (∃ w : Word, (w.extractLsb' 24 8).toNat = 0x33) ∧
    (∃ w : Word, (w.extractLsb' 24 8).toNat = 0x10 ∧ w.extractLsb' 0 24 ≠ 0) ∧
    (∃ w : Word, (w.extractLsb' 24 8).toNat = 0x2F ∧ w.extractLsb' 1 23 ≠ 0) ∧
    (∃ w : Word, (w.extractLsb' 24 8).toNat = 0x30 ∧ w.extractLsb' 16 8 ≠ 0) ∧
    ∃ w : Word, (w.extractLsb' 24 8).toNat = 0x32 ∧ w.extractLsb' 4 20 = 0 ∧ w.extractLsb' 2 2 = 3 :=
  ⟨rfl, ⟨0x33000000, by decide⟩, ⟨0x10000001, by decide⟩, ⟨0x2F000002, by decide⟩, ⟨0x30010000, by decide⟩,
    ⟨0x3200000C, by decide⟩⟩

theorem witness_StepRunsTheDecodedCommand :
    (∃ s : State, s.phase = .idle ∧ s.bus = [.write cmdAddr 0#32] ∧ s.latency = [0] ∧ decode 0#32 = .ok .nop) ∧
    (∃ s : State, s.phase = .idle ∧ s.bus = [.write cmdAddr 0#32] ∧ s.latency = [2]) ∧
    (∃ s : State, s.phase = .fault ∧ s.bus = [.write cmdAddr 0x01000000#32] ∧ s.latency = [0] ∧
      decode 0x01000000#32 = .ok .clrerr) ∧
    State.reset.phase = .idle ∧ WellFormed .prbs = true :=
  ⟨⟨{ State.reset with bus := [.write cmdAddr 0], latency := [0] }, by decide +kernel⟩,
    ⟨{ State.reset with bus := [.write cmdAddr 0], latency := [2] }, by decide +kernel⟩,
    ⟨{ faultState with bus := [.write cmdAddr 0x01000000], latency := [0] }, by decide +kernel⟩, rfl, rfl⟩

theorem witness_DroppedCommandsChangeNothing :
    (∃ s : State, s.phase = .fault ∧ s.bus = [.write cmdAddr 0x10000000#32]) ∧
    ∃ s : State, s.phase = .busy ⟨none, 1, 1 + 1⟩ ∧ s.bus = [.write cmdAddr 0x10000000#32] :=
  ⟨⟨{ faultState with bus := [.write cmdAddr 0x10000000] }, by decide +kernel⟩,
    ⟨busyState (.write cmdAddr 0x10000000), by decide +kernel⟩⟩

theorem witness_EveryCommandAdvancesCix : State.reset.phase = .idle := rfl

theorem witness_FaultsAreFailFast :
    (∃ s t : State, s.phase = .idle ∧ exec (.digmod true) s = .next t ∧ t.phase = .fault) ∧
    (∃ s t : State, s.phase = .idle ∧ exec (.vq 0 0) s = .next t ∧ t.phase = .fault) ∧
    ∃ s t : State, s.phase = .idle ∧ exec .map s = .next t ∧ t.phase = .fault :=
  ⟨⟨config 1 2 1 8 0 0, _, rfl, exec_after _ _, by decide +kernel⟩,
    ⟨State.reset, _, rfl, exec_after _ _, by decide +kernel⟩, ⟨State.reset, _, rfl, exec_after _ _, by decide +kernel⟩⟩

theorem witness_CommandsKeepTheOperandRegisters : ∃ t, exec .prbs (config 0 3 0 0 0 0) = .next t ∧ t.phase = .idle :=
  ⟨_, exec_after _ _, by decide +kernel⟩

theorem witness_TheFaultLatchIsSticky : ∃ s : State, s.phase = .fault ∧ s.bus = [.write cmdAddr 0x10000000#32] ∧
    step s = .next (stepped s) :=
  ⟨{ faultState with bus := [.write cmdAddr 0x10000000] }, by decide +kernel, rfl, rfl⟩

/-- `VQ` and `PMODE` in IDLE, `CLRERR` and `SRESET` in FAULT, with a write of P_GRAN and reads of STATUS and CIX while
the command is BUSY; and both cases of the completion event. -/
theorem witness_FusedAndSplitCommandsAgree :
    (∃ s : State, s.phase = .idle ∧ s.latch = none ∧ decode 0x32000000#32 = .ok (.vq 0 0) ∧
      decode 0x30000012#32 = .ok (.pmode 0x12) ∧ s.stage = profile 1 1 16 4) ∧
    (faultState.phase = .fault ∧ decode 0x01000000#32 = .ok .clrerr ∧ decode 0x02000000#32 = .ok .sreset) ∧
    (∀ e ∈ [HostEvent.write 0x20#10 8, .read 1#10, .read 8#10], e = .read 1#10 ∨ e = .read 8#10 ∨
      ∃ (f : ProfileField) (a : RegAddr) (v : Word), regAt a = some (.stage f) ∧ e = .write a v) ∧
    (∃ s : State, s.phase = .busy ⟨none, 1, 0⟩ ∧ s.bus = [.read 8]) ∧
    ∃ s : State, s.phase = .busy ⟨none, 1, 2⟩ ∧ s.bus = [] := by
  refine ⟨⟨lane (profile 1 1 16 4) [1], by decide +kernel⟩, by decide +kernel, ?_,
    ⟨stepped { State.reset with bus := [.write cmdAddr 0, .read 8], latency := [1] }, by decide +kernel⟩,
    ⟨stepped { State.reset with bus := [.write cmdAddr 0], latency := [3] }, by decide +kernel⟩⟩
  intro e h
  simp only [List.mem_cons, List.not_mem_nil, or_false] at h
  rcases h with rfl | rfl | rfl
  · exact .inr (.inr ⟨.gran, 0x20, 8, by decide, rfl⟩)
  · exact .inl rfl
  · exact .inr (.inl rfl)

theorem witness_ReadsGiveTheNamedRegister : (Ready State.reset ∧ State.reset.phase = .idle) ∧
    ∃ r, Ready faultState ∧ faultState.phase = .fault ∧ faultState.latch = some r ∧ r.raised.code = .config ∧
      r.raised.sub = 4 :=
  ⟨⟨.inl rfl, rfl⟩, ⟨⟨.config, 4, 0, 32⟩, 0⟩, .inr (by decide +kernel), by decide +kernel⟩

theorem witness_ReservedAndReadOnlyAddresses : Ready State.reset ∧ 4 * (0x009#10 : RegAddr).toNat = 0x24 ∧
    4 * (0x3FF#10 : RegAddr).toNat = 0xFFC ∧ 4 * (0x001#10 : RegAddr).toNat = 4 ∧
    4 * (0x040#10 : RegAddr).toNat = 0x100 ∧ 4 * (0x047#10 : RegAddr).toNat = 0x11C ∧
    4 * (0x048#10 : RegAddr).toNat = 0x120 ∧ 4 * (0x04D#10 : RegAddr).toNat = 0x134 :=
  ⟨.inl rfl, by decide⟩

theorem witness_WrittenRegistersReadBack : Ready State.reset ∧ Ready faultState ∧
    4 * (0x010#10 : RegAddr).toNat = 0x40 ∧ 4 * (0x026#10 : RegAddr).toNat = 0x98 ∧
    4 * (0x080#10 : RegAddr).toNat = 0x200 ∧ 4 * (0x081#10 : RegAddr).toNat = 0x204 :=
  ⟨.inl rfl, .inr (by decide +kernel), by decide⟩

theorem witness_WindowReads :
    (∃ s : State, Ready s ∧ s.bufsel.toNat = 14) ∧ (∃ s : State, Ready s ∧ s.bufsel.toNat = 7 ∧ 2 ≤ (2 : Fin 4).val) ∧
    (∃ s : State, Ready s ∧ s.bufsel.toNat = 7 ∧ (1 : Fin 4).val < 2 ∧ s.mem.wi[s.bufidx.toNat]? = none) ∧
    (∃ s : State, Ready s ∧ s.bufsel.toNat = 7 ∧ (1 : Fin 4).val < 2 ∧
      (s.mem.wi[s.bufidx.toNat]?.map fun v => [v.f64.extractLsb' 0 32, v.f64.extractLsb' 32 32]) =
        some [0x00000000#32, 0x3FF00000#32]) ∧
    (∃ s : State, Ready s ∧ s.bufsel.toNat = 10 ∧
      (s.mem.qbuf[s.bufidx.toNat]?.map fun y => [BitVec.ofNat 32 y.toNat]) = some [0xF0#32]) ∧
    (∃ s : State, Ready s ∧ s.bufsel.toNat = 13 ∧ s.bufidx.toNat = 32) ∧
    (∃ s : State, Ready s ∧ s.bufsel.toNat = 13 ∧ s.bufidx.toNat < 32 ∧ cmapPoint s.mem s.bufidx.toNat = none) ∧
    ∃ s : State, Ready s ∧ s.bufsel.toNat = 13 ∧ (cmapPoint s.mem s.bufidx.toNat).isSome = true :=
  ⟨⟨{ State.reset with bufsel := 14 }, .inl rfl, by decide⟩,
    ⟨{ State.reset with bufsel := 7 }, .inl rfl, by decide +kernel⟩,
    ⟨{ State.reset with bufsel := 7 }, .inl rfl, by decide +kernel⟩,
    ⟨{ lane (profile 1 1 16 4) [1] with bufsel := 7 }, .inl rfl, by decide +kernel⟩,
    ⟨{ after (.vq 0 0) (lane (profile 1 1 16 4) [1]) with bufsel := 10 }, .inl (by decide +kernel), by decide +kernel⟩,
    ⟨{ State.reset with bufsel := 13, bufidx := 32 }, .inl rfl, by decide +kernel⟩,
    ⟨{ State.reset with bufsel := 13 }, .inl rfl, by decide +kernel⟩,
    ⟨{ after .cmdef State.reset with bufsel := 13 }, .inl (by decide +kernel), by decide +kernel⟩⟩

theorem witness_WindowPushes :
    (∃ s : State, Ready s ∧ s.bufsel.toNat = 1) ∧ (∃ s : State, Ready s ∧ s.bufsel.toNat = 0) ∧
    (∃ s : State, Ready s ∧ s.bufsel.toNat = 7 ∧ numOf (0x3FF00000#32 ++ s.wdat[0]) = some 1) ∧
    (∃ s : State, Ready s ∧ s.bufsel.toNat = 8 ∧ numOf (0x3FF00000#32 ++ s.wdat[0]) = some 1) ∧
    ∃ s : State, Ready s ∧ s.bufsel.toNat = 7 ∧ numOf (0x7FF00000#32 ++ s.wdat[0]) = none ∧ s.phase = .idle :=
  ⟨⟨{ State.reset with bufsel := 1 }, .inl rfl, by decide⟩, ⟨State.reset, .inl rfl, by decide⟩,
    ⟨{ State.reset with bufsel := 7 }, .inl rfl, by decide +kernel⟩,
    ⟨{ State.reset with bufsel := 8 }, .inl rfl, by decide +kernel⟩,
    ⟨{ State.reset with bufsel := 7 }, .inl rfl, by decide +kernel⟩⟩

/-- CMAP selected at entry `idx`, with the I pattern's high word `hi` and the Q pattern's low word 0 in the latches. -/
def cmapState (idx hi : Word) : State := { State.reset with bufsel := 13, bufidx := idx, wdat := #v[0, hi, 0, 0] }

theorem witness_CmapWrites :
    (∃ s : State, Ready s ∧ s.bufsel.toNat = 13 ∧ s.bufidx.toNat = 32) ∧
    (∃ s : State, Ready s ∧ s.bufsel.toNat = 13 ∧ s.bufidx.toNat = 31 ∧ numOf (s.wdat[1] ++ s.wdat[0]) = none) ∧
    (∃ s : State, Ready s ∧ s.bufsel.toNat = 13 ∧ s.bufidx.toNat = 31 ∧ numOf (s.wdat[1] ++ s.wdat[0]) ≠ none ∧
      numOf (0x7FF00000#32 ++ s.wdat[2]) = none) ∧
    ∃ s : State, Ready s ∧ s.bufsel.toNat = 13 ∧ s.bufidx.toNat = 31 ∧ numOf (s.wdat[1] ++ s.wdat[0]) = some 1 ∧
      numOf (0xBFF00000#32 ++ s.wdat[2]) = some (-1) :=
  ⟨⟨cmapState 32 0, .inl rfl, by decide +kernel⟩, ⟨cmapState 31 0x7FF00000, .inl rfl, by decide +kernel⟩,
    ⟨cmapState 31 0x3FF00000, .inl rfl, by decide +kernel⟩, ⟨cmapState 31 0x3FF00000, .inl rfl, by decide +kernel⟩⟩

theorem witness_BusyAccess : ∃ s : State, s.phase = .busy ⟨none, 1, 1 + 1⟩ ∧
    4 * (0x001#10 : RegAddr).toNat = 0x004 ∧ 4 * (0x008#10 : RegAddr).toNat = 0x020 ∧
    4 * (0x020#10 : RegAddr).toNat = 0x80 ∧ 4 * (0x026#10 : RegAddr).toNat = 0x98 ∧
    4 * (0x027#10 : RegAddr).toNat = 0x9C :=
  ⟨busyState (.read 1), by decide +kernel⟩

/-- A step into FAULT, and a step into BUSY with the old fault held: `CLRERR` accepted in FAULT. -/
theorem witness_EveryStepKeepsTheInvariant : (∃ s t : State, Inv s ∧ step s = .next t ∧ t.phase = .fault) ∧
    ∃ s t : State, Inv s ∧ step s = .next t ∧ t.phase = .busy ⟨none, 2, 0⟩ ∧ t.latch.isSome = true ∧ errcodeWord t = 0 :=
  ⟨⟨State.reset.withFetchWord 32 0x10000000, stepped (State.reset.withFetchWord 32 0x10000000),
      ⟨by decide +kernel, by decide +kernel⟩, rfl, by decide +kernel⟩,
    ⟨{ faultState with bus := [.write cmdAddr 0x01000000], latency := [1] },
      stepped { faultState with bus := [.write cmdAddr 0x01000000], latency := [1] },
      ⟨by decide +kernel, by decide +kernel⟩, rfl, by decide +kernel⟩⟩

end Sys2Proof.Tests
end

section
/-! O47. What the pseudocode of a command leaves as it was, and CIX at its end (R8, R33, R37, R356). -/

namespace Sys2Proof.Machine

/-- What no command's pseudocode writes: STATE, CIX and the latch, the operand registers (R37), the window, the model's
own fields. -/
structure Keeps (s t : State) : Prop where
  phase : t.phase = s.phase
  cix : t.cix = s.cix
  latch : t.latch = s.latch
  operands : SameOperands s t
  window : SameWindow s t
  outside : SameOutside s t

theorem Keeps.refl (s : State) : Keeps s s :=
  ⟨rfl, rfl, rfl, ⟨rfl, rfl, rfl, rfl, rfl, rfl, rfl⟩, ⟨rfl, rfl, rfl⟩, ⟨rfl, rfl, rfl, rfl⟩⟩

theorem Keeps.trans {s t u : State} (h : Keeps s t) (h' : Keeps t u) : Keeps s u where
  phase := h'.phase.trans h.phase
  cix := h'.cix.trans h.cix
  latch := h'.latch.trans h.latch
  operands := by
    have := h.operands
    have := h'.operands
    simp_all [SameOperands]
  window := by
    have := h.window
    have := h'.window
    simp_all [SameWindow]
  outside := by
    have := h.outside
    have := h'.outside
    simp_all [SameOutside]

theorem Keeps.withMem (s : State) (m : Memory) : Keeps s { s with mem := m } := { Keeps.refl s with }

theorem Keeps.withStage (s : State) (p : Profile) : Keeps s { s with stage := p } := { Keeps.refl s with }

theorem Keeps.takeSnapshot (s : State) : Keeps s (takeSnapshot s) := { Keeps.refl s with }

/-- A branch of a command's pseudocode. -/
theorem Result.All.ite {P : State → Prop} {c : Prop} [Decidable c] {r r' : Result} (h : r.All P) (h' : r'.All P) :
    (if c then r else r').All P := by
  split
  · exact h
  · exact h'

/-- A step after another: what both keep, the whole keeps. -/
theorem Result.All.andThen_keeps {s : State} {r : Result} {f : State → Result} (h : r.All (Keeps s))
    (hf : ∀ u, (f u).All (Keeps u)) : (r.andThen f).All (Keeps s) :=
  h.andThen fun u hu => (hf u).mono fun _ => hu.trans

section
variable (s : State)

theorem cmdefResult_keeps : (cmdefResult s).All (Keeps s) := .ite (Keeps.refl s) (Keeps.withMem s _)

theorem prbsResult_keeps : (prbsResult s).All (Keeps s) :=
  .ite (Keeps.refl s) (.ite (Keeps.refl s) (Keeps.withMem s _))

theorem brepResult_keeps : (brepResult s).All (Keeps s) :=
  .ite (Keeps.refl s) (.ite (Keeps.refl s) (Keeps.withMem s _))

theorem mapResult_keeps : (mapResult s).All (Keeps s) := by
  refine .ite (Keeps.refl s) (.ite (Keeps.refl s) ?_)
  split
  · exact Keeps.refl s
  · exact .ite (Keeps.refl s) (Keeps.withMem s _)

theorem cextResult_keeps : (cextResult s).All (Keeps s) :=
  .ite (Keeps.refl s) (.ite (Keeps.refl s) (.ite (Keeps.refl s) (Keeps.withMem s _)))

theorem zstuffResult_keeps : (zstuffResult s).All (Keeps s) :=
  .ite (Keeps.refl s) (.ite (Keeps.refl s) (Keeps.withMem s _))

theorem fgenResult_keeps : (fgenResult s).All (Keeps s) := by
  refine .ite (Keeps.refl s) (.ite (Keeps.refl s) (.ite (Keeps.refl s) ?_))
  split
  · exact Keeps.refl s
  · exact .ite (Keeps.refl s) (.ite (Keeps.refl s) (Keeps.withMem s _))

theorem convResult_keeps : (convResult s).All (Keeps s) :=
  .ite (Keeps.refl s) (.ite (Keeps.refl s) (.ite (Keeps.refl s) (Keeps.withMem s _)))

theorem trimResult_keeps : (trimResult s).All (Keeps s) :=
  .ite (Keeps.refl s) (.ite (Keeps.refl s) (.ite (Keeps.refl s) (Keeps.withMem s _)))

theorem normResult_keeps : (normResult s).All (Keeps s) :=
  .ite (Keeps.refl s) (.ite (Keeps.refl s) (.ite (Keeps.refl s) (Keeps.withMem s _)))

theorem digmodSteps_keeps : (digmodSteps s).All (Keeps s) :=
  ((((((((prbsResult_keeps s).andThen_keeps brepResult_keeps).andThen_keeps mapResult_keeps).andThen_keeps
    cextResult_keeps).andThen_keeps zstuffResult_keeps).andThen_keeps fgenResult_keeps).andThen_keeps
    convResult_keeps).andThen_keeps trimResult_keeps).andThen_keeps normResult_keeps

theorem digmodResult_keeps (d : Bool) : (digmodResult d s).All (Keeps s) := by
  unfold digmodResult
  split
  · exact Keeps.refl s
  · exact .ite ((cmdefResult_keeps s).andThen_keeps digmodSteps_keeps) (digmodSteps_keeps s)

theorem pmodeResult_keeps (mode : BitVec 16) : (pmodeResult mode s).All (Keeps s) := by
  unfold pmodeResult
  split
  · exact Keeps.refl s
  · exact Keeps.withStage s _

theorem ilvResult_keeps : (ilvResult s).All (Keeps s) :=
  .ite (Keeps.refl s) (.ite (Keeps.refl s) (Keeps.withMem s _))

theorem vqConvert_keeps (src order : BitVec 2) : (vqConvert src order s).All (Keeps s) := by
  simp only [vqConvert]
  split
  · exact Keeps.refl s
  · exact Keeps.withMem s _

theorem vqResult_keeps (src order : BitVec 2) : (vqResult src order s).All (Keeps s) :=
  .ite ((vqConvert_keeps (takeSnapshot s) src order).mono fun _ => (Keeps.takeSnapshot s).trans) (Keeps.refl s)

theorem appendRecord_keeps (x : PdwFields) : (appendRecord x s).All (Keeps s) := by
  unfold appendRecord
  split
  · exact Keeps.refl s
  · exact .ite (Keeps.refl s) (Keeps.withMem s _)

theorem pdwencResult_keeps : (pdwencResult s).All (Keeps s) := by
  unfold pdwencResult
  split
  · exact Keeps.refl s
  split
  · exact Keeps.refl s
  split
  · exact Keeps.refl s
  split
  · exact Keeps.refl s
  · exact appendRecord_keeps s _

theorem pdwasmResult_keeps : (pdwasmResult s).All (Keeps s) := .ite (Keeps.refl s) (Keeps.withMem s _)

end

/-- Every command but CLRERR and SRESET is accepted in IDLE only, and its pseudocode keeps what `Keeps` names. -/
theorem exec_eq_runInIdle (i : Instr) (hc : i ≠ .clrerr) (hr : i ≠ .sreset) :
    ∃ body : State → Result, exec i = runInIdle body ∧ ∀ s, (body s).All (Keeps s) := by
  cases i with
  | clrerr => exact absurd rfl hc
  | sreset => exact absurd rfl hr
  | nop => exact ⟨_, rfl, Keeps.refl⟩
  | prbs => exact ⟨_, rfl, prbsResult_keeps⟩
  | brep => exact ⟨_, rfl, brepResult_keeps⟩
  | cmclr => exact ⟨_, rfl, fun s => Keeps.withMem s _⟩
  | cmdef => exact ⟨_, rfl, cmdefResult_keeps⟩
  | map => exact ⟨_, rfl, mapResult_keeps⟩
  | cext => exact ⟨_, rfl, cextResult_keeps⟩
  | zstuff => exact ⟨_, rfl, zstuffResult_keeps⟩
  | fgen => exact ⟨_, rfl, fgenResult_keeps⟩
  | conv => exact ⟨_, rfl, convResult_keeps⟩
  | trim => exact ⟨_, rfl, trimResult_keeps⟩
  | norm => exact ⟨_, rfl, normResult_keeps⟩
  | digmod d => exact ⟨_, rfl, fun s => digmodResult_keeps s d⟩
  | pmode mode => exact ⟨_, rfl, fun s => pmodeResult_keeps s mode⟩
  | ilv => exact ⟨_, rfl, ilvResult_keeps⟩
  | vq src order => exact ⟨_, rfl, fun s => vqResult_keeps s src order⟩
  | pdwenc => exact ⟨_, rfl, pdwencResult_keeps⟩
  | pdwclr => exact ⟨_, rfl, fun s => Keeps.withMem s _⟩
  | pdwasm => exact ⟨_, rfl, pdwasmResult_keeps⟩

/-- The end of a command, with or without a fault, advances CIX by one (R33, R380). -/
theorem finish_cix {s : State} {r : Result} (h : r.All (Keeps s)) : (finish r).cix = s.cix + 1 := by
  cases r with
  | done t => rw [finish_done, advanceIndex_cix, Keeps.cix h]
  | raised e t => rw [finish_raised, takeFault_cix, Keeps.cix h]

/-- Settles O47: CLRERR and SRESET by their effect, every other command by what its pseudocode keeps. -/
theorem everyCommandAdvancesCix : Obligations.EveryCommandAdvancesCix := by
  intro i s
  by_cases hc : i = .clrerr
  · subst hc
    obtain ⟨t, ht⟩ := runUnlessBusy_next (fun t => advanceIndex (returnFromFault t)) s
    refine ⟨t, ht, fun hidle => ?_⟩
    obtain ⟨-, rfl⟩ | ⟨⟨c, hbusy⟩, -⟩ := runUnlessBusy_cases ht
    · rfl
    · simp [hidle] at hbusy
  by_cases hr : i = .sreset
  · subst hr
    obtain ⟨t, ht⟩ := runUnlessBusy_next resetBlock s
    refine ⟨t, ht, fun hidle => ?_⟩
    obtain ⟨-, rfl⟩ | ⟨⟨c, hbusy⟩, -⟩ := runUnlessBusy_cases ht
    · rfl
    · simp [hidle] at hbusy
  obtain ⟨body, hbody, hkeeps⟩ := exec_eq_runInIdle i hc hr
  obtain ⟨t, ht⟩ := runInIdle_next body s
  refine ⟨t, by rw [hbody, ht], fun hidle => ?_⟩
  rw [runInIdle_of_idle hidle] at ht
  cases ht
  rw [if_neg hr, finish_cix (hkeeps s)]

end Sys2Proof.Machine
end

section
/-! O37. `Round` from the floor of twice the value (R12). -/

namespace Sys2Proof

open Sys2Proof.Config

/-- What `Round` of `v` is, as R12 says it: an integer at most a half away, at a tie the even one or the one further from
zero. -/
def IsRoundOf (ties : RoundTies) (v : ℝ) (r : ℤ) : Prop :=
  |v - r| ≤ 1 / 2 ∧ (|v - r| = 1 / 2 → (ties = .halfEven → r % 2 = 0) ∧ (ties = .halfAway → |v| < |(r : ℝ)|))

/-- An integer less than a half away is the rounded value. -/
theorem isRoundOf_of_lt {ties : RoundTies} {v : ℝ} {r : ℤ} (h : |v - r| < 1 / 2) : IsRoundOf ties v r :=
  ⟨h.le, fun htie => absurd htie h.ne⟩

/-- At an exact half between `k` and `k + 1` the rounded value is what `tieBreak` says. -/
theorem isRoundOf_tieBreak (ties : RoundTies) (k : ℤ) : IsRoundOf ties (k + 1 / 2) (tieBreak ties k) := by
  have hlow : |(k : ℝ) + 1 / 2 - k| = 1 / 2 := by
    rw [add_sub_cancel_left, abs_of_pos (by norm_num)]
  have hhigh : |(k : ℝ) + 1 / 2 - (k + 1 : ℤ)| = 1 / 2 := by
    push_cast
    rw [show (k : ℝ) + 1 / 2 - (k + 1) = -(1 / 2) by ring, abs_neg, abs_of_pos (by norm_num)]
  cases ties with
  | halfEven =>
    by_cases heven : k % 2 = 0
    · simp only [tieBreak, heven, if_true]
      exact ⟨hlow.le, fun _ => ⟨fun _ => heven, nofun⟩⟩
    · simp only [tieBreak, heven, if_false]
      exact ⟨hhigh.le, fun _ => ⟨fun _ => by omega, nofun⟩⟩
  | halfAway =>
    by_cases hneg : k < 0
    · have hk : (k : ℝ) ≤ -1 := by exact_mod_cast Int.le_sub_one_of_lt hneg
      simp only [tieBreak, hneg, if_true]
      refine ⟨hlow.le, fun _ => ⟨nofun, fun _ => ?_⟩⟩
      rw [abs_of_neg (by linarith), abs_of_neg (by linarith)]
      linarith
    · have hk : (0 : ℝ) ≤ k := by exact_mod_cast not_lt.1 hneg
      simp only [tieBreak, hneg, if_false]
      refine ⟨hhigh.le, fun _ => ⟨nofun, fun _ => ?_⟩⟩
      push_cast
      rw [abs_of_pos (by linarith), abs_of_pos (by linarith)]
      linarith

/-- `roundFrom` of the floor of `2v`, and of whether `2v` is that integer, rounds `v`. -/
theorem roundFrom_isRoundOf (ties : RoundTies) {v : ℝ} {twice : ℤ × Bool} (hfloor : twice.1 = ⌊v * 2⌋)
    (hexact : twice.2 = true ↔ (twice.1 : ℝ) = v * 2) : IsRoundOf ties v (roundFrom ties twice) := by
  obtain ⟨f, exact⟩ := twice
  obtain ⟨hle, hlt⟩ := Int.floor_eq_iff.1 hfloor.symm
  simp only at hle hlt hexact
  obtain ⟨k, rfl | rfl⟩ : ∃ k, f = 2 * k ∨ f = 2 * k + 1 := ⟨f / 2, by omega⟩
  · have hr : roundFrom ties (2 * k, exact) = k := by simp [roundFrom]
    rw [hr]
    push_cast at hle hlt
    exact isRoundOf_of_lt (abs_lt.2 ⟨by linarith, by linarith⟩)
  · have hhalf : (2 * k + 1) / 2 = k := by omega
    push_cast at hle hlt hexact
    cases exact with
    | true =>
      have hr : roundFrom ties (2 * k + 1, true) = tieBreak ties k := by simp [roundFrom, hhalf]
      have hv : v = k + 1 / 2 := by linarith [hexact.1 rfl]
      rw [hr, hv]
      exact isRoundOf_tieBreak ties k
    | false =>
      have hr : roundFrom ties (2 * k + 1, false) = k + 1 := by simp [roundFrom, hhalf]
      have hne : 2 * (k : ℝ) + 1 ≠ v * 2 := fun h => by simpa using hexact.2 h
      have hlt' := lt_of_le_of_ne hle hne
      rw [hr]
      refine isRoundOf_of_lt (abs_lt.2 ⟨?_, ?_⟩) <;> push_cast <;> linarith

/-- The closed form of a rational is in rational form. -/
@[simp] theorem Num.rat?_ofRat (q : ℚ) : (Num.ofRat q).rat? = some q := by
  by_cases h : q = 0
  · simp [Num.ofRat, Num.insertTerm, Num.rat?, h]
  · simp [Num.ofRat, Num.insertTerm, Num.rat?, h]

theorem Num.round_ofRat_isRoundOf (ties : RoundTies) (q : ℚ) : IsRoundOf ties q ((Num.ofRat q).round ties) := by
  obtain ⟨hfloor, hexact⟩ := floorRat_spec 1 q
  rw [pow_one] at hfloor hexact
  rw [Num.round, Num.floorAt, Num.rat?_ofRat]
  exact roundFrom_isRoundOf ties hfloor hexact

theorem Sample.round_isRoundOf (ties : RoundTies) {v : Sample} {n d : ℚ} (hn : v.num.rat? = some n)
    (hd : v.rad.rat? = some d) (hpos : 0 < d) : IsRoundOf ties v.toReal (v.round ties) := by
  obtain ⟨hfloor, hexact⟩ := Sample.floorAt_spec 1 hn hd hpos
  rw [pow_one] at hfloor hexact
  exact roundFrom_isRoundOf ties hfloor hexact

/-- The rounding of a rational, said in the rationals. -/
theorem isRoundOf_ratCast {ties : RoundTies} {q : ℚ} {r : ℤ} (h : IsRoundOf ties (q : ℝ) r) :
    |q - r| ≤ 1 / 2 ∧
      (|q - r| = 1 / 2 → (ties = .halfEven → r % 2 = 0) ∧ (ties = .halfAway → |q| < |(r : ℚ)|)) := by
  have hdist : |(q : ℝ) - r| = ((|q - r| : ℚ) : ℝ) := by push_cast; rfl
  have hhalf : (1 / 2 : ℝ) = ((1 / 2 : ℚ) : ℝ) := by push_cast; rfl
  have hlarger : |(q : ℝ)| < |(r : ℝ)| ↔ |q| < |(r : ℚ)| := by exact_mod_cast Iff.rfl
  rwa [IsRoundOf, hdist, hhalf, Rat.cast_le, Rat.cast_inj, hlarger] at h

/-- Settles O37, by `roundFrom_isRoundOf` on the floors that Laws/Number.lean proves right. -/
theorem roundIsNearest : Obligations.RoundIsNearest :=
  ⟨fun ties q => isRoundOf_ratCast (Num.round_ofRat_isRoundOf ties q),
    fun ties n d hd => Sample.round_isRoundOf ties (Num.rat?_ofRat n) (Num.rat?_ofRat d) hd⟩

end Sys2Proof
end

section
/-! O39, the test for 0 (Machine/Vanishing.lean): each rewriting keeps the complex number that a combination of roots of
unity stands for, so that a combination of which nothing is left is 0. -/

namespace Sys2Proof

open Real

/-- `exp(2π i n / D)`. -/
noncomputable def unityRoot (D n : ℕ) : ℂ := Complex.exp (2 * π * Complex.I * (n / D))

/-- The complex number a combination of roots of order `D` stands for. -/
noncomputable def rootsValue (D : ℕ) (s : RootSum) : ℂ := (s.map fun u => (u.2 : ℂ) * unityRoot D u.1).sum

@[simp] theorem rootsValue_nil (D : ℕ) : rootsValue D [] = 0 := rfl

@[simp] theorem rootsValue_cons (D : ℕ) (u : ℕ × ℚ) (s : RootSum) :
    rootsValue D (u :: s) = (u.2 : ℂ) * unityRoot D u.1 + rootsValue D s := by simp [rootsValue]

@[simp] theorem rootsValue_addRoot (D n : ℕ) (c : ℚ) (s : RootSum) :
    rootsValue D (addRoot n c s) = (c : ℂ) * unityRoot D n + rootsValue D s := by
  induction s with
  | nil =>
    unfold addRoot
    split
    · simp [*]
    · simp
  | cons u us ih =>
    unfold addRoot
    split
    · rename_i hn
      have hsum : (c : ℂ) * unityRoot D n + u.2 * unityRoot D u.1 = ((c + u.2 : ℚ) : ℂ) * unityRoot D n := by
        rw [← hn]
        push_cast
        ring
      split
      · rename_i h0
        rw [rootsValue_cons, ← add_assoc, hsum, h0]
        simp
      · rw [rootsValue_cons, rootsValue_cons, ← add_assoc, hsum]
    · rw [rootsValue_cons, ih, rootsValue_cons]
      ring

/-! Roots of unity. -/

theorem unityRoot_add (D m n : ℕ) : unityRoot D (m + n) = unityRoot D m * unityRoot D n := by
  rw [unityRoot, unityRoot, unityRoot, ← Complex.exp_add]
  push_cast
  ring_nf

theorem unityRoot_mul_eq_pow (D m n : ℕ) : unityRoot D (n * m) = unityRoot D m ^ n := by
  rw [unityRoot, unityRoot, ← Complex.exp_nat_mul]
  push_cast
  ring_nf

@[simp] theorem unityRoot_order {D : ℕ} (hD : D ≠ 0) : unityRoot D D = 1 := by
  rw [unityRoot, div_self (by exact_mod_cast hD), mul_one, Complex.exp_two_pi_mul_I]

/-- An index counts modulo the order. -/
theorem unityRoot_mod {D : ℕ} (hD : D ≠ 0) (n : ℕ) : unityRoot D (n % D) = unityRoot D n := by
  conv_rhs => rw [← Nat.mod_add_div' n D, unityRoot_add, unityRoot_mul_eq_pow, unityRoot_order hD, one_pow, mul_one]

/-- The index `rootIndex` gives is that of `exp(π i r)`. -/
theorem unityRoot_rootIndex {D : ℕ} {r : ℚ} (hD : D ≠ 0) (hden : 2 * r.den ∣ D) :
    unityRoot D (rootIndex D r) = Complex.exp (π * r * Complex.I) := by
  obtain ⟨k, rfl⟩ := hden
  set D := 2 * r.den * k with hdef
  have hk : D / (2 * r.den) = k := Nat.mul_div_cancel_left k (by have := r.den_pos; omega)
  have hDz : (D : ℤ) ≠ 0 := by exact_mod_cast hD
  have hindex : (rootIndex D r : ℤ) = r.num * k - D * (r.num * k / D) := by
    rw [rootIndex, hk, Int.toNat_of_nonneg (Int.emod_nonneg _ hDz), Int.emod_def]
  have hindexC : (rootIndex D r : ℂ) = r.num * k - D * ((r.num * k / D : ℤ) : ℂ) := by exact_mod_cast hindex
  have hr : (r : ℂ) * D = 2 * (r.num * k) := by
    have h1 : (r : ℂ) * r.den = r.num := by exact_mod_cast Rat.mul_den_eq_num r
    rw [hdef]
    push_cast
    linear_combination 2 * (k : ℂ) * h1
  have hexp : 2 * π * Complex.I * ((rootIndex D r : ℂ) / D) =
      π * r * Complex.I - ((r.num * k / D : ℤ) : ℂ) * (2 * π * Complex.I) := by
    rw [hindexC]
    field_simp
    linear_combination -hr
  rw [unityRoot, hexp]
  exact Complex.exp_periodic.sub_int_mul_eq _

/-- The `p` roots of order `D` that are `D / p` apart sum to 0. -/
theorem sum_unityRoot_spread {D p : ℕ} (hD : D ≠ 0) (hp : 2 ≤ p) (hdvd : p ∣ D) (n : ℕ) :
    ∑ t ∈ Finset.range p, unityRoot D (n + t * (D / p)) = 0 := by
  have hprim : unityRoot D (D / p) = Complex.exp (2 * π * Complex.I / p) := by
    obtain ⟨k, rfl⟩ := hdvd
    have hpos : 0 < p := by omega
    have hk : k ≠ 0 := by rintro rfl; simp at hD
    rw [unityRoot, Nat.mul_div_cancel_left k hpos]
    congr 1
    push_cast
    field_simp
  have hgeom := (Complex.isPrimitiveRoot_exp p (by omega)).geom_sum_eq_zero (by omega)
  simp only [unityRoot_add, unityRoot_mul_eq_pow, hprim, ← Finset.mul_sum, hgeom, mul_zero]

/-! Reduction. -/

/-- A fold of `addRoot` adds up its terms. -/
theorem rootsValue_foldr_addRoot (D : ℕ) (index : ℕ → ℕ) (c : ℚ) (l : List ℕ) (s : RootSum) :
    rootsValue D (l.foldr (fun t rest => addRoot (index t) c rest) s) =
      (c : ℂ) * (l.map fun t => unityRoot D (index t)).sum + rootsValue D s := by
  induction l with
  | nil => simp
  | cons t ts ih =>
    rw [List.foldr_cons, rootsValue_addRoot, ih, List.map_cons, List.sum_cons]
    ring

/-- A root is minus the sum of the others that are `D / p` apart from it. -/
theorem sum_unityRoot_others {D p : ℕ} (hD : D ≠ 0) (hp : 2 ≤ p) (hdvd : p ∣ D) (n : ℕ) :
    ((List.range (p - 1)).map fun t => unityRoot D ((n + (t + 1) * (D / p)) % D)).sum = -unityRoot D n := by
  have hall := sum_unityRoot_spread hD hp hdvd n
  obtain ⟨k, rfl⟩ : ∃ k, p = k + 1 := ⟨p - 1, by omega⟩
  rw [Finset.sum_range_succ', Nat.zero_mul, Nat.add_zero] at hall
  simp only [unityRoot_mod hD, Nat.add_sub_cancel]
  rw [← List.sum_toFinset _ List.nodup_range, List.toFinset_range]
  exact eq_neg_of_add_eq_zero_left hall

theorem rootsValue_reducePrime {D p : ℕ} (pe : ℕ) (hD : D ≠ 0) (hp : 2 ≤ p) (hdvd : p ∣ D) (s : RootSum) :
    rootsValue D (reducePrime D p pe s) = rootsValue D s := by
  have hstep : ∀ l : RootSum, rootsValue D (l.foldr (fun u acc =>
      if rootBlock p pe u.1 = 0 ∧ classFull p pe (rootClass p pe u.1) s then
        (List.range (p - 1)).foldr (fun t rest => addRoot ((u.1 + (t + 1) * (D / p)) % D) (-u.2) rest) acc
      else addRoot u.1 u.2 acc) []) = rootsValue D l := by
    intro l
    induction l with
    | nil => rfl
    | cons u us ih =>
      rw [List.foldr_cons]
      split
      · rw [rootsValue_foldr_addRoot D (fun t => (u.1 + (t + 1) * (D / p)) % D), ih,
          sum_unityRoot_others hD hp hdvd, rootsValue_cons]
        push_cast
        ring
      · rw [rootsValue_addRoot, ih, rootsValue_cons]
  exact hstep s

theorem powerIn_dvd (fuel n d : ℕ) : powerIn fuel n d ∣ n := by
  induction fuel generalizing n with
  | zero => exact one_dvd n
  | succ fuel ih =>
    unfold powerIn
    split
    · exact (mul_dvd_mul_left d (ih (n / d))).trans (Nat.mul_div_cancel' (Nat.dvd_of_mod_eq_zero ‹_›)).dvd
    · exact one_dvd n

/-- What `primePowers` lists first of each pair divides the number and is no unit. -/
theorem dvd_of_mem_primePowers {fuel n d : ℕ} (hd : 2 ≤ d) {q : ℕ × ℕ} (hq : q ∈ primePowers fuel n d) :
    2 ≤ q.1 ∧ q.1 ∣ n := by
  induction fuel generalizing n d with
  | zero => simp [primePowers] at hq
  | succ fuel ih =>
    unfold primePowers at hq
    split at hq
    · simp at hq
    split at hq
    · obtain rfl : q = (n, n) := by simpa using hq
      exact ⟨by simp only; omega, dvd_rfl⟩
    split at hq
    · obtain rfl | hq := List.mem_cons.1 hq
      · exact ⟨hd, Nat.dvd_of_mod_eq_zero ‹_›⟩
      · obtain ⟨h2, hdvd⟩ := ih (by omega) hq
        exact ⟨h2, hdvd.trans (Nat.div_dvd_of_dvd (powerIn_dvd _ n d))⟩
    · exact ih (by omega) hq

theorem rootsValue_reduceRoots {D : ℕ} (hD : D ≠ 0) (s : RootSum) :
    rootsValue D (reduceRoots D s) = rootsValue D s := by
  have hfold : ∀ (l : List (ℕ × ℕ)) (acc : RootSum), (∀ q ∈ l, 2 ≤ q.1 ∧ q.1 ∣ D) →
      rootsValue D (l.foldl (fun acc q => reducePrime D q.1 q.2 acc) acc) = rootsValue D acc := by
    intro l
    induction l with
    | nil => exact fun _ _ => rfl
    | cons q qs ih =>
      intro acc hl
      obtain ⟨h2, hdvd⟩ := hl q List.mem_cons_self
      rw [List.foldl_cons, ih _ fun q' hq' => hl q' (List.mem_cons_of_mem q hq'), rootsValue_reducePrime q.2 hD h2 hdvd]
  exact hfold _ s fun _ => dvd_of_mem_primePowers le_rfl

/-! Cosines. -/

/-- The sum of the terms' coefficients times cosines, without the powers of `π`. -/
noncomputable def cosineSum (ts : List Term) : ℝ := (ts.map fun t => (t.coef : ℝ) * Real.cos (π * (t.angle : ℝ))).sum

@[simp] theorem cosineSum_nil : cosineSum [] = 0 := rfl

@[simp] theorem cosineSum_cons (t : Term) (ts : List Term) :
    cosineSum (t :: ts) = (t.coef : ℝ) * Real.cos (π * (t.angle : ℝ)) + cosineSum ts := by simp [cosineSum]

/-- A term is two roots of unity, each with half its coefficient. -/
theorem cosine_eq_roots {D : ℕ} (hD : D ≠ 0) {r : ℚ} (hden : 2 * r.den ∣ D) (c : ℚ) :
    ((c / 2 : ℚ) : ℂ) * unityRoot D (rootIndex D r) + ((c / 2 : ℚ) : ℂ) * unityRoot D (rootIndex D (-r)) =
      (((c : ℝ) * Real.cos (π * (r : ℝ)) : ℝ) : ℂ) := by
  rw [unityRoot_rootIndex hD hden, unityRoot_rootIndex hD (by rwa [Rat.neg_den])]
  push_cast
  rw [Complex.cos]
  ring_nf

theorem rootsValue_rootSum {D : ℕ} (hD : D ≠ 0) {ts : List Term} (hts : ∀ t ∈ ts, 2 * t.angle.den ∣ D) :
    rootsValue D (rootSum D ts) = (cosineSum ts : ℂ) := by
  induction ts with
  | nil => simp [rootSum]
  | cons t ts ih =>
    have hrest := ih fun u hu => hts u (List.mem_cons_of_mem t hu)
    have hroots := cosine_eq_roots hD (hts t List.mem_cons_self) t.coef
    rw [rootSum] at hrest ⊢
    rw [List.foldr_cons, rootsValue_addRoot, rootsValue_addRoot, hrest, ← add_assoc, hroots, cosineSum_cons]
    push_cast
    rfl

theorem foldr_lcm_ne_zero (ts : List Term) : ts.foldr (fun t d => Nat.lcm t.angle.den d) 1 ≠ 0 := by
  induction ts with
  | nil => simp
  | cons t ts ih => simpa using Nat.lcm_ne_zero t.angle.den_ne_zero ih

theorem den_dvd_foldr_lcm {ts : List Term} {t : Term} (ht : t ∈ ts) :
    t.angle.den ∣ ts.foldr (fun t d => Nat.lcm t.angle.den d) 1 := by
  induction ts with
  | nil => simp at ht
  | cons u us ih =>
    obtain rfl | ht := List.mem_cons.1 ht
    · exact Nat.dvd_lcm_left _ _
    · exact (ih ht).trans (Nat.dvd_lcm_right _ _)

/-- Terms that the test takes as 0 have coefficients and cosines that sum to 0. -/
theorem cosineSum_eq_zero {ts : List Term} (h : cosinesVanish ts = true) : cosineSum ts = 0 := by
  have hD : rootOrder ts ≠ 0 := mul_ne_zero two_ne_zero (foldr_lcm_ne_zero ts)
  have hvalue := rootsValue_reduceRoots hD (rootSum (rootOrder ts) ts)
  rw [List.isEmpty_iff.1 h, rootsValue_nil,
    rootsValue_rootSum hD fun t ht => mul_dvd_mul_left 2 (den_dvd_foldr_lcm ht)] at hvalue
  exact_mod_cast hvalue.symm

/-! One power of `π` after the other. -/

/-- The terms of one power of `π`. -/
def termsOfPower (ts : List Term) (k : ℤ) : List Term := ts.filter fun u => decide (u.piPow = k)

theorem termsReal_termsOfPower (ts : List Term) (k : ℤ) :
    termsReal (termsOfPower ts k) = π ^ k * cosineSum (termsOfPower ts k) := by
  induction ts with
  | nil => simp [termsOfPower]
  | cons t ts ih =>
    rw [termsOfPower] at ih ⊢
    by_cases ht : t.piPow = k
    · rw [List.filter_cons_of_pos (by simpa using ht), termsReal_cons, ih, cosineSum_cons, Term.toReal, ht]
      ring
    · rw [List.filter_cons_of_neg (by simpa using ht), ih]

/-- Terms sum to the sum over the powers of `π` that occur. -/
theorem termsReal_eq_sum_powers (ts : List Term) {powers : Finset ℤ} (h : ∀ t ∈ ts, t.piPow ∈ powers) :
    termsReal ts = ∑ k ∈ powers, termsReal (termsOfPower ts k) := by
  induction ts with
  | nil => simp [termsOfPower]
  | cons t ts ih =>
    have hsplit : ∀ k, termsReal (termsOfPower (t :: ts) k) =
        (if t.piPow = k then t.toReal else 0) + termsReal (termsOfPower ts k) := by
      intro k
      by_cases ht : t.piPow = k <;> simp [termsOfPower, ht]
    rw [termsReal_cons, ih fun u hu => h u (List.mem_cons_of_mem t hu), Finset.sum_congr rfl fun k _ => hsplit k,
      Finset.sum_add_distrib, Finset.sum_ite_eq, if_pos (h t List.mem_cons_self)]

/-- A closed form that the test takes as 0 is 0. -/
theorem Num.toReal_eq_zero_of_vanishes {a : Num} (h : a.vanishes = true) : a.toReal = 0 := by
  rw [Num.toReal, termsReal_eq_sum_powers a.terms (powers := (a.terms.map Term.piPow).toFinset) fun t ht => by
    simpa using ⟨t, ht, rfl⟩]
  refine Finset.sum_eq_zero fun k hk => ?_
  obtain ⟨t, ht, rfl⟩ : ∃ t ∈ a.terms, t.piPow = k := by simpa using hk
  have hzero : cosineSum (termsOfPower a.terms t.piPow) = 0 := cosineSum_eq_zero (List.all_eq_true.1 h t ht)
  rw [termsReal_termsOfPower, hzero, mul_zero]

end Sys2Proof
end

section
/-! O39, the series behind an enclosure (Machine/Enclosure.lean): the integer recursions `arctanTerms` and `cosTerms`
stay close to the tails of the alternating series of `arctan` and `cos`. -/

namespace Sys2Proof

open Real

/-! Tails of alternating series. -/

/-- `a i − a (i + 1) + a (i + 2) − …` -/
noncomputable def altTail (a : ℕ → ℝ) (i : ℕ) : ℝ := ∑' k, (-1) ^ k * a (i + k)

theorem summable_shift {a : ℕ → ℝ} (ha : Summable a) (i : ℕ) : Summable fun k => a (i + k) := by
  simpa only [add_comm i] using (summable_nat_add_iff i).2 ha

/-- A tail is its first term less the next tail. -/
theorem altTail_eq_sub {a : ℕ → ℝ} (ha : Summable a) (i : ℕ) : altTail a i = a i - altTail a (i + 1) := by
  have hterm : ∀ k, (-1) ^ (k + 1) * a (i + (k + 1)) = -((-1) ^ k * a (i + 1 + k)) := by
    intro k
    rw [pow_succ, show i + (k + 1) = i + 1 + k by omega]
    ring
  rw [altTail, (summable_shift ha i).alternating.tsum_eq_zero_add]
  simp only [hterm, tsum_neg, pow_zero, one_mul, add_zero]
  rfl

/-- A tail of falling terms is at most its first term. -/
theorem abs_altTail_le {a : ℕ → ℝ} (ha : Summable a) {i : ℕ} (hanti : ∀ k, i ≤ k → a (k + 1) ≤ a k) :
    |altTail a i| ≤ a i := by
  have hfall : Antitone fun k => a (i + k) := antitone_nat_of_succ_le fun k => hanti (i + k) (by omega)
  simpa [altTail] using alternating_series_error_bound _ hfall (summable_shift ha i) 0

/-! Division of integers and of their reals. -/

theorem intDiv_le_div (a : ℤ) {b : ℤ} (hb : 0 < b) : ((a / b : ℤ) : ℝ) ≤ (a : ℝ) / b := by
  rw [le_div_iff₀ (by exact_mod_cast hb)]
  exact_mod_cast Int.ediv_mul_le a hb.ne'

theorem div_lt_intDiv_add_one (a : ℤ) {b : ℤ} (hb : 0 < b) : (a : ℝ) / b < ((a / b : ℤ) : ℝ) + 1 := by
  rw [div_lt_iff₀ (by exact_mod_cast hb)]
  exact_mod_cast Int.lt_ediv_add_one_mul_self a hb

theorem abs_natDiv_sub_div_le (a : ℕ) {b : ℕ} (hb : 0 < b) : |((a / b : ℕ) : ℝ) - (a : ℝ) / b| ≤ 1 := by
  have hle := intDiv_le_div a (b := b) (by exact_mod_cast hb)
  have hlt := div_lt_intDiv_add_one a (b := b) (by exact_mod_cast hb)
  have hcast : (((a : ℤ) / (b : ℤ) : ℤ) : ℝ) = ((a / b : ℕ) : ℝ) := by exact_mod_cast rfl
  rw [hcast] at hle hlt
  push_cast at hle hlt
  exact abs_le.2 ⟨by linarith, by linarith⟩

/-! The arctangent. -/

/-- The term `1 / (b^(2i+1) (2i+1))` of `arctan (1/b)`. -/
noncomputable def arctanCoef (b i : ℕ) : ℝ := 1 / ((b : ℝ) ^ (2 * i + 1) * (2 * i + 1))

theorem hasSum_arctanCoef {b : ℕ} (hb : 2 ≤ b) :
    HasSum (fun i => (-1) ^ i * arctanCoef b i) (arctan (b : ℝ)⁻¹) := by
  have hb2 : (2 : ℝ) ≤ b := by exact_mod_cast hb
  have hnorm : ‖(b : ℝ)⁻¹‖ < 1 := by
    rw [Real.norm_of_nonneg (by positivity)]
    exact inv_lt_one_of_one_lt₀ (by linarith)
  convert! Real.hasSum_arctan hnorm using 2 with i
  rw [arctanCoef, inv_pow]
  push_cast
  field_simp

theorem summable_arctanCoef {b : ℕ} (hb : 2 ≤ b) : Summable (arctanCoef b) := by
  have habs := (hasSum_arctanCoef hb).summable.abs
  have hnn : ∀ i, 0 ≤ arctanCoef b i := fun i => by unfold arctanCoef; positivity
  simpa [abs_mul, abs_of_nonneg (hnn _)] using habs

theorem altTail_arctanCoef {b : ℕ} (hb : 2 ≤ b) : altTail (arctanCoef b) 0 = arctan (b : ℝ)⁻¹ := by
  simpa [altTail] using (hasSum_arctanCoef hb).tsum_eq

theorem arctanCoef_le {b : ℕ} (hb : 2 ≤ b) (i : ℕ) : arctanCoef b i ≤ 1 / (b : ℝ) ^ (2 * i + 1) := by
  refine one_div_le_one_div_of_le (by positivity) (le_mul_of_one_le_right (by positivity) ?_)
  linarith [i.cast_nonneg (α := ℝ)]

theorem abs_altTail_arctanCoef_le {b : ℕ} (hb : 2 ≤ b) (i : ℕ) :
    |altTail (arctanCoef b) i| ≤ 1 / (b : ℝ) ^ (2 * i + 1) := by
  have hb1 : (1 : ℝ) ≤ b := by exact_mod_cast (by omega : 1 ≤ b)
  refine (abs_altTail_le (summable_arctanCoef hb) fun k _ => ?_).trans (arctanCoef_le hb i)
  unfold arctanCoef
  gcongr
  · omega
  · omega

/-- Once the first term of a tail is at most one unit, so is the tail. -/
theorem mul_abs_altTail_arctanCoef_le_one {b : ℕ} (hb : 2 ≤ b) {N i : ℕ} (hN : N ≤ b ^ (2 * i + 1)) :
    |0 - N * altTail (arctanCoef b) i| ≤ 1 := by
  have hN' : (N : ℝ) ≤ (b : ℝ) ^ (2 * i + 1) := by exact_mod_cast hN
  rw [zero_sub, abs_neg, abs_mul, Nat.abs_cast]
  calc (N : ℝ) * |altTail (arctanCoef b) i|
      ≤ (b : ℝ) ^ (2 * i + 1) * (1 / (b : ℝ) ^ (2 * i + 1)) :=
        mul_le_mul hN' (abs_altTail_arctanCoef_le hb i) (abs_nonneg _) (by positivity)
    _ = 1 := mul_one_div_cancel (by positivity)

/-- The head of `arctanTerms` is off by one unit at most. -/
theorem arctanTerms_head_error {b : ℕ} (hb : 2 ≤ b) (N i : ℕ) :
    |((N / b ^ (2 * i + 1) / (2 * i + 1) : ℕ) : ℝ) - N * arctanCoef b i| ≤ 1 := by
  have hcoef : (N : ℝ) * arctanCoef b i = (N : ℝ) / (b ^ (2 * i + 1) * (2 * i + 1) : ℕ) := by
    rw [arctanCoef]
    push_cast
    ring
  rw [Nat.div_div_eq_div_mul, hcoef]
  exact abs_natDiv_sub_div_le N (by positivity)

/-- `arctanTerms` is off by at most one unit for each term and one for the rest of the series. -/
theorem arctanTerms_error {b : ℕ} (hb : 2 ≤ b) (N fuel i : ℕ) (hfuel : N ≤ b ^ (2 * (i + fuel) + 1)) :
    |(arctanTerms fuel (b * b) (N / b ^ (2 * i + 1)) i : ℝ) - N * altTail (arctanCoef b) i| ≤ fuel + 1 := by
  induction fuel generalizing i with
  | zero => simpa [arctanTerms] using mul_abs_altTail_arctanCoef_le_one hb hfuel
  | succ fuel ih =>
    unfold arctanTerms
    split
    · rename_i hzero
      have hN : N ≤ b ^ (2 * i + 1) := (Nat.lt_of_div_eq_zero (by positivity) hzero).le
      have hrest := mul_abs_altTail_arctanCoef_le_one hb hN
      push_cast
      linarith [fuel.cast_nonneg (α := ℝ)]
    · have hpow : N / b ^ (2 * i + 1) / (b * b) = N / b ^ (2 * (i + 1) + 1) := by
        rw [Nat.div_div_eq_div_mul]
        congr 1
        ring
      have hhead := arctanTerms_head_error hb N i
      have htail := ih (i + 1) (by rwa [show i + 1 + fuel = i + (fuel + 1) by omega])
      rw [hpow, altTail_eq_sub (summable_arctanCoef hb) i, Int.cast_sub, Int.cast_natCast, Nat.cast_succ]
      rw [abs_le] at hhead htail ⊢
      constructor <;> linarith

/-! `π`. -/

/-- `piScaled q` is `π × 2^q` to within `10 q + 400` units, by Machin's formula. -/
theorem piScaled_error (q : ℕ) : |(piScaled q : ℝ) - π * 2 ^ q| ≤ 10 * q + 400 := by
  have hq : 2 ^ q ≤ 2 ^ (4 * (q / 4 + 8)) := Nat.pow_le_pow_right (by omega) (by omega)
  have hq' : 2 ^ q ≤ 2 ^ (15 * (q / 15 + 8)) := Nat.pow_le_pow_right (by omega) (by omega)
  have hfive : 2 ^ q ≤ 5 ^ (2 * (0 + (q / 4 + 8)) + 1) := by
    rw [pow_mul] at hq
    rw [zero_add, pow_succ, pow_mul]
    exact (hq.trans (Nat.pow_le_pow_left (by norm_num) _)).trans (Nat.le_mul_of_pos_right _ (by norm_num))
  have hbig : 2 ^ q ≤ 239 ^ (2 * (0 + (q / 15 + 8)) + 1) := by
    rw [pow_mul] at hq'
    rw [zero_add, pow_succ, pow_mul]
    exact (hq'.trans (Nat.pow_le_pow_left (by norm_num) _)).trans (Nat.le_mul_of_pos_right _ (by norm_num))
  have h5 := arctanTerms_error (by norm_num) (2 ^ q) (q / 4 + 8) 0 hfive
  have h239 := arctanTerms_error (by norm_num) (2 ^ q) (q / 15 + 8) 0 hbig
  rw [altTail_arctanCoef (by norm_num)] at h5 h239
  have hmachin := Real.four_mul_arctan_inv_5_sub_arctan_inv_239
  have hpi : π * 2 ^ q = 16 * (2 ^ q * arctan 5⁻¹) - 4 * (2 ^ q * arctan 239⁻¹) := by
    linear_combination (-4 * 2 ^ q) * hmachin
  have hdiv4 : ((q / 4 : ℕ) : ℝ) ≤ q / 4 := Nat.cast_div_le
  have hdiv15 : ((q / 15 : ℕ) : ℝ) ≤ q / 15 := Nat.cast_div_le
  rw [hpi, piScaled]
  rw [abs_le] at h5 h239 ⊢
  norm_num at h5 h239 ⊢
  constructor <;> linarith

/-! The cosine. -/

/-- The term `y^i / (2i)!` of `cos √y`. -/
noncomputable def cosCoef (y : ℝ) (i : ℕ) : ℝ := y ^ i / (2 * i).factorial

theorem cosCoef_zero (y : ℝ) : cosCoef y 0 = 1 := by simp [cosCoef]

theorem cosCoef_succ (y : ℝ) (i : ℕ) : cosCoef y (i + 1) = cosCoef y i * y / ((2 * i + 1) * (2 * i + 2)) := by
  rw [cosCoef, cosCoef, show 2 * (i + 1) = 2 * i + 1 + 1 by ring, Nat.factorial_succ, Nat.factorial_succ]
  push_cast
  field_simp
  ring

theorem cosCoef_nonneg {y : ℝ} (hy : 0 ≤ y) (i : ℕ) : 0 ≤ cosCoef y i := by
  unfold cosCoef
  positivity

theorem cosCoef_eq {y : ℝ} (hy : 0 ≤ y) (i : ℕ) : cosCoef y i = √y ^ (2 * i) / (2 * i).factorial := by
  rw [pow_mul, Real.sq_sqrt hy, cosCoef]

theorem hasSum_cosCoef {y : ℝ} (hy : 0 ≤ y) : HasSum (fun i => (-1) ^ i * cosCoef y i) (Real.cos √y) := by
  convert Real.hasSum_cos √y using 2 with i
  rw [cosCoef_eq hy, mul_div_assoc]

theorem summable_cosCoef {y : ℝ} (hy : 0 ≤ y) : Summable (cosCoef y) := by
  simpa [abs_mul, abs_of_nonneg (cosCoef_nonneg hy _)] using (hasSum_cosCoef hy).summable.abs

theorem altTail_cosCoef {y : ℝ} (hy : 0 ≤ y) : altTail (cosCoef y) 0 = Real.cos √y := by
  simpa [altTail] using (hasSum_cosCoef hy).tsum_eq

/-- For `y ≤ 3` the terms fall by a factor of at least 4 from the second on. -/
theorem four_mul_cosCoef_succ_le {y : ℝ} (hy : 0 ≤ y) (hy3 : y ≤ 3) {i : ℕ} (hi : 1 ≤ i) :
    4 * cosCoef y (i + 1) ≤ cosCoef y i := by
  have hi' : (1 : ℝ) ≤ i := by exact_mod_cast hi
  rw [cosCoef_succ, ← mul_div_assoc, div_le_iff₀ (by positivity)]
  have hfactor : 4 * y ≤ (2 * i + 1) * (2 * i + 2) := by nlinarith
  linarith [mul_le_mul_of_nonneg_left hfactor (cosCoef_nonneg hy i)]

theorem abs_altTail_cosCoef_le {y : ℝ} (hy : 0 ≤ y) (hy3 : y ≤ 3) {i : ℕ} (hi : 1 ≤ i) :
    |altTail (cosCoef y) i| ≤ cosCoef y i :=
  abs_altTail_le (summable_cosCoef hy) fun k hk => by
    linarith [four_mul_cosCoef_succ_le hy hy3 (hi.trans hk), cosCoef_nonneg hy (k + 1)]

/-- One step of the recursion keeps a term within two units. -/
theorem cosTerms_term_error {N t2 term i : ℕ} (hN : 0 < N) (hy3 : (t2 : ℝ) / N ≤ 3) (hi : 1 ≤ i)
    (hterm : |(term : ℝ) - N * cosCoef (t2 / N) i| ≤ 2) :
    |((term * t2 / N / ((2 * i + 1) * (2 * i + 2)) : ℕ) : ℝ) - N * cosCoef (t2 / N) (i + 1)| ≤ 2 := by
  set y : ℝ := t2 / N with hy
  have hi' : (1 : ℝ) ≤ i := by exact_mod_cast hi
  have hm : (12 : ℝ) ≤ (2 * i + 1) * (2 * i + 2) := by nlinarith
  have hfactor : y / ((2 * i + 1) * (2 * i + 2)) ≤ 1 / 4 := by
    rw [div_le_div_iff₀ (by positivity) (by norm_num)]
    linarith
  have hfloor : |((term * t2 / N / ((2 * i + 1) * (2 * i + 2)) : ℕ) : ℝ) -
      term * (y / ((2 * i + 1) * (2 * i + 2)))| ≤ 1 := by
    rw [Nat.div_div_eq_div_mul]
    have hz : (term : ℝ) * (y / ((2 * i + 1) * (2 * i + 2))) =
        ((term * t2 : ℕ) : ℝ) / (N * ((2 * i + 1) * (2 * i + 2)) : ℕ) := by
      rw [hy]
      push_cast
      field_simp
    rw [hz]
    exact abs_natDiv_sub_div_le _ (by positivity)
  have hcarry : |term * (y / ((2 * i + 1) * (2 * i + 2))) - N * cosCoef y (i + 1)| ≤ 2 * (1 / 4) := by
    have hfactored : term * (y / ((2 * i + 1) * (2 * i + 2))) - N * cosCoef y (i + 1) =
        (term - N * cosCoef y i) * (y / ((2 * i + 1) * (2 * i + 2))) := by
      rw [cosCoef_succ]
      ring
    rw [hfactored, abs_mul, abs_of_nonneg (a := y / _) (by positivity)]
    exact mul_le_mul hterm hfactor (by positivity) (by norm_num)
  rw [abs_le] at hfloor hcarry ⊢
  constructor <;> linarith

/-- From the second term on `cosTerms` is off by at most two units for each term and two for the rest of the series. -/
theorem cosTerms_error {q t2 : ℕ} (hy3 : (t2 : ℝ) / (2 ^ q : ℕ) ≤ 3) (fuel term i : ℕ) (hi : 1 ≤ i)
    (hterm : |(term : ℝ) - (2 ^ q : ℕ) * cosCoef (t2 / (2 ^ q : ℕ)) i| ≤ 2)
    (hfuel : (2 ^ q : ℕ) * cosCoef (t2 / (2 ^ q : ℕ)) (i + fuel) ≤ 1) :
    |(cosTerms fuel q t2 term i : ℝ) - (2 ^ q : ℕ) * altTail (cosCoef (t2 / (2 ^ q : ℕ))) i| ≤ 2 * fuel + 2 := by
  have hN : 0 < 2 ^ q := by positivity
  have hy0 : (0 : ℝ) ≤ t2 / (2 ^ q : ℕ) := by positivity
  have hrest : ∀ {i : ℕ} {e : ℝ}, 1 ≤ i → (2 ^ q : ℕ) * cosCoef (t2 / (2 ^ q : ℕ)) i ≤ e →
      |0 - (2 ^ q : ℕ) * altTail (cosCoef (t2 / (2 ^ q : ℕ))) i| ≤ e := by
    intro i e hi he
    rw [zero_sub, abs_neg, abs_mul, Nat.abs_cast]
    exact (mul_le_mul_of_nonneg_left (abs_altTail_cosCoef_le hy0 hy3 hi) (Nat.cast_nonneg _)).trans he
  induction fuel generalizing term i with
  | zero =>
    have h := hrest hi hfuel
    simp only [cosTerms, Int.cast_zero]
    push_cast at h ⊢
    linarith
  | succ fuel ih =>
    unfold cosTerms
    split
    · rename_i hzero
      have h := hrest hi (e := 2) (by simpa [hzero] using (abs_le.1 hterm).1)
      push_cast at h ⊢
      linarith [fuel.cast_nonneg (α := ℝ)]
    · have htail := ih _ (i + 1) (by omega) (cosTerms_term_error hN hy3 hi hterm)
        (by rwa [show i + 1 + fuel = i + (fuel + 1) by omega])
      rw [altTail_eq_sub (summable_cosCoef hy0) i]
      rw [abs_le] at hterm htail ⊢
      push_cast at hterm htail ⊢
      constructor <;> linarith

/-- With `q / 4 + 8` terms the rest of the series is less than one unit. -/
theorem mul_cosCoef_le_one {y : ℝ} (hy : 0 ≤ y) (hy3 : y ≤ 3) (q : ℕ) : (2 ^ q : ℕ) * cosCoef y (q / 4 + 8) ≤ 1 := by
  set n := q / 4 + 8 with hn
  have hexp : Real.exp 7 ≤ 2 ^ 14 := by
    have h1 : Real.exp 1 ≤ 4 := by linarith [Real.exp_one_lt_d9]
    calc Real.exp 7 = Real.exp 1 ^ 7 := by rw [← Real.exp_nat_mul]; norm_num
      _ ≤ 4 ^ 7 := by gcongr
      _ = 2 ^ 14 := by norm_num
  have hseries : (16 : ℝ) ^ n * cosCoef y n ≤ 2 ^ 14 :=
    calc (16 : ℝ) ^ n * cosCoef y n = (16 * y) ^ n / (2 * n).factorial := by rw [cosCoef, mul_pow, mul_div_assoc]
      _ ≤ 7 ^ (2 * n) / (2 * n).factorial := by
        rw [pow_mul]
        gcongr
        linarith
      _ ≤ Real.exp 7 := Real.pow_div_factorial_le_exp 7 (by norm_num) _
      _ ≤ 2 ^ 14 := hexp
  have hpow : (2 : ℝ) ^ q * 2 ^ 14 ≤ 16 ^ n := by
    rw [← pow_add, show (16 : ℝ) = 2 ^ 4 by norm_num, ← pow_mul]
    exact pow_le_pow_right₀ (by norm_num) (by omega)
  have hscaled : 2 ^ 14 * (2 ^ q * cosCoef y n) ≤ 2 ^ 14 * 1 :=
    calc 2 ^ 14 * (2 ^ q * cosCoef y n) = 2 ^ q * 2 ^ 14 * cosCoef y n := by ring
      _ ≤ 16 ^ n * cosCoef y n := mul_le_mul_of_nonneg_right hpow (cosCoef_nonneg hy n)
      _ ≤ 2 ^ 14 * 1 := by rwa [mul_one]
  push_cast
  exact le_of_mul_le_mul_left hscaled (by norm_num)

/-- The series of the model sums to the cosine to within `q` units, for the square `t2 / 2^q` of an angle. -/
theorem cosTerms_full_error (q t2 : ℕ) (hy3 : (t2 : ℝ) / (2 ^ q : ℕ) ≤ 3) :
    |(cosTerms (q / 4 + 8) q t2 (2 ^ q) 0 : ℝ) - (2 ^ q : ℕ) * Real.cos √(t2 / (2 ^ q : ℕ))| ≤ q + 16 := by
  have hy0 : (0 : ℝ) ≤ t2 / (2 ^ q : ℕ) := by positivity
  have hN : 0 < 2 ^ q := by positivity
  have hterm : |((2 ^ q * t2 / 2 ^ q / ((2 * 0 + 1) * (2 * 0 + 2)) : ℕ) : ℝ) -
      (2 ^ q : ℕ) * cosCoef (t2 / (2 ^ q : ℕ)) (0 + 1)| ≤ 2 := by
    rw [Nat.mul_div_cancel_left _ hN]
    refine le_trans ?_ one_le_two
    have hhalf : (2 ^ q : ℕ) * cosCoef (t2 / (2 ^ q : ℕ)) (0 + 1) = (t2 : ℝ) / (2 : ℕ) := by
      rw [cosCoef_succ, cosCoef_zero]
      push_cast
      field_simp
      ring
    rw [hhalf]
    exact abs_natDiv_sub_div_le t2 (by norm_num)
  have htail := cosTerms_error hy3 (q / 4 + 7) _ (0 + 1) le_rfl hterm
    (by rw [show 0 + 1 + (q / 4 + 7) = q / 4 + 8 by omega]; exact mul_cosCoef_le_one hy0 hy3 q)
  have hdiv : ((q / 4 : ℕ) : ℝ) ≤ q / 4 := Nat.cast_div_le
  rw [← altTail_cosCoef hy0, altTail_eq_sub (summable_cosCoef hy0), cosCoef_zero,
    show q / 4 + 8 = q / 4 + 7 + 1 by omega, cosTerms, if_neg hN.ne']
  rw [abs_le] at htail ⊢
  push_cast at htail ⊢
  constructor <;> linarith

end Sys2Proof
end

section
/-! O39, the enclosures (Machine/Enclosure.lean): each operation on them holds the real number it stands for, at every
precision. -/

namespace Sys2Proof

open Real

/-- The value times `2^p` lies between the two integers. -/
structure Encloses (p : ℕ) (e : Enc) (x : ℝ) : Prop where
  lower : (e.1 : ℝ) ≤ x * 2 ^ p
  upper : x * 2 ^ p ≤ (e.2 : ℝ)

/-- An enclosure that shows its number not to be negative. -/
structure EnclosesNonneg (p : ℕ) (e : Enc) (x : ℝ) : Prop extends Encloses p e x where
  nonneg : 0 ≤ e.1

theorem EnclosesNonneg.value_nonneg {p : ℕ} {e : Enc} {x : ℝ} (h : EnclosesNonneg p e x) : 0 ≤ x := by
  have h0 : (0 : ℝ) ≤ e.1 := by exact_mod_cast h.nonneg
  exact nonneg_of_mul_nonneg_left (h0.trans h.lower) (by positivity)

/-- A division of integers rounds down, and one more is above. -/
theorem enclosesDiv_of_le {p : ℕ} {x : ℝ} {a b c : ℤ} (hc : 0 < c) (ha : (a : ℝ) / c ≤ x * 2 ^ p)
    (hb : x * 2 ^ p ≤ (b : ℝ) / c) : Encloses p (a / c, b / c + 1) x where
  lower := (intDiv_le_div a hc).trans ha
  upper := by
    push_cast
    exact hb.trans (div_lt_intDiv_add_one b hc).le

theorem encloses_one (p : ℕ) : EnclosesNonneg p (2 ^ p, 2 ^ p) 1 where
  lower := by simp
  upper := by simp
  nonneg := by positivity

/-! Guard bits. -/

/-- The guard bits of a precision leave 2^40 times as much room as the errors of the series take. -/
theorem series_error_le_guard (p : ℕ) : (10 * (p + guardBits p) + 400) * 2 ^ 40 ≤ 2 ^ guardBits p := by
  have hlog : p < 2 * 2 ^ Nat.log2 p := by
    rw [← pow_succ']
    exact Nat.lt_log2_self
  have hself : Nat.log2 p < 2 ^ Nat.log2 p := Nat.lt_two_pow_self
  rw [guardBits, pow_add]
  omega

/-- An integer within the room of the guard bits of the value gives an enclosure, which is narrow below. -/
theorem dropGuard_encloses {p : ℕ} {v : ℤ} {x : ℝ} (h : |(v : ℝ) - x * 2 ^ (p + guardBits p)| ≤ 2 ^ guardBits p) :
    Encloses p (dropGuard p v) x ∧ x * 2 ^ p - 3 < (dropGuard p v).1 := by
  have hG : (0 : ℝ) < 2 ^ guardBits p := by positivity
  have hle := intDiv_le_div v (b := 2 ^ guardBits p) (by positivity)
  have hlt := div_lt_intDiv_add_one v (b := 2 ^ guardBits p) (by positivity)
  obtain ⟨hlow, hhigh⟩ := abs_le.1 h
  have hscale : x * 2 ^ (p + guardBits p) = x * 2 ^ p * 2 ^ guardBits p := by rw [pow_add]; ring
  have hbelow : (v : ℝ) / 2 ^ guardBits p ≤ x * 2 ^ p + 1 := by
    rw [div_le_iff₀ hG, add_mul, one_mul, ← hscale]
    linarith
  have habove : x * 2 ^ p - 1 ≤ (v : ℝ) / 2 ^ guardBits p := by
    rw [le_div_iff₀ hG, sub_mul, one_mul, ← hscale]
    linarith
  push_cast at hle hlt
  refine ⟨⟨?_, ?_⟩, ?_⟩ <;> simp only [dropGuard] <;> push_cast <;> linarith

theorem series_error_le_guard_real (p : ℕ) :
    (10 * ((p + guardBits p : ℕ) : ℝ) + 400) * 2 ^ 40 ≤ 2 ^ guardBits p := by
  exact_mod_cast series_error_le_guard p

theorem piGuarded_error (p : ℕ) :
    |(piGuarded p : ℝ) - π * 2 ^ (p + guardBits p)| ≤ 10 * ((p + guardBits p : ℕ) : ℝ) + 400 :=
  piScaled_error (p + guardBits p)

/-- The enclosure of `π` that every other rests on, which leaves 0 out. -/
theorem dropGuard_piGuarded_encloses (p : ℕ) :
    Encloses p (dropGuard p (piGuarded p)) π ∧ 0 < (dropGuard p (piGuarded p)).1 := by
  have hroom := series_error_le_guard_real p
  obtain ⟨henc, hpos⟩ := dropGuard_encloses ((piGuarded_error p).trans (by linarith))
  have hpow : (1 : ℝ) ≤ 2 ^ p := one_le_pow₀ one_le_two
  have hlow : (0 : ℝ) < (dropGuard p (piGuarded p)).1 := by nlinarith [Real.pi_gt_three]
  exact ⟨henc, by exact_mod_cast hlow⟩

/-! The cosine of an acute angle. -/

/-- The cosine changes by at most half of what the square of the angle does. -/
theorem abs_cos_sub_cos_le_sq {a b : ℝ} (ha : 0 ≤ a) (hb : 0 ≤ b) :
    |Real.cos a - Real.cos b| ≤ |a ^ 2 - b ^ 2| / 2 := by
  have hsum : |Real.sin ((a + b) / 2)| ≤ (a + b) / 2 := by
    simpa [abs_of_nonneg (by positivity : 0 ≤ (a + b) / 2)] using Real.abs_sin_le_abs (x := (a + b) / 2)
  have hdiff : |Real.sin ((a - b) / 2)| ≤ |a - b| / 2 := by
    simpa [abs_div] using Real.abs_sin_le_abs (x := (a - b) / 2)
  calc |Real.cos a - Real.cos b|
      = 2 * (|Real.sin ((a + b) / 2)| * |Real.sin ((a - b) / 2)|) := by
        rw [Real.cos_sub_cos, abs_mul, abs_mul, abs_neg, abs_two, mul_assoc]
    _ ≤ 2 * ((a + b) / 2 * (|a - b| / 2)) := by gcongr
    _ = |a ^ 2 - b ^ 2| / 2 := by
        rw [sq_sub_sq, abs_mul, abs_of_nonneg (add_nonneg ha hb)]
        ring

theorem ratCast_le_half {r : ℚ} (h : r < 1 / 2) : (r : ℝ) ≤ 1 / 2 := by
  have hcast : (r : ℝ) < ((1 / 2 : ℚ) : ℝ) := by exact_mod_cast h
  push_cast at hcast
  exact hcast.le

/-- The scaled angle `π r`, rounded down, as `encloseCos` computes it. -/
theorem scaledAngle_error (p : ℕ) {r : ℚ} (hr0 : 0 ≤ r) (hr : r < 1 / 2) :
    |(((piGuarded p * r.num / r.den).toNat : ℕ) : ℝ) - π * r * 2 ^ (p + guardBits p)| ≤
      5 * ((p + guardBits p : ℕ) : ℝ) + 201 := by
  have hpos : 0 ≤ piGuarded p := by
    have hdiv : 0 < piGuarded p / 2 ^ guardBits p - 1 := (dropGuard_piGuarded_encloses p).2
    by_contra hneg
    have := Int.ediv_neg_of_neg_of_pos (not_le.1 hneg) (by positivity : (0 : ℤ) < 2 ^ guardBits p)
    omega
  have hden : (0 : ℤ) < r.den := by exact_mod_cast r.den_pos
  have hnat : (((piGuarded p * r.num / r.den).toNat : ℕ) : ℝ) = ((piGuarded p * r.num / r.den : ℤ) : ℝ) := by
    exact_mod_cast congrArg (Int.cast (R := ℝ))
      (Int.toNat_of_nonneg (Int.ediv_nonneg (mul_nonneg hpos (Rat.num_nonneg.2 hr0)) hden.le))
  have hratio : ((piGuarded p * r.num : ℤ) : ℝ) / (r.den : ℤ) = piGuarded p * r := by
    push_cast
    rw [mul_div_assoc, ← Rat.cast_def]
  have hle := intDiv_le_div (piGuarded p * r.num) hden
  have hlt := div_lt_intDiv_add_one (piGuarded p * r.num) hden
  rw [hratio] at hle hlt
  have hr0' : (0 : ℝ) ≤ r := by exact_mod_cast hr0
  have hr' := ratCast_le_half hr
  have hpi : |(piGuarded p : ℝ) * r - π * r * 2 ^ (p + guardBits p)| ≤
      (10 * ((p + guardBits p : ℕ) : ℝ) + 400) * (1 / 2) := by
    rw [show (piGuarded p : ℝ) * r - π * r * 2 ^ (p + guardBits p) =
      (piGuarded p - π * 2 ^ (p + guardBits p)) * r by ring, abs_mul, abs_of_nonneg hr0']
    exact mul_le_mul (piGuarded_error p) hr' hr0' (by positivity)
  rw [hnat]
  rw [abs_le] at hpi ⊢
  constructor <;> linarith

theorem abs_sub_mul_two_pow (a b : ℝ) (q : ℕ) : |a - b| * 2 ^ q = |a * 2 ^ q - b * 2 ^ q| := by
  rw [← sub_mul, abs_mul, abs_of_pos (a := (2 : ℝ) ^ q) (by positivity)]

/-- The square of a scaled angle, rounded down, is off by one unit at most. -/
theorem scaledSquare_error (q t : ℕ) :
    |((t * t / 2 ^ q : ℕ) : ℝ) / (2 ^ q : ℕ) - ((t : ℝ) / 2 ^ q) ^ 2| * 2 ^ q ≤ 1 := by
  have hscaled : ((t * t / 2 ^ q : ℕ) : ℝ) / (2 ^ q : ℕ) * 2 ^ q = (t * t / 2 ^ q : ℕ) := by
    rw [Nat.cast_pow, Nat.cast_ofNat, div_mul_cancel₀ _ (by positivity)]
  have hsquare : ((t : ℝ) / 2 ^ q) ^ 2 * 2 ^ q = ((t * t : ℕ) : ℝ) / (2 ^ q : ℕ) := by
    push_cast
    field_simp
  rw [abs_sub_mul_two_pow, hscaled, hsquare]
  exact abs_natDiv_sub_div_le (t * t) (by positivity)

theorem scaledSquare_le (q t : ℕ) : ((t * t / 2 ^ q : ℕ) : ℝ) / (2 ^ q : ℕ) ≤ ((t : ℝ) / 2 ^ q) ^ 2 := by
  rw [div_pow, Nat.cast_pow, Nat.cast_ofNat, sq (2 ^ q : ℝ), ← div_div]
  gcongr
  have hdiv : ((t * t / 2 ^ q : ℕ) : ℝ) ≤ ((t * t : ℕ) : ℝ) / (2 ^ q : ℕ) := Nat.cast_div_le
  push_cast at hdiv
  rwa [sq]

/-- The cosine of an angle from its scaled value `t` and the square of that, rounded down. -/
theorem cosTerms_of_scaledAngle {q t : ℕ} {θ e : ℝ} (hθ : θ ≤ 1.6) (he : e ≤ 0.1 * 2 ^ q)
    (ht : |(t : ℝ) - θ * 2 ^ q| ≤ e) :
    |(cosTerms (q / 4 + 8) q (t * t / 2 ^ q) (2 ^ q) 0 : ℝ) - Real.cos θ * 2 ^ q| ≤ q + 17 + e := by
  have hQ : (0 : ℝ) < 2 ^ q := by positivity
  have hsquare := scaledSquare_error q t
  have hle := scaledSquare_le q t
  set τ : ℝ := t / 2 ^ q with hτ
  set y : ℝ := (t * t / 2 ^ q : ℕ) / (2 ^ q : ℕ) with hy
  have hτ0 : 0 ≤ τ := by positivity
  have hy0 : 0 ≤ y := by positivity
  have hangle : |τ - θ| * 2 ^ q ≤ e := by
    rwa [abs_sub_mul_two_pow, hτ, div_mul_cancel₀ _ hQ.ne']
  have hy3 : y ≤ 3 := by
    have hdist : |τ - θ| ≤ 0.1 := le_of_mul_le_mul_right (hangle.trans he) hQ
    have hτle : τ ≤ 1.7 := by linarith [(abs_le.1 hdist).2]
    nlinarith
  have hcos : |Real.cos √y - Real.cos θ| * 2 ^ q ≤ 1 / 2 + e := by
    have hroot : |Real.cos √y - Real.cos τ| ≤ |y - τ ^ 2| / 2 := by
      simpa only [Real.sq_sqrt hy0] using abs_cos_sub_cos_le_sq (Real.sqrt_nonneg y) hτ0
    have htri : |Real.cos √y - Real.cos θ| ≤ |y - τ ^ 2| / 2 + |τ - θ| :=
      (abs_sub_le _ _ _).trans (add_le_add hroot (Real.abs_cos_sub_cos_le τ θ))
    linarith [mul_le_mul_of_nonneg_right htri hQ.le]
  have hseries := cosTerms_full_error q (t * t / 2 ^ q) hy3
  rw [abs_sub_mul_two_pow] at hcos
  rw [← hy, Nat.cast_pow, Nat.cast_ofNat] at hseries
  rw [abs_le] at hcos hseries ⊢
  constructor <;> linarith

/-- The enclosure of the cosine of an angle of `[0, π/2)`. -/
theorem encloseCos_encloses (p : ℕ) {r : ℚ} (hr0 : 0 ≤ r) (hr : r < 1 / 2) :
    Encloses p (encloseCos p (piGuarded p) r) (Real.cos (π * r)) := by
  unfold encloseCos
  split
  · rename_i hzero
    simpa [hzero] using (encloses_one p).toEncloses
  · have hroom := series_error_le_guard_real p
    have hguard : (2 : ℝ) ^ guardBits p ≤ 2 ^ (p + guardBits p) := pow_le_pow_right₀ one_le_two (by omega)
    have hr0' : (0 : ℝ) ≤ r := by exact_mod_cast hr0
    have hr' := ratCast_le_half hr
    have hangle : π * r ≤ 1.6 := by nlinarith [Real.pi_lt_d2]
    have hcos := cosTerms_of_scaledAngle hangle (by linarith) (scaledAngle_error p hr0 hr)
    exact (dropGuard_encloses (hcos.trans (by linarith))).1

/-! Products, powers and rational multiples. -/

theorem mulEnc_encloses {p : ℕ} {a b : Enc} {x y : ℝ} (ha : EnclosesNonneg p a x) (hb : EnclosesNonneg p b y) :
    EnclosesNonneg p (mulEnc p a b) (x * y) := by
  have hb0 : (0 : ℝ) ≤ b.1 := by exact_mod_cast hb.nonneg
  have hproduct : x * y * 2 ^ p = x * 2 ^ p * (y * 2 ^ p) / 2 ^ p := by field_simp
  have hx := ha.value_nonneg
  have hy := hb.value_nonneg
  refine { toEncloses := enclosesDiv_of_le (by positivity) ?_ ?_, nonneg := ?_ }
  · rw [hproduct]
    push_cast
    gcongr
    · exact ha.lower
    · exact hb.lower
  · rw [hproduct]
    push_cast
    gcongr
    · exact (by positivity : 0 ≤ x * 2 ^ p).trans ha.upper
    · exact ha.upper
    · exact hb.upper
  · exact Int.ediv_nonneg (mul_nonneg ha.nonneg hb.nonneg) (by positivity)

theorem powEnc_encloses {p : ℕ} {a : Enc} {x : ℝ} (ha : EnclosesNonneg p a x) (n : ℕ) :
    EnclosesNonneg p (powEnc p a n) (x ^ n) := by
  induction n with
  | zero => simpa [powEnc] using encloses_one p
  | succ n ih =>
    rw [pow_succ']
    exact mulEnc_encloses ha ih

/-- The enclosure of an inverse, the bounds exchanged. -/
theorem invEnc_encloses {p : ℕ} {a : Enc} {x : ℝ} (ha : Encloses p a x) (hpos : 0 < a.1) :
    EnclosesNonneg p (2 ^ (2 * p) / a.2, 2 ^ (2 * p) / a.1 + 1) x⁻¹ := by
  have hP : (0 : ℝ) < 2 ^ p := by positivity
  have h1 : (0 : ℝ) < a.1 := by exact_mod_cast hpos
  have hx2 : 0 < x * 2 ^ p := h1.trans_le ha.lower
  have h2 : (0 : ℝ) < a.2 := hx2.trans_le ha.upper
  have h2' : 0 < a.2 := by exact_mod_cast h2
  have hinv : x⁻¹ * 2 ^ p = 2 ^ (2 * p) / (x * 2 ^ p) := by
    rw [two_mul, pow_add]
    field_simp
  have hlow : ((2 ^ (2 * p) : ℤ) : ℝ) / a.2 ≤ x⁻¹ * 2 ^ p := by
    rw [hinv]
    push_cast
    gcongr
    exact ha.upper
  have hhigh : x⁻¹ * 2 ^ p ≤ ((2 ^ (2 * p) : ℤ) : ℝ) / a.1 := by
    rw [hinv]
    push_cast
    gcongr
    exact ha.lower
  refine ⟨⟨(intDiv_le_div _ h2').trans hlow, ?_⟩, Int.ediv_nonneg (by positivity) h2'.le⟩
  push_cast at hhigh ⊢
  have hlt := div_lt_intDiv_add_one (2 ^ (2 * p)) hpos
  push_cast at hlt
  linarith

theorem enclosePiTo_encloses (p : ℕ) (k : ℤ) : EnclosesNonneg p (enclosePiTo p (piGuarded p) k) (π ^ k) := by
  obtain ⟨hpi, hpos⟩ := dropGuard_piGuarded_encloses p
  cases k with
  | ofNat n =>
    rw [Int.ofNat_eq_natCast, zpow_natCast]
    exact powEnc_encloses ⟨hpi, hpos.le⟩ n
  | negSucc n =>
    rw [zpow_negSucc, ← inv_pow]
    exact powEnc_encloses (invEnc_encloses hpi hpos) (n + 1)

theorem scaleEnc_encloses {p : ℕ} {a : Enc} {x : ℝ} (c : ℚ) (ha : Encloses p a x) :
    Encloses p (scaleEnc c a) (c * x) := by
  have hden : (0 : ℤ) < c.den := by exact_mod_cast c.den_pos
  have hdenR : (0 : ℝ) < (c.den : ℤ) := by exact_mod_cast hden
  have hvalue : (c : ℝ) * x * 2 ^ p = c.num * (x * 2 ^ p) / (c.den : ℤ) := by
    rw [Rat.cast_def]
    push_cast
    ring
  unfold scaleEnc
  split
  · have hnum : (0 : ℝ) ≤ c.num := by exact_mod_cast ‹0 ≤ c.num›
    refine enclosesDiv_of_le hden ?_ ?_ <;> rw [hvalue, Int.cast_mul]
    · exact div_le_div_of_nonneg_right (mul_le_mul_of_nonneg_left ha.lower hnum) hdenR.le
    · exact div_le_div_of_nonneg_right (mul_le_mul_of_nonneg_left ha.upper hnum) hdenR.le
  · have hnum : (c.num : ℝ) ≤ 0 := by exact_mod_cast (not_le.1 ‹¬ 0 ≤ c.num›).le
    refine enclosesDiv_of_le hden ?_ ?_ <;> rw [hvalue, Int.cast_mul]
    · exact div_le_div_of_nonneg_right (mul_le_mul_of_nonpos_left ha.upper hnum) hdenR.le
    · exact div_le_div_of_nonneg_right (mul_le_mul_of_nonpos_left ha.lower hnum) hdenR.le

/-! Terms and closed forms. -/

/-- An enclosure of a number that is not negative keeps it when cut off at 0. -/
theorem Encloses.cutAtZero {p : ℕ} {e : Enc} {x : ℝ} (h : Encloses p e x) (hx : 0 ≤ x) :
    EnclosesNonneg p (max e.1 0, e.2) x where
  lower := by
    push_cast
    exact max_le h.lower (by positivity)
  upper := h.upper
  nonneg := le_max_right _ _

theorem encloseAcute_encloses (p : ℕ) {t : Term} (h0 : 0 ≤ t.angle) (h : t.angle < 1 / 2) :
    Encloses p (encloseAcute p (piGuarded p) t) t.toReal := by
  have h0' : (0 : ℝ) ≤ t.angle := by exact_mod_cast h0
  have h' := ratCast_le_half h
  have hcos : 0 ≤ Real.cos (π * t.angle) :=
    Real.cos_nonneg_of_neg_pi_div_two_le_of_le (by nlinarith [Real.pi_pos]) (by nlinarith [Real.pi_pos])
  have hproduct := mulEnc_encloses (enclosePiTo_encloses p t.piPow) ((encloseCos_encloses p h0 h).cutAtZero hcos)
  rw [Term.toReal, mul_assoc]
  exact scaleEnc_encloses t.coef hproduct.toEncloses

theorem foldAngle_mem (r : ℚ) : 0 ≤ foldAngle r ∧ foldAngle r ≤ 1 := by
  have hle : (((r / 2).floor : ℤ) : ℚ) ≤ r / 2 := Int.floor_le (r / 2)
  have hlt : r / 2 < (((r / 2).floor : ℤ) : ℚ) + 1 := Int.lt_floor_add_one (r / 2)
  simp only [foldAngle]
  split
  · exact ⟨by linarith, ‹_›⟩
  · exact ⟨by linarith, by linarith⟩

theorem acuteTerm_angle (k : ℤ) {f : ℚ} (q : ℚ) (h0 : 0 ≤ f) (h : f ≤ 1 / 2) :
    0 ≤ (acuteTerm k f q).angle ∧ (acuteTerm k f q).angle < 1 / 2 := by
  unfold acuteTerm
  split
  · norm_num
  · split
    · norm_num
    · exact ⟨h0, lt_of_le_of_ne h ‹_›⟩

/-- `cosTerm` brings the angle into `[0, 1/2)`. -/
theorem cosTerm_angle (k : ℤ) (r q : ℚ) : 0 ≤ (cosTerm k r q).angle ∧ (cosTerm k r q).angle < 1 / 2 := by
  obtain ⟨h0, h1⟩ := foldAngle_mem r
  unfold cosTerm
  split
  · exact acuteTerm_angle k q h0 ‹_›
  · exact acuteTerm_angle k (-q) (by linarith) (by linarith)

theorem encloseTerm_encloses (p : ℕ) (t : Term) : Encloses p (encloseTerm p (piGuarded p) t) t.toReal := by
  obtain ⟨h0, h⟩ := cosTerm_angle t.piPow t.angle t.coef
  have henc := encloseAcute_encloses p h0 h
  rwa [toReal_cosTerm] at henc

theorem encloseTerms_encloses (p : ℕ) (ts : List Term) :
    Encloses p (encloseTerms p (piGuarded p) ts) (termsReal ts) := by
  induction ts with
  | nil => exact ⟨by simp [encloseTerms], by simp [encloseTerms]⟩
  | cons t ts ih =>
    have ht := encloseTerm_encloses p t
    constructor <;> rw [termsReal_cons, add_mul, encloseTerms] <;> push_cast
    · exact add_le_add ht.lower ih.lower
    · exact add_le_add ht.upper ih.upper

/-- The enclosure of a closed form holds the real number it stands for, at every precision. -/
theorem Num.enclose_encloses (p : ℕ) (a : Num) : Encloses p (a.enclose p) a.toReal :=
  encloseTerms_encloses p a.terms

/-! The sign and the order. -/

theorem Num.toReal_pos_of_enclose {a : Num} {p : ℕ} (h : 0 < (a.enclose p).1) : 0 < a.toReal := by
  have hlow : (0 : ℝ) < (a.enclose p).1 := by exact_mod_cast h
  exact pos_of_mul_pos_left (hlow.trans_le (a.enclose_encloses p).lower) (by positivity)

theorem Num.toReal_neg_of_enclose {a : Num} {p : ℕ} (h : (a.enclose p).2 < 0) : a.toReal < 0 := by
  have hhigh : ((a.enclose p).2 : ℝ) < 0 := by exact_mod_cast h
  exact neg_of_mul_neg_left ((a.enclose_encloses p).upper.trans_lt hhigh) (by positivity)

/-- The sign that the model gives is 1 for a positive real only, −1 for a negative one only, and nothing but these
and 0. -/
theorem Num.sign_cases (a : Num) : (a.sign = 1 ∧ 0 < a.toReal) ∨ (a.sign = -1 ∧ a.toReal < 0) ∨ a.sign = 0 := by
  cases hrat : a.rat? with
  | some q =>
    rw [Num.sign_of_rat? hrat, Num.toReal_of_rat? hrat]
    rcases lt_trichotomy 0 q with hq | hq | hq
    · exact .inl ⟨if_pos hq, by exact_mod_cast hq⟩
    · exact .inr (.inr (by simp [← hq]))
    · exact .inr (.inl ⟨by rw [if_neg hq.le.not_gt, if_pos hq], by exact_mod_cast hq⟩)
  | none =>
    rw [Num.sign, hrat]
    rcases a.signIrrational_cases with ⟨hs, p, hp⟩ | ⟨hs, p, hp⟩ | hs
    · exact .inl ⟨hs, Num.toReal_pos_of_enclose hp⟩
    · exact .inr (.inl ⟨hs, Num.toReal_neg_of_enclose hp⟩)
    · exact .inr (.inr hs)

theorem Num.toReal_pos_of_sign {a : Num} (h : a.sign = 1) : 0 < a.toReal := by
  obtain ⟨-, hpos⟩ | ⟨hs, -⟩ | hs := a.sign_cases
  · exact hpos
  · omega
  · omega

theorem Num.toReal_neg_of_sign {a : Num} (h : a.sign < 0) : a.toReal < 0 := by
  obtain ⟨hs, -⟩ | ⟨-, hneg⟩ | hs := a.sign_cases
  · omega
  · exact hneg
  · omega

/-- `a < b` in the reference order is so of the reals. -/
theorem Num.toReal_lt_of_lt {a b : Num} (h : a.lt b = true) : a.toReal < b.toReal := by
  unfold Num.lt at h
  split at h
  · rename_i p q hp hq
    rw [Num.toReal_of_rat? hp, Num.toReal_of_rat? hq]
    exact_mod_cast of_decide_eq_true h
  · have hsub := Num.toReal_neg_of_sign (of_decide_eq_true h)
    rw [Num.toReal_sub] at hsub
    linarith

/-- Settles O39: enclosures hold their numbers, and the test for 0 only rewrites by relations between roots of unity. -/
theorem theReferenceOrderIsSound : Obligations.TheReferenceOrderIsSound := fun _ _ =>
  ⟨Num.toReal_pos_of_sign, fun h => Num.toReal_neg_of_sign (by omega), Num.toReal_eq_zero_of_vanishes,
    Num.toReal_lt_of_lt⟩

end Sys2Proof
end

section
/-! What a bus transaction outside BUSY does (R82, R83, R86, R88), and what each leaves as it was. -/

namespace Sys2Proof.Machine

/-! A step with no command in execution. -/

theorem step_ready {s : State} (h : Ready s) : step s = stepReady s := by
  obtain h | h := h
  · exact step_idle h
  · exact step_fault h

theorem step_read {s : State} (h : Ready s) (a : RegAddr) (rest : List HostEvent) :
    step { s with bus := .read a :: rest } = busRead { s with bus := rest } a :=
  step_ready (s := { s with bus := .read a :: rest }) h

theorem step_write {s : State} (h : Ready s) {a : RegAddr} (ha : a ≠ cmdAddr) (v : Word) (rest : List HostEvent) :
    step { s with bus := .write a v :: rest } = .next (busWrite { s with bus := rest } a v) := by
  rw [step_ready (s := { s with bus := .write a v :: rest }) h]
  exact if_neg ha

/-! Reads. -/

theorem returnElement_next {s t : State} {words k : Nat} {element : List Word}
    (h : returnElement s words k element = .next t) : ∃ idx v, t = { s with bufidx := idx, rdata := v } := by
  unfold returnElement returnData at h
  split at h <;> cases h
  · exact ⟨_, _, rfl⟩
  · exact ⟨_, _, rfl⟩

theorem windowRead_next {s t : State} {k : Nat} (h : windowRead s k = .next t) :
    ∃ idx v, t = { s with bufidx := idx, rdata := v } := by
  unfold windowRead at h
  split at h
  · cases h
    exact ⟨s.bufidx, 0, rfl⟩
  · split at h
    · cases h
      exact ⟨s.bufidx, 0, rfl⟩
    split at h
    · cases h
    split at h
    · cases h
    · exact returnElement_next h
  · split at h
    · cases h
      exact ⟨s.bufidx, 0, rfl⟩
    split at h
    · cases h
    · exact returnElement_next h

/-- A read that is not refused changes nothing but BUFIDX and the data read (R82, R88). -/
theorem busRead_next {s t : State} {a : RegAddr} (h : busRead s a = .next t) :
    ∃ idx v, t = { s with bufidx := idx, rdata := v } := by
  unfold busRead at h
  split at h
  · cases h
    exact ⟨s.bufidx, 0, rfl⟩
  · exact windowRead_next h
  · cases h
    exact ⟨s.bufidx, _, rfl⟩

/-! Writes. -/

/-- What the write of a named register never touches (R83). -/
structure SameControl (s t : State) : Prop where
  phase : t.phase = s.phase
  cix : t.cix = s.cix
  latch : t.latch = s.latch
  wdat : t.wdat = s.wdat
  bus : t.bus = s.bus

theorem SameControl.refl (s : State) : SameControl s s := ⟨rfl, rfl, rfl, rfl, rfl⟩

theorem setNumField_sameControl (s : State) (x : NumReg) (f : NumField) : SameControl s (setNumField s x f) := by
  cases f <;> exact { SameControl.refl s with }

theorem clearBuffer_sameControl (s : State) (b : Buffer) : SameControl s (clearBuffer s b) := by
  cases b <;> exact { SameControl.refl s with }

@[simp] theorem writeReg_length (s : State) (v : Word) (b : Buffer) :
    writeReg s v (.length b) = if v = 0 then clearBuffer s b else s := rfl

theorem writeReg_sameControl (s : State) (v : Word) (r : Reg) : SameControl s (writeReg s v r) := by
  cases r with
  | numLo f => exact setNumField_sameControl s _ f
  | numHi f => exact setNumField_sameControl s _ f
  | length b =>
    rw [writeReg_length]
    split
    · exact clearBuffer_sameControl s b
    · exact SameControl.refl s
  | _ => exact { SameControl.refl s with }

theorem busWrite_reserved {a : RegAddr} (h : regAt a = none) (s : State) (v : Word) : busWrite s a v = s := by
  simp [busWrite, h]

theorem busWrite_reg {a : RegAddr} {r : Reg} (h : regAt a = some r) (hr : ∀ k, r ≠ .bufdat k) (s : State) (v : Word) :
    busWrite s a v = writeReg s v r := by
  unfold busWrite
  split
  · simp_all
  · rename_i k hk
    exact absurd (Option.some.inj (h.symm.trans hk)) (hr k)
  · rename_i hk
    rw [Option.some.inj (h.symm.trans hk)]

theorem busRead_reserved {a : RegAddr} (h : regAt a = none) (s : State) :
    busRead s a = .next { s with rdata := 0 } := by
  simp [busRead, h, returnData]

theorem busRead_reg {a : RegAddr} {r : Reg} (h : regAt a = some r) (hr : ∀ k, r ≠ .bufdat k) (s : State) :
    busRead s a = .next { s with rdata := readReg s r } := by
  unfold busRead
  split
  · simp_all
  · rename_i k hk
    exact absurd (Option.some.inj (h.symm.trans hk)) (hr k)
  · rename_i hk
    rw [Option.some.inj (h.symm.trans hk)]
    rfl

end Sys2Proof.Machine
end

section
/-! The address map (R84): which registers stand at which addresses. -/

namespace Sys2Proof.Machine

theorem regAt_mem {a : RegAddr} {r : Reg} (h : regAt a = some r) : (4 * a.toNat, r) ∈ addressMap := by
  obtain ⟨l₁, l₂, hl, -⟩ := List.lookup_eq_some_iff.1 h
  simp [hl]

/-- No register stands at two addresses. -/
theorem regAt_injective {a b : RegAddr} {r : Reg} (ha : regAt a = some r) (hb : regAt b = some r) : a = b := by
  have hnodup : (addressMap.map Prod.snd).Nodup := by decide
  have h := congrArg Prod.fst (List.inj_on_of_nodup_map hnodup (regAt_mem ha) (regAt_mem hb) rfl)
  exact BitVec.eq_of_toNat_eq (Nat.eq_of_mul_eq_mul_left (by decide) h)

/-- The registers that hold what the host writes: the operand registers of R37, BUFSEL and BUFIDX (R49). -/
def Reg.holdsWrite : Reg → Bool
  | .modtype | .prbsord | .sps | .span | .fkind | .stage _ | .pdField _ | .numLo _ | .numHi _ | .bufsel
  | .bufidx => true
  | _ => false

/-- The registers that a write leaves as they are, but for the write of 0 to a length register (R83). -/
def Reg.readOnly : Reg → Bool
  | .status | .errcode | .errcix | .errvalLo | .errvalHi | .errlimLo | .errlimHi | .cix | .snap _ | .length _
  | .cmapvalid => true
  | _ => false

/-- The length registers that the host may write 0 to (R48). -/
def Reg.clearable : Reg → Bool
  | .length .bitbuf | .length .wi | .length .wq => true
  | _ => false

theorem Reg.holdsWrite_ne_bufdat {r : Reg} (h : r.holdsWrite = true) (k : Fin 4) : r ≠ .bufdat k := by
  rintro rfl
  cases h

theorem Reg.readOnly_ne_bufdat {r : Reg} (h : r.readOnly = true) (k : Fin 4) : r ≠ .bufdat k := by
  rintro rfl
  cases h

/-- A write to a read-only register is ignored, unless it empties a buffer (R48, R83). -/
theorem writeReg_readOnly {r : Reg} (h : r.readOnly = true) {v : Word} (hv : ¬ (r.clearable = true ∧ v = 0))
    (s : State) : writeReg s v r = s := by
  cases r with
  | length b =>
    rw [writeReg_length]
    split
    · cases b with
      | bitbuf => exact absurd ⟨rfl, ‹_›⟩ hv
      | wi => exact absurd ⟨rfl, ‹_›⟩ hv
      | wq => exact absurd ⟨rfl, ‹_›⟩ hv
      | _ => rfl
    · rfl
  | status | errcode | errcix | errvalLo | errvalHi | errlimLo | errlimHi | cix | snap | cmapvalid => rfl
  | _ => cases h

/-- What is read does not depend on what the host does next (log 3). -/
theorem readReg_withBus (s : State) (bus : List HostEvent) (r : Reg) :
    readReg { s with bus := bus } r = readReg s r := by
  cases r <;> rfl

/-! What a register reads after a write to the same and to another register. -/

theorem profileField_setProfileField (p : Profile) (v : Word) (f g : ProfileField) :
    profileField (setProfileField p v f) g = if g = f then v else profileField p g := by
  cases f <;> cases g <;> rfl

theorem pdField_setPdField (p : PdRegs) (v : Word) (f g : PdField) :
    pdField (setPdField p v f) g = if g = f then v else pdField p g := by
  cases f <;> cases g <;> rfl

theorem numField_setNumField (s : State) (x : NumReg) (f g : NumField) :
    numField (setNumField s x f) g = if g = f then x else numField s g := by
  cases f <;> cases g <;> rfl

theorem numField_setPdField (s : State) (v : Word) (f : PdField) (g : NumField) :
    numField { s with pd := setPdField s.pd v f } g = numField s g := by
  cases f <;> cases g <;> rfl

/-- A `Num` register pair is read by its own two registers only. -/
theorem readReg_setNumField (s : State) (x : NumReg) (f : NumField) {r : Reg} (hlo : ∀ g, r ≠ .numLo g)
    (hhi : ∀ g, r ≠ .numHi g) : readReg (setNumField s x f) r = readReg s r := by
  cases r with
  | numLo g => exact absurd rfl (hlo g)
  | numHi g => exact absurd rfl (hhi g)
  | _ => cases f <;> rfl

theorem setWidth_four_eq_and (v : Word) : (v.setWidth 4).setWidth 32 = v &&& 0xF#32 := by
  apply BitVec.eq_of_toNat_eq
  have h : v.toNat &&& 15 = v.toNat % 16 := Nat.and_two_pow_sub_one_eq_mod v.toNat 4
  simp only [BitVec.toNat_setWidth, BitVec.toNat_and, BitVec.toNat_ofNat, Nat.reduceMod, Nat.reducePow, h]
  omega

theorem readReg_writeReg_same {r : Reg} (h : r.holdsWrite = true) (s : State) (v : Word) :
    readReg (writeReg s v r) r = if r = .bufsel then v &&& 0xF#32 else v := by
  cases r with
  | bufsel => exact setWidth_four_eq_and v
  | stage f => simp [writeReg, readReg, profileField_setProfileField]
  | pdField f => simp [writeReg, readReg, pdField_setPdField]
  | numLo f => simp [writeReg, readReg, numField_setNumField]
  | numHi f => simp [writeReg, readReg, numField_setNumField]
  | modtype | prbsord | sps | span | fkind | bufidx => rfl
  | _ => cases h

theorem readReg_writeReg_other {r r' : Reg} (h : r.holdsWrite = true) (hne : r' ≠ r) (s : State) (v : Word) :
    readReg (writeReg s v r) r' = readReg s r' := by
  cases r with
  | modtype => cases r' with | modtype => exact absurd rfl hne | _ => rfl
  | prbsord => cases r' with | prbsord => exact absurd rfl hne | _ => rfl
  | sps => cases r' with | sps => exact absurd rfl hne | _ => rfl
  | span => cases r' with | span => exact absurd rfl hne | _ => rfl
  | fkind => cases r' with | fkind => exact absurd rfl hne | _ => rfl
  | bufsel => cases r' with | bufsel => exact absurd rfl hne | _ => rfl
  | bufidx => cases r' with | bufidx => exact absurd rfl hne | _ => rfl
  | stage f =>
    cases r' with
    | stage g =>
      have hg : g ≠ f := fun hgf => hne (congrArg Reg.stage hgf)
      exact (profileField_setProfileField s.stage v f g).trans (if_neg hg)
    | _ => rfl
  | pdField f =>
    cases r' with
    | pdField g =>
      have hg : g ≠ f := fun hgf => hne (congrArg Reg.pdField hgf)
      exact (pdField_setPdField s.pd v f g).trans (if_neg hg)
    | numLo g => exact congrArg NumReg.lo (numField_setPdField s v f g)
    | numHi g => exact congrArg NumReg.hi (numField_setPdField s v f g)
    | _ => rfl
  | numLo f =>
    cases r' with
    | numLo g =>
      have hg : g ≠ f := fun hgf => hne (congrArg Reg.numLo hgf)
      simp [writeReg, readReg, numField_setNumField, hg]
    | numHi g =>
      simp only [writeReg, readReg, numField_setNumField]
      split
      · simp [*]
      · rfl
    | _ => exact readReg_setNumField s _ f (by simp) (by simp)
  | numHi f =>
    cases r' with
    | numHi g =>
      have hg : g ≠ f := fun hgf => hne (congrArg Reg.numHi hgf)
      simp [writeReg, readReg, numField_setNumField, hg]
    | numLo g =>
      simp only [writeReg, readReg, numField_setNumField]
      split
      · simp [*]
      · rfl
    | _ => exact readReg_setNumField s _ f (by simp) (by simp)
  | _ => cases h

/-- The write of a register that holds it touches no buffer and not CMAP (R83). -/
theorem writeReg_mem_of_holdsWrite {r : Reg} (h : r.holdsWrite = true) (s : State) (v : Word) :
    (writeReg s v r).mem = s.mem := by
  cases r with
  | numLo f => cases f <;> rfl
  | numHi f => cases f <;> rfl
  | length b => cases h
  | _ => rfl

/-! What kind of register stands at an address (R84). -/

/-- The byte addresses that are not reserved (R84), among the multiples of 4. -/
abbrev MappedAddress (n : Nat) : Prop :=
  n ≤ 0x20 ∨ (0x40 ≤ n ∧ n ≤ 0x50) ∨ n = 0x58 ∨ n = 0x5C ∨ (0x80 ≤ n ∧ n ≤ 0x98) ∨ (0xA0 ≤ n ∧ n ≤ 0xB8) ∨
    (0xC0 ≤ n ∧ n ≤ 0xD4) ∨ (0xE0 ≤ n ∧ n ≤ 0x134) ∨ (0x200 ≤ n ∧ n ≤ 0x214)

/-- The addresses of the registers that `Reg.readOnly` names. -/
abbrev ReadOnlyAddress (n : Nat) : Prop :=
  (4 ≤ n ∧ n ≤ 0x20) ∨ (0xA0 ≤ n ∧ n ≤ 0xB8) ∨ (0x100 ≤ n ∧ n ≤ 0x134)

/-- The addresses of BITLEN, WILEN and WQLEN. -/
abbrev ClearableAddress (n : Nat) : Prop := n = 0x100 ∨ n = 0x11C ∨ n = 0x120

/-- The addresses of the registers that `Reg.holdsWrite` names. -/
abbrev WritableAddress (n : Nat) : Prop :=
  (0x40 ≤ n ∧ n ≤ 0x50) ∨ n = 0x58 ∨ n = 0x5C ∨ (0x80 ≤ n ∧ n ≤ 0x98) ∨ (0xC0 ≤ n ∧ n ≤ 0xD4) ∨
    (0xE0 ≤ n ∧ n ≤ 0xFC) ∨ n = 0x200 ∨ n = 0x204

theorem mappedAddress_of_regAt {a : RegAddr} {r : Reg} (h : regAt a = some r) : MappedAddress (4 * a.toNat) := by
  have hmap : ∀ q ∈ addressMap, MappedAddress q.1 := by decide
  exact hmap _ (regAt_mem h)

theorem readOnly_of_address {a : RegAddr} {r : Reg} (h : regAt a = some r) (ha : ReadOnlyAddress (4 * a.toNat)) :
    r.readOnly = true ∧ (r.clearable = true → ClearableAddress (4 * a.toNat)) := by
  have hmap : ∀ q ∈ addressMap, ReadOnlyAddress q.1 →
      q.2.readOnly = true ∧ (q.2.clearable = true → ClearableAddress q.1) := by decide
  exact hmap _ (regAt_mem h) ha

theorem bufsel_iff_address {a : RegAddr} {r : Reg} (h : regAt a = some r) : r = .bufsel ↔ 4 * a.toNat = 0x200 := by
  have hmap : ∀ q ∈ addressMap, q.2 = .bufsel ↔ q.1 = 0x200 := by decide
  exact hmap _ (regAt_mem h)

theorem exists_holdsWrite_of_address {a : RegAddr} (h : WritableAddress (4 * a.toNat)) :
    ∃ r, regAt a = some r ∧ r.holdsWrite = true := by
  have hmap : ∀ k < 0x82, WritableAddress (4 * k) → (addressMap.lookup (4 * k)).any Reg.holdsWrite = true := by decide
  exact (Option.any_eq_true _ _).1 (hmap a.toNat (by omega) h)

theorem ne_cmdAddr_of_address {a : RegAddr} (h : 4 * a.toNat ≠ 0) : a ≠ cmdAddr := by
  rintro rfl
  exact h rfl

/-! Steps. -/

/-- A write of 0 to the length register of a buffer does to the buffer what `clearBuffer` says (R48). -/
theorem step_write_length {s : State} (hs : Ready s) {a : RegAddr} {b : Buffer} (h : regAt a = some (.length b))
    (rest : List HostEvent) :
    step { s with bus := .write a 0 :: rest } = .next (clearBuffer { s with bus := rest } b) := by
  have ha : a ≠ cmdAddr := by
    rintro rfl
    cases h
  rw [step_write hs ha, busWrite_reg h (by simp), writeReg_length, if_pos rfl]

/-- Settles O53, by what kind of register stands at each address. -/
theorem reservedAndReadOnlyAddresses : Obligations.ReservedAndReadOnlyAddresses := by
  intro s a v rest hs n reserved readOnly clearable
  have hnone (h : reserved) : regAt a = none := by
    by_contra hsome
    obtain ⟨r, hr⟩ := Option.ne_none_iff_exists'.1 hsome
    exact h (mappedAddress_of_regAt hr)
  have hlength (b : Buffer) {m : Nat} (hm : addressMap.lookup m = some (.length b)) (h : n = m) :=
    step_write_length hs (a := a) (b := b) (by rw [regAt, ← hm, ← h]) rest
  refine ⟨fun h => ?_, ?_, hlength .bitbuf rfl, hlength .wi rfl, hlength .wq rfl⟩
  · rw [step_read hs, busRead_reserved (hnone h)]
  · rintro (h | ⟨hro, hclear⟩)
    · rw [step_write hs (ne_cmdAddr_of_address fun h0 => h (by omega)), busWrite_reserved (hnone h)]
    · rw [step_write hs (ne_cmdAddr_of_address (by omega))]
      cases hr : regAt a with
      | none => rw [busWrite_reserved hr]
      | some r =>
        obtain ⟨hread, haddr⟩ := readOnly_of_address hr hro
        rw [busWrite_reg hr (Reg.readOnly_ne_bufdat hread), writeReg_readOnly hread fun h => hclear ⟨haddr h.1, h.2⟩]

/-- Settles O54, by the rules of a register's read after a write to the same and to another register. -/
theorem writtenRegistersReadBack : Obligations.WrittenRegistersReadBack := by
  intro s a v rest hs n haddr
  obtain ⟨r, hr, hholds⟩ := exists_holdsWrite_of_address haddr
  have hdat := Reg.holdsWrite_ne_bufdat hholds
  let s₁ : State := { s with bus := .read a :: rest }
  have hcontrol := writeReg_sameControl s₁ v r
  have hready : Ready (writeReg s₁ v r) := by
    rw [Ready, hcontrol.phase]
    exact hs
  refine ⟨writeReg s₁ v r, ?_, hcontrol.bus, writeReg_mem_of_holdsWrite hholds s₁ v, hcontrol.wdat, hcontrol.phase,
    hcontrol.latch, ?_, ?_⟩
  · rw [step_write hs (ne_cmdAddr_of_address (by omega)), busWrite_reg hr hdat]
  · have hstep := step_read hready a rest
    have hbus : { writeReg s₁ v r with bus := .read a :: rest } = writeReg s₁ v r := by
      rw [← show (writeReg s₁ v r).bus = .read a :: rest from hcontrol.bus]
    rw [hbus] at hstep
    rw [hstep, busRead_reg hr hdat, readReg_withBus, readReg_writeReg_same hholds]
    simp only [bufsel_iff_address hr]
    rfl
  · intro b r' hb hr'
    have hne : r' ≠ r := by
      rintro rfl
      exact hb (regAt_injective hr' hr)
    rw [readReg_writeReg_other hholds hne, readReg_withBus]

end Sys2Proof.Machine
end

section
/-! O40, O9, O60. The registers that show a fault, CMAPVALID, and the reset state (R36, R54, R59). -/

namespace Sys2Proof.Machine

/-- The two words of an error value are its 64-bit pattern, saturated (R36). -/
theorem errHi_append_errLo_toInt (v : Int) : (errHi v ++ errLo v).toInt = min (max v (-(2 ^ 63))) (2 ^ 63 - 1) := by
  have hwords : errHi v ++ errLo v = BitVec.ofInt 64 (sat64 v) := by
    rw [errHi, errLo, BitVec.extractLsb'_append_extractLsb'_eq_extractLsb' (by rfl)]
    exact BitVec.extractLsb'_eq_self
  rw [hwords, ← sat64]
  have hlow : -(2 ^ 63) ≤ sat64 v := by unfold sat64; omega
  have hhigh : sat64 v < 2 ^ 63 := by unfold sat64; omega
  exact BitVec.toInt_ofInt_eq_self (by decide) hlow hhigh

/-- Settles O40: ERRVAL and ERRLIM are shown by the same two words. -/
theorem errorValuesSaturate : Obligations.ErrorValuesSaturate :=
  fun s => ⟨errHi_append_errLo_toInt (errval s), errHi_append_errLo_toInt (errlim s)⟩

/-- Bit `p` of CMAPVALID is the valid bit of entry `p` (R54). -/
theorem cmapValidWord_getLsbD (m : Memory) {p : Nat} (h : p < 32) :
    (cmapValidWord m).getLsbD p = (m.cmap[p]).isSome := by
  rw [cmapValidWord, BitVec.getLsbD_setWidth, BitVec.getLsbD_ofBoolListLE]
  simp [h]

theorem cmapValidWord_reset : cmapValidWord Memory.reset = 0 := by
  apply BitVec.eq_of_getLsbD_eq
  intro p hp
  rw [cmapValidWord_getLsbD _ hp]
  simp [Memory.reset]

/-- Settles O9, bit by bit. -/
theorem cmapvalidShowsTheValidBits : Obligations.CmapvalidShowsTheValidBits :=
  ⟨fun s _ => cmapValidWord_getLsbD s.mem, fun _ _ => rfl, cmapValidWord_reset⟩

theorem bufferLength_reset (b : Buffer) : bufferLength Memory.reset b = 0 := by cases b <;> rfl

theorem errHi_zero : errHi 0 = 0 := by decide

/-- Every register of the reset state reads 0 (R59), whatever the parameters. -/
theorem readReg_resetWith (p : Config.Params) (r : Reg) : readReg (State.resetWith p) r = 0 := by
  cases r with
  | stage f => cases f <;> rfl
  | snap f => cases f <;> rfl
  | pdField f => cases f <;> rfl
  | numLo f => cases f <;> rfl
  | numHi f => cases f <;> rfl
  | length b => simp [readReg, State.resetWith, bufferLength_reset]
  | cmapvalid => exact cmapValidWord_reset
  | errvalHi => exact errHi_zero
  | errlimHi => exact errHi_zero
  | _ => rfl

/-- Settles O60, register by register. -/
theorem resetHasTheInvariant : Obligations.ResetHasTheInvariant :=
  ⟨⟨reset_mem_wf, rfl⟩, readReg_resetWith _, rfl, rfl, bufferLength_reset, rfl, rfl⟩

end Sys2Proof.Machine
end

section
/-! O49. Which commands write nothing but buffers, and what the end of a command keeps (R37, R49, R57). -/

namespace Sys2Proof.Machine

/-- `t` is `s` but for the buffers and CMAP. -/
def OnlyBuffers (s t : State) : Prop := t = { s with mem := t.mem }

theorem OnlyBuffers.refl (s : State) : OnlyBuffers s s := rfl

theorem OnlyBuffers.withMem (s : State) (m : Memory) : OnlyBuffers s { s with mem := m } := rfl

theorem OnlyBuffers.trans {s t u : State} (h : OnlyBuffers s t) (h' : OnlyBuffers t u) : OnlyBuffers s u := by
  unfold OnlyBuffers at h h' ⊢
  rw [h', h]

theorem OnlyBuffers.stage {s t : State} (h : OnlyBuffers s t) : t.stage = s.stage := by
  rw [h]

/-- A step after another: if both write only buffers, the whole does. -/
theorem Result.All.andThen_onlyBuffers {s : State} {r : Result} {f : State → Result} (h : r.All (OnlyBuffers s))
    (hf : ∀ u, (f u).All (OnlyBuffers u)) : (r.andThen f).All (OnlyBuffers s) :=
  h.andThen fun u hu => (hf u).mono fun _ => hu.trans

section
variable (s : State)

theorem cmdefResult_onlyBuffers : (cmdefResult s).All (OnlyBuffers s) := .ite (.refl s) (.withMem s _)

theorem prbsResult_onlyBuffers : (prbsResult s).All (OnlyBuffers s) :=
  .ite (.refl s) (.ite (.refl s) (.withMem s _))

theorem brepResult_onlyBuffers : (brepResult s).All (OnlyBuffers s) :=
  .ite (.refl s) (.ite (.refl s) (.withMem s _))

theorem mapResult_onlyBuffers : (mapResult s).All (OnlyBuffers s) := by
  refine .ite (.refl s) (.ite (.refl s) ?_)
  split
  · exact .refl s
  · exact .ite (.refl s) (.withMem s _)

theorem cextResult_onlyBuffers : (cextResult s).All (OnlyBuffers s) :=
  .ite (.refl s) (.ite (.refl s) (.ite (.refl s) (.withMem s _)))

theorem zstuffResult_onlyBuffers : (zstuffResult s).All (OnlyBuffers s) :=
  .ite (.refl s) (.ite (.refl s) (.withMem s _))

theorem fgenResult_onlyBuffers : (fgenResult s).All (OnlyBuffers s) := by
  refine .ite (.refl s) (.ite (.refl s) (.ite (.refl s) ?_))
  split
  · exact .refl s
  · exact .ite (.refl s) (.ite (.refl s) (.withMem s _))

theorem convResult_onlyBuffers : (convResult s).All (OnlyBuffers s) :=
  .ite (.refl s) (.ite (.refl s) (.ite (.refl s) (.withMem s _)))

theorem trimResult_onlyBuffers : (trimResult s).All (OnlyBuffers s) :=
  .ite (.refl s) (.ite (.refl s) (.ite (.refl s) (.withMem s _)))

theorem normResult_onlyBuffers : (normResult s).All (OnlyBuffers s) :=
  .ite (.refl s) (.ite (.refl s) (.ite (.refl s) (.withMem s _)))

theorem digmodSteps_onlyBuffers : (digmodSteps s).All (OnlyBuffers s) :=
  prbsResult_onlyBuffers s |>.andThen_onlyBuffers brepResult_onlyBuffers
    |>.andThen_onlyBuffers mapResult_onlyBuffers |>.andThen_onlyBuffers cextResult_onlyBuffers
    |>.andThen_onlyBuffers zstuffResult_onlyBuffers |>.andThen_onlyBuffers fgenResult_onlyBuffers
    |>.andThen_onlyBuffers convResult_onlyBuffers |>.andThen_onlyBuffers trimResult_onlyBuffers
    |>.andThen_onlyBuffers normResult_onlyBuffers

theorem digmodResult_onlyBuffers (d : Bool) : (digmodResult d s).All (OnlyBuffers s) := by
  unfold digmodResult
  split
  · exact .refl s
  · exact .ite ((cmdefResult_onlyBuffers s).andThen_onlyBuffers digmodSteps_onlyBuffers) (digmodSteps_onlyBuffers s)

theorem ilvResult_onlyBuffers : (ilvResult s).All (OnlyBuffers s) := .ite (.refl s) (.ite (.refl s) (.withMem s _))

theorem vqConvert_onlyBuffers (src order : BitVec 2) : (vqConvert src order s).All (OnlyBuffers s) := by
  simp only [vqConvert]
  split
  · exact .refl s
  · exact .withMem s _

theorem appendRecord_onlyBuffers (x : PdwFields) : (appendRecord x s).All (OnlyBuffers s) := by
  unfold appendRecord
  split
  · exact .refl s
  · exact .ite (.refl s) (.withMem s _)

theorem pdwencResult_onlyBuffers : (pdwencResult s).All (OnlyBuffers s) := by
  unfold pdwencResult
  split
  · exact .refl s
  split
  · exact .refl s
  split
  · exact .refl s
  split
  · exact .refl s
  · exact appendRecord_onlyBuffers s _

theorem pdwasmResult_onlyBuffers : (pdwasmResult s).All (OnlyBuffers s) := .ite (.refl s) (.withMem s _)

end

/-- What CLRERR can do (R113, R352). -/
theorem exec_clrerr_cases {s t : State} (hx : exec .clrerr s = .next t) :
    (Ready s ∧ t = advanceIndex (returnFromFault s)) ∨ ((∃ c, s.phase = .busy c) ∧ t = s) :=
  runUnlessBusy_cases (f := fun u => advanceIndex (returnFromFault u)) hx

/-- What SRESET can do (R113, R353). -/
theorem exec_sreset_cases {s t : State} (hx : exec .sreset s = .next t) :
    (Ready s ∧ t = resetBlock s) ∨ ((∃ c, s.phase = .busy c) ∧ t = s) :=
  runUnlessBusy_cases hx

/-- A property that the end of a command does not touch holds after a command accepted in IDLE, if it does after its
pseudocode. -/
theorem runInIdle_all {P : State → Prop} {body : State → Result} {s t : State} (hx : runInIdle body s = .next t)
    (hs : P s) (hbody : (body s).All P) (hdone : ∀ u, P u → P (advanceIndex u))
    (hraised : ∀ e u, P u → P (takeFault e u)) : P t := by
  obtain ⟨-, rfl⟩ | ⟨-, rfl⟩ := runInIdle_cases hx
  · cases hr : body s with
    | done u =>
      rw [hr] at hbody
      exact hdone u hbody
    | raised e u =>
      rw [hr] at hbody
      exact hraised e u hbody
  · exact hs

theorem runInIdle_stage {body : State → Result} {s t : State} (hx : runInIdle body s = .next t)
    (hbody : (body s).All (OnlyBuffers s)) : t.stage = s.stage :=
  runInIdle_all (P := fun u => u.stage = s.stage) hx rfl (hbody.mono fun _ => OnlyBuffers.stage) (fun _ h => h)
    fun _ _ h => h

/-- Only PMODE and SRESET write the staging registers (R37, R262). -/
theorem exec_stage {i : Instr} {s t : State} (hr : i ≠ .sreset) (hp : ∀ mode, i ≠ .pmode mode)
    (hx : exec i s = .next t) : t.stage = s.stage := by
  cases i with
  | sreset => exact absurd rfl hr
  | pmode mode => exact absurd rfl (hp mode)
  | nop => exact runInIdle_stage hx (.refl s)
  | clrerr =>
    obtain ⟨-, rfl⟩ | ⟨-, rfl⟩ := exec_clrerr_cases hx
    · rfl
    · rfl
  | prbs => exact runInIdle_stage hx (prbsResult_onlyBuffers s)
  | brep => exact runInIdle_stage hx (brepResult_onlyBuffers s)
  | cmclr => exact runInIdle_stage hx (.withMem s _)
  | cmdef => exact runInIdle_stage hx (cmdefResult_onlyBuffers s)
  | map => exact runInIdle_stage hx (mapResult_onlyBuffers s)
  | cext => exact runInIdle_stage hx (cextResult_onlyBuffers s)
  | zstuff => exact runInIdle_stage hx (zstuffResult_onlyBuffers s)
  | fgen => exact runInIdle_stage hx (fgenResult_onlyBuffers s)
  | conv => exact runInIdle_stage hx (convResult_onlyBuffers s)
  | trim => exact runInIdle_stage hx (trimResult_onlyBuffers s)
  | norm => exact runInIdle_stage hx (normResult_onlyBuffers s)
  | digmod d => exact runInIdle_stage hx (digmodResult_onlyBuffers s d)
  | ilv => exact runInIdle_stage hx (ilvResult_onlyBuffers s)
  | vq src order =>
    have hbody : (vqResult src order s).All fun u => u.stage = s.stage :=
      .ite ((vqConvert_onlyBuffers (takeSnapshot s) src order).mono fun _ => OnlyBuffers.stage) rfl
    exact runInIdle_all (P := fun u => u.stage = s.stage) hx rfl hbody (fun _ h => h) fun _ _ h => h
  | pdwenc => exact runInIdle_stage hx (pdwencResult_onlyBuffers s)
  | pdwclr => exact runInIdle_stage hx (.withMem s _)
  | pdwasm => exact runInIdle_stage hx (pdwasmResult_onlyBuffers s)

/-- What every command but SRESET keeps, at its end too (R37, R49, R57). -/
def SameSetting (s t : State) : Prop := SameOperands s t ∧ SameWindow s t ∧ SameOutside s t

theorem Keeps.sameSetting {s t : State} (h : Keeps s t) : SameSetting s t := ⟨h.operands, h.window, h.outside⟩

theorem exec_sameSetting {i : Instr} {s t : State} (hr : i ≠ .sreset) (hx : exec i s = .next t) : SameSetting s t := by
  by_cases hc : i = .clrerr
  · subst hc
    obtain ⟨-, rfl⟩ | ⟨-, rfl⟩ := exec_clrerr_cases hx
    · exact (Keeps.refl s).sameSetting
    · exact (Keeps.refl t).sameSetting
  · obtain ⟨body, hbody, hkeeps⟩ := exec_eq_runInIdle i hc hr
    rw [hbody] at hx
    exact runInIdle_all hx (Keeps.refl s).sameSetting ((hkeeps s).mono fun _ => Keeps.sameSetting) (fun _ h => h)
      fun _ _ h => h

/-- Settles O49, by what the pseudocode of each command keeps. -/
theorem commandsKeepTheOperandRegisters : Obligations.CommandsKeepTheOperandRegisters := by
  intro i s t hr hx
  obtain ⟨hoperands, hwindow, houtside⟩ := exec_sameSetting hr hx
  refine ⟨hoperands, hwindow, houtside, ?_⟩
  by_cases hp : ∃ mode, i = .pmode mode
  · exact .inl hp
  · exact .inr (exec_stage hr (fun mode h => hp ⟨mode, h⟩) hx)

end Sys2Proof.Machine
end

section
/-! O59. The invariant: every step keeps the buffers within capacity and the latch in agreement with STATE (R32, R33,
R34, R48, R51, R97, R308). -/

namespace Sys2Proof.Machine

/-! The latch with no command in execution. -/

/-- No command is in execution, and a fault is latched exactly in FAULT (R32, R34). -/
def Settled (s : State) : Prop := (s.phase = .idle ∧ s.latch = none) ∨ (s.phase = .fault ∧ ∃ r, s.latch = some r)

theorem Settled.ready {s : State} (h : Settled s) : Ready s := by
  obtain ⟨hp, -⟩ | ⟨hp, -⟩ := h
  · exact .inl hp
  · exact .inr hp

theorem Settled.latchAgrees {s : State} (h : Settled s) : latchAgrees s = true := by
  obtain ⟨hp, hl⟩ | ⟨hp, r, hl⟩ := h <;> simp [Machine.latchAgrees, hp, hl]

theorem settled_of_latchAgrees {s : State} (hr : Ready s) (h : latchAgrees s = true) : Settled s := by
  obtain hp | hp := hr
  · exact .inl ⟨hp, by simpa [latchAgrees, hp] using h⟩
  · exact .inr ⟨hp, Option.isSome_iff_exists.1 (by simpa [latchAgrees, hp] using h)⟩

theorem Inv.memOk {s : State} (h : Inv s) : MemOk s.params s := ⟨rfl, h.1⟩

theorem MemOk.inv {p : Config.Params} {s : State} (h : MemOk p s) (hl : latchAgrees s = true) : Inv s := by
  obtain ⟨rfl, hmem⟩ := h
  exact ⟨hmem, hl⟩

/-! The host's writes: only the fault of a window write touches the latch (R91). -/

theorem hostWriteFault_settled {s : State} (v : BitVec 64) (h : Settled s) : Settled (hostWriteFault s v) := by
  unfold hostWriteFault
  split
  · exact .inr ⟨rfl, _, rfl⟩
  · exact h
  · exact h

theorem pushBit_settled {s : State} (h : Settled s) : Settled (pushBit s) := by
  unfold pushBit
  split <;> exact h

theorem pushWi_settled {s : State} (h : Settled s) : Settled (pushWi s) := by
  unfold pushWi
  split
  · exact hostWriteFault_settled _ h
  · split <;> exact h

theorem pushWq_settled {s : State} (h : Settled s) : Settled (pushWq s) := by
  unfold pushWq
  split
  · exact hostWriteFault_settled _ h
  · split <;> exact h

theorem writeCmapEntry_settled {s : State} (h : Settled s) : Settled (writeCmapEntry s) := by
  unfold writeCmapEntry
  split
  · exact h
  split
  · exact hostWriteFault_settled _ h
  split
  · exact hostWriteFault_settled _ h
  · exact h

theorem commitWindow_settled {s : State} (k : Fin 4) (h : Settled s) : Settled (commitWindow s k) := by
  have hite {c : Prop} [Decidable c] {t : State} (ht : Settled t) : Settled (if c then t else s) := by
    split
    · exact ht
    · exact h
  unfold commitWindow
  split
  · exact hite (pushBit_settled h)
  · exact hite (pushWi_settled h)
  · exact hite (pushWq_settled h)
  · exact hite (writeCmapEntry_settled h)
  all_goals exact h

theorem writeReg_settled {s : State} (v : Word) (r : Reg) (h : Settled s) : Settled (writeReg s v r) := by
  have hcontrol := writeReg_sameControl s v r
  unfold Settled
  rw [hcontrol.phase, hcontrol.latch]
  exact h

theorem busWrite_settled {s : State} (a : RegAddr) (v : Word) (h : Settled s) : Settled (busWrite s a v) := by
  unfold busWrite
  split
  · exact h
  · exact commitWindow_settled (s := { s with wdat := _ }) _ h
  · exact writeReg_settled v _ h

/-! Commands. -/

theorem runInIdle_memOk {p : Config.Params} {body : State → Result} {s t : State} (hx : runInIdle body s = .next t)
    (h : MemOk p s) (hbody : (body s).All (MemOk p)) : MemOk p t :=
  runInIdle_all hx h hbody (fun _ h => h) fun _ _ h => h

theorem resetBlock_memOk {p : Config.Params} {s : State} (h : MemOk p s) : MemOk p (resetBlock s) :=
  ⟨h.1, Memory.reset_wf _⟩

/-- Every command keeps every buffer within its capacity and RECBUF a whole number of records (R51, R308). -/
theorem exec_memOk {p : Config.Params} {i : Instr} {s t : State} (h : MemOk p s) (hx : exec i s = .next t) :
    MemOk p t := by
  cases i with
  | nop => exact runInIdle_memOk hx h h
  | clrerr =>
    obtain ⟨-, rfl⟩ | ⟨-, rfl⟩ := exec_clrerr_cases hx
    · exact h
    · exact h
  | sreset =>
    obtain ⟨-, rfl⟩ | ⟨-, rfl⟩ := exec_sreset_cases hx
    · exact resetBlock_memOk h
    · exact h
  | prbs => exact runInIdle_memOk hx h (prbsResult_wf h)
  | brep => exact runInIdle_memOk hx h (brepResult_wf h)
  | cmclr => exact runInIdle_memOk hx h (cmclrResult_wf h)
  | cmdef => exact runInIdle_memOk hx h (cmdefResult_wf h)
  | map => exact runInIdle_memOk hx h (mapResult_wf h)
  | cext => exact runInIdle_memOk hx h (cextResult_wf h)
  | zstuff => exact runInIdle_memOk hx h (zstuffResult_wf h)
  | fgen => exact runInIdle_memOk hx h (fgenResult_wf h)
  | conv => exact runInIdle_memOk hx h (convResult_wf h)
  | trim => exact runInIdle_memOk hx h (trimResult_wf h)
  | norm => exact runInIdle_memOk hx h (normResult_wf h)
  | digmod d => exact runInIdle_memOk hx h (digmodResult_wf d h)
  | pmode mode => exact runInIdle_memOk hx h (pmodeResult_wf mode h)
  | ilv => exact runInIdle_memOk hx h (ilvResult_wf h)
  | vq src order => exact runInIdle_memOk hx h (vqResult_wf src order h)
  | pdwenc => exact runInIdle_memOk hx h (pdwencResult_wf h)
  | pdwclr => exact runInIdle_memOk hx h (pdwclrResult_wf h)
  | pdwasm => exact runInIdle_memOk hx h (pdwasmResult_wf h)

/-- What an accepted command leaves, acceptance and completion in one: what BUSY needs to hold it (R33, R97, log 14). -/
structure Executed (s t : State) : Prop where
  mem : MemOk s.params t
  settled : Settled t
  exclusive : s.latch = none ∨ t.latch = none
  cix : t.cix = s.cix + 1 ∨ t.cix = 0

theorem Executed.inv {s t : State} (h : Executed s t) : Inv t := h.mem.inv h.settled.latchAgrees

/-- The end of a command accepted in IDLE: a fault is latched exactly where it ends in FAULT (R380). -/
theorem finish_settled {s : State} {r : Result} (hs : s.phase = .idle ∧ s.latch = none) (h : r.All (Keeps s)) :
    Settled (finish r) := by
  cases r with
  | done u => exact .inl ⟨(Keeps.phase h).trans hs.1, (Keeps.latch h).trans hs.2⟩
  | raised e u => exact .inr ⟨rfl, _, rfl⟩

theorem runInIdle_executed {body : State → Result} {s t : State} (hidle : s.phase = .idle) (hs : Inv s)
    (hkeeps : (body s).All (Keeps s)) (hmem : MemOk s.params t) (hx : runInIdle body s = .next t) : Executed s t := by
  obtain ⟨-, hnone⟩ | ⟨hfault, -⟩ := settled_of_latchAgrees (.inl hidle) hs.2
  · rw [runInIdle_of_idle hidle] at hx
    cases hx
    exact ⟨hmem, finish_settled ⟨hidle, hnone⟩ hkeeps, .inl hnone, .inl (finish_cix hkeeps)⟩
  · simp [hidle] at hfault

theorem clrerr_executed {s t : State} (hs : Inv s) (hr : Ready s) (hx : exec .clrerr s = .next t) : Executed s t := by
  have hmem := exec_memOk hs.memOk hx
  obtain ⟨-, rfl⟩ | ⟨⟨c, hbusy⟩, -⟩ := exec_clrerr_cases hx
  · exact ⟨hmem, .inl ⟨rfl, rfl⟩, .inr rfl, .inl rfl⟩
  · simp [Ready, hbusy] at hr

theorem sreset_executed {s t : State} (hs : Inv s) (hr : Ready s) (hx : exec .sreset s = .next t) : Executed s t := by
  have hmem := exec_memOk hs.memOk hx
  obtain ⟨-, rfl⟩ | ⟨⟨c, hbusy⟩, -⟩ := exec_sreset_cases hx
  · exact ⟨hmem, .inl ⟨rfl, rfl⟩, .inr rfl, .inr rfl⟩
  · simp [Ready, hbusy] at hr

/-- In FAULT only the words of CLRERR and SRESET are accepted (R113). -/
theorem decode_of_accepts {s : State} {w : Word} (hp : s.phase = .fault) (h : accepts s w = true) :
    decode w = .ok .clrerr ∨ decode w = .ok .sreset := by
  have hw : w = encode .clrerr ∨ w = encode .sreset := by simpa [accepts, hp] using h
  obtain rfl | rfl := hw
  · exact .inl (Laws.EncodesToItsRow.clrerr rfl).2
  · exact .inr (Laws.EncodesToItsRow.sreset rfl).2

theorem runInIdle_of_fault {body : State → Result} {s t : State} (hp : s.phase = .fault)
    (hx : runInIdle body s = .next t) : t = s := by
  obtain ⟨hidle, -⟩ | ⟨-, rfl⟩ := runInIdle_cases hx
  · simp [hp] at hidle
  · rfl

/-- What a write to CMD outside BUSY does: a command is run, or the word is dropped in FAULT (R112, R113). -/
theorem issueFused_executed {s t : State} {w : Word} (hs : Inv s) (hr : Ready s) (hx : issueFused w s = .next t) :
    Executed s t ∨ (t = s ∧ accepts s w = false) := by
  obtain ⟨i, hdec, heq⟩ | ⟨e, hdec, heq⟩ := issueFused_cases w s
  · rw [heq] at hx
    by_cases hc : i = .clrerr
    · subst hc
      exact .inl (clrerr_executed hs hr hx)
    by_cases hsr : i = .sreset
    · subst hsr
      exact .inl (sreset_executed hs hr hx)
    have hmem := exec_memOk hs.memOk hx
    obtain ⟨body, hbody, hkeeps⟩ := exec_eq_runInIdle i hc hsr
    rw [hbody] at hx
    obtain hp | hp := hr
    · exact .inl (runInIdle_executed hp hs (hkeeps s) hmem hx)
    · refine .inr ⟨runInIdle_of_fault hp hx, Bool.eq_false_iff.2 fun hacc => ?_⟩
      obtain h | h := decode_of_accepts hp hacc
      · exact hc (Except.ok.inj (hdec.symm.trans h))
      · exact hsr (Except.ok.inj (hdec.symm.trans h))
  · rw [heq, issueIllegal] at hx
    obtain hp | hp := hr
    · have hmem : MemOk s.params t := runInIdle_memOk hx hs.memOk hs.memOk
      exact .inl (runInIdle_executed (body := Result.raised (illegalFault w)) hp hs (Keeps.refl s) hmem hx)
    · refine .inr ⟨runInIdle_of_fault hp hx, Bool.eq_false_iff.2 fun hacc => ?_⟩
      obtain h | h := decode_of_accepts hp hacc
      · cases hdec.symm.trans h
      · cases hdec.symm.trans h

/-- A command held in BUSY has the invariant: a fault is held or to come but not both, CIX is to be one higher or 0. -/
theorem accepted_latchAgrees {s t : State} (n : Nat) (h : Executed s t) : latchAgrees (accepted n s t) = true := by
  have hlatch : (s.latch.isNone || t.latch.isNone) = true := by
    obtain h | h := h.exclusive <;> simp [h]
  have hcix : (decide (t.cix = s.cix + 1) || decide (t.cix = 0)) = true := by simpa using h.cix
  exact Bool.and_eq_true_iff.2 ⟨hlatch, hcix⟩

theorem holdBusy_inv {s t : State} (h : Executed s t) : Inv (holdBusy s t) := by
  obtain ⟨-, heq⟩ | ⟨rest, -, heq⟩ | ⟨n, rest, -, heq⟩ := holdBusy_cases s t <;> rw [heq]
  · exact h.inv
  · exact h.inv
  · have hmem : MemOk s.params (accepted n s t) := h.mem
    exact hmem.inv (accepted_latchAgrees n h)

theorem issue_inv {s t : State} {w : Word} (hs : Inv s) (hr : Ready s) (hx : issue w s = .next t) : Inv t := by
  unfold issue at hx
  cases hu : issueFused w s with
  | next u =>
    rw [hu] at hx
    cases hx
    obtain h | ⟨rfl, hacc⟩ := issueFused_executed hs hr hu
    · split
      · exact holdBusy_inv h
      · exact h.inv
    · rw [if_neg (by simp [hacc])]
      exact hs
  | fault r => simp [hu] at hx
  | refused r => simp [hu] at hx

/-! Steps. -/

theorem resetBlock_inv (s : State) : Inv (resetBlock s) := ⟨Memory.reset_wf _, rfl⟩

theorem busRead_inv {s t : State} {a : RegAddr} (hs : Inv s) (hx : busRead s a = .next t) : Inv t := by
  obtain ⟨idx, v, rfl⟩ := busRead_next hx
  exact hs

theorem busWrite_inv {s : State} (a : RegAddr) (v : Word) (hs : Inv s) (hr : Ready s) : Inv (busWrite s a v) :=
  (busWrite_wf a v hs.memOk).inv (busWrite_settled a v (settled_of_latchAgrees hr hs.2)).latchAgrees

theorem hostEventReady_inv {s t : State} {e : HostEvent} (hs : Inv s) (hr : Ready s)
    (hx : hostEventReady s e = .next t) : Inv t := by
  cases e with
  | read a => exact busRead_inv hs hx
  | write a v =>
    by_cases ha : a = cmdAddr
    · exact issue_inv hs hr ((if_pos ha).symm.trans hx)
    · cases (if_neg ha).symm.trans hx
      exact busWrite_inv a v hs hr
  | reset =>
    cases hx
    exact resetBlock_inv s

theorem busReadBusy_inv {s t : State} {a : RegAddr} (hs : Inv s) (hx : busReadBusy s a = .next t) : Inv t := by
  unfold busReadBusy at hx
  split at hx <;> cases hx
  · exact hs
  · exact hs

theorem busWriteBusy_inv {s t : State} {a : RegAddr} {v : Word} (hs : Inv s) (hx : busWriteBusy s a v = .next t) :
    Inv t := by
  unfold busWriteBusy at hx
  split at hx <;> cases hx
  · exact hs
  · exact hs

theorem hostEventBusy_inv {s t : State} {e : HostEvent} (hs : Inv s) (hx : hostEventBusy s e = .next t) : Inv t := by
  cases e with
  | read a => exact busReadBusy_inv hs hx
  | write a v => exact busWriteBusy_inv hs hx
  | reset =>
    cases hx
    exact resetBlock_inv s

/-- The completion event: a fault to come is latched, with STATE FAULT, else neither (R97). -/
theorem complete_settled (c : Completion) (s : State) : Settled (complete c s) := by
  cases hc : c.latch with
  | none => exact .inl ⟨by simp [hc], by simp [hc]⟩
  | some r => exact .inr ⟨by simp [hc], r, by simp [hc]⟩

theorem stepReady_inv {s t : State} (hs : Inv s) (hr : Ready s) (hx : stepReady s = .next t) : Inv t := by
  obtain ⟨-, heq⟩ | ⟨e, rest, -, heq⟩ := stepReady_cases s <;> rw [heq] at hx
  · cases hx
    exact hs
  · exact hostEventReady_inv (s := { s with bus := rest }) hs hr hx

theorem stepBusy_inv {s t : State} {c : Completion} (hs : Inv s) (hp : s.phase = .busy c)
    (hx : stepBusy c s = .next t) : Inv t := by
  obtain heq | ⟨n, e, rest, -, -, heq⟩ := stepBusy_cases c s <;> rw [heq] at hx
  · cases hx
    exact MemOk.inv (s := complete c s) hs.memOk (complete_settled c s).latchAgrees
  · have hlatch : latchAgrees { s with phase := .busy { c with left := n }, bus := rest } = true := by
      have := hs.2
      rwa [latchAgrees, hp] at this
    exact hostEventBusy_inv (s := { s with phase := .busy { c with left := n }, bus := rest }) ⟨hs.1, hlatch⟩ hx

theorem step_inv {s t : State} (hs : Inv s) (hx : step s = .next t) : Inv t := by
  cases hp : s.phase with
  | idle =>
    rw [step_idle hp] at hx
    exact stepReady_inv hs (.inl hp) hx
  | busy c =>
    rw [step_busy hp] at hx
    exact stepBusy_inv hs hp hx
  | fault =>
    rw [step_fault hp] at hx
    exact stepReady_inv hs (.inr hp) hx

/-! ERRCODE. -/

theorem FaultCode.number_ne_zero (c : FaultCode) : c.number ≠ 0 := by cases c <;> decide

/-- The low byte of ERRCODE is the code of the fault shown, 0 when none is (R34). -/
theorem errcodeWord_code (s : State) :
    (errcodeWord s).extractLsb' 0 8 = ((shownFault s).map fun r => r.raised.code.number).getD 0 := by
  unfold errcodeWord
  cases shownFault s with
  | none => rfl
  | some r =>
    exact (BitVec.extractLsb'_append_eq_of_add_le (by decide)).trans BitVec.extractLsb'_append_eq_right

theorem errcode_ne_zero_iff {s : State} (hs : Inv s) : (errcodeWord s).extractLsb' 0 8 ≠ 0#8 ↔ s.phase = .fault := by
  rw [errcodeWord_code]
  cases hp : s.phase with
  | idle => simp [shownFault_of_idle hp]
  | busy c => simp [shownFault_of_busy hp]
  | fault =>
    obtain ⟨hidle, -⟩ | ⟨-, r, hr⟩ := settled_of_latchAgrees (.inr hp) hs.2
    · simp [hp] at hidle
    · simpa [shownFault_of_fault hp, hr] using r.raised.code.number_ne_zero

/-- Settles O59, by the invariant kept in each of the three states and the code that ERRCODE shows. -/
theorem everyStepKeepsTheInvariant : Obligations.EveryStepKeepsTheInvariant :=
  ⟨fun _ _ => step_inv, fun _ => errcode_ne_zero_iff⟩

end Sys2Proof.Machine
end

section
/-! O58. Registers by the addresses that R84 lists, and what a transaction does there in BUSY (R86). -/

namespace Sys2Proof.Machine

/-- A register stands where the address map says, and nowhere else. -/
theorem regAt_eq_some_iff {n : Nat} {r : Reg} (h : (n, r) ∈ addressMap) (a : RegAddr) :
    regAt a = some r ↔ 4 * a.toNat = n := by
  constructor
  · intro ha
    have hnodup : (addressMap.map Prod.snd).Nodup := by decide
    exact congrArg Prod.fst (List.inj_on_of_nodup_map hnodup (regAt_mem ha) h rfl)
  · rintro rfl
    have hlookup : ∀ q ∈ addressMap, addressMap.lookup q.1 = some q.2 := by decide
    exact hlookup _ h

theorem regAt_ofNat {n : Nat} {r : Reg} (h : (n, r) ∈ addressMap) : regAt (BitVec.ofNat 10 (n / 4)) = some r := by
  have hmap : ∀ q ∈ addressMap, regAt (BitVec.ofNat 10 (q.1 / 4)) = some q.2 := by decide
  exact hmap _ h

/-- The addresses of the seven staging registers. -/
abbrev StagingAddress (n : Nat) : Prop := 0x80 ≤ n ∧ n ≤ 0x98

theorem exists_stage_of_address {a : RegAddr} (h : StagingAddress (4 * a.toNat)) : ∃ f, regAt a = some (.stage f) := by
  have hmap : ∀ k < 0x27, StagingAddress (4 * k) → ∃ f ∈ [ProfileField.gran, .minlen, .binmult, .shift, .width,
      .endian, .idlegran], addressMap.lookup (4 * k) = some (.stage f) := by decide
  obtain ⟨f, -, hf⟩ := hmap a.toNat (by omega) h
  exact ⟨f, hf⟩

theorem stagingAddress_of_regAt {a : RegAddr} {f : ProfileField} (h : regAt a = some (.stage f)) :
    StagingAddress (4 * a.toNat) := by
  have hmap : ∀ q ∈ addressMap, (∃ f ∈ [ProfileField.gran, .minlen, .binmult, .shift, .width, .endian, .idlegran],
      q.2 = .stage f) → StagingAddress q.1 := by decide
  exact hmap _ (regAt_mem h) ⟨f, by cases f <;> decide, rfl⟩

/-! Transactions in BUSY. -/

/-- A step in BUSY while transactions remain is the host's next transaction (R97). -/
theorem step_busy_event {s : State} {c : Completion} {n : Nat} (h : s.phase = .busy c) (hleft : c.left = n + 1)
    (e : HostEvent) (rest : List HostEvent) : step { s with bus := e :: rest } =
      hostEventBusy { s with phase := .busy { c with left := n }, bus := rest } e := by
  rw [step_busy (s := { s with bus := e :: rest }) h]
  obtain ⟨latch, cix, left⟩ := c
  cases hleft
  rfl

theorem busReadBusy_status {a : RegAddr} (h : regAt a = some .status) {s : State} {c : Completion}
    (hs : s.phase = .busy c) : busReadBusy s a = .next { s with rdata := 1 } := by
  simp [busReadBusy, h, returnData, statusWord, hs]

theorem busReadBusy_cix {a : RegAddr} (h : regAt a = some .cix) (s : State) :
    busReadBusy s a = .next { s with rdata := s.cix } := by
  simp [busReadBusy, h, returnData]

theorem busReadBusy_refused {a : RegAddr} (hstatus : regAt a ≠ some .status) (hcix : regAt a ≠ some .cix) (s : State) :
    busReadBusy s a = .refused .busyAccess := by
  unfold busReadBusy
  split
  · exact absurd ‹_› hstatus
  · exact absurd ‹_› hcix
  · rfl

theorem busWriteBusy_stage {a : RegAddr} {f : ProfileField} (h : regAt a = some (.stage f)) (s : State) (v : Word) :
    busWriteBusy s a v = .next { s with stage := setProfileField s.stage v f } := by
  simp [busWriteBusy, h]

theorem busWriteBusy_cmd {a : RegAddr} (h : regAt a = some .cmd) (s : State) (v : Word) :
    busWriteBusy s a v = .next s := by
  simp [busWriteBusy, h]

theorem busWriteBusy_refused {a : RegAddr} (hstage : ∀ f, regAt a ≠ some (.stage f)) (hcmd : regAt a ≠ some .cmd)
    (s : State) (v : Word) : busWriteBusy s a v = .refused .busyAccess := by
  unfold busWriteBusy
  split
  · exact absurd ‹_› (hstage _)
  · exact absurd ‹_› hcmd
  · rfl

/-- Settles O58, by what stands at the address. -/
theorem busyAccess : Obligations.BusyAccess := by
  intro s c n a v rest hs hleft s' addr staging
  have hstatus : regAt a = some .status ↔ addr = 4 := regAt_eq_some_iff (by decide) a
  have hcix : regAt a = some .cix ↔ addr = 0x20 := regAt_eq_some_iff (by decide) a
  have hcmd : regAt a = some .cmd ↔ addr = 0 := regAt_eq_some_iff (by decide) a
  refine ⟨?_, fun h => ?_, fun h => ?_, fun ⟨hne, hns⟩ => ?_⟩
  · rw [step_busy_event hs hleft]
    split
    · exact busReadBusy_status (hstatus.2 ‹_›) rfl
    split
    · exact busReadBusy_cix (hcix.2 ‹_›) s'
    · exact busReadBusy_refused (mt hstatus.1 ‹_›) (mt hcix.1 ‹_›) s'
  · rw [step_busy_event hs hleft]
    exact busWriteBusy_cmd (hcmd.2 h) s' v
  · obtain ⟨f, hf⟩ := exists_stage_of_address h
    refine ⟨f, hf, ?_⟩
    rw [step_busy_event hs hleft]
    exact busWriteBusy_stage hf s' v
  · rw [step_busy_event hs hleft]
    exact busWriteBusy_refused (fun f hf => hns (stagingAddress_of_regAt hf)) (mt hcmd.1 hne) s' v

end Sys2Proof.Machine
end

section
/-! O56, O57. What a window write stores and commits (R89, R91, R92). -/

namespace Sys2Proof.Machine

/-! What BUFSEL selects (R50). -/

theorem selectionOf_eq_bitbuf_iff (sel : BitVec 4) : selectionOf sel = .buffer .bitbuf ↔ sel.toNat = 0 := by
  revert sel
  decide

theorem selectionOf_eq_wi_iff (sel : BitVec 4) : selectionOf sel = .buffer .wi ↔ sel.toNat = 7 := by
  revert sel
  decide

theorem selectionOf_eq_wq_iff (sel : BitVec 4) : selectionOf sel = .buffer .wq ↔ sel.toNat = 8 := by
  revert sel
  decide

theorem selectionOf_eq_cmap_iff (sel : BitVec 4) : selectionOf sel = .cmap ↔ sel.toNat = 13 := by
  revert sel
  decide

/-! The latches after a write (R57, R89). -/

theorem bufdat_mem (k : Fin 4) : (0x208 + 4 * k.val, Reg.bufdat k) ∈ addressMap := by
  revert k
  decide

theorem regAt_bufdat (k : Fin 4) : regAt (BitVec.ofNat 10 (0x82 + k.val)) = some (.bufdat k) := by
  rw [← regAt_ofNat (bufdat_mem k)]
  congr 2
  omega

/-- A step that writes a window register is the write of R89. -/
theorem step_write_bufdat {s : State} (hs : Ready s) (k : Fin 4) (v : Word) (rest : List HostEvent) :
    step { s with bus := .write (BitVec.ofNat 10 (0x82 + k.val)) v :: rest } =
      .next (commitWindow { s with bus := rest, wdat := s.wdat.set k v } k) := by
  have hne : BitVec.ofNat 10 (0x82 + k.val) ≠ cmdAddr := by
    revert k
    decide
  rw [step_write hs hne, busWrite, regAt_bufdat]
  rfl

@[simp] theorem latchLow_set_one (s : State) (bus : List HostEvent) (v : Word) :
    latchLow { s with bus := bus, wdat := s.wdat.set 1 v } = v ++ s.wdat[0] := by
  simp [latchLow]

@[simp] theorem latchLow_set_three (s : State) (bus : List HostEvent) (v : Word) :
    latchLow { s with bus := bus, wdat := s.wdat.set 3 v } = s.wdat[1] ++ s.wdat[0] := by
  simp [latchLow]

@[simp] theorem latchHigh_set_three (s : State) (bus : List HostEvent) (v : Word) :
    latchHigh { s with bus := bus, wdat := s.wdat.set 3 v } = v ++ s.wdat[2] := by
  simp [latchHigh]

/-! What a write commits (R89). -/

theorem commitWindow_bitbuf {s : State} (h : selectionOf s.bufsel = .buffer .bitbuf) :
    commitWindow s 0 = pushBit s := by
  simp [commitWindow, h]

theorem commitWindow_wi {s : State} (h : selectionOf s.bufsel = .buffer .wi) : commitWindow s 1 = pushWi s := by
  simp [commitWindow, h]

theorem commitWindow_wq {s : State} (h : selectionOf s.bufsel = .buffer .wq) : commitWindow s 1 = pushWq s := by
  simp [commitWindow, h]

theorem commitWindow_cmap {s : State} (h : selectionOf s.bufsel = .cmap) : commitWindow s 3 = writeCmapEntry s := by
  simp [commitWindow, h]

/-- Only the last word of an element of BITBUF, WI, WQ or CMAP commits (R89). -/
theorem commitWindow_of_not_last {s : State} {k : Fin 4}
    (hbit : ¬ (selectionOf s.bufsel = .buffer .bitbuf ∧ k = 0)) (hwi : ¬ (selectionOf s.bufsel = .buffer .wi ∧ k = 1))
    (hwq : ¬ (selectionOf s.bufsel = .buffer .wq ∧ k = 1)) (hcmap : ¬ (selectionOf s.bufsel = .cmap ∧ k = 3)) :
    commitWindow s k = s := by
  unfold commitWindow
  split
  · exact if_neg fun hk => hbit ⟨‹_›, hk⟩
  · exact if_neg fun hk => hwi ⟨‹_›, hk⟩
  · exact if_neg fun hk => hwq ⟨‹_›, hk⟩
  · exact if_neg fun hk => hcmap ⟨‹_›, hk⟩
  all_goals rfl

/-- The fault of a committing write (R91): latched in IDLE, dropped where one is latched already. -/
theorem hostWriteFault_of_ready {s : State} (hs : Ready s) (p : BitVec 64) :
    hostWriteFault s p = if s.phase = .idle then latchFault (numfmtFault 0 p) s else s := by
  obtain h | h := hs <;> simp [hostWriteFault, h]

theorem pushWi_number {s : State} {x : ℚ} (h : numOf (latchLow s) = some x) : pushWi s =
    if s.mem.wi.length < s.params.caps.w.size then
      { s with mem := { s.mem with wi := s.mem.wi ++ [Sample.ofNum (s.params.numerics.ofRat x)] } } else s := by
  simp [pushWi, h]

theorem pushWq_number {s : State} {x : ℚ} (h : numOf (latchLow s) = some x) : pushWq s =
    if s.mem.wq.length < s.params.caps.w.size then
      { s with mem := { s.mem with wq := s.mem.wq ++ [Sample.ofNum (s.params.numerics.ofRat x)] } } else s := by
  simp [pushWq, h]

theorem pushWi_no_number {s : State} (h : numOf (latchLow s) = none) : pushWi s = hostWriteFault s (latchLow s) := by
  simp [pushWi, h]

theorem pushWq_no_number {s : State} (h : numOf (latchLow s) = none) : pushWq s = hostWriteFault s (latchLow s) := by
  simp [pushWq, h]

/-- Settles O56, by what each write commits. -/
theorem windowPushes : Obligations.WindowPushes := by
  intro s k v rest hs start latched pattern fits
  have hstep : step start = .next (commitWindow latched k) := step_write_bufdat hs k v rest
  have hbitbuf := selectionOf_eq_bitbuf_iff latched.bufsel
  have hwi := selectionOf_eq_wi_iff latched.bufsel
  have hwq := selectionOf_eq_wq_iff latched.bufsel
  have hcmap := selectionOf_eq_cmap_iff latched.bufsel
  have hlow (hk : k = 1) : latchLow latched = pattern := by
    subst hk
    exact latchLow_set_one s rest v
  refine ⟨fun ⟨hbit, hnum, hentry⟩ => ?_, fun ⟨hsel, hk⟩ => ?_, fun ⟨hsel, hk⟩ x hx => ?_, fun ⟨hsel, hk⟩ x hx => ?_,
    fun ⟨hsel, hk⟩ hnone => ?_⟩
  · rw [hstep, commitWindow_of_not_last]
    · exact fun h => hbit ⟨hbitbuf.1 h.1, h.2⟩
    · exact fun h => hnum ⟨.inl (hwi.1 h.1), h.2⟩
    · exact fun h => hnum ⟨.inr (hwq.1 h.1), h.2⟩
    · exact fun h => hentry ⟨hcmap.1 h.1, h.2⟩
  · subst hk
    have hlatch : latched.wdat[0] = v := Vector.getElem_set_self _
    rw [hstep, commitWindow_bitbuf (hbitbuf.2 hsel), pushBit, hlatch]
  · rw [← hlow hk] at hx
    subst hk
    rw [hstep, commitWindow_wi (hwi.2 hsel), pushWi_number hx]
  · rw [← hlow hk] at hx
    subst hk
    rw [hstep, commitWindow_wq (hwq.2 hsel), pushWq_number hx]
  · have hcommit : commitWindow latched k = hostWriteFault latched (latchLow latched) := by
      rw [← hlow hk] at hnone
      subst hk
      obtain hsel | hsel := hsel
      · rw [commitWindow_wi (hwi.2 hsel), pushWi_no_number hnone]
      · rw [commitWindow_wq (hwq.2 hsel), pushWq_no_number hnone]
    rw [hstep, hcommit, hlow hk, hostWriteFault_of_ready (s := latched) hs]
    rfl

/-! The write of a CMAP entry (R92). -/

theorem writeCmapEntry_beyond {s : State} (h : 32 ≤ s.bufidx.toNat) : writeCmapEntry s = s := if_pos h

theorem writeCmapEntry_no_i {s : State} (h : s.bufidx.toNat < 32) (hi : numOf (latchLow s) = none) :
    writeCmapEntry s = hostWriteFault s (latchLow s) := by
  simp [writeCmapEntry, Nat.not_le.2 h, hi]

theorem writeCmapEntry_no_q {s : State} (h : s.bufidx.toNat < 32) {i : ℚ} (hi : numOf (latchLow s) = some i)
    (hq : numOf (latchHigh s) = none) : writeCmapEntry s = hostWriteFault s (latchHigh s) := by
  simp [writeCmapEntry, Nat.not_le.2 h, hi, hq]

theorem writeCmapEntry_numbers {s : State} (h : s.bufidx.toNat < 32) {i q : ℚ} (hi : numOf (latchLow s) = some i)
    (hq : numOf (latchHigh s) = some q) : writeCmapEntry s =
      { s with
        mem := { s.mem with
          cmap := s.mem.cmap.setIfInBounds s.bufidx.toNat
            (some ⟨s.params.numerics.ofRat i, s.params.numerics.ofRat q⟩) }
        bufidx := s.bufidx + 1 } := by
  simp [writeCmapEntry, Nat.not_le.2 h, hi, hq]

/-- Settles O57, by the order of the tests of R92. -/
theorem cmapWrites : Obligations.CmapWrites := by
  intro s v rest hs hsel start latched idx faultWith
  have hcmap : selectionOf latched.bufsel = .cmap := (selectionOf_eq_cmap_iff _).2 hsel
  have hstep : step start = .next (writeCmapEntry latched) := by
    rw [← commitWindow_cmap hcmap]
    exact step_write_bufdat hs 3 v rest
  have hfault (p : BitVec 64) : hostWriteFault latched p = faultWith p := hostWriteFault_of_ready (s := latched) hs p
  have hlow : latchLow latched = s.wdat[1] ++ s.wdat[0] := latchLow_set_three s rest v
  have hhigh : latchHigh latched = v ++ s.wdat[2] := latchHigh_set_three s rest v
  rw [← hlow, ← hhigh, hstep]
  refine ⟨fun h => ?_, fun h hi => ?_, fun h hi hq => ?_, fun i q h hi hq => ?_⟩
  · rw [writeCmapEntry_beyond (s := latched) h]
  · rw [writeCmapEntry_no_i (s := latched) h hi, hfault]
  · obtain ⟨i, hi⟩ := Option.ne_none_iff_exists'.1 hi
    rw [writeCmapEntry_no_q (s := latched) h hi hq, hfault]
  · refine ⟨_, congrArg _ (writeCmapEntry_numbers (s := latched) h hi hq), fun p hp => ?_⟩
    rw [Vector.getElem_setIfInBounds hp]
    exact if_congr eq_comm rfl rfl

end Sys2Proof.Machine
end

section
/-! O55. What a window read returns (R50, R87, R88). -/

namespace Sys2Proof.Machine

/-- The ids of the sequence buffers (R50). -/
def bufferIds : List (Nat × Buffer) :=
  [(0, .bitbuf), (1, .symbuf), (2, .extbuf), (3, .xbuf), (4, .taps), (5, .ybuf), (6, .zbuf), (7, .wi), (8, .wq),
   (9, .ilvbuf), (10, .qbuf), (11, .recbuf), (12, .filebuf)]

theorem selectionOf_bufferId {q : Nat × Buffer} (h : q ∈ bufferIds) {sel : BitVec 4} (hsel : sel.toNat = q.1) :
    selectionOf sel = .buffer q.2 := by
  have hall : ∀ sel : BitVec 4, ∀ q ∈ bufferIds, sel.toNat = q.1 → selectionOf sel = .buffer q.2 := by decide
  exact hall sel q h hsel

theorem selectionOf_reserved {sel : BitVec 4} (h : sel.toNat = 14 ∨ sel.toNat = 15) : selectionOf sel = .reserved := by
  revert sel
  decide

/-- A step that reads a window register is the read of R88. -/
theorem step_read_bufdat {s : State} (hs : Ready s) (k : Fin 4) (rest : List HostEvent) :
    step { s with bus := .read (BitVec.ofNat 10 (0x82 + k.val)) :: rest } =
      windowRead { s with bus := rest } k.val := by
  rw [step_read hs, busRead, regAt_bufdat]

theorem returnElement_eq (s : State) (words k : Nat) (element : List Word) : returnElement s words k element =
    .next { s with
      rdata := element.getD k 0
      bufidx := if k + 1 = words then s.bufidx + 1 else s.bufidx } := by
  unfold returnElement returnData
  split <;> rfl

theorem windowRead_reserved {s : State} (h : selectionOf s.bufsel = .reserved) (k : Nat) :
    windowRead s k = .next { s with rdata := 0 } := by
  simp [windowRead, h, returnData]

section
variable {s : State} {b : Buffer} {k : Nat}

theorem windowRead_buffer_beyond (h : selectionOf s.bufsel = .buffer b) (hk : bufferWords b ≤ k) :
    windowRead s k = .next { s with rdata := 0 } := by
  simp [windowRead, h, hk, returnData]

theorem windowRead_buffer_none (h : selectionOf s.bufsel = .buffer b) (hk : k < bufferWords b)
    (hnone : bufferElement s.mem b s.bufidx.toNat = none) : windowRead s k = .refused .noSuchElement := by
  simp [windowRead, h, Nat.not_le.2 hk, hnone]

theorem windowRead_buffer_some (h : selectionOf s.bufsel = .buffer b) (hk : k < bufferWords b) {element : List Word}
    (hsome : bufferElement s.mem b s.bufidx.toNat = some element) :
    windowRead s k = returnElement s (bufferWords b) k element := by
  simp [windowRead, h, Nat.not_le.2 hk, hsome]

theorem windowRead_cmap_beyond (h : selectionOf s.bufsel = .cmap) (hk : k < 4) (hidx : 32 ≤ s.bufidx.toNat) :
    windowRead s k = .refused .noSuchElement := by
  simp [windowRead, h, Nat.not_le.2 hk, hidx]

theorem windowRead_cmap_none (h : selectionOf s.bufsel = .cmap) (hk : k < 4) (hidx : s.bufidx.toNat < 32)
    (hnone : cmapPoint s.mem s.bufidx.toNat = none) : windowRead s k = .refused .invalidEntry := by
  simp [windowRead, h, Nat.not_le.2 hk, Nat.not_le.2 hidx, hnone]

theorem windowRead_cmap_some (h : selectionOf s.bufsel = .cmap) (hk : k < 4) (hidx : s.bufidx.toNat < 32) {z : Cplx}
    (hsome : cmapPoint s.mem s.bufidx.toNat = some z) : windowRead s k = returnElement s 4 k (cplxWords z) := by
  simp [windowRead, h, Nat.not_le.2 hk, Nat.not_le.2 hidx, hsome]

end

/-- CMAP has 32 entries (R53). -/
theorem cmapPoint_beyond {m : Memory} {idx : Nat} (h : 32 ≤ idx) : cmapPoint m idx = none := by
  simp [cmapPoint, h]

theorem bitWord_eq (x : Bool) : (if x then 1 else 0 : Word) = BitVec.ofNat 32 x.toNat := by cases x <;> rfl

theorem byteWord_eq (y : Byte) : y.setWidth 32 = BitVec.ofNat 32 y.toNat :=
  (BitVec.ofNat_toNat 32 y).symm

/-- Settles O55, by what the window shows of each buffer and of CMAP. -/
theorem windowReads : Obligations.WindowReads := by
  intro s k rest hs start idx number complex buffers answer
  let latched : State := { s with bus := rest }
  have hstep : step start = windowRead latched k.val := step_read_bufdat hs k rest
  have hanswer (words : Nat) (element : List Word) :
      returnElement latched words k.val element = .next (answer words element) :=
    returnElement_eq latched words k element
  have hbuffers : buffers = bufferIds.map fun q => (q.1, bufferWords q.2, bufferElement s.mem q.2 idx) := by
    simp only [bufferIds, List.map_cons, List.map_nil, bufferWords, bufferElement, bitWord_eq, byteWord_eq]
    rfl
  rw [hstep]
  refine ⟨fun h => windowRead_reserved (s := latched) (selectionOf_reserved h) k.val, ?_, fun h => ?_⟩
  · rw [hbuffers, List.forall_mem_map]
    intro q hq hsel
    have hsel : selectionOf latched.bufsel = .buffer q.2 := selectionOf_bufferId hq hsel
    refine ⟨fun hk => windowRead_buffer_beyond hsel hk, fun hk hnone => windowRead_buffer_none hsel hk hnone,
      fun element hk hsome => ?_⟩
    rw [← hanswer]
    exact windowRead_buffer_some hsel hk hsome
  · have hsel : selectionOf latched.bufsel = .cmap := (selectionOf_eq_cmap_iff _).2 h
    refine ⟨fun hidx => windowRead_cmap_beyond hsel k.isLt hidx,
      fun hidx hnone => windowRead_cmap_none hsel k.isLt hidx hnone, fun z hsome => ?_⟩
    have hidx : idx < 32 := by
      by_contra hbeyond
      simp [cmapPoint_beyond (Nat.not_lt.1 hbeyond)] at hsome
    rw [← hanswer]
    exact windowRead_cmap_some hsel k.isLt hidx hsome

end Sys2Proof.Machine
end

section
/-! O52. What a read of a named register gives (R32 to R36, R48, R54, R84, R371). -/

namespace Sys2Proof.Machine

/-- A step that reads a named register other than the window's gives what the register reads as (R82). -/
theorem step_read_reg {s : State} (hs : Ready s) {n : Nat} {r : Reg} (h : (n, r) ∈ addressMap)
    (hr : ∀ k, r ≠ .bufdat k) (rest : List HostEvent) :
    step { s with bus := .read (BitVec.ofNat 10 (n / 4)) :: rest } =
      .next { s with bus := rest, rdata := readReg s r } := by
  rw [step_read hs, busRead_reg (regAt_ofNat h) hr, readReg_withBus]

/-- The numbers of the fault codes (R371). -/
def codeNumbers : List (FaultCode × Nat) :=
  [(.length, 1), (.gran, 2), (.mismatch, 3), (.config, 4), (.symmap, 5), (.overflow, 6), (.illcmd, 7), (.capacity, 8),
   (.numfmt, 9), (.divzero, 10), (.bitcount, 11), (.seq, 12)]

theorem number_toNat_of_mem {e : FaultCode} {c : Nat} (h : (e, c) ∈ codeNumbers) : e.number.toNat = c := by
  have hall : ∀ q ∈ codeNumbers, q.1.number.toNat = q.2 := by decide
  exact hall _ h

/-- ERRCODE is the code in the low byte and the sub-code in the next (R34). -/
theorem errcodeWord_of_shown {s : State} {r : FaultRecord} (h : shownFault s = some r) :
    errcodeWord s = BitVec.ofNat 32 (r.raised.code.number.toNat + 256 * r.raised.sub.toNat) := by
  have hsub := r.raised.sub.isLt
  have hcode := r.raised.code.number.isLt
  have hlow : (r.raised.sub ++ r.raised.code.number).toNat =
      r.raised.code.number.toNat + 256 * r.raised.sub.toNat := by
    rw [BitVec.toNat_append, ← Nat.shiftLeft_add_eq_or_of_lt hcode, Nat.shiftLeft_eq]
    omega
  apply BitVec.eq_of_toNat_eq
  simp only [errcodeWord, h, BitVec.toNat_append, hlow, BitVec.toNat_ofNat, Nat.zero_mod, Nat.zero_shiftLeft,
    Nat.zero_or]
  omega

theorem errLo_zero : errLo 0 = 0 := by decide

/-- The registers that show the latched fault (R84). -/
def errorMap : List (Nat × Reg) :=
  [(0x008, .errcode), (0x00C, .errcix), (0x010, .errvalLo), (0x014, .errvalHi), (0x018, .errlimLo), (0x01C, .errlimHi)]

/-- With no fault shown they read 0 (R34 to R36). -/
theorem readReg_of_shown_none {s : State} (h : shownFault s = none) : ∀ q ∈ errorMap, readReg s q.2 = 0 := by
  simp [errorMap, readReg, errcodeWord, errcixWord, errval, errlim, h, errHi_zero, errLo_zero]

/-- The length registers (R84). -/
def lengthMap : List (Nat × Buffer) :=
  [(0x100, .bitbuf), (0x104, .symbuf), (0x108, .extbuf), (0x10C, .xbuf), (0x110, .taps), (0x114, .ybuf),
   (0x118, .zbuf), (0x11C, .wi), (0x120, .wq), (0x124, .ilvbuf), (0x128, .qbuf), (0x12C, .recbuf), (0x130, .filebuf)]

/-- The offsets of a profile's fields from its first register (R84). -/
def profileOffsets : List (Nat × ProfileField) :=
  [(0x00, .gran), (0x04, .minlen), (0x08, .binmult), (0x0C, .shift), (0x10, .width), (0x14, .endian),
   (0x18, .idlegran)]

/-- Settles O52, by what stands at each address and what each register reads as. -/
theorem readsGiveTheNamedRegister : Obligations.ReadsGiveTheNamedRegister := by
  intro s rest hs gives len codes
  have hreg {n : Nat} {r : Reg} (h : (n, r) ∈ addressMap) (hr : ∀ k, r ≠ .bufdat k) : gives n (readReg s r) :=
    step_read_reg hs h hr rest
  have hregs (l : List (Nat × Reg)) (hl : ∀ q ∈ l, q ∈ addressMap ∧ ∀ k, q.2 ≠ .bufdat k) :
      ∀ q ∈ l, gives q.1 (readReg s q.2) := fun q hq => hreg (hl q hq).1 (hl q hq).2
  refine ⟨hreg (r := .cmd) (by decide) (by simp), ?status, hreg (r := .cix) (by decide) (by simp), fun hidle => ?idle,
    fun r c hfault hlatch hcode => ?fault, ⟨cmapValidWord s.mem, hreg (r := .cmapvalid) (by decide) (by simp),
      fun p hp => cmapValidWord_getLsbD s.mem hp⟩, hreg (r := .bufsel) (by decide) (by simp), ?operands, ?profiles,
    ?lengths⟩
  case status =>
    have hstatus : readReg s .status = if s.phase = .fault then 2 else 0 := by
      obtain h | h := hs <;> simp [readReg, statusWord, h]
    rw [← hstatus]
    exact hreg (by decide) (by simp)
  case idle =>
    have hzero : ∀ q ∈ errorMap, gives q.1 0 := fun q hq => by
      rw [← readReg_of_shown_none (shownFault_of_idle hidle) q hq]
      exact hregs errorMap (by decide) q hq
    exact (List.forall_mem_map (f := Prod.fst) (P := fun n => gives n 0)).2 hzero
  case fault =>
    have hshown : shownFault s = some r := (shownFault_of_fault hfault).trans hlatch
    have hindex : readReg s .errcix = r.index := by simp [readReg, errcixWord, hshown]
    have hval : errval s = r.raised.val := by simp [errval, hshown]
    have hlim : errlim s = r.raised.lim := by simp [errlim, hshown]
    rw [← number_toNat_of_mem hcode, ← errcodeWord_of_shown hshown, ← hindex, ← hval, ← hlim]
    exact ⟨hreg (r := .errcode) (by decide) (by simp), hreg (by decide) (by simp), _, _, _, _,
      hreg (r := .errvalLo) (by decide) (by simp), hreg (r := .errvalHi) (by decide) (by simp),
      hreg (r := .errlimLo) (by decide) (by simp), hreg (r := .errlimHi) (by decide) (by simp),
      errHi_append_errLo_toInt _, errHi_append_errLo_toInt _⟩
  case operands =>
    exact (List.forall_mem_map (f := fun q : Nat × Reg => (q.1, readReg s q.2)) (P := fun q => gives q.1 q.2)).2
      (hregs (operandMap ++ pdwMap ++ [(0x204, .bufidx)]) (by decide))
  case profiles =>
    have hstage : ∀ q ∈ profileOffsets, gives (0x080 + q.1) (readReg s (.stage q.2)) := fun q hq =>
      hreg (by revert q; decide) (by simp)
    have hsnap : ∀ q ∈ profileOffsets, gives (0x0A0 + q.1) (readReg s (.snap q.2)) := fun q hq =>
      hreg (by revert q; decide) (by simp)
    simpa [profileOffsets, readReg, profileField] using And.intro hstage hsnap
  case lengths =>
    have hlength : ∀ q ∈ lengthMap, gives q.1 (len (bufferLength s.mem q.2)) := fun q hq =>
      hreg (r := .length q.2) (by revert q; decide) (by simp)
    simpa [lengthMap, bufferLength] using hlength

end Sys2Proof.Machine
end

section
/-! O51. No command reads the BUSY lengths, and a command held in BUSY follows its fused reading (R86, R97). -/

namespace Sys2Proof.Machine

/-! What a command does whatever the BUSY lengths to come (log 4). -/

/-- `s` with other BUSY lengths to come. -/
def withLatency (lengths : List Nat) (s : State) : State := { s with latency := lengths }

@[simp] theorem withLatency_mem (lengths : List Nat) (s : State) : (withLatency lengths s).mem = s.mem := rfl

@[simp] theorem withLatency_modtype (lengths : List Nat) (s : State) : (withLatency lengths s).modtype = s.modtype :=
  rfl

@[simp] theorem withLatency_rolloff (lengths : List Nat) (s : State) : (withLatency lengths s).rolloff = s.rolloff :=
  rfl

@[simp] theorem withLatency_pd (lengths : List Nat) (s : State) : (withLatency lengths s).pd = s.pd := rfl

@[simp] theorem withLatency_params (lengths : List Nat) (s : State) : (withLatency lengths s).params = s.params := rfl

@[simp] theorem withLatency_snap (lengths : List Nat) (s : State) : (withLatency lengths s).snap = s.snap := rfl

/-- A result with its state changed by `g`. -/
def Result.map (g : State → State) : Result → Result
  | .done s => .done (g s)
  | .raised e s => .raised e (g s)

/-- `r'` is `r` but for the BUSY lengths to come. -/
def Result.Like (lengths : List Nat) (r' r : Result) : Prop := r' = r.map (withLatency lengths)

/-- Pseudocode that does not read the BUSY lengths. -/
def IgnoresLatency (f : State → Result) : Prop :=
  ∀ (lengths : List Nat) (s : State), (f (withLatency lengths s)).Like lengths (f s)

theorem Result.Like.ite {lengths : List Nat} {c : Prop} [Decidable c] {r₁ r₂ r₁' r₂' : Result}
    (h₁ : r₁'.Like lengths r₁) (h₂ : r₂'.Like lengths r₂) :
    (if c then r₁' else r₂').Like lengths (if c then r₁ else r₂) := by
  split
  · exact h₁
  · exact h₂

theorem Result.Like.andThen {lengths : List Nat} {r r' : Result} {f : State → Result} (h : r'.Like lengths r)
    (hf : IgnoresLatency f) : (r'.andThen f).Like lengths (r.andThen f) := by
  cases h
  cases r with
  | done s => exact hf lengths s
  | raised e s => rfl

theorem cmdefResult_ignoresLatency : IgnoresLatency cmdefResult := fun _ _ => .ite rfl rfl

theorem prbsResult_ignoresLatency : IgnoresLatency prbsResult := fun _ _ => .ite rfl (.ite rfl rfl)

theorem brepResult_ignoresLatency : IgnoresLatency brepResult := fun _ _ => .ite rfl (.ite rfl rfl)

theorem mapResult_ignoresLatency : IgnoresLatency mapResult := fun lengths s => by
  refine .ite rfl (.ite rfl ?_)
  simp only [withLatency_mem, withLatency_modtype]
  split
  · rfl
  · exact .ite rfl rfl

theorem cextResult_ignoresLatency : IgnoresLatency cextResult := fun _ _ => .ite rfl (.ite rfl (.ite rfl rfl))

theorem zstuffResult_ignoresLatency : IgnoresLatency zstuffResult := fun _ _ => .ite rfl (.ite rfl rfl)

theorem fgenResult_ignoresLatency : IgnoresLatency fgenResult := fun lengths s => by
  refine .ite rfl (.ite rfl (.ite rfl ?_))
  rw [withLatency_rolloff]
  split
  · rfl
  · exact .ite rfl (.ite rfl rfl)

theorem convResult_ignoresLatency : IgnoresLatency convResult := fun _ _ => .ite rfl (.ite rfl (.ite rfl rfl))

theorem trimResult_ignoresLatency : IgnoresLatency trimResult := fun _ _ => .ite rfl (.ite rfl (.ite rfl rfl))

theorem normResult_ignoresLatency : IgnoresLatency normResult := fun _ _ => .ite rfl (.ite rfl (.ite rfl rfl))

theorem digmodSteps_ignoresLatency : IgnoresLatency digmodSteps := fun lengths s =>
  prbsResult_ignoresLatency lengths s |>.andThen brepResult_ignoresLatency |>.andThen mapResult_ignoresLatency
    |>.andThen cextResult_ignoresLatency |>.andThen zstuffResult_ignoresLatency |>.andThen fgenResult_ignoresLatency
    |>.andThen convResult_ignoresLatency |>.andThen trimResult_ignoresLatency |>.andThen normResult_ignoresLatency

theorem digmodResult_ignoresLatency (d : Bool) : IgnoresLatency (digmodResult d) := fun lengths s => by
  have hcheck : digmodPrecheck (withLatency lengths s) = digmodPrecheck s := rfl
  unfold digmodResult
  rw [hcheck]
  split
  · rfl
  · exact .ite ((cmdefResult_ignoresLatency lengths s).andThen digmodSteps_ignoresLatency)
      (digmodSteps_ignoresLatency lengths s)

theorem pmodeResult_ignoresLatency (mode : BitVec 16) : IgnoresLatency (pmodeResult mode) := fun lengths s => by
  unfold pmodeResult
  rw [withLatency_params]
  split <;> rfl

theorem ilvResult_ignoresLatency : IgnoresLatency ilvResult := fun _ _ => .ite rfl (.ite rfl rfl)

theorem vqConvert_ignoresLatency (src order : BitVec 2) : IgnoresLatency (vqConvert src order) := fun lengths s => by
  simp only [vqConvert, withLatency_mem, withLatency_params, withLatency_snap]
  split <;> rfl

theorem vqResult_ignoresLatency (src order : BitVec 2) : IgnoresLatency (vqResult src order) := fun lengths s =>
  .ite (vqConvert_ignoresLatency src order lengths (takeSnapshot s)) rfl

theorem appendRecord_ignoresLatency (x : PdwFields) : IgnoresLatency (appendRecord x) := fun lengths s => by
  unfold appendRecord
  split
  · rfl
  · exact .ite rfl rfl

theorem pdwencResult_ignoresLatency : IgnoresLatency pdwencResult := fun lengths s => by
  simp only [pdwencResult, withLatency_pd, withLatency_params]
  split
  · rfl
  split
  · rfl
  split
  · rfl
  split
  · rfl
  · exact appendRecord_ignoresLatency _ lengths s

theorem pdwasmResult_ignoresLatency : IgnoresLatency pdwasmResult := fun _ _ => .ite rfl rfl

/-- Every command but CLRERR and SRESET is accepted in IDLE only, by pseudocode that does not read the BUSY lengths. -/
theorem exec_eq_runInIdle_ignoresLatency (i : Instr) (hc : i ≠ .clrerr) (hr : i ≠ .sreset) :
    ∃ body : State → Result, exec i = runInIdle body ∧ IgnoresLatency body := by
  cases i with
  | clrerr => exact absurd rfl hc
  | sreset => exact absurd rfl hr
  | nop => exact ⟨_, rfl, fun _ _ => rfl⟩
  | prbs => exact ⟨_, rfl, prbsResult_ignoresLatency⟩
  | brep => exact ⟨_, rfl, brepResult_ignoresLatency⟩
  | cmclr => exact ⟨_, rfl, fun _ _ => rfl⟩
  | cmdef => exact ⟨_, rfl, cmdefResult_ignoresLatency⟩
  | map => exact ⟨_, rfl, mapResult_ignoresLatency⟩
  | cext => exact ⟨_, rfl, cextResult_ignoresLatency⟩
  | zstuff => exact ⟨_, rfl, zstuffResult_ignoresLatency⟩
  | fgen => exact ⟨_, rfl, fgenResult_ignoresLatency⟩
  | conv => exact ⟨_, rfl, convResult_ignoresLatency⟩
  | trim => exact ⟨_, rfl, trimResult_ignoresLatency⟩
  | norm => exact ⟨_, rfl, normResult_ignoresLatency⟩
  | digmod d => exact ⟨_, rfl, digmodResult_ignoresLatency d⟩
  | pmode mode => exact ⟨_, rfl, pmodeResult_ignoresLatency mode⟩
  | ilv => exact ⟨_, rfl, ilvResult_ignoresLatency⟩
  | vq src order => exact ⟨_, rfl, vqResult_ignoresLatency src order⟩
  | pdwenc => exact ⟨_, rfl, pdwencResult_ignoresLatency⟩
  | pdwclr => exact ⟨_, rfl, fun _ _ => rfl⟩
  | pdwasm => exact ⟨_, rfl, pdwasmResult_ignoresLatency⟩

/-! An accepted command, acceptance and completion in one. -/

/-- What `f`, run on a state that accepts its word, gives: `t`, settled, with the host's transactions as they were, and
the same whatever the BUSY lengths. -/
structure Runs (f : State → Host.Outcome State Fault Refusal) (s t : State) : Prop where
  next : ∀ lengths, f (withLatency lengths s) = .next (withLatency lengths t)
  settled : Settled t
  bus : t.bus = s.bus

theorem runUnlessBusy_of_ready {f : State → State} {s : State} (h : Ready s) : runUnlessBusy f s = .next (f s) := by
  obtain h | h := h <;> simp [runUnlessBusy, h]

theorem clrerr_runs {s : State} (h : Ready s) : Runs (exec .clrerr) s (advanceIndex (returnFromFault s)) where
  next lengths := runUnlessBusy_of_ready (f := fun t => advanceIndex (returnFromFault t)) (s := withLatency lengths s) h
  settled := .inl ⟨rfl, rfl⟩
  bus := rfl

theorem sreset_runs {s : State} (h : Ready s) : Runs (exec .sreset) s (resetBlock s) where
  next lengths := runUnlessBusy_of_ready (s := withLatency lengths s) h
  settled := .inl ⟨rfl, rfl⟩
  bus := rfl

theorem finish_map_withLatency (lengths : List Nat) (r : Result) :
    finish (r.map (withLatency lengths)) = withLatency lengths (finish r) := by
  cases r <;> rfl

theorem finish_bus {s : State} {r : Result} (h : r.All (Keeps s)) : (finish r).bus = s.bus := by
  cases r with
  | done t => exact (Keeps.outside h).2.1
  | raised e t => exact (Keeps.outside h).2.1

/-- In IDLE every command but CLRERR and SRESET does the same whatever the BUSY lengths. -/
theorem exec_withLatency {i : Instr} (hc : i ≠ .clrerr) (hr : i ≠ .sreset) {s t : State} (hp : s.phase = .idle)
    (hx : exec i s = .next t) (lengths : List Nat) :
    exec i (withLatency lengths s) = .next (withLatency lengths t) := by
  obtain ⟨body, hbody, hignores⟩ := exec_eq_runInIdle_ignoresLatency i hc hr
  rw [hbody, runInIdle_of_idle hp] at hx
  cases hx
  rw [hbody, runInIdle_of_idle (s := withLatency lengths s) hp, hignores lengths s, finish_map_withLatency]

theorem exec_runs {i : Instr} (hc : i ≠ .clrerr) (hr : i ≠ .sreset) {s : State}
    (hs : s.phase = .idle ∧ s.latch = none) : ∃ t, Runs (exec i) s t := by
  obtain ⟨body, hbody, hkeeps⟩ := exec_eq_runInIdle i hc hr
  have hx : exec i s = .next (finish (body s)) := by rw [hbody, runInIdle_of_idle hs.1]
  exact ⟨_, exec_withLatency hc hr hs.1 hx, finish_settled hs (hkeeps s), finish_bus (hkeeps s)⟩

theorem issueIllegal_runs {s : State} (w : Word) (hs : s.phase = .idle ∧ s.latch = none) :
    Runs (issueIllegal w) s (takeFault (illegalFault w) s) where
  next lengths := runInIdle_of_idle (s := withLatency lengths s) hs.1
  settled := .inr ⟨rfl, _, rfl⟩
  bus := rfl

theorem issueFused_ok {w : Word} {i : Instr} (h : decode w = .ok i) : issueFused w = exec i := by
  funext s
  simp [issueFused, h]

theorem issueFused_error {w : Word} {e : Illegal} (h : decode w = .error e) : issueFused w = issueIllegal w := by
  funext s
  simp [issueFused, h]

/-- A command, or an illegal word, that the state accepts (R112, R113). -/
theorem issueFused_runs {s : State} {w : Word}
    (h : s.phase = .idle ∧ s.latch = none ∨ s.phase = .fault ∧ (w = 0x01000000#32 ∨ w = 0x02000000#32)) :
    ∃ t, Runs (issueFused w) s t := by
  obtain hs | ⟨hp, rfl | rfl⟩ := h
  · cases hw : decode w with
    | ok i =>
      rw [issueFused_ok hw]
      by_cases hc : i = .clrerr
      · exact ⟨_, hc ▸ clrerr_runs (.inl hs.1)⟩
      by_cases hr : i = .sreset
      · exact ⟨_, hr ▸ sreset_runs (.inl hs.1)⟩
      · exact exec_runs hc hr hs
    | error e =>
      rw [issueFused_error hw]
      exact ⟨_, issueIllegal_runs w hs⟩
  · rw [issueFused_ok (i := .clrerr) (by decide)]
    exact ⟨_, clrerr_runs (.inr hp)⟩
  · rw [issueFused_ok (i := .sreset) (by decide)]
    exact ⟨_, sreset_runs (.inr hp)⟩

/-! A command held in BUSY. -/

/-- The host transactions that the statement allows in BUSY (R86). -/
def AllowedInBusy (e : HostEvent) : Prop :=
  e = .read 1#10 ∨ e = .read 8#10 ∨ ∃ (f : ProfileField) (a : RegAddr) (v : Word),
    regAt a = some (.stage f) ∧ e = .write a v

/-- One transaction does the same to the state that a command left and to that state held in BUSY, but for the data
read. -/
theorem step_allowed {u : State} (hu : Settled u) {e : HostEvent} (he : AllowedInBusy e) (before : State) (n : Nat)
    (rest : List HostEvent) (v : Word) : ∃ (u' : State) (v' : Word), Settled u' ∧
      step { u with bus := e :: rest } = .next { u' with bus := rest } ∧
      step (accepted (n + 1) before { u with bus := e :: rest, rdata := v }) =
        .next (accepted n before { u' with bus := rest, rdata := v' }) := by
  let held : State := accepted n before { u with bus := rest, rdata := v }
  have hbusy : step (accepted (n + 1) before { u with bus := e :: rest, rdata := v }) = hostEventBusy held e :=
    step_busy_event (s := accepted (n + 1) before { u with rdata := v }) rfl rfl e rest
  obtain rfl | rfl | ⟨f, a, w, ha, rfl⟩ := he
  · refine ⟨{ u with rdata := statusWord u }, 1, hu, ?_,
      hbusy.trans (busReadBusy_status (a := 1#10) (s := held) (by decide) rfl)⟩
    rw [step_read hu.ready, busRead_reg (r := .status) (by decide) (by simp), readReg_withBus]
    rfl
  · refine ⟨{ u with rdata := u.cix }, before.cix, hu, ?_, hbusy.trans (busReadBusy_cix (a := 8#10) (by decide) held)⟩
    rw [step_read hu.ready, busRead_reg (r := .cix) (by decide) (by simp), readReg_withBus]
    rfl
  · refine ⟨{ u with stage := setProfileField u.stage w f }, v, hu, ?_, hbusy.trans (busWriteBusy_stage ha held w)⟩
    have hne : a ≠ cmdAddr := by
      rintro rfl
      cases ha
    rw [step_write hu.ready hne, busWrite_reg ha (by simp)]
    rfl

theorem run_succ_of_next {M : Host.Core} {n : Nat} {s t : M.State} (h : M.step s = .next t) :
    M.run (n + 1) s = M.run n t := by
  simp [Host.Core.run, h]

theorem run_succ {n : Nat} {s t : State} (h : step s = .next t) :
    Sys2Proof.core.run (n + 1) s = Sys2Proof.core.run n t :=
  run_succ_of_next (M := Sys2Proof.core) h

theorem Settled.phase_eq {s : State} (h : Settled s) : s.phase = if s.latch.isSome then .fault else .idle := by
  obtain ⟨hp, hl⟩ | ⟨hp, r, hl⟩ := h <;> simp [hp, hl]

/-- The completion event comes when the BUSY length is used up or the host does nothing more (R97). -/
theorem step_complete {s : State} {c : Completion} (hp : s.phase = .busy c) (h : c.left = 0 ∨ s.bus = []) :
    step s = .next (complete c s) := by
  rw [step_busy hp]
  obtain hc | ⟨n, e, rest, hleft, hbus, -⟩ := stepBusy_cases c s
  · exact hc
  · simp [hleft, hbus] at h

/-- While the host makes its transactions, and then at completion, the state held in BUSY follows the fused one. -/
theorem run_allowed {es : List HostEvent} (hes : ∀ e ∈ es, AllowedInBusy e) (before : State) (rest : List HostEvent) :
    ∀ (u : State) (v : Word), Settled u → ∃ (b : State) (v' : Word),
      Sys2Proof.core.run es.length { u with bus := es ++ rest } = .next b ∧
      Sys2Proof.core.run (es.length + 1) (accepted es.length before { u with bus := es ++ rest, rdata := v }) =
        .next { b with rdata := v' } := by
  induction es with
  | nil =>
    intro u v hu
    let after : State := { u with bus := rest, rdata := v }
    have hstep : step (accepted 0 before after) = .next after := by
      rw [step_complete rfl (.inl rfl), complete_accepted 0 before after hu.phase_eq]
    exact ⟨{ u with bus := rest }, v, rfl, run_succ (n := 0) hstep⟩
  | cons e es ih =>
    intro u v hu
    obtain ⟨u', v', hu', hfused, hsplit⟩ :=
      step_allowed hu (hes e (List.mem_cons_self ..)) before es.length (es ++ rest) v
    obtain ⟨b, v'', hb, ha⟩ := ih (fun e he => hes e (List.mem_cons_of_mem _ he)) u' v' hu'
    exact ⟨b, v'', (run_succ hfused).trans hb, (run_succ hsplit).trans ha⟩

/-- The step that writes an accepted word to CMD holds its command in BUSY as the next BUSY length says (R97, R112). -/
theorem step_accepted {s t : State} {w : Word} (hr : Ready s) (hacc : accepts s w = true) {lengths : List Nat}
    {bus : List HostEvent} (h : issueFused w { s with bus := bus, latency := lengths } = .next t) :
    step { s with bus := .write cmdAddr w :: bus, latency := lengths } =
      .next (holdBusy { s with bus := bus, latency := lengths } t) := by
  have hissue : step { s with bus := .write cmdAddr w :: bus, latency := lengths } =
      issue w { s with bus := bus, latency := lengths } :=
    step_ready (s := { s with bus := .write cmdAddr w :: bus, latency := lengths }) hr
  have hacc' : accepts { s with bus := bus, latency := lengths } w = true := hacc
  rw [hissue, issue, h]
  simp only [hacc', if_true]

/-- Settles O51: the two readings run the same command, and the one held in BUSY follows the other. -/
theorem fusedAndSplitCommandsAgree : Obligations.FusedAndSplitCommandsAgree := by
  refine ⟨fun s w es rest lengths hs hes => ?_, fun s c => step_complete⟩
  intro start
  have hr : Ready s := hs.imp And.left And.left
  have hacc : accepts s w = true := by
    have hclrerr : encode .clrerr = 0x01000000#32 := by decide
    have hsreset : encode .sreset = 0x02000000#32 := by decide
    obtain ⟨hp, -⟩ | ⟨hp, hw⟩ := hs
    · simp [accepts, hp]
    · simpa [accepts, hp, hclrerr, hsreset] using hw
  obtain ⟨t, ht⟩ := issueFused_runs (s := { s with bus := es ++ rest }) (w := w) hs
  have hbus : { withLatency lengths t with bus := es ++ rest } = withLatency lengths t := by
    rw [← show (withLatency lengths t).bus = es ++ rest from ht.bus]
  have hfused : step (start 0) = .next { withLatency lengths t with bus := es ++ rest } := by
    rw [hbus]
    exact step_accepted (t := withLatency (0 :: lengths) t) hr hacc (ht.next (0 :: lengths))
  have hsplit : step (start (es.length + 1)) =
      .next (accepted es.length s { withLatency lengths t with bus := es ++ rest }) := by
    rw [hbus]
    exact step_accepted (t := withLatency ((es.length + 1) :: lengths) t) hr hacc (ht.next _)
  obtain ⟨b, v, hb, ha⟩ := run_allowed hes s rest (withLatency lengths t) t.rdata ht.settled
  exact ⟨_, b, (run_succ hsplit).trans ha, (run_succ hfused).trans hb, rfl⟩

end Sys2Proof.Machine
end

section
/-! O38, the finite patterns (R90): the number of one as a multiple of the smallest, `2^-1074`. -/

namespace Sys2Proof

/-- The bits of a pattern below its sign. -/
def magnitude (p : BitVec 64) : ℕ := p.toNat % 2 ^ 63

/-- The number, in units of `2^-1074`, that the magnitude bits `k` stand for (R90). -/
def unitsOf (k : ℕ) : ℕ := if k < 2 ^ 52 then k else (2 ^ 52 + k % 2 ^ 52) * 2 ^ (k / 2 ^ 52 - 1)

/-- The sign of a pattern (R90). -/
def signOf (p : BitVec 64) : ℚ := if p.getLsbD 63 then -1 else 1

theorem magnitude_exponent (p : BitVec 64) : (p.extractLsb' 52 11).toNat = magnitude p / 2 ^ 52 := by
  simp only [BitVec.extractLsb'_toNat, magnitude, Nat.shiftRight_eq_div_pow]
  omega

theorem magnitude_fraction (p : BitVec 64) : (p.extractLsb' 0 52).toNat = magnitude p % 2 ^ 52 := by
  simp only [BitVec.extractLsb'_toNat, magnitude, Nat.shiftRight_zero]
  omega

theorem unitsOf_of_lt {k : ℕ} (h : k < 2 ^ 52) : unitsOf k = k := if_pos h

theorem unitsOf_of_le {k : ℕ} (h : 2 ^ 52 ≤ k) : unitsOf k = (2 ^ 52 + k % 2 ^ 52) * 2 ^ (k / 2 ^ 52 - 1) :=
  if_neg (Nat.not_lt.2 h)

/-- The two ways in which R90 scales a significand are one. -/
theorem div_two_pow_sub (x : ℚ) {e n : ℕ} (he : e ≠ 0) (h : e < n + 1) :
    x / 2 ^ (n + 1 - e) = x * 2 ^ (e - 1) / 2 ^ n := by
  obtain ⟨d, rfl⟩ : ∃ d, n = d + (e - 1) := ⟨n - (e - 1), by omega⟩
  rw [show d + (e - 1) + 1 - e = d by omega, pow_add]
  field_simp

theorem mul_two_pow_sub (x : ℚ) {e n : ℕ} (h : n + 1 ≤ e) : x * 2 ^ (e - (n + 1)) = x * 2 ^ (e - 1) / 2 ^ n := by
  obtain ⟨d, rfl⟩ : ∃ d, e = n + 1 + d := ⟨e - (n + 1), by omega⟩
  rw [show n + 1 + d - (n + 1) = d by omega, show n + 1 + d - 1 = n + d by omega, pow_add]
  field_simp

/-- The number of a pattern, from its sign and its magnitude; from `0x7FF × 2^52` on, the infinity, it has none. -/
theorem numOf_eq (p : BitVec 64) : numOf p =
    if magnitude p < 0x7FF * 2 ^ 52 then some (signOf p * unitsOf (magnitude p) / 2 ^ 1074) else none := by
  have hlt : magnitude p < 2 ^ 63 := Nat.mod_lt _ (by decide)
  have hsign : (if p.getLsbD 63 then -1 else 1 : ℚ) = signOf p := rfl
  simp only [numOf, magnitude_exponent, magnitude_fraction, hsign]
  generalize magnitude p = k at hlt ⊢
  by_cases hinf : k / 2 ^ 52 = 0x7FF
  · rw [if_pos hinf, if_neg (by omega)]
  have hfinite : k < 0x7FF * 2 ^ 52 := by omega
  rw [if_neg hinf, if_pos hfinite]
  by_cases hsub : k / 2 ^ 52 = 0
  · have hk : k < 2 ^ 52 := by omega
    rw [if_pos hsub, unitsOf_of_lt hk, Nat.mod_eq_of_lt hk]
  rw [if_neg hsub, unitsOf_of_le (by omega), Nat.cast_mul, Nat.cast_pow, ← mul_assoc]
  split
  · rw [div_two_pow_sub _ hsub ‹_›]
    rfl
  · rw [mul_two_pow_sub _ (Nat.not_lt.1 ‹_›)]
    rfl

/-! The multiples of `2^-1074` that are numbers of patterns. -/

/-- The magnitude bits of `m × 2^s`, for a significand `m` of 53 bits or the next power of two, or any smaller one where
`s` is 0: the exponent field and the carry of the significand add up (R93). -/
theorem unitsOf_mul_add {s m : ℕ} (hle : m ≤ 2 ^ 53) (hge : s ≠ 0 → 2 ^ 52 ≤ m) :
    unitsOf (s * 2 ^ 52 + m) = m * 2 ^ s := by
  rcases Nat.lt_or_ge m (2 ^ 52) with hlt | hm
  · obtain rfl : s = 0 := by
      by_contra hs
      have := hge hs
      omega
    rw [unitsOf_of_lt (by omega)]
    simp
  rw [unitsOf_of_le (by omega)]
  rcases Nat.eq_or_lt_of_le hle with rfl | hlt
  · have hfrac : (s * 2 ^ 52 + 2 ^ 53) % 2 ^ 52 = 0 := by omega
    have hexp : (s * 2 ^ 52 + 2 ^ 53) / 2 ^ 52 - 1 = s + 1 := by omega
    rw [hfrac, hexp, pow_succ]
    ring
  · have hfrac : 2 ^ 52 + (s * 2 ^ 52 + m) % 2 ^ 52 = m := by omega
    have hexp : (s * 2 ^ 52 + m) / 2 ^ 52 - 1 = s := by omega
    rw [hfrac, hexp]

/-- Every pattern is of that shape. -/
theorem exists_unitsOf_eq (k : ℕ) : ∃ s m, k = s * 2 ^ 52 + m ∧ m < 2 ^ 53 ∧ (s ≠ 0 → 2 ^ 52 ≤ m) ∧
    unitsOf k = m * 2 ^ s := by
  have hshape : ∃ s m, k = s * 2 ^ 52 + m ∧ m < 2 ^ 53 ∧ (s ≠ 0 → 2 ^ 52 ≤ m) := by
    rcases Nat.lt_or_ge k (2 ^ 52) with hlt | hge
    · exact ⟨0, k, by omega, by omega, by omega⟩
    · exact ⟨k / 2 ^ 52 - 1, k % 2 ^ 52 + 2 ^ 52, by omega, by omega, by omega⟩
  obtain ⟨s, m, rfl, hlt, hge⟩ := hshape
  exact ⟨s, m, rfl, hlt, hge, unitsOf_mul_add hlt.le hge⟩

/-- A number of at least 53 bits and `s` more is a multiple of `2^s`. -/
theorem dvd_unitsOf {k s : ℕ} (h : 2 ^ 52 * 2 ^ s ≤ unitsOf k) : 2 ^ s ∣ unitsOf k := by
  obtain ⟨e, m, -, hlt, -, heq⟩ := exists_unitsOf_eq k
  rw [heq] at h ⊢
  have hpow : 2 ^ (52 + s) < 2 ^ (53 + e) := by
    calc 2 ^ (52 + s) = 2 ^ 52 * 2 ^ s := pow_add ..
      _ ≤ m * 2 ^ e := h
      _ < 2 ^ 53 * 2 ^ e := Nat.mul_lt_mul_of_pos_right hlt (by positivity)
      _ = 2 ^ (53 + e) := (pow_add ..).symm
  have hexp := (Nat.pow_lt_pow_iff_right (by decide)).1 hpow
  exact Dvd.dvd.mul_left (pow_dvd_pow 2 (by omega)) m

/-- A larger pattern has a larger number. -/
theorem unitsOf_strictMono : StrictMono unitsOf := by
  refine strictMono_nat_of_lt_succ fun k => ?_
  obtain ⟨s, m, rfl, hlt, hge, heq⟩ := exists_unitsOf_eq k
  rw [heq, add_assoc, unitsOf_mul_add hlt fun hs => (hge hs).trans (Nat.le_succ m)]
  exact Nat.mul_lt_mul_of_pos_right (Nat.lt_succ_self m) (by positivity)

end Sys2Proof
end

section
/-! O38, rounding to a pattern (R93): the magnitude bits that `F64` computes are those of a nearest number. -/

namespace Sys2Proof

/-- No integer is nearer than a rounded value, and at a tie that value is even (R12). -/
theorem IsRoundOf.nearest {v : ℝ} {r : ℤ} (h : IsRoundOf .halfEven v r) (j : ℤ) :
    |v - r| ≤ |v - j| ∧ (|v - r| = |v - j| → r ≠ j → r % 2 = 0) := by
  obtain ⟨hle, htie⟩ := h
  by_cases hj : r = j
  · subst hj
    exact ⟨le_rfl, fun _ hne => absurd rfl hne⟩
  have hone : (1 : ℝ) ≤ |(r : ℝ) - j| := by
    have : 1 ≤ |r - j| := Int.one_le_abs (sub_ne_zero.2 hj)
    exact_mod_cast this
  have htri : |(r : ℝ) - j| ≤ |v - r| + |v - j| := by
    rw [abs_sub_comm v r]
    exact abs_sub_le _ _ _
  exact ⟨by linarith, fun heq _ => (htie (by linarith)).1 rfl⟩

/-- `y` rounds to `m × 2^s`, a number of at most 53 significant bits or the next power of two. -/
structure RoundsTo (y : ℝ) (s m : ℕ) : Prop where
  round : IsRoundOf .halfEven (y / 2 ^ s) m
  nonneg : 0 ≤ y
  below : y < 2 ^ 53 * 2 ^ s
  above : s ≠ 0 → 2 ^ 52 * 2 ^ s ≤ y

section
variable {y : ℝ} {s m : ℕ}

theorem RoundsTo.le (h : RoundsTo y s m) : m ≤ 2 ^ 53 := by
  have hlt : y / 2 ^ s < 2 ^ 53 := (div_lt_iff₀ (by positivity)).2 h.below
  have hround := (abs_le.1 h.round.1).1
  push_cast at hround
  have : (m : ℝ) < (2 ^ 53 + 1 : ℕ) := by
    push_cast
    linarith
  exact Nat.lt_succ_iff.1 (by exact_mod_cast this)

theorem RoundsTo.ge (h : RoundsTo y s m) (hs : s ≠ 0) : 2 ^ 52 ≤ m := by
  have hge : 2 ^ 52 ≤ y / 2 ^ s := (le_div_iff₀ (by positivity)).2 (h.above hs)
  have hround := (abs_le.1 h.round.1).2
  push_cast at hround
  have : ((2 ^ 52 : ℕ) : ℝ) < (m + 1 : ℕ) := by
    push_cast
    linarith
  exact Nat.lt_succ_iff.1 (by exact_mod_cast this)

theorem RoundsTo.unitsOf_eq (h : RoundsTo y s m) : unitsOf (s * 2 ^ 52 + m) = m * 2 ^ s := unitsOf_mul_add h.le h.ge

/-- Among the multiples of `2^s` none is nearer. -/
theorem RoundsTo.nearest_multiple (h : RoundsTo y s m) (j : ℕ) :
    |y - (m * 2 ^ s : ℕ)| ≤ |y - (2 ^ s * j : ℕ)| ∧
      (|y - (m * 2 ^ s : ℕ)| = |y - (2 ^ s * j : ℕ)| → m ≠ j → m % 2 = 0) := by
  have hpos : (0 : ℝ) < 2 ^ s := by positivity
  have hscale (i : ℕ) : |y - (2 ^ s * i : ℕ)| = 2 ^ s * |y / 2 ^ s - (i : ℤ)| := by
    rw [← abs_of_pos hpos, ← abs_mul, abs_of_pos hpos]
    congr 1
    push_cast
    field_simp
  obtain ⟨hle, htie⟩ := h.round.nearest j
  rw [mul_comm m, hscale, hscale]
  refine ⟨mul_le_mul_of_nonneg_left hle hpos.le, fun heq hne => ?_⟩
  have := htie (mul_left_cancel₀ hpos.ne' heq) (by exact_mod_cast hne)
  omega

/-- No number of a pattern is nearer, and at a tie the significand is even (R93). -/
theorem RoundsTo.nearest (h : RoundsTo y s m) (k : ℕ) :
    |y - unitsOf (s * 2 ^ 52 + m)| ≤ |y - unitsOf k| ∧
      (|y - unitsOf (s * 2 ^ 52 + m)| = |y - unitsOf k| → unitsOf (s * 2 ^ 52 + m) ≠ unitsOf k →
        (s * 2 ^ 52 + m) % 2 = 0) := by
  rw [h.unitsOf_eq]
  by_cases hdvd : 2 ^ s ∣ unitsOf k
  · obtain ⟨j, hj⟩ := hdvd
    obtain ⟨hle, htie⟩ := h.nearest_multiple j
    rw [hj]
    refine ⟨hle, fun heq hne => ?_⟩
    have := htie heq fun hmj => hne (by rw [hmj, mul_comm])
    omega
  · have hs : s ≠ 0 := by
      rintro rfl
      simp at hdvd
    have hlt : unitsOf k < 2 ^ s * 2 ^ 52 := by
      rw [mul_comm]
      exact Nat.lt_of_not_ge fun hge => hdvd (dvd_unitsOf hge)
    have hk : (unitsOf k : ℝ) < (2 ^ s * 2 ^ 52 : ℕ) := by exact_mod_cast hlt
    have hy : ((2 ^ s * 2 ^ 52 : ℕ) : ℝ) ≤ y := by
      rw [mul_comm]
      exact_mod_cast h.above hs
    have hbelow : |y - (2 ^ s * 2 ^ 52 : ℕ)| < |y - unitsOf k| := by
      rw [abs_of_nonneg (by linarith), abs_of_nonneg (by linarith)]
      linarith
    have hfurther := (h.nearest_multiple (2 ^ 52)).1.trans_lt hbelow
    exact ⟨hfurther.le, fun heq => absurd heq hfurther.ne⟩

/-- The magnitude carries into an exponent field exactly from half way between the two numbers around on (R93). -/
theorem RoundsTo.carry_iff (h : RoundsTo y s m) (c : ℕ) :
    (c + 3) * 2 ^ 52 ≤ s * 2 ^ 52 + m ↔ (2 ^ 54 - 1) * 2 ^ c ≤ y := by
  have hm := h.le
  have hpos : (0 : ℝ) < 2 ^ c := by positivity
  rcases lt_trichotomy s (c + 1) with hs | rfl | hs
  · have hlow : y < (2 ^ 54 - 1) * 2 ^ c := by
      have hpow : (2 : ℝ) ^ s ≤ 2 ^ c := pow_le_pow_right₀ (by norm_num) (by omega)
      have := h.below
      nlinarith
    exact iff_of_false (by omega) (not_le.2 hlow)
  · have hm' := h.ge (by omega)
    obtain ⟨hle, htie⟩ := h.round
    have hscale : y = y / 2 ^ (c + 1) * 2 * 2 ^ c := by
      rw [pow_succ]
      field_simp
    generalize y / 2 ^ (c + 1) = v at hle htie hscale
    rw [hscale, mul_le_mul_iff_left₀ hpos]
    rw [abs_le] at hle
    constructor
    · intro hcarry
      obtain rfl : m = 2 ^ 53 := by omega
      push_cast at hle
      linarith
    · intro hhalf
      by_contra hcarry
      have hmlt : (m : ℝ) + 1 ≤ 2 ^ 53 := by
        have : m + 1 ≤ 2 ^ 53 := by omega
        exact_mod_cast this
      have hmge : (2 : ℝ) ^ 53 ≤ m + 1 := by
        push_cast at hle
        linarith
      have heven := (htie (by
        push_cast at hle ⊢
        rw [abs_of_nonneg (by linarith)]
        linarith)).1 rfl
      have : 2 ^ 53 ≤ m + 1 := by exact_mod_cast hmge
      omega
  · have hm' := h.ge (by omega)
    have hhigh : (2 ^ 54 - 1) * 2 ^ c ≤ y := by
      have hpow : (2 : ℝ) ^ (c + 2) ≤ 2 ^ s := pow_le_pow_right₀ (by norm_num) (by omega)
      have := h.above (by omega)
      rw [pow_add] at hpow
      nlinarith
    exact iff_of_true (by omega) hhigh

end

/-! The magnitude bits that `f64From` computes. -/

/-- What `f64From` is given of the magnitude `a`: the floor of `a × 2^1075`, and whether it is that integer. -/
def IsTwice (a : ℝ) (twice : ℕ × Bool) : Prop :=
  twice.1 = ⌊a * 2 ^ 1075⌋₊ ∧ (twice.2 = true ↔ (twice.1 : ℝ) = a * 2 ^ 1075)

theorem IsTwice.unique {a : ℝ} {t t' : ℕ × Bool} (h : IsTwice a t) (h' : IsTwice a t') : t = t' := by
  obtain ⟨hf, he⟩ := h
  obtain ⟨hf', he'⟩ := h'
  have hfst : t.1 = t'.1 := hf.trans hf'.symm
  exact Prod.ext hfst (Bool.eq_iff_iff.2 (by rw [he, he', hfst]))

/-- The low bits of `n` that are rounded away (R93). -/
def roundedBits (n : ℕ) : ℕ := (if n = 0 then 0 else Nat.log2 n + 1) - 53

theorem lt_of_roundedBits (n : ℕ) : n < 2 ^ 53 * 2 ^ roundedBits n := by
  have hlog : n < 2 ^ (if n = 0 then 0 else Nat.log2 n + 1) := by
    split
    · simp [*]
    · exact Nat.lt_log2_self
  rw [← pow_add]
  exact hlog.trans_le (Nat.pow_le_pow_right (by decide) (by unfold roundedBits; omega))

theorem le_of_roundedBits {n : ℕ} (h : roundedBits n ≠ 0) : 2 ^ 52 * 2 ^ roundedBits n ≤ n := by
  unfold roundedBits at h ⊢
  by_cases hn : n = 0
  · simp [hn] at h
  rw [if_neg hn] at h ⊢
  rw [← pow_add, show 52 + (Nat.log2 n + 1 - 53) = Nat.log2 n by omega]
  exact Nat.log2_self_le hn

/-- The significand, rounded to even at a tie (R93). -/
def significand (twice : ℕ × Bool) (s : ℕ) : ℤ :=
  roundFrom .halfEven (((twice.1 / 2 ^ s : ℕ) : ℤ), twice.2 && decide (twice.1 % 2 ^ s = 0))

/-- The exponent field and the carry of the significand added up (R93). -/
def roundedMagnitude (twice : ℕ × Bool) : ℕ :=
  roundedBits (twice.1 / 2) * 2 ^ 52 + (significand twice (roundedBits (twice.1 / 2))).toNat

theorem f64From_eq (negative : Bool) (twice : ℕ × Bool) : f64From negative twice =
    BitVec.ofNat 64 (min (roundedMagnitude twice) (0x7FF * 2 ^ 52) + if negative then 2 ^ 63 else 0) := rfl

/-- The significand rounds `y / 2^s`, where the pair is of `2 y`. -/
theorem significand_isRoundOf {y : ℝ} {twice : ℕ × Bool} (hfloor : twice.1 = ⌊y * 2⌋₊)
    (hexact : twice.2 = true ↔ (twice.1 : ℝ) = y * 2) (hy : 0 ≤ y) (s : ℕ) :
    IsRoundOf .halfEven (y / 2 ^ s) (significand twice s) := by
  refine roundFrom_isRoundOf .halfEven ?_ ?_
  · have hdiv : twice.1 / 2 ^ s = ⌊y / 2 ^ s * 2⌋₊ := by
      rw [hfloor, ← Nat.floor_div_natCast, Nat.cast_pow, Nat.cast_ofNat, div_mul_eq_mul_div]
    simp only [hdiv]
    exact Int.natCast_floor_eq_floor (by positivity)
  · have hpos : (0 : ℝ) < 2 ^ s := by positivity
    have hdivmod : (2 : ℝ) ^ s * (twice.1 / 2 ^ s : ℕ) + (twice.1 % 2 ^ s : ℕ) = twice.1 := by
      exact_mod_cast Nat.div_add_mod twice.1 (2 ^ s)
    have hquot : ((twice.1 / 2 ^ s : ℕ) : ℝ) = y / 2 ^ s * 2 ↔ (2 : ℝ) ^ s * (twice.1 / 2 ^ s : ℕ) = y * 2 := by
      rw [div_mul_eq_mul_div, eq_div_iff hpos.ne', mul_comm]
    rw [Int.cast_natCast, hquot, Bool.and_eq_true, decide_eq_true_eq, hexact]
    constructor
    · rintro ⟨htwice, hmod⟩
      rw [hmod, Nat.cast_zero, add_zero] at hdivmod
      exact hdivmod.trans htwice
    · intro hmul
      have htwice : twice.1 = 2 ^ s * (twice.1 / 2 ^ s) := by
        rw [← hmul] at hfloor
        exact hfloor.trans (by exact_mod_cast Nat.floor_natCast (R := ℝ) (2 ^ s * (twice.1 / 2 ^ s)))
      exact ⟨by rw [← hmul]; exact_mod_cast htwice, Nat.mod_eq_zero_of_dvd ⟨_, htwice⟩⟩

/-- `f64From` rounds the magnitude it is given, in units of `2^-1074`. -/
theorem IsTwice.roundsTo {a : ℝ} (ha : 0 ≤ a) {twice : ℕ × Bool} (h : IsTwice a twice) :
    ∃ s m, roundedMagnitude twice = s * 2 ^ 52 + m ∧ RoundsTo (a * 2 ^ 1074) s m := by
  obtain ⟨hfloor, hexact⟩ := h
  have hy : 0 ≤ a * 2 ^ 1074 := by positivity
  rw [pow_succ, ← mul_assoc] at hfloor hexact
  generalize a * 2 ^ 1074 = y at hy hfloor hexact ⊢
  have hhalf : twice.1 / 2 = ⌊y⌋₊ := by
    rw [hfloor, ← Nat.floor_div_natCast, Nat.cast_ofNat, mul_div_cancel_right₀ _ two_ne_zero]
  refine ⟨roundedBits (twice.1 / 2), _, rfl, ?_⟩
  rw [hhalf]
  have hround := significand_isRoundOf hfloor hexact hy (roundedBits ⌊y⌋₊)
  have hnonneg : 0 ≤ significand twice (roundedBits ⌊y⌋₊) := by
    have hdiv : 0 ≤ y / 2 ^ roundedBits ⌊y⌋₊ := by positivity
    have := (abs_le.1 hround.1).2
    have : (-1 : ℝ) < (significand twice (roundedBits ⌊y⌋₊) : ℝ) := by linarith
    exact Int.lt_iff_add_one_le.1 (by exact_mod_cast this)
  refine ⟨?_, hy, ?_, fun hs => ?_⟩
  · rwa [Int.toNat_of_nonneg hnonneg]
  · exact_mod_cast (Nat.floor_lt hy).1 (lt_of_roundedBits ⌊y⌋₊)
  · exact_mod_cast (Nat.le_floor_iff hy).1 (le_of_roundedBits hs)

end Sys2Proof
end

section
/-! O38, the pattern of a value (R93): its sign and its magnitude, of a number and of a sample. -/

namespace Sys2Proof

theorem Num.rat?_neg_ofRat (q : ℚ) : (Num.ofRat q).neg.rat? = some (-q) := by
  by_cases h : q = 0
  · simp [Num.ofRat, Num.insertTerm, Num.neg, Num.scale, Num.rat?, h]
  · simp [Num.ofRat, Num.insertTerm, Num.neg, Num.scale, Num.rat?, h]

theorem Num.sign_ofRat_neg_iff (q : ℚ) : (Num.ofRat q).sign < 0 ↔ q < 0 := by
  rw [Num.sign_of_rat? (Num.rat?_ofRat q)]
  split
  · exact iff_of_false (by decide) (by linarith)
  · split
    · exact iff_of_true (by decide) ‹_›
    · exact iff_of_false (by decide) ‹_›

/-- The integer floor and exactness of a magnitude, as `f64From` is given them. -/
theorem isTwice_of_floor {a r : ℝ} (ha : 0 ≤ a) (hr : |r| = a) {f : ℤ × Bool}
    (h : f.1 = ⌊a * 2 ^ 1075⌋ ∧ (f.2 = true ↔ (f.1 : ℝ) = a * 2 ^ 1075)) : IsTwice |r| (f.1.toNat, f.2) := by
  obtain ⟨hfloor, hexact⟩ := h
  have hnonneg : 0 ≤ f.1 := by
    rw [hfloor]
    positivity
  have hcast : ((f.1.toNat : ℕ) : ℝ) = f.1 := by
    exact_mod_cast congrArg (Int.cast (R := ℝ)) (Int.toNat_of_nonneg hnonneg)
  rw [hr]
  exact ⟨by rw [← Int.floor_toNat, ← hfloor], by rw [hexact, hcast]⟩

theorem Num.floorAt_of_rat? {a : Num} {q : ℚ} (h : a.rat? = some q) (j : ℕ) : a.floorAt j = floorRat j q := by
  simp [Num.floorAt, h]

/-- The pattern of a rational, from its sign and its magnitude. -/
theorem Num.f64_ofRat (q : ℚ) : ∃ twice, IsTwice |(q : ℝ)| twice ∧
    (Num.ofRat q).f64 = f64From (decide (q < 0)) twice := by
  unfold Num.f64
  by_cases hq : q < 0
  · have hr : (q : ℝ) < 0 := by exact_mod_cast hq
    have hfloor := floorRat_spec 1075 (-q)
    rw [Rat.cast_neg, ← Num.floorAt_of_rat? (Num.rat?_neg_ofRat q)] at hfloor
    rw [if_pos ((Num.sign_ofRat_neg_iff q).2 hq), decide_eq_true hq]
    exact ⟨_, isTwice_of_floor (by linarith) (abs_of_neg hr) hfloor, rfl⟩
  · have hr : (0 : ℝ) ≤ q := by exact_mod_cast not_lt.1 hq
    have hfloor := floorRat_spec 1075 q
    rw [← Num.floorAt_of_rat? (Num.rat?_ofRat q)] at hfloor
    rw [if_neg (mt (Num.sign_ofRat_neg_iff q).1 hq), decide_eq_false hq]
    exact ⟨_, isTwice_of_floor hr (abs_of_nonneg hr) hfloor, rfl⟩

/-- The sample `n / √d`. -/
def rootSample (n d : ℚ) : Sample := ⟨Num.ofRat n, Num.ofRat d⟩

theorem rootSample_toReal (n d : ℚ) : (rootSample n d).toReal = n / √(d : ℝ) := by
  simp [rootSample, Sample.toReal]

theorem Sample.toReal_neg (v : Sample) : v.neg.toReal = -v.toReal := by
  simp [Sample.neg, Sample.toReal, neg_div]

theorem rootSample_neg_iff {d : ℚ} (hd : 0 < d) (n : ℚ) : (rootSample n d).toReal < 0 ↔ n < 0 := by
  have hroot : 0 < √(d : ℝ) := Real.sqrt_pos.2 (by exact_mod_cast hd)
  rw [rootSample_toReal, div_lt_iff₀ hroot, zero_mul]
  exact_mod_cast Iff.rfl

theorem rootSample_pos_iff {d : ℚ} (hd : 0 < d) (n : ℚ) : 0 < (rootSample n d).toReal ↔ 0 < n := by
  have hroot : 0 < √(d : ℝ) := Real.sqrt_pos.2 (by exact_mod_cast hd)
  rw [rootSample_toReal, lt_div_iff₀ hroot, zero_mul]
  exact_mod_cast Iff.rfl

/-- The pattern of a sample `n / √d`, from its sign and its magnitude. -/
theorem Sample.f64_rootSample (n : ℚ) {d : ℚ} (hd : 0 < d) : ∃ twice, IsTwice |(rootSample n d).toReal| twice ∧
    (rootSample n d).f64 = f64From (decide (n < 0)) twice := by
  have hsign : (rootSample n d).num.sign < 0 ↔ n < 0 := Num.sign_ofRat_neg_iff n
  unfold Sample.f64
  by_cases hn : n < 0
  · have hr := (rootSample_neg_iff hd n).2 hn
    have hfloor := Sample.floorAt_spec (v := (rootSample n d).neg) 1075 (Num.rat?_neg_ofRat n) (Num.rat?_ofRat d) hd
    rw [Sample.toReal_neg] at hfloor
    rw [if_pos (hsign.2 hn), decide_eq_true hn]
    exact ⟨_, isTwice_of_floor (by linarith) (abs_of_neg hr) hfloor, rfl⟩
  · have hr := not_lt.1 (mt (rootSample_neg_iff hd n).1 hn)
    have hfloor := Sample.floorAt_spec (v := rootSample n d) 1075 (Num.rat?_ofRat n) (Num.rat?_ofRat d) hd
    rw [if_neg (mt hsign.1 hn), decide_eq_false hn]
    exact ⟨_, isTwice_of_floor hr (abs_of_nonneg hr) hfloor, rfl⟩

/-- A rational has one encoding, as a number and as a sample. -/
theorem f64_ofNum_ofRat (q : ℚ) : (Sample.ofNum (Num.ofRat q)).f64 = (Num.ofRat q).f64 := by
  have hsample : Sample.ofNum (Num.ofRat q) = rootSample q 1 := rfl
  obtain ⟨t, ht, heq⟩ := Num.f64_ofRat q
  obtain ⟨t', ht', heq'⟩ := Sample.f64_rootSample q one_pos
  rw [← hsample, Sample.toReal_ofNum, Num.toReal_ofRat] at ht'
  rw [hsample, heq, heq', ht.unique ht']

/-! The bits of a computed pattern. -/

theorem magnitude_ofNat {k : ℕ} (hk : k < 2 ^ 63) (negative : Bool) :
    magnitude (BitVec.ofNat 64 (k + if negative then 2 ^ 63 else 0)) = k := by
  rw [magnitude, BitVec.toNat_ofNat]
  cases negative
  · simp only [Bool.false_eq_true, if_false]
    omega
  · simp only [if_true]
    omega

theorem getLsbD_sign (p : BitVec 64) : p.getLsbD 63 = decide (2 ^ 63 ≤ p.toNat) := by
  have hlt := p.isLt
  rw [BitVec.getLsbD, Nat.testBit_eq_decide_div_mod_eq, decide_eq_decide]
  omega

theorem getLsbD_zero_eq (p : BitVec 64) : p.getLsbD 0 = decide (magnitude p % 2 = 1) := by
  rw [BitVec.getLsbD, Nat.testBit_zero, magnitude, decide_eq_decide]
  omega

theorem signOf_eq (p : BitVec 64) : signOf p = if 2 ^ 63 ≤ p.toNat then -1 else 1 := by
  rw [signOf, getLsbD_sign]
  simp only [decide_eq_true_eq]

theorem signOf_ofNat {k : ℕ} (hk : k < 2 ^ 63) (negative : Bool) :
    signOf (BitVec.ofNat 64 (k + if negative then 2 ^ 63 else 0)) = if negative then -1 else 1 := by
  rw [signOf_eq, BitVec.toNat_ofNat]
  cases negative
  · exact if_neg (by simp only [Bool.false_eq_true, if_false]; omega)
  · exact if_pos (by simp only [if_true]; omega)

theorem signOf_cases (p : BitVec 64) : signOf p = 1 ∨ signOf p = -1 := by
  rw [signOf_eq]
  split
  · exact .inr rfl
  · exact .inl rfl

theorem signOf_eq_neg_one_iff (p : BitVec 64) : signOf p = -1 ↔ 2 ^ 63 ≤ p.toNat := by
  rw [signOf_eq]
  split
  · exact iff_of_true rfl ‹_›
  · exact iff_of_false (by norm_num) ‹_›

/-- A pattern is its sign and its magnitude. -/
theorem eq_of_signOf_magnitude {p p' : BitVec 64} (hsign : signOf p = signOf p') (hmag : magnitude p = magnitude p') :
    p = p' := by
  have hbit : 2 ^ 63 ≤ p.toNat ↔ 2 ^ 63 ≤ p'.toNat := by
    rw [← signOf_eq_neg_one_iff, hsign, signOf_eq_neg_one_iff]
  have := p.isLt
  have := p'.isLt
  unfold magnitude at hmag
  exact BitVec.eq_of_toNat_eq (by omega)

end Sys2Proof
end

section
/-! O38. What a pattern that rounds a real number is (R93). -/

namespace Sys2Proof

theorem unitsOf_zero : unitsOf 0 = 0 := rfl

/-- What it is for a pattern to have a number (R90). -/
theorem numOf_eq_some_iff {p : BitVec 64} {x : ℚ} : numOf p = some x ↔
    magnitude p < 0x7FF * 2 ^ 52 ∧ x = signOf p * unitsOf (magnitude p) / 2 ^ 1074 := by
  rw [numOf_eq]
  split
  · rw [Option.some_inj, eq_comm]
    exact (and_iff_right ‹_›).symm
  · exact iff_of_false (by simp) fun h => absurd h.1 ‹_›

theorem numOf_eq_none_iff {p : BitVec 64} : numOf p = none ↔ 0x7FF * 2 ^ 52 ≤ magnitude p := by
  rw [numOf_eq]
  split
  · exact iff_of_false (by simp) (Nat.not_le.2 ‹_›)
  · exact iff_of_true rfl (Nat.not_lt.1 ‹_›)

theorem numOf_zero : numOf 0 = some 0 :=
  numOf_eq_some_iff.2 ⟨by decide, by simp [magnitude, unitsOf]⟩

/-- The magnitude of the number of a pattern, in units of `2^-1074`. -/
theorem abs_of_numOf {p : BitVec 64} {x : ℚ} (h : numOf p = some x) : |(x : ℝ)| * 2 ^ 1074 = unitsOf (magnitude p) := by
  obtain ⟨-, rfl⟩ := numOf_eq_some_iff.1 h
  have hsign : |(signOf p : ℝ)| = 1 := by
    obtain h | h := signOf_cases p <;> simp [h]
  push_cast
  rw [abs_div, abs_mul, hsign, one_mul, Nat.abs_cast, abs_of_pos (by positivity), div_mul_cancel₀ _ (by positivity)]

/-- The number of a pattern has the sign of the pattern. -/
theorem signOf_of_numOf {p : BitVec 64} {x : ℚ} (h : numOf p = some x) (hx : x ≠ 0) :
    signOf p = if x < 0 then -1 else 1 := by
  obtain ⟨-, heq⟩ := numOf_eq_some_iff.1 h
  have hnonneg : (0 : ℚ) ≤ unitsOf (magnitude p) / 2 ^ 1074 := by positivity
  rw [mul_div_assoc] at heq
  generalize (unitsOf (magnitude p) : ℚ) / 2 ^ 1074 = u at hnonneg heq
  obtain hs | hs := signOf_cases p <;> rw [hs] at heq ⊢
  · rw [if_neg (by linarith)]
  · have hneg : x < 0 := lt_of_le_of_ne (by linarith) hx
    rw [if_pos hneg]

/-- `p` is the magnitude of `v` rounded, or the infinity beyond the largest, with the sign of `v`. -/
structure IsF64 (v : ℝ) (p : BitVec 64) (s m : ℕ) : Prop where
  rounds : RoundsTo (|v| * 2 ^ 1074) s m
  magnitude_eq : magnitude p = min (s * 2 ^ 52 + m) (0x7FF * 2 ^ 52)
  sign : signOf p = if v < 0 then -1 else 1

theorem isF64_f64From {v : ℝ} {twice : ℕ × Bool} (h : IsTwice |v| twice) {negative : Bool}
    (hneg : negative = true ↔ v < 0) : ∃ s m, IsF64 v (f64From negative twice) s m := by
  obtain ⟨s, m, hmag, hrounds⟩ := h.roundsTo (abs_nonneg v)
  have hlt : min (roundedMagnitude twice) (0x7FF * 2 ^ 52) < 2 ^ 63 := (min_le_right _ _).trans_lt (by decide)
  refine ⟨s, m, hrounds, ?_, ?_⟩
  · rw [f64From_eq, magnitude_ofNat hlt, hmag]
  · rw [f64From_eq, signOf_ofNat hlt]
    simp only [hneg]

section
variable {v : ℝ} {p : BitVec 64} {s m : ℕ}

/-- It is no number exactly from half way between the largest number and `2^1024` on. -/
theorem IsF64.numOf_eq_none_iff (h : IsF64 v p s m) : numOf p = none ↔ ((2 : ℝ) ^ 54 - 1) * 2 ^ 970 ≤ |v| := by
  have hcarry := h.rounds.carry_iff 2044
  have hpow : (2 : ℝ) ^ 2044 = 2 ^ 970 * 2 ^ 1074 := pow_add 2 970 1074
  rw [hpow, ← mul_assoc, mul_le_mul_iff_left₀ (by positivity)] at hcarry
  rw [← hcarry, Sys2Proof.numOf_eq_none_iff, h.magnitude_eq, le_min_iff]
  exact and_iff_left le_rfl

theorem IsF64.magnitude_of_finite (h : IsF64 v p s m) {x : ℚ} (hx : numOf p = some x) :
    magnitude p = s * 2 ^ 52 + m := by
  have := (numOf_eq_some_iff.1 hx).1
  have := h.magnitude_eq
  omega

/-- A real number that rounds to no other magnitude has it already. -/
theorem IsF64.magnitude_of_exact (h : IsF64 v p s m) {k : ℕ} (hk : |v| * 2 ^ 1074 = unitsOf k) :
    s * 2 ^ 52 + m = k := by
  have hle := (h.rounds.nearest k).1
  rw [hk, sub_self, abs_zero, abs_nonpos_iff, sub_eq_zero] at hle
  exact unitsOf_strictMono.injective (by exact_mod_cast hle.symm)

/-- The pattern of 0 is `+0`. -/
theorem IsF64.eq_zero (h : IsF64 v p s m) (hv : v = 0) : p = 0 := by
  subst hv
  have hzero := h.magnitude_of_exact (k := 0) (by simp [unitsOf_zero])
  refine eq_of_signOf_magnitude ?_ ?_
  · rw [h.sign, if_neg (lt_irrefl _)]
    decide
  · rw [h.magnitude_eq, hzero]
    decide

/-- Beyond the largest number it is the infinity of the sign of `v`. -/
theorem IsF64.eq_infinity (h : IsF64 v p s m) (hnone : numOf p = none) :
    p = if 0 < v then 0x7FF0000000000000 else 0xFFF0000000000000 := by
  have hmag : magnitude p = 0x7FF * 2 ^ 52 :=
    le_antisymm (h.magnitude_eq ▸ min_le_right _ _) (Sys2Proof.numOf_eq_none_iff.1 hnone)
  have hbig : 0 < |v| := lt_of_lt_of_le (mul_pos (by norm_num) (by positivity)) (h.numOf_eq_none_iff.1 hnone)
  have hsign := h.sign
  obtain hv | hv := lt_or_gt_of_ne (abs_pos.1 hbig)
  · rw [if_neg hv.not_gt]
    rw [if_pos hv] at hsign
    exact eq_of_signOf_magnitude (hsign.trans (by decide)) (hmag.trans (by decide))
  · rw [if_pos hv]
    rw [if_neg hv.not_gt] at hsign
    exact eq_of_signOf_magnitude (hsign.trans (by decide)) (hmag.trans (by decide))

/-- The number of a pattern rounds to that pattern (R90, R93). -/
theorem IsF64.eq_of_numOf (h : IsF64 v p s m) {p' : BitVec 64} {x : ℚ} (hx : numOf p' = some x) (hne : x ≠ 0)
    (hv : v = x) : p = p' := by
  subst hv
  have hfinite := (numOf_eq_some_iff.1 hx).1
  have hmag := h.magnitude_of_exact (abs_of_numOf hx)
  refine eq_of_signOf_magnitude ?_ ?_
  · rw [h.sign, signOf_of_numOf hx hne]
    simp only [Rat.cast_lt_zero]
  · rw [h.magnitude_eq, hmag]
    omega

/-- The number of the pattern has the sign of `v`, so that their distance is that of their magnitudes. -/
theorem IsF64.abs_sub_eq (h : IsF64 v p s m) {x : ℚ} (hx : numOf p = some x) : |v - x| = |(|v| - |(x : ℝ)|)| := by
  have hnonneg : (0 : ℚ) ≤ unitsOf (magnitude p) / 2 ^ 1074 := by positivity
  have heq := (numOf_eq_some_iff.1 hx).2
  rw [mul_div_assoc, h.sign] at heq
  generalize (unitsOf (magnitude p) : ℚ) / 2 ^ 1074 = u at hnonneg heq
  by_cases hv : v < 0
  · have hle : (x : ℝ) ≤ 0 := by
      rw [if_pos hv] at heq
      exact_mod_cast show x ≤ 0 by linarith
    rw [abs_of_neg hv, abs_of_nonpos hle, ← abs_neg]
    congr 1
    ring
  · have hge : (0 : ℝ) ≤ x := by
      rw [if_neg hv] at heq
      exact_mod_cast show 0 ≤ x by linarith
    rw [abs_of_nonneg (not_lt.1 hv), abs_of_nonneg hge]

/-- A number of the same magnitude that is as near is the same number. -/
theorem IsF64.eq_of_abs_eq (h : IsF64 v p s m) {x x' : ℚ} (hx : numOf p = some x) (habs : |x| = |x'|)
    (heq : |v - x| = |v - x'|) : x = x' := by
  obtain hsame | hopp := abs_eq_abs.1 habs
  · exact hsame
  have hx' : (x : ℝ) = -x' := by exact_mod_cast hopp
  have hprod : v * x' = 0 := by
    have hsq := (sq_eq_sq_iff_abs_eq_abs _ _).2 heq
    rw [hx'] at hsq
    linarith
  obtain rfl | hzero := mul_eq_zero.1 hprod
  · have hp := h.eq_zero rfl
    subst hp
    have hx0 : x = 0 := Option.some.inj (hx.symm.trans numOf_zero)
    linarith
  · have : x' = 0 := by exact_mod_cast hzero
    linarith

/-- No number of another pattern is nearer, and at a tie the significand is even. -/
theorem IsF64.nearest (h : IsF64 v p s m) {x x' : ℚ} {p' : BitVec 64} (hx : numOf p = some x)
    (hx' : numOf p' = some x') :
    |v - x| ≤ |v - x'| ∧ (|v - x| = |v - x'| → x ≠ x' → p.getLsbD 0 = false) := by
  have hpos : (0 : ℝ) < 2 ^ 1074 := by positivity
  have hscale {q : BitVec 64} {z : ℚ} (hz : numOf q = some z) :
      |(|v| * 2 ^ 1074 - unitsOf (magnitude q))| = |(|v| - |(z : ℝ)|)| * 2 ^ 1074 := by
    rw [← abs_of_numOf hz, ← sub_mul, abs_mul, abs_of_pos hpos]
  obtain ⟨hle, htie⟩ := h.rounds.nearest (magnitude p')
  rw [← h.magnitude_of_finite hx, hscale hx, hscale hx', ← h.abs_sub_eq hx] at hle htie
  have hle := le_of_mul_le_mul_right hle hpos
  have htri : |(|v| - |(x' : ℝ)|)| ≤ |v - x'| := abs_abs_sub_abs_le v x'
  refine ⟨hle.trans htri, fun heq hne => ?_⟩
  have hsame : |v - x| = |(|v| - |(x' : ℝ)|)| := le_antisymm hle (heq ▸ htri)
  have hmag : unitsOf (magnitude p) ≠ unitsOf (magnitude p') := fun hunits => by
    have habs : |(x : ℝ)| = |(x' : ℝ)| := by
      rw [← Nat.cast_inj (R := ℝ), ← abs_of_numOf hx, ← abs_of_numOf hx'] at hunits
      exact mul_right_cancel₀ hpos.ne' hunits
    exact hne (h.eq_of_abs_eq hx (by exact_mod_cast habs) heq)
  have heven := htie (congrArg (· * 2 ^ 1074) hsame) hmag
  rw [getLsbD_zero_eq, decide_eq_false_iff_not]
  omega

end

/-- Settles O38, by `IsF64` of the pattern of every sample `n / √d`. -/
theorem windowEncodingInvertsNumOf : Obligations.WindowEncodingInvertsNumOf := by
  have hroot (n : ℚ) {d : ℚ} (hd : 0 < d) : ∃ s m, IsF64 (rootSample n d).toReal (rootSample n d).f64 s m := by
    obtain ⟨twice, htwice, heq⟩ := Sample.f64_rootSample n hd
    rw [heq]
    exact isF64_f64From htwice (decide_eq_true_iff.trans (rootSample_neg_iff hd n).symm)
  have hrat (p : BitVec 64) (v : ℚ) (hp : numOf p = some v) :
      (Sample.ofNum (Num.ofRat v)).f64 = if v = 0 then 0 else p := by
    obtain ⟨s, m, h⟩ := hroot v one_pos
    have hv : (rootSample v 1).toReal = v := (Sample.toReal_ofNum _).trans (Num.toReal_ofRat v)
    rw [hv] at h
    split
    · exact h.eq_zero (by exact_mod_cast ‹v = 0›)
    · exact h.eq_of_numOf hp ‹_› rfl
  refine ⟨fun p v hp => ⟨(f64_ofNum_ofRat v).symm.trans (hrat p v hp), hrat p v hp⟩,
    fun v => (f64_ofNum_ofRat v).symm, fun n d hd => ?_⟩
  obtain ⟨s, m, h⟩ := hroot n hd
  refine ⟨fun x hx p' x' hx' => h.nearest hx hx', h.numOf_eq_none_iff, fun hnone => ?_, fun hn => h.eq_zero ?_⟩
  · exact (h.eq_infinity hnone).trans (if_congr (rootSample_pos_iff hd n) rfl rfl)
  · rw [rootSample_toReal, hn, Rat.cast_zero, zero_div]

end Sys2Proof
end

section
/-! O42, O43. The rows of the opcode table: which one the decoder takes, and the words of its format (R111, R114). -/

namespace Sys2Proof

theorem Laws.encodesToItsRow (i : Instr) : EncodesToItsRow.Statement i := by
  cases i with
  | nop => exact EncodesToItsRow.nop
  | clrerr => exact EncodesToItsRow.clrerr
  | sreset => exact EncodesToItsRow.sreset
  | prbs => exact EncodesToItsRow.prbs
  | brep => exact EncodesToItsRow.brep
  | cmclr => exact EncodesToItsRow.cmclr
  | cmdef => exact EncodesToItsRow.cmdef
  | map => exact EncodesToItsRow.map
  | cext => exact EncodesToItsRow.cext
  | zstuff => exact EncodesToItsRow.zstuff
  | fgen => exact EncodesToItsRow.fgen
  | conv => exact EncodesToItsRow.conv
  | trim => exact EncodesToItsRow.trim
  | norm => exact EncodesToItsRow.norm
  | digmod d => exact EncodesToItsRow.digmod d
  | pmode mode => exact EncodesToItsRow.pmode mode
  | ilv => exact EncodesToItsRow.ilv
  | vq src order => exact EncodesToItsRow.vq src order
  | pdwenc => exact EncodesToItsRow.pdwenc
  | pdwclr => exact EncodesToItsRow.pdwclr
  | pdwasm => exact EncodesToItsRow.pdwasm

/-- Settles O42, constructor by constructor. -/
theorem decodeInvertsEncode : Obligations.DecodeInvertsEncode := fun i h => (Laws.encodesToItsRow i h).2

/-- The rows of R114 in format Z: the opcode and the command. -/
def plainRows : List (Nat × Instr) :=
  [(0x00, .nop), (0x01, .clrerr), (0x02, .sreset), (0x10, .prbs), (0x11, .brep), (0x18, .cmclr), (0x19, .cmdef),
    (0x1A, .map), (0x20, .cext), (0x21, .zstuff), (0x22, .fgen), (0x23, .conv), (0x28, .trim), (0x29, .norm),
    (0x31, .ilv), (0x40, .pdwenc), (0x41, .pdwclr), (0x42, .pdwasm)]

/-- The opcodes of the rows in format Z. -/
def plainOpcodes : List Nat := plainRows.map Prod.fst

theorem plainRows_wellFormed : ∀ p ∈ plainRows, WellFormed p.2 = true := by decide

theorem plainRows_encode : ∀ p ∈ plainRows, encode p.2 = BitVec.ofNat 8 p.1 ++ 0#24 := by decide

/-- The row that the opcode byte selects, or none (R119). -/
theorem decode_cases (w : Word) :
    (∃ i, ((opcodeOf w).toNat, i) ∈ plainRows ∧ decode w = formatZ i w) ∨
    ((opcodeOf w).toNat = 0x2F ∧ decode w = formatD w) ∨
    ((opcodeOf w).toNat = 0x30 ∧ decode w = formatM w) ∨
    ((opcodeOf w).toNat = 0x32 ∧ decode w = formatV w) ∨
    ((opcodeOf w).toNat ∉ plainOpcodes ∧ (opcodeOf w).toNat ≠ 0x2F ∧ (opcodeOf w).toNat ≠ 0x30 ∧
      (opcodeOf w).toNat ≠ 0x32 ∧ decode w = .error .opcode) := by
  unfold decode
  split
  case h_15 hop => exact .inr (.inl ⟨hop, rfl⟩)
  case h_16 hop => exact .inr (.inr (.inl ⟨hop, rfl⟩))
  case h_18 hop => exact .inr (.inr (.inr (.inl ⟨hop, rfl⟩)))
  case h_22 => exact .inr (.inr (.inr (.inr (by simp_all [plainOpcodes, plainRows]))))
  all_goals exact .inl ⟨_, by simp [plainRows, *], rfl⟩

theorem formatZ_eq_ok {i j : Instr} {w : Word} : formatZ i w = .ok j ↔ w.extractLsb' 0 24 = 0#24 ∧ i = j := by
  unfold formatZ
  split <;> simp [*]

theorem formatD_eq_ok {i : Instr} {w : Word} :
    formatD w = .ok i ↔ w.extractLsb' 1 23 = 0#23 ∧ .digmod (w.getLsbD 0) = i := by
  unfold formatD
  split <;> simp [*]

theorem formatM_eq_ok {i : Instr} {w : Word} :
    formatM w = .ok i ↔ w.extractLsb' 16 8 = 0#8 ∧ .pmode (w.extractLsb' 0 16) = i := by
  unfold formatM
  split <;> simp [*]

theorem formatV_eq_ok {i : Instr} {w : Word} :
    formatV w = .ok i ↔ w.extractLsb' 4 20 = 0#20 ∧ (w.extractLsb' 0 2 ≠ 3#2 ∧ w.extractLsb' 2 2 ≠ 3#2) ∧
      .vq (w.extractLsb' 0 2) (w.extractLsb' 2 2) = i := by
  have hlegal : (srcLegal (w.extractLsb' 0 2) && orderLegal (w.extractLsb' 2 2)) = true ↔
      w.extractLsb' 0 2 ≠ 3#2 ∧ w.extractLsb' 2 2 ≠ 3#2 := by simp [srcLegal, orderLegal]
  unfold formatV
  simp only [hlegal]
  split
  · split <;> simp [*]
  · simp [*]

/-- The opcode byte and the field of `n` bits below it, as one field. -/
theorem opcodeOf_append (w : Word) {start n : Nat} (h : 24 = start + n) :
    opcodeOf w ++ w.extractLsb' start n = w.extractLsb' start (8 + n) :=
  BitVec.extractLsb'_append_extractLsb'_eq_extractLsb' h

/-- A word cut at bit `n`. -/
theorem append_eq_of_fields {w : Word} {m n : Nat} (hn : m + n = 32) {high : BitVec m} {low : BitVec n}
    (hhigh : w.extractLsb' n m = high) (hlow : w.extractLsb' 0 n = low) : (high ++ low).cast hn = w := by
  subst hhigh hlow
  rw [BitVec.extractLsb'_append_extractLsb'_eq_extractLsb' (Nat.zero_add n).symm]
  exact BitVec.eq_of_toNat_eq (by simp [hn, Nat.mod_eq_of_lt w.isLt])

theorem encode_of_formatZ {w : Word} {i : Instr} (hrow : ((opcodeOf w).toNat, i) ∈ plainRows)
    (hzero : w.extractLsb' 0 24 = 0#24) : encode i = w := by
  rw [plainRows_encode _ hrow, BitVec.ofNat_toNat, BitVec.setWidth_eq]
  exact append_eq_of_fields rfl rfl hzero

theorem encode_of_formatD {w : Word} (hop : opcodeOf w = 0x2F#8) (hzero : w.extractLsb' 1 23 = 0#23) :
    encode (.digmod (w.getLsbD 0)) = w := by
  refine append_eq_of_fields (m := 31) (n := 1) rfl ?_ ?_
  · exact (opcodeOf_append w rfl).symm.trans (by rw [hop, hzero])
  · ext i hi
    simp [Nat.lt_one_iff.1 hi]

theorem encode_of_formatM {w : Word} (hop : opcodeOf w = 0x30#8) (hzero : w.extractLsb' 16 8 = 0#8) :
    encode (.pmode (w.extractLsb' 0 16)) = w :=
  append_eq_of_fields rfl ((opcodeOf_append w rfl).symm.trans (by rw [hop, hzero])) rfl

theorem encode_of_formatV {w : Word} (hop : opcodeOf w = 0x32#8) (hzero : w.extractLsb' 4 20 = 0#20) :
    encode (.vq (w.extractLsb' 0 2) (w.extractLsb' 2 2)) = w := by
  refine append_eq_of_fields (m := 28) (n := 4) rfl ?_ ?_
  · exact (opcodeOf_append w rfl).symm.trans (by rw [hop, hzero])
  · exact (BitVec.extractLsb'_append_extractLsb'_eq_extractLsb' (start₁ := 0) (len₁ := 2) (len₂ := 2) rfl).symm

/-- A word that decodes is the word of its command, which is well-formed: the fields of its row, put together again. -/
theorem wellFormed_encode_of_decode {w : Word} {i : Instr} (h : decode w = .ok i) :
    WellFormed i = true ∧ encode i = w := by
  obtain ⟨j, hrow, hdec⟩ | ⟨hop, hdec⟩ | ⟨hop, hdec⟩ | ⟨hop, hdec⟩ | ⟨-, -, -, -, hdec⟩ := decode_cases w <;>
    rw [hdec] at h
  · obtain ⟨hzero, rfl⟩ := formatZ_eq_ok.1 h
    exact ⟨plainRows_wellFormed _ hrow, encode_of_formatZ hrow hzero⟩
  · obtain ⟨hzero, rfl⟩ := formatD_eq_ok.1 h
    exact ⟨rfl, encode_of_formatD (BitVec.eq_of_toNat_eq hop) hzero⟩
  · obtain ⟨hzero, rfl⟩ := formatM_eq_ok.1 h
    exact ⟨rfl, encode_of_formatM (BitVec.eq_of_toNat_eq hop) hzero⟩
  · obtain ⟨hzero, ⟨hsrc, horder⟩, rfl⟩ := formatV_eq_ok.1 h
    exact ⟨by simp [WellFormed, srcLegal, orderLegal, hsrc, horder],
      encode_of_formatV (BitVec.eq_of_toNat_eq hop) hzero⟩
  · cases h

/-- Settles O43: the bits of the row's mask are those of the command's own word. -/
theorem encodeInvertsDecode : Obligations.EncodeInvertsDecode := by
  intro w i h
  obtain ⟨hwf, rfl⟩ := wellFormed_encode_of_decode h
  exact ⟨hwf, rfl, (Laws.encodesToItsRow i hwf).1⟩

/-- Settles O41, by evaluating the decoder. -/
theorem someWordsDecode : Obligations.SomeWordsDecode := by
  unfold Obligations.SomeWordsDecode
  decide

end Sys2Proof
end

section
/-! O44. The words that select no row (R116), and what one of them does in IDLE (R112, R379). -/

namespace Sys2Proof

/-- The three kinds of illegal word of R116. -/
def IllegalWord (w : Word) : Prop :=
  let op := (opcodeOf w).toNat
  (op ∉ plainOpcodes ∧ op ≠ 0x2F ∧ op ≠ 0x30 ∧ op ≠ 0x32) ∨
  (op ∈ plainOpcodes ∧ w.extractLsb' 0 24 ≠ 0) ∨ (op = 0x2F ∧ w.extractLsb' 1 23 ≠ 0) ∨
  (op = 0x30 ∧ w.extractLsb' 16 8 ≠ 0) ∨
  (op = 0x32 ∧ (w.extractLsb' 4 20 ≠ 0 ∨ w.extractLsb' 0 2 = 3 ∨ w.extractLsb' 2 2 = 3))

theorem illegalWord_iff (w : Word) : IllegalWord w ↔ ¬ ∃ i, decode w = .ok i := by
  have hD : 0x2F ∉ plainOpcodes := by decide
  have hM : 0x30 ∉ plainOpcodes := by decide
  have hV : 0x32 ∉ plainOpcodes := by decide
  unfold IllegalWord
  obtain ⟨j, hrow, hdec⟩ | ⟨hop, hdec⟩ | ⟨hop, hdec⟩ | ⟨hop, hdec⟩ | ⟨hplain, hne⟩ := decode_cases w
  · have hplain : (opcodeOf w).toNat ∈ plainOpcodes := List.mem_map_of_mem hrow
    simp [hdec, formatZ_eq_ok, hplain, ne_of_mem_of_not_mem hplain hD, ne_of_mem_of_not_mem hplain hM,
      ne_of_mem_of_not_mem hplain hV]
  · simp [hdec, formatD_eq_ok, hop, hD]
  · simp [hdec, formatM_eq_ok, hop, hM]
  · simp [hdec, formatV_eq_ok, hop, hV, or_iff_not_imp_left]
  · simp [hplain, hne]

namespace Machine

theorem accepts_of_idle {s : State} (h : s.phase = .idle) (w : Word) : accepts s w = true := by simp [accepts, h]

/-- A word that decodes to no command, written to CMD in IDLE with acceptance and completion in one. -/
theorem step_illegal {s : State} (hs : s.phase = .idle) {w : Word} {e : Illegal} (h : decode w = .error e)
    (rest : List HostEvent) :
    step { s with bus := .write cmdAddr w :: rest, latency := 0 :: s.latency } =
      .next (takeFault (illegalFault w) { s with bus := rest }) := by
  have hissue : issueFused w { s with bus := rest, latency := 0 :: s.latency } =
      .next (takeFault (illegalFault w) { s with bus := rest, latency := 0 :: s.latency }) := by
    rw [issueFused_error h]
    exact runInIdle_of_idle hs
  exact step_accepted (.inl hs) (accepts_of_idle hs w) hissue

end Machine

/-- Settles O44, by the row that the opcode byte selects. -/
theorem illegalWordsRaiseIllcmd : Obligations.IllegalWordsRaiseIllcmd := by
  refine fun w => ⟨illegalWord_iff w, fun h s hs rest => ?_⟩
  cases hdec : decode w with
  | ok i => exact absurd ⟨i, hdec⟩ ((illegalWord_iff w).1 h)
  | error e => exact Machine.step_illegal hs hdec rest

end Sys2Proof
end

section
/-! O45, O46. A word written to CMD: accepted, and run to its end or held in BUSY, or dropped (R97, R112, R113). -/

namespace Sys2Proof.Machine

theorem exec_next (i : Instr) (s : State) : ∃ t, exec i s = .next t := by
  obtain ⟨t, ht, -⟩ := everyCommandAdvancesCix i s
  exact ⟨t, ht⟩

theorem accepts_of_fault {s : State} (h : s.phase = .fault) (w : Word) :
    accepts s w = true ↔ w = encode .clrerr ∨ w = encode .sreset := by simp [accepts, h]

/-- In FAULT the words of CLRERR and SRESET are accepted, in IDLE every word (R112, R113). -/
theorem accepts_of_decode {s : State} {w : Word} {i : Instr} (h : decode w = .ok i)
    (hs : s.phase = .idle ∨ s.phase = .fault ∧ (i = .clrerr ∨ i = .sreset)) : accepts s w = true := by
  obtain hp | ⟨hp, hi⟩ := hs
  · exact accepts_of_idle hp w
  · obtain ⟨-, rfl⟩ := wellFormed_encode_of_decode h
    exact (accepts_of_fault hp _).2 (hi.imp (congrArg encode) (congrArg encode))

theorem tableWord_toNat (w : Word) : tableWord 32 w.toNat = w := by
  rw [tableWord, Nat.mod_eq_of_lt w.isLt, BitVec.ofNat_toNat, BitVec.setWidth_eq]

theorem settle_of_idle {s : State} (h : s.phase = .idle) : settle s = s := by simp [settle, h]

/-- Where `withFetchWord` places the word of a command in IDLE (log 3). -/
theorem withFetchWord_of_idle {s : State} (h : s.phase = .idle) (w : Word) :
    s.withFetchWord 32 w.toNat = { s with bus := .write cmdAddr w :: s.bus, latency := 0 :: s.latency } := by
  rw [State.withFetchWord, placeCommand, tableWord_toNat, settle_of_idle h]

/-- A state with its bus written out, the form in which the lemmas on steps speak of it. -/
theorem eq_withBus {s : State} {bus : List HostEvent} (h : s.bus = bus) : s = { s with bus := bus } := by rw [← h]

theorem holdBusy_zero {before : State} {lengths : List Nat} (h : before.latency = 0 :: lengths) (after : State) :
    holdBusy before after = { after with latency := lengths } := by simp [holdBusy, h]

theorem holdBusy_succ {before : State} {n : Nat} {lengths : List Nat} (h : before.latency = (n + 1) :: lengths)
    (after : State) : holdBusy before after = { accepted n before after with latency := lengths } := by
  simp [holdBusy, h]

/-- Settles O45, by the step that an accepted word takes. -/
theorem stepRunsTheDecodedCommand : Obligations.StepRunsTheDecodedCommand := by
  refine ⟨fun s w i rest n lengths hdec hs hbus hlat => ?_, fun s i hs hwf => ?_⟩
  · have hr : Ready s := hs.imp_right And.left
    obtain ⟨t, ht⟩ := exec_next i { s with bus := rest }
    have hstep : step s = .next (holdBusy { s with bus := rest } t) := by
      rw [eq_withBus hbus]
      exact step_accepted hr (accepts_of_decode hdec hs) (by rw [issueFused_ok hdec]; exact ht)
    refine ⟨t, ht, ?_, ?_⟩
    · rintro rfl
      exact hstep.trans (congrArg _ (holdBusy_zero (before := { s with bus := rest }) hlat t))
    · rintro k rfl
      exact hstep.trans (congrArg _ (holdBusy_succ (before := { s with bus := rest }) hlat t))
  · obtain ⟨t, ht⟩ := exec_next i { s with latency := 0 :: s.latency }
    refine ⟨t, ht, ?_⟩
    have hdec : decode (encode i) = .ok i := decodeInvertsEncode i hwf
    rw [withFetchWord_of_idle hs]
    exact step_accepted (.inl hs) (accepts_of_idle hs _) (by rw [issueFused_ok hdec]; exact ht)

/-- In FAULT a word other than those of CLRERR and SRESET has no effect (R113). -/
theorem issueFused_of_fault {s : State} (hs : s.phase = .fault) {w : Word} (hc : w ≠ encode .clrerr)
    (hr : w ≠ encode .sreset) : issueFused w s = .next s := by
  have hdrop (body : State → Result) : runInIdle body s = .next s := by simp [runInIdle, hs]
  cases hdec : decode w with
  | error e =>
    rw [issueFused_error hdec]
    exact hdrop _
  | ok i =>
    obtain ⟨-, rfl⟩ := wellFormed_encode_of_decode hdec
    obtain ⟨body, hbody, -⟩ := exec_eq_runInIdle i (fun h => hc (congrArg encode h)) (fun h => hr (congrArg encode h))
    rw [issueFused_ok hdec, hbody]
    exact hdrop body

/-- The step that writes a word to CMD that the state does not accept. -/
theorem step_dropped {s : State} (hr : Ready s) {w : Word} (hacc : ¬ accepts s w = true) {rest : List HostEvent}
    (h : issueFused w { s with bus := rest } = .next { s with bus := rest }) :
    step { s with bus := .write cmdAddr w :: rest } = .next { s with bus := rest } := by
  have hissue : step { s with bus := .write cmdAddr w :: rest } = issue w { s with bus := rest } :=
    step_ready (s := { s with bus := .write cmdAddr w :: rest }) hr
  have hacc' : ¬ accepts { s with bus := rest } w = true := hacc
  rw [hissue, issue, h]
  exact congrArg Host.Outcome.next (if_neg hacc')

/-- Settles O46, in FAULT by what is accepted there, in BUSY by what the host may write there. -/
theorem droppedCommandsChangeNothing : Obligations.DroppedCommandsChangeNothing := by
  refine ⟨fun s w rest hs hc hr hbus => ?_, fun s w rest c n hs hleft hbus => ?_⟩
  · have hacc : ¬ accepts s w = true := fun h => ((accepts_of_fault hs w).1 h).elim hc hr
    rw [eq_withBus hbus]
    exact step_dropped (.inr hs) hacc (issueFused_of_fault (s := { s with bus := rest }) hs hc hr)
  · rw [eq_withBus hbus, step_busy_event hs hleft]
    exact busWriteBusy_cmd (a := cmdAddr) (by decide) _ w

end Sys2Proof.Machine
end

section
/-! O4. The shift register as a bit sequence: what each of its entries is, and the recurrence (R140, R143). -/

namespace Sys2Proof.Machine

/-- Output bit `k` of the register that starts with content `reg`: entry 0 after `k` steps (R140). -/
def lfsrBit (taps : List Nat) (reg : List Bool) (k : Nat) : Bool := ((lfsrStep taps)^[k] reg).getD 0 false

section
variable {taps : List Nat} {reg : List Bool}

theorem lfsrStep_length (h : 0 < reg.length) : (lfsrStep taps reg).length = reg.length := by
  simp [lfsrStep, Nat.sub_add_cancel h]

theorem iterate_lfsrStep_length (h : 0 < reg.length) (k : Nat) : ((lfsrStep taps)^[k] reg).length = reg.length := by
  induction k with
  | zero => rfl
  | succ k ih => rw [Function.iterate_succ_apply', lfsrStep_length (ih.symm ▸ h), ih]

theorem lfsrStep_getD_of_lt {j : Nat} (h : j + 1 < reg.length) :
    (lfsrStep taps reg).getD j false = reg.getD (j + 1) false := by
  have hj : j < reg.tail.length := by simp; omega
  simp [lfsrStep, List.getElem?_append_left hj]

theorem lfsrStep_getD_last {j : Nat} (h : j + 1 = reg.length) :
    (lfsrStep taps reg).getD j false = lfsrFeedback taps reg := by
  have hj : reg.tail.length = j := by simp; omega
  simp [lfsrStep, ← hj]

/-- The register is a window of its output: entry `j` comes out `j` steps later. -/
theorem iterate_lfsrStep_getD {j : Nat} (h : j < reg.length) (k : Nat) :
    ((lfsrStep taps)^[k] reg).getD j false = lfsrBit taps reg (k + j) := by
  induction j generalizing k with
  | zero => rfl
  | succ j ih =>
    have hlen := iterate_lfsrStep_length (taps := taps) (by omega : 0 < reg.length) k
    calc ((lfsrStep taps)^[k] reg).getD (j + 1) false
      _ = ((lfsrStep taps)^[k + 1] reg).getD j false := by
        rw [Function.iterate_succ_apply', lfsrStep_getD_of_lt (hlen.symm ▸ h)]
      _ = lfsrBit taps reg (k + (j + 1)) := by rw [ih (by omega), Nat.add_right_comm, Nat.add_assoc]

theorem lfsrBit_of_lt {j : Nat} (h : j < reg.length) : lfsrBit taps reg j = reg.getD j false := by
  simpa using (iterate_lfsrStep_getD h 0).symm

/-- The recurrence of R140: the bit that enters is the sum over GF(2) of the entries that the taps name. -/
theorem lfsrBit_recurrence (h0 : 0 < reg.length) (ht : ∀ t ∈ taps, t < reg.length) (k : Nat) :
    lfsrBit taps reg (k + reg.length) =
      taps.foldl (fun x t => x ^^ lfsrBit taps reg (k + t)) (lfsrBit taps reg k) := by
  have hlen := iterate_lfsrStep_length (taps := taps) h0 k
  calc lfsrBit taps reg (k + reg.length)
    _ = ((lfsrStep taps)^[k + 1] reg).getD (reg.length - 1) false := by
      rw [iterate_lfsrStep_getD (by omega)]
      congr 1
      omega
    _ = lfsrFeedback taps ((lfsrStep taps)^[k] reg) := by
      rw [Function.iterate_succ_apply', lfsrStep_getD_last (by omega)]
    _ = taps.foldl (fun x t => x ^^ lfsrBit taps reg (k + t)) (lfsrBit taps reg k) :=
      List.foldl_ext _ _ _ fun x t hmem => by rw [iterate_lfsrStep_getD (ht t hmem)]

/-- The register repeats exactly where its output shows the first content again. -/
theorem iterate_lfsrStep_eq_self_iff (h0 : 0 < reg.length) (k : Nat) :
    (lfsrStep taps)^[k] reg = reg ↔ ∀ j < reg.length, lfsrBit taps reg (k + j) = reg.getD j false := by
  have hlen := iterate_lfsrStep_length (taps := taps) h0 k
  constructor
  · intro h j hj
    rw [← iterate_lfsrStep_getD hj, h]
  · refine fun h => List.ext_getElem hlen fun j hj hj' => ?_
    have hbit := h j hj'
    rw [← iterate_lfsrStep_getD hj'] at hbit
    simpa [hj, hj'] using hbit

end

theorem lfsrRun_getElem? (taps : List Nat) {count k : Nat} (h : k < count) (reg : List Bool) :
    (lfsrRun taps count reg)[k]? = some (lfsrBit taps reg k) := by
  induction count generalizing k reg with
  | zero => omega
  | succ count ih =>
    cases k with
    | zero => rfl
    | succ k => exact ih (by omega) (lfsrStep taps reg)

/-- POLYROM names entries of the register only (R141). -/
theorem lt_of_mem_tapSet {n t : Nat} (hn : n ≤ 32) (h : t ∈ tapSet n) : t < n :=
  (by decide : ∀ n ≤ 32, ∀ t ∈ tapSet n, t < n) n hn t h

/-- Bit `k` of the PRBS of order `n`, without its end after one period (R140). -/
def prbsBit (n k : Nat) : Bool := lfsrBit (tapSet n) (List.replicate n true) k

theorem prbsBit_of_lt {n k : Nat} (h : k < n) : prbsBit n k = true := by
  rw [prbsBit, lfsrBit_of_lt (by simpa using h)]
  simp [h]

theorem prbsBit_recurrence {n : Nat} (h0 : 0 < n) (hn : n ≤ 32) (k : Nat) :
    prbsBit n (k + n) = (tapSet n).foldl (fun x t => x ^^ prbsBit n (k + t)) (prbsBit n k) := by
  have h := lfsrBit_recurrence (taps := tapSet n) (reg := List.replicate n true) (by simpa using h0)
    (fun t ht => by simpa using lt_of_mem_tapSet hn ht) k
  rwa [List.length_replicate] at h

theorem prbsPeriod_getElem? {n k : Nat} (h : k < 2 ^ n - 1) : (prbsPeriod n)[k]? = some (prbsBit n k) :=
  lfsrRun_getElem? _ h _

theorem prbsPeriod_getD {n k : Nat} (h : k < 2 ^ n - 1) : (prbsPeriod n).getD k false = prbsBit n k := by
  rw [List.getD_eq_getElem?_getD, prbsPeriod_getElem? h, Option.getD_some]

/-- What PRBS does in IDLE (R143). -/
theorem exec_prbs_of_idle {s : State} (h : s.phase = .idle) : exec .prbs s = .next (finish (prbsResult s)) :=
  runInIdle_of_idle h

/-- Settles O4, with the recurrence of the register's output. -/
theorem prbsGeneratesOnePeriod : Obligations.PrbsGeneratesOnePeriod := by
  intro s hs
  rw [exec_prbs_of_idle hs]
  refine ⟨fun hbad => ?_, fun ⟨h2, h32, hcap⟩ => ?_, fun ⟨h2, h32, hcap⟩ =>
    ⟨prbsPeriod s.prbsord.toNat, ?_, prbsPeriod_length _, fun k hk => ?_, fun k hk => ?_⟩⟩
  · rw [prbsResult, if_pos hbad]
    rfl
  · rw [prbsResult, if_neg (by omega), if_pos hcap]
    rfl
  · rw [prbsResult, if_neg (by omega), if_neg (by omega)]
    rfl
  · have hpow : s.prbsord.toNat < 2 ^ s.prbsord.toNat := Nat.lt_two_pow_self
    rw [prbsPeriod_getElem? (by omega), prbsBit_of_lt hk]
  · rw [prbsPeriod_getD hk, prbsPeriod_getD (by omega), prbsBit_recurrence (by omega) h32]
    refine List.foldl_ext _ _ _ fun x t ht => ?_
    have htn := lt_of_mem_tapSet h32 ht
    rw [prbsPeriod_getD (by omega)]

end Sys2Proof.Machine
end

section
/-! O5. The recurrence as arithmetic of polynomials over GF(2), evaluated for every order: `2^n − 1` is a period of the
register, and no proper divisor of it is one (R142).

A polynomial is a number, bit `i` the coefficient of `x^i`. It stands for the combination of a sequence's shifts that
its coefficients name, so that the recurrence of order `n` reduces `x^n` to `feedbackMask n`. -/

namespace Sys2Proof.Machine

/-- The sum over GF(2) of the terms `b (k + i)` with `i < w` and bit `i` of `p` set. -/
def combine (b : Nat → Bool) : (w p k : Nat) → Bool
  | 0, _, _ => false
  | w + 1, p, k => (p.testBit 0 && b k) ^^ combine b w (p / 2) (k + 1)

/-- The coefficient of `x^i` in `p`, as a number. -/
def coef (p i : Nat) : Nat := p / 2 ^ i % 2

section
variable (b : Nat → Bool)

@[simp] theorem combine_zero (w k : Nat) : combine b w 0 k = false := by
  induction w generalizing k with
  | zero => rfl
  | succ w ih => simp [combine, ih]

theorem combine_xor (w p q k : Nat) : combine b w (p ^^^ q) k = (combine b w p k ^^ combine b w q k) := by
  induction w generalizing p q k with
  | zero => rfl
  | succ w ih =>
    simp only [combine, Nat.xor_div_two, ih, Nat.testBit_xor, Bool.and_xor_distrib_right, Bool.xor_assoc,
      Bool.xor_left_comm]

/-- A product by `x` is a shift. -/
theorem combine_two_mul (w p k : Nat) : combine b (w + 1) (2 * p) k = combine b w p (k + 1) := by
  simp [combine]

theorem combine_succ_top (w p k : Nat) :
    combine b (w + 1) p k = (combine b w p k ^^ (p.testBit w && b (k + w))) := by
  induction w generalizing p k with
  | zero => simp [combine]
  | succ w ih =>
    rw [combine, ih, combine, Nat.testBit_div_two, Nat.add_right_comm k 1 w, Bool.xor_assoc, Nat.add_assoc]

/-- A power of `x` below the width is one term, any other is none. -/
theorem combine_two_pow (w t k : Nat) : combine b w (2 ^ t) k = (decide (t < w) && b (k + t)) := by
  induction w with
  | zero => simp [combine]
  | succ w ih =>
    obtain rfl | hne := eq_or_ne t w
    · simp [combine_succ_top, ih]
    · have hlt : t < w + 1 ↔ t < w := by omega
      simp [combine_succ_top, ih, hne, hlt]

theorem combine_coef_mul (w p i q k : Nat) : combine b w (coef p i * q) k = (p.testBit i && combine b w q k) := by
  rw [coef, Nat.testBit_eq_decide_div_mod_eq]
  obtain h | h := Nat.mod_two_eq_zero_or_one (p / 2 ^ i) <;> simp [h]

theorem combine_foldl_two_pow {w : Nat} {taps : List Nat} (ht : ∀ t ∈ taps, t < w) (m k : Nat) :
    combine b w (taps.foldl (fun m t => m ^^^ 2 ^ t) m) k =
      taps.foldl (fun x t => x ^^ b (k + t)) (combine b w m k) := by
  induction taps generalizing m with
  | nil => rfl
  | cons t taps ih =>
    obtain ⟨htw, htaps⟩ := List.forall_mem_cons.1 ht
    rw [List.foldl_cons, List.foldl_cons, ih htaps, combine_xor, combine_two_pow, decide_eq_true htw, Bool.true_and]

end

/-- The polynomial that the recurrence of order `n` makes of `x^n`: `1` and the taps of R141. -/
def feedbackMask (n : Nat) : Nat := (tapSet n).foldl (fun m t => m ^^^ 2 ^ t) (2 ^ 0)

/-- `x * p` reduced by the recurrence. -/
def timesX (n p : Nat) : Nat := 2 * p ^^^ coef (2 * p) n * (2 ^ n ^^^ feedbackMask n)

/-- The product of `q` and the `w` low coefficients of `p`, reduced by the recurrence. -/
def mulPoly (n q : Nat) : (w p : Nat) → Nat
  | 0, _ => 0
  | w + 1, p => timesX n (mulPoly n q w (p / 2)) ^^^ coef p 0 * q

/-- `f r`, where evaluation finds the value of `r` first, so that `f` does not find it again at each use. -/
def withValue {α : Type} (r : Nat) (f : Nat → α) : α :=
  match r with
  | 0 => f 0
  | m + 1 => f (m + 1)

@[simp] theorem withValue_eq {α : Type} (r : Nat) (f : Nat → α) : withValue r f = f r := by cases r <;> rfl

/-- `x^e` reduced by the recurrence, for `e < 2^w`, by repeated squaring. -/
def powX (n : Nat) : (w e : Nat) → Nat
  | 0, _ => 1
  | w + 1, e =>
    withValue (powX n w (e / 2)) fun r =>
      bif e.testBit 0 then timesX n (mulPoly n r n r) else mulPoly n r n r

/-- `p` is `x^e` reduced by the recurrence of order `n`, as far as the PRBS of order `n` tells. -/
def IsPowX (n p e : Nat) : Prop := ∀ k, combine (prbsBit n) n p k = prbsBit n (k + e)

section
variable {n : Nat}

theorem isPowX_one (h0 : 0 < n) : IsPowX n 1 0 := fun k => by
  simpa [h0] using combine_two_pow (prbsBit n) n 0 k

theorem isPowX_feedbackMask (h0 : 0 < n) (hn : n ≤ 32) : IsPowX n (feedbackMask n) n := fun k => by
  rw [feedbackMask, combine_foldl_two_pow _ fun t => lt_of_mem_tapSet hn, combine_two_pow, decide_eq_true h0,
    Bool.true_and, Nat.add_zero, prbsBit_recurrence h0 hn]

theorem combine_timesX (h0 : 0 < n) (hn : n ≤ 32) (p k : Nat) :
    combine (prbsBit n) n (timesX n p) k = combine (prbsBit n) n p (k + 1) := by
  rw [← combine_two_mul, combine_succ_top, timesX, combine_xor, combine_coef_mul, combine_xor, combine_two_pow,
    isPowX_feedbackMask h0 hn, decide_eq_false (lt_irrefl n), Bool.false_and, Bool.false_xor]

/-- A product by a power of `x` is a shift. -/
theorem combine_mulPoly (h0 : 0 < n) (hn : n ≤ 32) {q e : Nat} (hq : IsPowX n q e) (w p k : Nat) :
    combine (prbsBit n) n (mulPoly n q w p) k = combine (prbsBit n) w p (k + e) := by
  induction w generalizing p k with
  | zero => simp [mulPoly, combine]
  | succ w ih =>
    rw [mulPoly, combine_xor, combine_timesX h0 hn, ih, combine_coef_mul, hq, combine, Bool.xor_comm,
      Nat.add_right_comm]

theorem IsPowX.timesX (h0 : 0 < n) (hn : n ≤ 32) {p e : Nat} (hp : IsPowX n p e) : IsPowX n (timesX n p) (e + 1) :=
  fun k => by rw [combine_timesX h0 hn, hp, Nat.add_right_comm, Nat.add_assoc]

theorem IsPowX.square (h0 : 0 < n) (hn : n ≤ 32) {p e : Nat} (hp : IsPowX n p e) :
    IsPowX n (mulPoly n p n p) (e + e) :=
  fun k => by rw [combine_mulPoly h0 hn hp, hp, Nat.add_assoc]

theorem IsPowX.iterate_timesX (h0 : 0 < n) (hn : n ≤ 32) {p e : Nat} (hp : IsPowX n p e) (j : Nat) :
    IsPowX n ((Machine.timesX n)^[j] p) (e + j) := by
  induction j with
  | zero => exact hp
  | succ j ih =>
    rw [Function.iterate_succ_apply']
    exact ih.timesX h0 hn

theorem isPowX_powX (h0 : 0 < n) (hn : n ≤ 32) {w e : Nat} (he : e < 2 ^ w) : IsPowX n (powX n w e) e := by
  induction w generalizing e with
  | zero =>
    obtain rfl : e = 0 := by simpa using he
    exact isPowX_one h0
  | succ w ih =>
    have hsquare := (ih (e := e / 2) (by omega)).square h0 hn
    rw [powX, withValue_eq, Nat.testBit_zero]
    obtain h | h := Nat.mod_two_eq_zero_or_one e
    · have heven : e / 2 + e / 2 = e := by omega
      simpa [h, heven] using hsquare
    · have hodd : e / 2 + e / 2 + 1 = e := by omega
      simpa [h, hodd] using hsquare.timesX h0 hn

/-- The sum of the coefficients of `p` below `x^n`, over GF(2). -/
def parity (n p : Nat) : Bool := combine (fun _ => true) n p 0

theorem combine_prbsBit_of_le {w k : Nat} (h : k + w ≤ n) (p : Nat) :
    combine (prbsBit n) w p k = combine (fun _ => true) w p k := by
  induction w generalizing p k with
  | zero => rfl
  | succ w ih => rw [combine, combine, ih (by omega), prbsBit_of_lt (by omega)]

/-- The PRBS starts with `n` ones, so that bit `e` is the parity of `x^e`. -/
theorem IsPowX.prbsBit_eq {p e : Nat} (hp : IsPowX n p e) : prbsBit n e = parity n p := by
  rw [parity, ← combine_prbsBit_of_le (Nat.zero_add n).le, hp, Nat.zero_add]

/-- The register of order `n` is back at all ones after `k` steps exactly if `n` ones come out from then on. -/
theorem isPeriodicPt_lfsrStep_iff (h0 : 0 < n) (k : Nat) :
    Function.IsPeriodicPt (lfsrStep (tapSet n)) k (List.replicate n true) ↔ ∀ j < n, prbsBit n (k + j) = true := by
  refine (iterate_lfsrStep_eq_self_iff (by simpa using h0) k).trans ?_
  rw [List.length_replicate]
  refine forall₂_congr fun j hj => ?_
  simp [prbsBit, hj]

end

/-! The prime factors of the period, and what is evaluated for each order. -/

/-- The prime factors of `2^n − 1`, each as often as it divides. -/
def periodFactorTable : List (Nat × List Nat) :=
  [(2, [3]), (3, [7]), (4, [3, 5]), (5, [31]), (6, [3, 3, 7]), (7, [127]), (8, [3, 5, 17]), (9, [7, 73]),
   (10, [3, 11, 31]), (11, [23, 89]), (12, [3, 3, 5, 7, 13]), (13, [8191]), (14, [3, 43, 127]), (15, [7, 31, 151]),
   (16, [3, 5, 17, 257]), (17, [131071]), (18, [3, 3, 3, 7, 19, 73]), (19, [524287]), (20, [3, 5, 5, 11, 31, 41]),
   (21, [7, 7, 127, 337]), (22, [3, 23, 89, 683]), (23, [47, 178481]), (24, [3, 3, 5, 7, 13, 17, 241]),
   (25, [31, 601, 1801]), (26, [3, 2731, 8191]), (27, [7, 73, 262657]), (28, [3, 5, 29, 43, 113, 127]),
   (29, [233, 1103, 2089]), (30, [3, 3, 7, 11, 31, 151, 331]), (31, [2147483647]), (32, [3, 5, 17, 257, 65537])]

theorem prime_2147483647 : Nat.Prime 2147483647 := lucas_lehmer_sufficiency 31 (by norm_num) (by norm_num)

theorem prime_of_mem_periodFactorTable :
    ∀ row ∈ periodFactorTable, ∀ q ∈ row.2, q.Prime := by
  simp only [periodFactorTable, List.forall_mem_cons, prime_2147483647]
  norm_num

/-- `x^(2^n − 1)` is 1, and for each of the factors `q` a bit of the register after `(2^n − 1) / q` steps is 0. -/
def hasPeriod (n : Nat) (factors : List Nat) : Bool :=
  powX n n (2 ^ n - 1) == 1 && factors.all fun q =>
    withValue (powX n n ((2 ^ n - 1) / q)) fun r => (List.range n).any fun j => !parity n ((timesX n)^[j] r)

/-- The table has a row for every legal order, with the factors of the period, and each row passes the evaluation. -/
theorem periodFactorTable_evaluates :
    periodFactorTable.map Prod.fst = List.range' 2 31 ∧
      ∀ row ∈ periodFactorTable, row.2.prod = 2 ^ row.1 - 1 ∧ hasPeriod row.1 row.2 = true := by decide +kernel

theorem exists_period_factors {n : Nat} (h2 : 2 ≤ n) (h32 : n ≤ 32) :
    ∃ factors : List Nat, (∀ q ∈ factors, q.Prime) ∧ factors.prod = 2 ^ n - 1 ∧ hasPeriod n factors = true := by
  obtain ⟨hrows, hrow⟩ := periodFactorTable_evaluates
  have hmem : n ∈ periodFactorTable.map Prod.fst := by
    rw [hrows, List.mem_range'_1]
    omega
  obtain ⟨row, hin, rfl⟩ := List.mem_map.1 hmem
  exact ⟨row.2, prime_of_mem_periodFactorTable row hin, hrow row hin⟩

/-- What the evaluation says of the register. -/
theorem isPeriodicPt_of_hasPeriod {n : Nat} (h0 : 0 < n) (hn : n ≤ 32) {factors : List Nat}
    (h : hasPeriod n factors = true) :
    Function.IsPeriodicPt (lfsrStep (tapSet n)) (2 ^ n - 1) (List.replicate n true) ∧
      ∀ q ∈ factors, ¬ Function.IsPeriodicPt (lfsrStep (tapSet n)) ((2 ^ n - 1) / q) (List.replicate n true) := by
  have hpos : 0 < 2 ^ n := Nat.two_pow_pos n
  simp only [hasPeriod, withValue_eq, Bool.and_eq_true, beq_iff_eq, List.all_eq_true, List.any_eq_true,
    List.mem_range, Bool.not_eq_true'] at h
  obtain ⟨hone, hzero⟩ := h
  constructor
  · have hpow : IsPowX n (powX n n (2 ^ n - 1)) (2 ^ n - 1) := isPowX_powX h0 hn (by omega)
    rw [hone] at hpow
    refine (isPeriodicPt_lfsrStep_iff h0 _).2 fun j hj => ?_
    rw [Nat.add_comm, ← hpow j, isPowX_one h0 j, Nat.add_zero, prbsBit_of_lt hj]
  · intro q hq hperiod
    obtain ⟨j, hj, hparity⟩ := hzero q hq
    have hlt : (2 ^ n - 1) / q < 2 ^ n := by
      have := Nat.div_le_self (2 ^ n - 1) q
      omega
    have hbit := ((isPowX_powX h0 hn hlt).iterate_timesX h0 hn j).prbsBit_eq
    rw [(isPeriodicPt_lfsrStep_iff h0 _).1 hperiod j hj, hparity] at hbit
    exact absurd hbit (by decide)

/-- A period none of whose quotients by a prime factor is a period is the least one. -/
theorem not_isPeriodicPt_of_prime_quotients {α : Type} {f : α → α} {x : α} {N : Nat} (hN : Function.IsPeriodicPt f N x)
    (hq : ∀ q, q.Prime → q ∣ N → ¬ Function.IsPeriodicPt f (N / q) x) {k : Nat} (h0 : 0 < k) (hk : k < N) :
    ¬ Function.IsPeriodicPt f k x := by
  intro hperiod
  have hgcd : Function.IsPeriodicPt f (k.gcd N) x := hperiod.gcd hN
  obtain ⟨c, hc⟩ := Nat.gcd_dvd_right k N
  have hle : k.gcd N ≤ k := Nat.gcd_le_left N h0
  have hc1 : c ≠ 1 := by
    rintro rfl
    omega
  obtain ⟨q, hprime, d, rfl⟩ := Nat.exists_prime_and_dvd hc1
  have hNq : N = q * (k.gcd N * d) := hc.trans (Nat.mul_left_comm _ _ _)
  refine hq q hprime (Dvd.intro _ hNq.symm) ?_
  rw [Nat.div_eq_of_eq_mul_right hprime.pos hNq]
  exact hgcd.mul_const d

/-- Settles O5, by evaluating a power of `x` for each prime factor of the period. -/
theorem prbsIsMaximalLength : Obligations.PrbsIsMaximalLength := by
  intro n h2 h32
  obtain ⟨factors, hprime, hprod, heval⟩ := exists_period_factors h2 h32
  obtain ⟨hperiod, hquot⟩ := isPeriodicPt_of_hasPeriod (by omega) h32 heval
  refine ⟨hperiod, fun k h0 hk => not_isPeriodicPt_of_prime_quotients hperiod (fun q hq hdvd => hquot q ?_) h0 hk⟩
  exact mem_list_primes_of_dvd_prod hq.prime (fun p hp => (hprime p hp).prime) (hprod ▸ hdvd)

end Sys2Proof.Machine
end

section
/-! O6. Every element of a repeated sequence, and the least number of repetitions (R13, R144). -/

namespace Sys2Proof.Machine

theorem repeatSeq_succ {α : Type} (seq : List α) (r : Nat) : repeatSeq seq (r + 1) = seq ++ repeatSeq seq r := by
  simp [repeatSeq, List.replicate_succ]

theorem repeatSeq_getElem? {α : Type} (seq : List α) {r k : Nat} (h : k < r * seq.length) :
    (repeatSeq seq r)[k]? = seq[k % seq.length]? := by
  induction r generalizing k with
  | zero => omega
  | succ r ih =>
    rw [repeatSeq_succ]
    obtain hk | hk := Nat.lt_or_ge k seq.length
    · rw [List.getElem?_append_left hk, Nat.mod_eq_of_lt hk]
    · have hrest : k - seq.length < r * seq.length := by
        rw [Nat.succ_mul] at h
        omega
      rw [List.getElem?_append_right hk, ih hrest, ← Nat.mod_eq_sub_mod hk]

/-- `b / gcd(B, b)` divides exactly the numbers of repetitions that make whole tuples. -/
theorem repeatFactor_dvd_iff (length k : Nat) {b : Nat} (hb : 0 < b) : repeatFactor length b ∣ k ↔ b ∣ k * length := by
  have hg : 0 < Nat.gcd length b := Nat.gcd_pos_of_pos_right _ hb
  have hcop : Nat.Coprime (b / Nat.gcd length b) (length / Nat.gcd length b) := (Nat.coprime_div_gcd_div_gcd hg).symm
  calc repeatFactor length b ∣ k
    _ ↔ b / Nat.gcd length b ∣ k * (length / Nat.gcd length b) := hcop.dvd_mul_right.symm
    _ ↔ b ∣ k * length := by
      rw [← Nat.mul_dvd_mul_iff_left hg, Nat.mul_div_cancel' (Nat.gcd_dvd_right length b), Nat.mul_left_comm,
        Nat.mul_div_cancel' (Nat.gcd_dvd_left length b)]

theorem repeatFactor_pos (length : Nat) {b : Nat} (hb : 0 < b) : 0 < repeatFactor length b :=
  Nat.div_pos (Nat.gcd_le_right _ hb) (Nat.gcd_pos_of_pos_right _ hb)

/-- What BREP does in IDLE (R144). -/
theorem exec_brep_of_idle {s : State} (h : s.phase = .idle) : exec .brep s = .next (finish (brepResult s)) :=
  runInIdle_of_idle h

/-- Settles O6, by the numbers that `repeatFactor` divides. -/
theorem brepRepeatsTheLeastNumberOfTimes : Obligations.BrepRepeatsTheLeastNumberOfTimes := by
  intro s hs m len cap r
  rw [exec_brep_of_idle hs]
  have hdvd (k : Nat) : r ∣ k ↔ (m + 1) ∣ k * len := repeatFactor_dvd_iff len k m.succ_pos
  refine ⟨fun hm => ?_, fun hm => ⟨repeatFactor_pos len m.succ_pos, Nat.mod_eq_zero_of_dvd ((hdvd r).1 dvd_rfl),
    fun k hk hmod => Nat.le_of_dvd hk ((hdvd k).2 (Nat.dvd_of_mod_eq_zero hmod))⟩, fun ⟨hm, hcap⟩ => ?_,
    fun ⟨hm, hcap⟩ => ⟨repeatSeq s.mem.bitbuf r, ?_, repeatSeq_length _ _, fun k => repeatSeq_getElem? _⟩⟩
  · rw [brepResult, if_pos hm]
    rfl
  · rw [brepResult, if_neg (Nat.not_lt.2 hm)]
    exact congrArg (fun x => Host.Outcome.next (finish x)) (if_pos hcap)
  · rw [brepResult, if_neg (Nat.not_lt.2 hm)]
    exact congrArg (fun x => Host.Outcome.next (finish x)) (if_neg (Nat.not_lt.2 hcap))

end Sys2Proof.Machine
end

section
/-! O7, O8. What CMCLR and CMDEF leave in CMAP (R161, R162). -/

namespace Sys2Proof.Machine

/-- What CMCLR does in IDLE (R161). -/
theorem exec_cmclr_of_idle {s : State} (h : s.phase = .idle) : exec .cmclr s = .next (finish (cmclrResult s)) :=
  runInIdle_of_idle h

/-- What CMDEF does in IDLE (R162). -/
theorem exec_cmdef_of_idle {s : State} (h : s.phase = .idle) : exec .cmdef s = .next (finish (cmdefResult s)) :=
  runInIdle_of_idle h

/-- CMAPVALID shows nothing of the memory but CMAP (R54), so it is 0 as after reset. -/
theorem cmapValidWord_invalidated (m : Memory) : cmapValidWord { m with cmap := Vector.replicate 32 none } = 0 :=
  calc cmapValidWord { m with cmap := Vector.replicate 32 none }
    _ = cmapValidWord Memory.reset := rfl
    _ = 0 := cmapValidWord_reset

/-- Settles O7: the table CMCLR leaves is that of reset. -/
theorem cmclrInvalidatesEveryEntry : Obligations.CmclrInvalidatesEveryEntry :=
  fun s hs => ⟨exec_cmclr_of_idle hs, cmapValidWord_invalidated s.mem⟩

/-- Entry `p` of the default map (R162). -/
theorem defaultMap_getElem (ν : Config.Numerics) (m : Nat) {p : Nat} (h : p < 32) :
    (defaultMap ν m)[p] =
      if p < 2 ^ (m + 1) then some ⟨ν.ofRat (defaultPoint m p).1, ν.ofRat (defaultPoint m p).2⟩ else none :=
  Vector.getElem_ofFn h

/-- Settles O8, with the default map of MODTYPE as the table. -/
theorem cmdefLoadsTheDefaultMap : Obligations.CmdefLoadsTheDefaultMap := by
  intro s hs
  rw [exec_cmdef_of_idle hs]
  refine ⟨fun hm => ?_, fun hm =>
    ⟨defaultMap s.params.numerics s.modtype.toNat, ?_, fun _ => defaultMap_getElem _ _⟩⟩
  · rw [cmdefResult, if_pos hm]
    rfl
  · rw [cmdefResult, if_neg (Nat.not_lt.2 hm)]
    rfl

end Sys2Proof.Machine
end

section
/-! O10. Gray-coded sets of points: the ladders of R164, the product of two of them, and the default maps (R165). -/

namespace Sys2Proof.Machine

/-- The squared distance of two points. -/
def sqDist (x y : Rat × Rat) : Rat := (x.1 - y.1) ^ 2 + (x.2 - y.2) ^ 2

theorem sqDist_self (x : Rat × Rat) : sqDist x x = 0 := by simp [sqDist]

/-- Some two points of the patterns of `bits` bits are at the squared distance `least`; any two are farther apart, or
are at that distance and differ in one bit of their patterns. -/
structure GrayCoded (point : Nat → Rat × Rat) (bits : Nat) (least : Rat) : Prop where
  least_pos : 0 < least
  attained : ∃ p < 2 ^ bits, ∃ q < 2 ^ bits, p ≠ q ∧ sqDist (point p) (point q) = least
  farther_or_oneBit : ∀ p < 2 ^ bits, ∀ q < 2 ^ bits, p ≠ q → least < sqDist (point p) (point q) ∨
    sqDist (point p) (point q) = least ∧ ∃ i < bits, p ^^^ q = 2 ^ i

namespace GrayCoded

variable {point : Nat → Rat × Rat} {bits p q : Nat} {least : Rat}

theorem least_le (h : GrayCoded point bits least) (hp : p < 2 ^ bits) (hq : q < 2 ^ bits) (hne : p ≠ q) :
    least ≤ sqDist (point p) (point q) :=
  (h.farther_or_oneBit p hp q hq hne).elim le_of_lt fun ⟨heq, _⟩ => heq.ge

/-- The points are distinct, since a point is at distance 0 from itself. -/
theorem point_ne (h : GrayCoded point bits least) (hp : p < 2 ^ bits) (hq : q < 2 ^ bits) (hne : p ≠ q) :
    point p ≠ point q := by
  intro heq
  have hle := h.least_le hp hq hne
  rw [heq, sqDist_self] at hle
  exact absurd h.least_pos (not_lt.2 hle)

/-- Two points that no two are closer than differ in one bit of their patterns. -/
theorem oneBit_of_nearest (h : GrayCoded point bits least) (hp : p < 2 ^ bits) (hq : q < 2 ^ bits) (hne : p ≠ q)
    (hnearest : ∀ u < 2 ^ bits, ∀ v < 2 ^ bits, u ≠ v → sqDist (point p) (point q) ≤ sqDist (point u) (point v)) :
    ∃ i < bits, p ^^^ q = 2 ^ i := by
  obtain ⟨u, hu, v, hv, huv, hleast⟩ := h.attained
  obtain hfarther | ⟨_, hone⟩ := h.farther_or_oneBit p hp q hq hne
  · exact absurd (hnearest u hu v hv huv) (not_le.2 (hleast ▸ hfarther))
  · exact hone

end GrayCoded

/-- A ladder as points of the first axis. -/
def ladderPoint (ladder : List Rat) (p : Nat) : Rat × Rat := (ladder.getD p 0, 0)

/-- The point whose I is that of the upper bits of the pattern on one ladder, and whose Q is that of its `k` lower bits
on another. -/
def productPoint (upper lower : List Rat) (k p : Nat) : Rat × Rat :=
  (upper.getD (p / 2 ^ k) 0, lower.getD (p % 2 ^ k) 0)

theorem sqDist_productPoint (upper lower : List Rat) (k p q : Nat) :
    sqDist (productPoint upper lower k p) (productPoint upper lower k q) =
      sqDist (ladderPoint upper (p / 2 ^ k)) (ladderPoint upper (q / 2 ^ k)) +
        sqDist (ladderPoint lower (p % 2 ^ k)) (ladderPoint lower (q % 2 ^ k)) := by
  simp [sqDist, productPoint, ladderPoint]

/-- Patterns with the same upper bits differ where their lower bits do. -/
theorem xor_of_div_eq {p q k : Nat} (h : p / 2 ^ k = q / 2 ^ k) : p ^^^ q = p % 2 ^ k ^^^ q % 2 ^ k := by
  have hupper : (p ^^^ q) / 2 ^ k = 0 := by rw [Nat.xor_div_two_pow, h, Nat.xor_self]
  rw [← Nat.xor_mod_two_pow, Nat.mod_eq_of_lt ((Nat.div_eq_zero_iff_lt (Nat.two_pow_pos k)).1 hupper)]

/-- Patterns with the same lower bits differ where their upper bits do. -/
theorem xor_of_mod_eq {p q k : Nat} (h : p % 2 ^ k = q % 2 ^ k) :
    p ^^^ q = 2 ^ k * (p / 2 ^ k ^^^ q / 2 ^ k) := by
  have hlower : (p ^^^ q) % 2 ^ k = 0 := by rw [Nat.xor_mod_two_pow, h, Nat.xor_self]
  rw [← Nat.xor_div_two_pow, Nat.mul_div_cancel' (Nat.dvd_of_mod_eq_zero hlower)]

/-- The product of two Gray-coded ladders of the same least distance is Gray coded: points that differ in both
coordinates are farther apart than that. -/
theorem GrayCoded.product {upper lower : List Rat} {j k : Nat} {least : Rat}
    (hupper : GrayCoded (ladderPoint upper) j least) (hlower : GrayCoded (ladderPoint lower) k least) :
    GrayCoded (productPoint upper lower k) (j + k) least := by
  have hdiv {p : Nat} (hp : p < 2 ^ (j + k)) : p / 2 ^ k < 2 ^ j :=
    Nat.div_lt_of_lt_mul (by rwa [mul_comm, ← pow_add])
  have hmod (p : Nat) : p % 2 ^ k < 2 ^ k := Nat.mod_lt _ (Nat.two_pow_pos k)
  refine ⟨hupper.least_pos, ?attained, fun p hp q hq hne => ?separated⟩
  case attained =>
    obtain ⟨p, hp, q, hq, hne, heq⟩ := hlower.attained
    have hle : 2 ^ k ≤ 2 ^ (j + k) := Nat.pow_le_pow_right Nat.two_pos (Nat.le_add_left k j)
    refine ⟨p, hp.trans_le hle, q, hq.trans_le hle, hne, ?_⟩
    rw [sqDist_productPoint, Nat.div_eq_of_lt hp, Nat.div_eq_of_lt hq, Nat.mod_eq_of_lt hp, Nat.mod_eq_of_lt hq, heq,
      sqDist_self, zero_add]
  case separated =>
    rw [sqDist_productPoint]
    by_cases hI : p / 2 ^ k = q / 2 ^ k
    · have hQ : p % 2 ^ k ≠ q % 2 ^ k := fun h =>
        hne (by rw [← Nat.div_add_mod p (2 ^ k), hI, h, Nat.div_add_mod])
      rw [hI, sqDist_self, zero_add]
      exact (hlower.farther_or_oneBit _ (hmod p) _ (hmod q) hQ).imp_right fun ⟨heq, i, hi, hxor⟩ =>
        ⟨heq, i, by omega, by rw [xor_of_div_eq hI, hxor]⟩
    by_cases hQ : p % 2 ^ k = q % 2 ^ k
    · rw [hQ, sqDist_self, add_zero]
      exact (hupper.farther_or_oneBit _ (hdiv hp) _ (hdiv hq) hI).imp_right fun ⟨heq, i, hi, hxor⟩ =>
        ⟨heq, k + i, by omega, by rw [xor_of_mod_eq hQ, hxor, pow_add]⟩
    · have hpos := hupper.least_pos
      exact .inl (by linarith [hupper.least_le (hdiv hp) (hdiv hq) hI, hlower.least_le (hmod p) (hmod q) hQ])

/-! The ladders and the small maps, evaluated pair by pair; the square and the rectangular map as products (R164). -/

theorem grayLadder2_grayCoded : GrayCoded (ladderPoint grayLadder2) 2 4 :=
  ⟨by decide, by decide +kernel, by decide +kernel⟩

theorem grayLadder3_grayCoded : GrayCoded (ladderPoint grayLadder3) 3 4 :=
  ⟨by decide, by decide +kernel, by decide +kernel⟩

theorem bpsk_grayCoded : GrayCoded (defaultPoint 0) 1 4 :=
  ⟨by decide, by decide +kernel, by decide +kernel⟩

theorem qpsk_grayCoded : GrayCoded (defaultPoint 1) 2 4 :=
  ⟨by decide, by decide +kernel, by decide +kernel⟩

/-- In 8PSK a point and its neighbours on the circle, whether on an axis or not, are at the squared distance
`(1 − c)² + c²`. -/
theorem psk8_grayCoded : GrayCoded (defaultPoint 2) 3 ((1 - mapC) ^ 2 + mapC ^ 2) :=
  ⟨by decide +kernel, by decide +kernel, by decide +kernel⟩

theorem qam16_grayCoded : GrayCoded (defaultPoint 3) 4 4 := grayLadder2_grayCoded.product grayLadder2_grayCoded

theorem qam32_grayCoded : GrayCoded (defaultPoint 4) 5 4 := grayLadder3_grayCoded.product grayLadder2_grayCoded

/-- Every default map is Gray coded (R165). -/
theorem defaultPoint_grayCoded {m : Nat} (h : m ≤ 4) : ∃ least, GrayCoded (defaultPoint m) (m + 1) least :=
  match m, h with
  | 0, _ => ⟨_, bpsk_grayCoded⟩
  | 1, _ => ⟨_, qpsk_grayCoded⟩
  | 2, _ => ⟨_, psk8_grayCoded⟩
  | 3, _ => ⟨_, qam16_grayCoded⟩
  | 4, _ => ⟨_, qam32_grayCoded⟩

/-- Settles O10, map by map. -/
theorem defaultMapsAreGrayCoded : Obligations.DefaultMapsAreGrayCoded := by
  intro m hm p hp q hq hne
  obtain ⟨least, hgray⟩ := defaultPoint_grayCoded hm
  refine ⟨hgray.point_ne hp hq hne, fun hnearest => ?_⟩
  obtain ⟨i, hi, hxor⟩ := hgray.oneBit_of_nearest hp hq hne hnearest
  exact ⟨i, Nat.le_of_lt_succ hi, hxor⟩

end Sys2Proof.Machine
end

section
/-! O11. The pattern of a tuple as a sum, the lowest unmapped pattern, and MAP case by case (R166, R167). -/

namespace Sys2Proof.Machine

/-! Patterns. -/

theorem patternOf_concat (tuple : List Bool) (b : Bool) : patternOf (tuple ++ [b]) = 2 * patternOf tuple + b.toNat := by
  simp [patternOf]

theorem patternOf_lt (tuple : List Bool) : patternOf tuple < 2 ^ tuple.length := by
  induction tuple using List.reverseRecOn with
  | nil => decide
  | append_singleton tuple b ih =>
    have hb := Bool.toNat_le b
    rw [patternOf_concat, List.length_append, List.length_singleton, pow_succ]
    omega

/-- The first `n` bits, the first of them the most significant, weigh powers of two (R166). -/
theorem patternOf_take (bits : List Bool) {n : Nat} (h : n ≤ bits.length) :
    patternOf (bits.take n) = ∑ i ∈ Finset.range n, (bits.getD i false).toNat * 2 ^ (n - 1 - i) := by
  induction n with
  | zero => rfl
  | succ n ih =>
    have hn : n < bits.length := h
    have hdouble : ∀ i ∈ Finset.range n, (bits.getD i false).toNat * 2 ^ (n - i) =
        2 * ((bits.getD i false).toNat * 2 ^ (n - 1 - i)) := by
      intro i hi
      have hpow : n - i = n - 1 - i + 1 := by
        have := Finset.mem_range.1 hi
        omega
      rw [hpow, pow_succ]
      ring
    rw [← List.take_concat_get' bits n hn, patternOf_concat, ih hn.le, Finset.mul_sum, Finset.sum_range_succ,
      Nat.add_sub_cancel, Finset.sum_congr rfl hdouble]
    simp [hn]

/-- `pat(j)` is below `2^b`. -/
theorem patternAt_lt (bits : List Bool) (b j : Nat) : patternAt bits b j < 2 ^ b :=
  (patternOf_lt _).trans_le (Nat.pow_le_pow_right Nat.two_pos (List.length_take_le _ _))

/-- `pat(j)` of a tuple that BITBUF holds whole, as R166 writes it. -/
theorem patternAt_eq_sum {bits : List Bool} {b j : Nat} (h : j < bits.length / b) :
    patternAt bits b j = ∑ i ∈ Finset.range b, (bits.getD (j * b + i) false).toNat * 2 ^ (b - 1 - i) := by
  have hend : (j + 1) * b ≤ bits.length := (Nat.mul_le_mul_right b h).trans (Nat.div_mul_le_self _ b)
  have hfit : b ≤ (bits.drop (j * b)).length := by
    rw [Nat.succ_mul] at hend
    rw [List.length_drop]
    omega
  rw [patternAt, patternOf_take _ hfit]
  simp only [List.getD_eq_getElem?_getD, List.getElem?_drop]

/-! The search of CMAP. -/

theorem lowestUnmapped_eq_some {m : Memory} {count p : Nat} (hp : p < count) (hnone : cmapPoint m p = none)
    (hlowest : ∀ q < p, (cmapPoint m q).isSome = true) : lowestUnmapped m count = some p :=
  List.find?_range_eq_some.2 ⟨by simp [hnone], List.mem_range.2 hp, by simpa using hlowest⟩

theorem lowestUnmapped_eq_none {m : Memory} {count : Nat} (h : ∀ p < count, (cmapPoint m p).isSome = true) :
    lowestUnmapped m count = none :=
  List.find?_range_eq_none.2 (by simpa using h)

theorem some_mapPattern {m : Memory} {p : Nat} (h : (cmapPoint m p).isSome = true) :
    some (mapPattern m p) = cmapPoint m p := by
  obtain ⟨z, hz⟩ := Option.isSome_iff_exists.1 h
  rw [mapPattern, hz, Option.getD_some]

/-! The pseudocode of MAP, case by case. -/

/-- The symbols MAP puts in SYMBUF, `b` bits for each (R167). -/
def mappedSymbols (m : Memory) (b : Nat) : List Cplx :=
  (List.range (m.bitbuf.length / b)).map fun j => mapPattern m (patternAt m.bitbuf b j)

theorem mappedSymbols_length (m : Memory) (b : Nat) : (mappedSymbols m b).length = m.bitbuf.length / b := by
  simp [mappedSymbols]

/-- Symbol `j` under a table that maps every pattern. -/
theorem mappedSymbols_getElem? {m : Memory} {b j : Nat} (hwhole : ∀ p < 2 ^ b, (cmapPoint m p).isSome = true)
    (hj : j < m.bitbuf.length / b) : (mappedSymbols m b)[j]? = cmapPoint m (patternAt m.bitbuf b j) := by
  rw [mappedSymbols, List.getElem?_map, List.getElem?_range hj, Option.map_some,
    some_mapPattern (hwhole _ (patternAt_lt _ b j))]

section

variable {s : State}

theorem mapResult_of_illegal (hm : 4 < s.modtype.toNat) :
    mapResult s = .raised (configFault 1 s.modtype.toNat 4) s := if_pos hm

theorem mapResult_of_partial (hm : s.modtype.toNat ≤ 4) (hlen : s.mem.bitbuf.length % (s.modtype.toNat + 1) ≠ 0) :
    mapResult s = .raised ⟨.bitcount, 0, s.mem.bitbuf.length, (s.modtype.toNat + 1 : Nat)⟩ s :=
  (if_neg (Nat.not_lt.2 hm)).trans (if_pos hlen)

variable (hm : s.modtype.toNat ≤ 4) (hlen : s.mem.bitbuf.length % (s.modtype.toNat + 1) = 0)

include hm hlen

theorem mapResult_of_unmapped {p : Nat} (hp : lowestUnmapped s.mem (2 ^ (s.modtype.toNat + 1)) = some p) :
    mapResult s = .raised ⟨.symmap, 0, p, (2 ^ (s.modtype.toNat + 1) : Nat)⟩ s := by
  simp [mapResult, hm, hlen, hp]

theorem mapResult_of_whole (hall : lowestUnmapped s.mem (2 ^ (s.modtype.toNat + 1)) = none) :
    mapResult s =
      if s.params.caps.sym.size < s.mem.bitbuf.length / (s.modtype.toNat + 1) then
        .raised (capacityFault 1 (s.mem.bitbuf.length / (s.modtype.toNat + 1)) s.params.caps.sym) s
      else .done { s with mem := { s.mem with symbuf := mappedSymbols s.mem (s.modtype.toNat + 1) } } := by
  simp [mapResult, hm, hlen, hall, mappedSymbols]

end

/-- What MAP does in IDLE (R167). -/
theorem exec_map_of_idle {s : State} (h : s.phase = .idle) : exec .map s = .next (finish (mapResult s)) :=
  runInIdle_of_idle h

/-- Settles O11, test by test. -/
theorem mapMapsEveryTuple : Obligations.MapMapsEveryTuple := by
  intro s hs m b bits cap whole
  rw [exec_map_of_idle hs]
  refine ⟨fun hm => ?illegal, fun ⟨hm, hlen⟩ => ?partialTuple,
    fun p ⟨hm, hlen, hp, hnone, hlowest⟩ => ?unmapped, fun ⟨hm, hlen, hwhole, hcap⟩ => ?capacity,
    fun ⟨hm, hlen, hwhole, hcap⟩ =>
      ⟨mappedSymbols s.mem b, ?completes, mappedSymbols_length _ _, fun j hj => ?symbol⟩⟩
  case illegal => rw [mapResult_of_illegal hm]; rfl
  case partialTuple => rw [mapResult_of_partial hm hlen]; rfl
  case unmapped => rw [mapResult_of_unmapped hm hlen (lowestUnmapped_eq_some hp hnone hlowest)]; rfl
  case capacity => rw [mapResult_of_whole hm hlen (lowestUnmapped_eq_none hwhole), if_pos hcap]; rfl
  case completes => rw [mapResult_of_whole hm hlen (lowestUnmapped_eq_none hwhole), if_neg (Nat.not_lt.2 hcap)]; rfl
  case symbol => rw [mappedSymbols_getElem? hwhole hj, patternAt_eq_sum hj]

end Sys2Proof.Machine
end

section
/-! O15, O16. The taps of the reference numerics as real numbers (R202 to R204). -/

namespace Sys2Proof

open Real

theorem Num.toReal_tapRC_center (a : ℚ) : (Num.tapRC a 0).toReal = 1 := by simp [Num.tapRC]

theorem Num.toReal_tapRC_singular {a x : ℚ} (hx : x ≠ 0) (hs : a ≠ 0 ∧ 2 * a * |x| = 1) :
    (Num.tapRC a x).toReal = π / 4 * realSinc (1 / (2 * (a : ℝ))) := by
  rw [Num.tapRC, if_neg hx, if_pos hs, Num.toReal_mul, Num.toReal_scale, Num.toReal_piTo, Num.toReal_sinc, zpow_one]
  push_cast
  rw [one_div_mul_eq_div]

theorem Num.toReal_tapRC_regular {a x : ℚ} (hx : x ≠ 0) (hs : ¬ (a ≠ 0 ∧ 2 * a * |x| = 1)) :
    (Num.tapRC a x).toReal =
      realSinc (x : ℝ) * Real.cos (π * (a : ℝ) * (x : ℝ)) / (1 - (2 * (a : ℝ) * (x : ℝ)) ^ 2) := by
  rw [Num.tapRC, if_neg hx, if_neg hs, Num.toReal_scale, Num.toReal_mul, Num.toReal_sinc, Num.toReal_cosPi]
  push_cast
  rw [mul_assoc π, one_div_mul_eq_div]

theorem Num.toReal_tapRRC_center (a : ℚ) : (Num.tapRRC a 0).toReal = 1 - (a : ℝ) + 4 * (a : ℝ) / π := by
  rw [Num.tapRRC, if_pos rfl, Num.toReal_add, Num.toReal_ofRat, Num.toReal_scale, Num.toReal_piTo, zpow_neg_one]
  push_cast
  rw [← div_eq_mul_inv]

theorem Num.toReal_tapRRC_singular {a x : ℚ} (hx : x ≠ 0) (hs : a ≠ 0 ∧ 4 * a * |x| = 1) :
    (Num.tapRRC a x).toReal =
      (a : ℝ) / √2 * ((1 + 2 / π) * Real.sin (π / (4 * (a : ℝ))) + (1 - 2 / π) * Real.cos (π / (4 * (a : ℝ)))) := by
  simp only [Num.tapRRC, if_neg hx, if_pos hs, Num.toReal_mul, Num.toReal_add, Num.toReal_sub, Num.toReal_scale,
    Num.toReal_invSqrt2, Num.toReal_one, Num.toReal_piTo, Num.toReal_sinPi, Num.toReal_cosPi, zpow_neg_one]
  push_cast
  simp only [mul_one_div, ← div_eq_mul_inv]

theorem Num.toReal_tapRRC_regular {a x : ℚ} (hx : x ≠ 0) (hs : ¬ (a ≠ 0 ∧ 4 * a * |x| = 1)) :
    (Num.tapRRC a x).toReal =
      (Real.sin (π * (x : ℝ) * (1 - (a : ℝ))) + 4 * (a : ℝ) * (x : ℝ) * Real.cos (π * (x : ℝ) * (1 + (a : ℝ)))) /
        (π * (x : ℝ) * (1 - (4 * (a : ℝ) * (x : ℝ)) ^ 2)) := by
  simp only [Num.tapRRC, if_neg hx, if_neg hs, Num.toReal_scale, Num.toReal_mul, Num.toReal_add, Num.toReal_piTo,
    Num.toReal_sinPi, Num.toReal_cosPi, zpow_neg_one]
  push_cast
  rw [mul_assoc π, mul_assoc π, mul_assoc π, one_div, ← mul_assoc, ← mul_inv_rev, inv_mul_eq_div]

/-- Settles O15, branch by branch. -/
theorem raisedCosineTap : Obligations.RaisedCosineTap := by
  intro a x _ _
  split_ifs with hx hs
  · rw [hx, Num.toReal_tapRC_center]
  · exact Num.toReal_tapRC_singular hx hs
  · exact Num.toReal_tapRC_regular hx hs

/-- Settles O16, branch by branch. -/
theorem rootRaisedCosineTap : Obligations.RootRaisedCosineTap := by
  intro a x _ _
  split_ifs with hx hs
  · rw [hx, Num.toReal_tapRRC_center]
  · exact Num.toReal_tapRRC_singular hx hs
  · exact Num.toReal_tapRRC_regular hx hs

end Sys2Proof
end

section
/-! O12. Every element of a circular extension, and CEXT case by case (R191). -/

namespace Sys2Proof.Machine

/-- Element `k` of the extension is element `k − h` of the circle. -/
theorem circularExtend_getElem? {α : Type} (seq : List α) {h k : Nat} (hh : h ≤ seq.length)
    (hk : k < seq.length + 2 * h) : (circularExtend seq h)[k]? = seq[(k + seq.length - h) % seq.length]? := by
  have hfront : (seq.drop (seq.length - h)).length = h := by
    rw [List.length_drop]
    omega
  rw [circularExtend, List.append_assoc]
  obtain hfst | hfst := Nat.lt_or_ge k h
  · rw [List.getElem?_append_left (by omega), List.getElem?_drop, Nat.mod_eq_of_lt (by omega)]
    congr 1
    omega
  rw [List.getElem?_append_right (by omega), hfront]
  obtain hmid | hmid := Nat.lt_or_ge (k - h) seq.length
  · have hidx : k + seq.length - h = k - h + seq.length := by omega
    rw [List.getElem?_append_left hmid, hidx, Nat.add_mod_right, Nat.mod_eq_of_lt hmid]
  · have hidx : k + seq.length - h = k - h - seq.length + seq.length + seq.length := by omega
    rw [List.getElem?_append_right hmid, List.getElem?_take_of_lt (by omega), hidx, Nat.add_mod_right,
      Nat.add_mod_right, Nat.mod_eq_of_lt (by omega)]

section

variable {s : State}

theorem cextResult_of_odd (hodd : s.span.toNat % 2 ≠ 0) :
    cextResult s = .raised (configFault 6 s.span.toNat 2) s := if_pos hodd

variable (heven : s.span.toNat % 2 = 0)

include heven

theorem cextResult_of_short (hlen : s.mem.symbuf.length < s.span.toNat / 2) :
    cextResult s = .raised ⟨.seq, 1, s.mem.symbuf.length, (s.span.toNat / 2 : Nat)⟩ s :=
  (if_neg (not_not.2 heven)).trans (if_pos hlen)

theorem cextResult_of_long (hlen : s.span.toNat / 2 ≤ s.mem.symbuf.length) :
    cextResult s =
      if s.params.caps.ext.size < s.mem.symbuf.length + 2 * (s.span.toNat / 2) then
        .raised (capacityFault 2 (s.mem.symbuf.length + 2 * (s.span.toNat / 2)) s.params.caps.ext) s
      else .done { s with mem := { s.mem with extbuf := circularExtend s.mem.symbuf (s.span.toNat / 2) } } :=
  (if_neg (not_not.2 heven)).trans (if_neg (Nat.not_lt.2 hlen))

end

/-- What CEXT does in IDLE (R191). -/
theorem exec_cext_of_idle {s : State} (h : s.phase = .idle) : exec .cext s = .next (finish (cextResult s)) :=
  runInIdle_of_idle h

/-- Settles O12, test by test. -/
theorem cextExtendsCircularly : Obligations.CextExtendsCircularly := by
  intro s hs span h len cap
  rw [exec_cext_of_idle hs]
  refine ⟨fun hodd => ?odd, fun ⟨heven, hlen⟩ => ?short, fun ⟨heven, hlen, hcap⟩ => ?capacity,
    fun ⟨heven, hlen, hcap⟩ => ⟨circularExtend s.mem.symbuf h, ?completes, circularExtend_length _ hlen,
      fun _ => circularExtend_getElem? _ hlen⟩⟩
  case odd => rw [cextResult_of_odd hodd]; rfl
  case short => rw [cextResult_of_short heven hlen]; rfl
  case capacity => rw [cextResult_of_long heven hlen, if_pos hcap]; rfl
  case completes => rw [cextResult_of_long heven hlen, if_neg (Nat.not_lt.2 hcap)]; rfl

end Sys2Proof.Machine
end

section
/-! O13. Every element of a zero-stuffed sequence, and ZSTUFF case by case (R192). -/

namespace Sys2Proof.Machine

theorem zeroStuff_cons (e : Cplx) (es : List Cplx) (p : Nat) :
    zeroStuff (e :: es) p = (e :: List.replicate (p - 1) zeroSample) ++ zeroStuff es p := rfl

theorem zeroStuff_getElem? {p : Nat} (hp : p ≠ 0) (seq : List Cplx) {k : Nat} (hk : k < seq.length * p) :
    (zeroStuff seq p)[k]? = if k % p = 0 then seq[k / p]? else some zeroSample := by
  have hblock (e : Cplx) : (e :: List.replicate (p - 1) zeroSample).length = p := by
    rw [List.length_cons, List.length_replicate]
    omega
  induction seq generalizing k with
  | nil => simp at hk
  | cons e es ih =>
    rw [zeroStuff_cons]
    obtain hfst | hrest := Nat.lt_or_ge k p
    · rw [List.getElem?_append_left (by rwa [hblock]), Nat.mod_eq_of_lt hfst, Nat.div_eq_of_lt hfst]
      cases k with
      | zero => rfl
      | succ k => rw [if_neg k.succ_ne_zero, List.getElem?_cons_succ, List.getElem?_replicate_of_lt (by omega)]
    · have hk' : k - p < es.length * p := by
        rw [List.length_cons, Nat.succ_mul] at hk
        omega
      rw [List.getElem?_append_right (by rwa [hblock]), hblock, ih hk', ← Nat.mod_eq_sub_mod hrest,
        Nat.div_eq_sub_div (Nat.pos_of_ne_zero hp) hrest, List.getElem?_cons_succ]

theorem zstuffResult_of_zero {s : State} (hp : s.sps.toNat = 0) :
    zstuffResult s = .raised (configFault 5 0 1) s := if_pos hp

theorem zstuffResult_of_ne_zero {s : State} (hp : s.sps.toNat ≠ 0) :
    zstuffResult s =
      if s.params.caps.x.size < s.mem.extbuf.length * s.sps.toNat then
        .raised (capacityFault 3 (s.mem.extbuf.length * s.sps.toNat) s.params.caps.x) s
      else .done { s with mem := { s.mem with xbuf := zeroStuff s.mem.extbuf s.sps.toNat } } := if_neg hp

/-- What ZSTUFF does in IDLE (R192). -/
theorem exec_zstuff_of_idle {s : State} (h : s.phase = .idle) : exec .zstuff s = .next (finish (zstuffResult s)) :=
  runInIdle_of_idle h

/-- Settles O13, test by test. -/
theorem zstuffSpreadsTheSymbols : Obligations.ZstuffSpreadsTheSymbols := by
  intro s hs p len cap
  rw [exec_zstuff_of_idle hs]
  refine ⟨fun hp => ?zero, fun ⟨hp, hcap⟩ => ?capacity, fun ⟨hp, hcap⟩ =>
    ⟨zeroStuff s.mem.extbuf p, ?completes, zeroStuff_length _ hp, fun _ => zeroStuff_getElem? hp _⟩⟩
  case zero => rw [zstuffResult_of_zero hp]; rfl
  case capacity => rw [zstuffResult_of_ne_zero hp, if_pos hcap]; rfl
  case completes => rw [zstuffResult_of_ne_zero hp, if_neg (Nat.not_lt.2 hcap)]; rfl

end Sys2Proof.Machine
end

section
/-! O14. The taps of FGEN one by one, and FGEN case by case (R200, R201). -/

namespace Sys2Proof.Machine

theorem filterTaps_getElem? (ν : Config.Numerics) (kind : Nat) (a : Rat) {span p j : Nat} (hj : j ≤ span * p) :
    (filterTaps ν kind a span p)[j]? = some (filterTap ν kind a (tapPosition (span * p / 2) p j)) := by
  rw [filterTaps, List.getElem?_map, List.getElem?_range (Nat.lt_succ_of_le hj), Option.map_some]

section

variable {s : State}

theorem fgenResult_of_unknownKind (hkind : 1 < s.fkind.toNat) :
    fgenResult s = .raised (configFault 2 s.fkind.toNat 1) s := if_pos hkind

variable (hkind : s.fkind.toNat ≤ 1)

include hkind

theorem fgenResult_of_zero (hp : s.sps.toNat = 0) : fgenResult s = .raised (configFault 5 0 1) s :=
  (if_neg (Nat.not_lt.2 hkind)).trans (if_pos hp)

variable (hp : s.sps.toNat ≠ 0)

include hp

theorem fgenResult_of_odd (hodd : s.span.toNat % 2 ≠ 0) :
    fgenResult s = .raised (configFault 6 s.span.toNat 2) s :=
  (if_neg (Nat.not_lt.2 hkind)).trans ((if_neg hp).trans (if_pos hodd))

variable (heven : s.span.toNat % 2 = 0)

include heven

theorem fgenResult_of_nonfinite (ha : numOf s.rolloff.pattern = none) :
    fgenResult s = .raised (numfmtFault 1 s.rolloff.pattern) s := by
  simp [fgenResult, Nat.not_lt.2 hkind, hp, heven, ha]

variable {a : Rat} (ha : numOf s.rolloff.pattern = some a)

include ha

theorem fgenResult_of_outside (hout : a < 0 ∨ 1 < a) :
    fgenResult s = .raised (configFault 7 s.rolloff.pattern.toInt 1) s := by
  simp [fgenResult, Nat.not_lt.2 hkind, hp, heven, ha, hout]

theorem fgenResult_of_legal (h0 : 0 ≤ a) (h1 : a ≤ 1) :
    fgenResult s =
      if s.params.caps.tap.size < s.span.toNat * s.sps.toNat + 1 then
        .raised (capacityFault 4 (s.span.toNat * s.sps.toNat + 1) s.params.caps.tap) s
      else .done { s with mem := { s.mem with
        taps := filterTaps s.params.numerics s.fkind.toNat a s.span.toNat s.sps.toNat } } := by
  have hin : ¬ (a < 0 ∨ 1 < a) := not_or.2 ⟨not_lt.2 h0, not_lt.2 h1⟩
  simp only [fgenResult, Nat.not_lt.2 hkind, hp, heven, ha, hin, ne_eq, not_true_eq_false, if_false]

end

/-- What FGEN does in IDLE (R200). -/
theorem exec_fgen_of_idle {s : State} (h : s.phase = .idle) : exec .fgen s = .next (finish (fgenResult s)) :=
  runInIdle_of_idle h

/-- FGEN with a legal configuration and room for the taps (R200). -/
theorem exec_fgen_of_legal {s : State} {a : Rat} (h : s.phase = .idle) (hkind : s.fkind.toNat ≤ 1)
    (hp : s.sps.toNat ≠ 0) (heven : s.span.toNat % 2 = 0) (ha : numOf s.rolloff.pattern = some a) (h0 : 0 ≤ a)
    (h1 : a ≤ 1) (hcap : s.span.toNat * s.sps.toNat + 1 ≤ s.params.caps.tap.size) :
    exec .fgen s = .next (completed s { s.mem with
      taps := filterTaps s.params.numerics s.fkind.toNat a s.span.toNat s.sps.toNat }) := by
  rw [exec_fgen_of_idle h, fgenResult_of_legal hkind hp heven ha h0 h1, if_neg (Nat.not_lt.2 hcap)]
  rfl

/-- Settles O14, test by test. -/
theorem fgenBuildsTheFilter : Obligations.FgenBuildsTheFilter := by
  intro s hs kind p span cap pattern
  refine ⟨fun hkind => ?unknownKind, fun ⟨hkind, hp⟩ => ?zero, fun ⟨hkind, hp, hodd⟩ => ?odd,
    fun ⟨hkind, hp, heven, ha⟩ => ?nonfinite, fun a ⟨hkind, hp, heven, ha, hout⟩ => ?outside,
    fun a ⟨hkind, hp, heven, ha, h0, h1, hcap⟩ => ?capacity, fun a ⟨hkind, hp, heven, ha, h0, h1, hcap⟩ =>
      ⟨filterTaps s.params.numerics kind a span p, exec_fgen_of_legal hs hkind hp heven ha h0 h1 hcap,
        filterTaps_length _ _ _ _ _, fun _ => filterTaps_getElem? _ _ _⟩⟩
  case unknownKind => rw [exec_fgen_of_idle hs, fgenResult_of_unknownKind hkind]; rfl
  case zero => rw [exec_fgen_of_idle hs, fgenResult_of_zero hkind hp]; rfl
  case odd => rw [exec_fgen_of_idle hs, fgenResult_of_odd hkind hp hodd]; rfl
  case nonfinite => rw [exec_fgen_of_idle hs, fgenResult_of_nonfinite hkind hp heven ha]; rfl
  case outside => rw [exec_fgen_of_idle hs, fgenResult_of_outside hkind hp heven ha hout]; rfl
  case capacity => rw [exec_fgen_of_idle hs, fgenResult_of_legal hkind hp heven ha h0 h1, if_pos hcap]; rfl

end Sys2Proof.Machine
end

section
/-! O17. Symmetry, center and zeros of the taps in the reference numerics (R205). -/

namespace Sys2Proof

open Real

/-- The library's `sinc` is that of R202 without the factor `π`. -/
theorem realSinc_eq_sinc (u : ℝ) : realSinc u = Real.sinc (π * u) := by
  simp [realSinc, Real.sinc, Real.pi_ne_zero]

@[simp] theorem realSinc_zero : realSinc 0 = 1 := if_pos rfl

@[simp] theorem realSinc_neg (u : ℝ) : realSinc (-u) = realSinc u := by
  rw [realSinc_eq_sinc, realSinc_eq_sinc, mul_neg, Real.sinc_neg]

theorem realSinc_intCast {n : ℤ} (hn : n ≠ 0) : realSinc n = 0 := by
  rw [realSinc, if_neg (Int.cast_ne_zero.2 hn), mul_comm, Real.sin_int_mul_pi, zero_div]

/-- No branch of the raised-cosine tap divides by zero. -/
theorem tapRC_denominator_ne_zero {a x : ℚ} (h0 : 0 ≤ a) (hs : ¬ (a ≠ 0 ∧ 2 * a * |x| = 1)) :
    1 - (2 * a * x) ^ 2 ≠ 0 := by
  intro h
  have habs : |2 * a * x| = 1 := (abs_eq zero_le_one).2 (sq_eq_one_iff.1 (sub_eq_zero.1 h).symm)
  rw [abs_mul, abs_of_nonneg (mul_nonneg zero_le_two h0)] at habs
  refine hs ⟨?_, habs⟩
  rintro rfl
  simp at habs

/-- No branch of the root-raised-cosine tap divides by zero. -/
theorem tapRRC_denominator_ne_zero {a x : ℚ} (h0 : 0 ≤ a) (hx : x ≠ 0) (hs : ¬ (a ≠ 0 ∧ 4 * a * |x| = 1)) :
    x * (1 - (4 * a * x) ^ 2) ≠ 0 := by
  have hfour : 2 * (2 * a) = 4 * a := by ring
  have hs' : ¬ (2 * a ≠ 0 ∧ 2 * (2 * a) * |x| = 1) := by
    rwa [hfour, mul_ne_zero_iff_left two_ne_zero]
  rw [← hfour]
  exact mul_ne_zero hx (tapRC_denominator_ne_zero (mul_nonneg zero_le_two h0) hs')

theorem Num.toReal_tapRC_neg (a x : ℚ) : (Num.tapRC a (-x)).toReal = (Num.tapRC a x).toReal := by
  by_cases hx : x = 0
  · rw [hx, neg_zero]
  have hx' : -x ≠ 0 := neg_ne_zero.2 hx
  by_cases hs : a ≠ 0 ∧ 2 * a * |x| = 1
  · rw [toReal_tapRC_singular hx hs, toReal_tapRC_singular hx' (by rwa [abs_neg])]
  · rw [toReal_tapRC_regular hx hs, toReal_tapRC_regular hx' (by rwa [abs_neg])]
    simp

theorem Num.toReal_tapRRC_neg (a x : ℚ) : (Num.tapRRC a (-x)).toReal = (Num.tapRRC a x).toReal := by
  by_cases hx : x = 0
  · rw [hx, neg_zero]
  have hx' : -x ≠ 0 := neg_ne_zero.2 hx
  by_cases hs : a ≠ 0 ∧ 4 * a * |x| = 1
  · rw [toReal_tapRRC_singular hx hs, toReal_tapRRC_singular hx' (by rwa [abs_neg])]
  · rw [toReal_tapRRC_regular hx hs, toReal_tapRRC_regular hx' (by rwa [abs_neg])]
    simp only [Rat.cast_neg, mul_neg, neg_mul, Real.sin_neg, Real.cos_neg, neg_sq, ← neg_add, neg_div_neg_eq]

/-- The raised-cosine tap is 0 at every whole position but 0, in both of the other branches. -/
theorem Num.toReal_tapRC_intCast (a : ℚ) {n : ℤ} (hn : n ≠ 0) : (Num.tapRC a n).toReal = 0 := by
  have hx : (n : ℚ) ≠ 0 := Int.cast_ne_zero.2 hn
  by_cases hs : a ≠ 0 ∧ 2 * a * |(n : ℚ)| = 1
  · have hpos : 1 / (2 * a) = |(n : ℚ)| := by
      rw [div_eq_iff (mul_ne_zero two_ne_zero hs.1), mul_comm, hs.2]
    have hreal : 1 / (2 * (a : ℝ)) = ((|n| : ℤ) : ℝ) := by exact_mod_cast congrArg (Rat.cast (K := ℝ)) hpos
    rw [toReal_tapRC_singular hx hs, hreal, realSinc_intCast (abs_ne_zero.2 hn), mul_zero]
  · rw [toReal_tapRC_regular hx hs, Rat.cast_intCast, realSinc_intCast hn, zero_mul, zero_div]

theorem Num.toReal_tapRC_zero (x : ℚ) : (Num.tapRC 0 x).toReal = realSinc x := by
  by_cases hx : x = 0
  · rw [hx, toReal_tapRC_center, Rat.cast_zero, realSinc_zero]
  · rw [toReal_tapRC_regular hx (fun hs => hs.1 rfl)]
    simp

theorem Num.toReal_tapRRC_zero (x : ℚ) : (Num.tapRRC 0 x).toReal = realSinc x := by
  by_cases hx : x = 0
  · rw [hx, toReal_tapRRC_center, Rat.cast_zero, realSinc_zero]
    simp
  · rw [toReal_tapRRC_regular hx (fun hs => hs.1 rfl), realSinc, if_neg (Rat.cast_ne_zero.2 hx)]
    simp

namespace Machine

theorem filterTap_reference_rc (a x : Rat) : filterTap .reference 1 a x = Num.tapRC a x := rfl

theorem filterTap_reference_rrc (a x : Rat) : filterTap .reference 0 a x = Num.tapRRC a x := rfl

theorem filterTap_reference_neg {kind : Nat} (hkind : kind ≤ 1) (a x : Rat) :
    (filterTap .reference kind a (-x)).toReal = (filterTap .reference kind a x).toReal :=
  match kind, hkind with
  | 0, _ => Num.toReal_tapRRC_neg a x
  | 1, _ => Num.toReal_tapRC_neg a x

theorem filterTap_reference_zero {kind : Nat} (hkind : kind ≤ 1) (x : Rat) :
    (filterTap .reference kind 0 x).toReal = realSinc x :=
  match kind, hkind with
  | 0, _ => Num.toReal_tapRRC_zero x
  | 1, _ => Num.toReal_tapRC_zero x

theorem tapPosition_center (c p : Nat) : tapPosition c p c = 0 := by simp [tapPosition]

theorem tapPosition_reflect {c j : Nat} (p : Nat) (hj : j ≤ 2 * c) :
    tapPosition c p (2 * c - j) = -tapPosition c p j := by
  rw [tapPosition, tapPosition, Nat.cast_sub hj, ← neg_div]
  push_cast
  ring

/-- A tap a multiple of SPS away from the center stands at a whole position. -/
theorem exists_tapPosition_eq_intCast {c p j : Nat} (hp : p ≠ 0) (hj : j ≠ c) (hmod : j % p = c % p) :
    ∃ n : ℤ, n ≠ 0 ∧ tapPosition c p j = n := by
  obtain ⟨n, hn⟩ : (p : ℤ) ∣ (j : ℤ) - c := (Nat.modEq_iff_dvd.1 hmod.symm)
  refine ⟨n, ?_, ?_⟩
  · rintro rfl
    omega
  · have hcast : (j : Rat) - c = p * n := by exact_mod_cast hn
    rw [tapPosition, hcast, mul_div_cancel_left₀ _ (Nat.cast_ne_zero.2 hp)]

theorem realAt_filterTaps (ν : Config.Numerics) (kind : Nat) (a : Rat) {span p j : Nat} (hj : j ≤ span * p) :
    realAt (filterTaps ν kind a span p) j = (filterTap ν kind a (tapPosition (span * p / 2) p j)).toReal := by
  rw [realAt, List.getD_eq_getElem?_getD, filterTaps_getElem? ν kind a hj, Option.getD_some]

/-- Settles O17: the taps of FGEN one by one, each by its kind. -/
theorem filterTapsAreSymmetricAndInterpolate : Obligations.FilterTapsAreSymmetricAndInterpolate := by
  refine ⟨?taps, fun _ _ hs h0 => tapRC_denominator_ne_zero h0 hs,
    fun _ _ hx hs h0 => tapRRC_denominator_ne_zero h0 hx hs⟩
  intro s a kind p span c hs href hkind hp heven ha h0 h1 hcap
  have hc : span * p = 2 * c := (Nat.mul_div_cancel' ((Nat.dvd_of_mod_eq_zero heven).mul_right p)).symm
  have hcenter : c ≤ span * p := by omega
  refine ⟨filterTaps s.params.numerics kind a span p, exec_fgen_of_legal hs hkind hp heven ha h0 h1 hcap,
    filterTaps_length _ _ _ _ _, ?_⟩
  intro tap
  have htap {j : Nat} (hj : j ≤ span * p) : tap j = (filterTap .reference kind a (tapPosition c p j)).toReal := by
    rw [← href]
    exact realAt_filterTaps _ _ _ hj
  refine ⟨fun j hj => ?symmetric, fun hrc => ⟨?centerRC, fun j hj hne hmod => ?zeros⟩, fun hrrc => ?centerRRC,
    fun hzero j hj => ?sinc⟩
  case symmetric =>
    rw [htap hj, htap (Nat.sub_le _ _), hc, tapPosition_reflect p (hc ▸ hj), filterTap_reference_neg hkind]
  case centerRC => rw [htap hcenter, tapPosition_center, hrc, filterTap_reference_rc, Num.toReal_tapRC_center]
  case zeros =>
    obtain ⟨n, hn, hpos⟩ := exists_tapPosition_eq_intCast hp hne hmod
    rw [htap hj, hpos, hrc, filterTap_reference_rc, Num.toReal_tapRC_intCast a hn]
  case centerRRC => rw [htap hcenter, tapPosition_center, hrrc, filterTap_reference_rrc, Num.toReal_tapRRC_center]
  case sinc =>
    rw [htap hj, hzero, filterTap_reference_zero hkind, tapPosition]
    push_cast
    rfl

end Machine
end Sys2Proof
end

section
/-! O18. Each lane of a convolved sample as a sum of reals, and CONV case by case (R210). -/

namespace Sys2Proof.Machine

theorem sum_map_range (f : Nat → ℝ) (n : Nat) : ((List.range n).map f).sum = ∑ d ∈ Finset.range n, f d := rfl

/-- The products of output sample `m` from the lowest index of R210 on, as one sum. -/
theorem reference_sum_convProducts (taps lane : List Num) (m : Nat) (hlane : lane.length ≠ 0) :
    (Config.Numerics.reference.sum (convProducts .reference taps lane m)).toReal =
      ∑ k ∈ Finset.Icc (m + 1 - taps.length) (min m (lane.length - 1)), realAt taps (m - k) * realAt lane k := by
  have hIcc : Finset.Icc (m + 1 - taps.length) (min m (lane.length - 1)) =
      Finset.Ico (m + 1 - taps.length) (min (m + 1) lane.length) := by
    ext k
    simp only [Finset.mem_Icc, Finset.mem_Ico]
    omega
  rw [hIcc, Finset.sum_Ico_eq_sum_range, reference_sum_toReal, convProducts, List.map_map, sum_map_range]
  exact Finset.sum_congr rfl fun _ _ => Num.toReal_mul _ _

theorem convolve_getElem? (ν : Config.Numerics) (taps : List Num) (x : List Cplx) {m : Nat}
    (hm : m < x.length + taps.length - 1) : (convolve ν taps x)[m]? = some (convSample ν taps x m) := by
  rw [convolve, List.getElem?_map, List.getElem?_range hm, Option.map_some]

section

variable {s : State}

theorem convResult_of_empty (h : s.mem.xbuf.length = 0 ∨ s.mem.taps.length = 0) :
    convResult s = .raised ⟨.seq, 2, 0, 1⟩ s := by
  obtain h | h := h <;> simp [convResult, h]

theorem convResult_of_nonempty (hx : s.mem.xbuf.length ≠ 0) (hn : s.mem.taps.length ≠ 0) :
    convResult s =
      if s.params.caps.y.size < s.mem.xbuf.length + s.mem.taps.length - 1 then
        .raised (capacityFault 5 (s.mem.xbuf.length + s.mem.taps.length - 1) s.params.caps.y) s
      else .done { s with mem := { s.mem with ybuf := convolve s.params.numerics s.mem.taps s.mem.xbuf } } :=
  (if_neg hx).trans (if_neg hn)

end

/-- What CONV does in IDLE (R210). -/
theorem exec_conv_of_idle {s : State} (h : s.phase = .idle) : exec .conv s = .next (finish (convResult s)) :=
  runInIdle_of_idle h

/-- Settles O18, test by test, and lane by lane. -/
theorem convIsTheFullConvolution : Obligations.ConvIsTheFullConvolution := by
  intro s hs x n cap
  rw [exec_conv_of_idle hs]
  have hlane (lane : Cplx → Num) : (s.mem.xbuf.map lane).length = x := List.length_map _
  refine ⟨fun hempty => ?empty, fun ⟨hx, hn, hcap⟩ => ?capacity, fun ⟨hx, hn, hcap⟩ =>
    ⟨convolve s.params.numerics s.mem.taps s.mem.xbuf, ?completes, convolve_length _ _ _, fun href m hm =>
      ⟨_, convolve_getElem? _ _ _ hm, ?laneI, ?laneQ⟩⟩⟩
  case empty => rw [convResult_of_empty hempty]; rfl
  case capacity => rw [convResult_of_nonempty hx hn, if_pos hcap]; rfl
  case completes => rw [convResult_of_nonempty hx hn, if_neg (Nat.not_lt.2 hcap)]; rfl
  case laneI | laneQ => rw [convSample, href, reference_sum_convProducts _ _ _ (by rwa [hlane]), hlane]

end Sys2Proof.Machine
end

section
/-! O19. Every element of a trimmed sequence, and TRIM case by case (R230). -/

namespace Sys2Proof.Machine

theorem trimEnds_getElem? {α : Type} (seq : List α) {t m : Nat} (hm : m < seq.length - 2 * t) :
    (trimEnds seq t)[m]? = seq[m + t]? := by
  rw [trimEnds, List.getElem?_take_of_lt hm, List.getElem?_drop, Nat.add_comm]

section

variable {s : State}

theorem trimResult_of_no_taps (hn : s.mem.taps.length = 0) : trimResult s = .raised ⟨.seq, 3, 0, 1⟩ s := if_pos hn

variable (hn : s.mem.taps.length ≠ 0)

include hn

theorem trimResult_of_short (hy : s.mem.ybuf.length < 2 * (s.mem.taps.length - 1)) :
    trimResult s = .raised ⟨.seq, 4, s.mem.ybuf.length, (2 * (s.mem.taps.length - 1) : Nat)⟩ s :=
  (if_neg hn).trans (if_pos hy)

theorem trimResult_of_long (hy : 2 * (s.mem.taps.length - 1) ≤ s.mem.ybuf.length) :
    trimResult s =
      if s.params.caps.z.size < s.mem.ybuf.length - 2 * (s.mem.taps.length - 1) then
        .raised (capacityFault 6 (s.mem.ybuf.length - 2 * (s.mem.taps.length - 1)) s.params.caps.z) s
      else .done { s with mem := { s.mem with zbuf := trimEnds s.mem.ybuf (s.mem.taps.length - 1) } } :=
  (if_neg hn).trans (if_neg (Nat.not_lt.2 hy))

end

/-- What TRIM does in IDLE (R230). -/
theorem exec_trim_of_idle {s : State} (h : s.phase = .idle) : exec .trim s = .next (finish (trimResult s)) :=
  runInIdle_of_idle h

/-- Settles O19, test by test. -/
theorem trimDropsBothEnds : Obligations.TrimDropsBothEnds := by
  intro s hs n t y cap
  rw [exec_trim_of_idle hs]
  refine ⟨fun hn => ?noTaps, fun ⟨hn, hy⟩ => ?short, fun ⟨hn, hy, hcap⟩ => ?capacity, fun ⟨hn, hy, hcap⟩ =>
    ⟨trimEnds s.mem.ybuf t, ?completes, trimEnds_length _ _, fun _ => trimEnds_getElem? _⟩⟩
  case noTaps => rw [trimResult_of_no_taps hn]; rfl
  case short => rw [trimResult_of_short hn hy]; rfl
  case capacity => rw [trimResult_of_long hn hy, if_pos hcap]; rfl
  case completes => rw [trimResult_of_long hn hy, if_neg (Nat.not_lt.2 hcap)]; rfl

end Sys2Proof.Machine
end

section
/-! Where the pseudocode of the filter path completes, and with which buffers (R191 to R230). -/

namespace Sys2Proof.Machine

/-- `s` with other buffers and CMAP. -/
def withMem (m : Memory) (s : State) : State := { s with mem := m }

@[simp] theorem withMem_mem (m : Memory) (s : State) : (withMem m s).mem = m := rfl

@[simp] theorem withMem_modtype (m : Memory) (s : State) : (withMem m s).modtype = s.modtype := rfl

@[simp] theorem withMem_sps (m : Memory) (s : State) : (withMem m s).sps = s.sps := rfl

@[simp] theorem withMem_span (m : Memory) (s : State) : (withMem m s).span = s.span := rfl

@[simp] theorem withMem_fkind (m : Memory) (s : State) : (withMem m s).fkind = s.fkind := rfl

@[simp] theorem withMem_params (m : Memory) (s : State) : (withMem m s).params = s.params := rfl

@[simp] theorem withMem_withMem (m m' : Memory) (s : State) : withMem m (withMem m' s) = withMem m s := rfl

/-- A test that raises is passed where the pseudocode completes. -/
theorem ite_raised_eq_done_iff {p : Prop} [Decidable p] {e : Raise} {s u : State} {r : Result} :
    (if p then .raised e s else r) = .done u ↔ ¬ p ∧ r = .done u := by
  split <;> simp [*]

theorem done_eq_done_iff {s u : State} : Result.done s = .done u ↔ s = u := by
  rw [Result.done.injEq]

section

variable {s u : State}

theorem cextResult_eq_done_iff : cextResult s = .done u ↔
    s.span.toNat % 2 = 0 ∧ s.span.toNat / 2 ≤ s.mem.symbuf.length ∧
      s.mem.symbuf.length + 2 * (s.span.toNat / 2) ≤ s.params.caps.ext.size ∧
      withMem { s.mem with extbuf := circularExtend s.mem.symbuf (s.span.toNat / 2) } s = u := by
  simp only [cextResult, ite_raised_eq_done_iff, done_eq_done_iff, not_lt, ne_eq, not_not, withMem]

theorem zstuffResult_eq_done_iff : zstuffResult s = .done u ↔
    s.sps.toNat ≠ 0 ∧ s.mem.extbuf.length * s.sps.toNat ≤ s.params.caps.x.size ∧
      withMem { s.mem with xbuf := zeroStuff s.mem.extbuf s.sps.toNat } s = u := by
  simp only [zstuffResult, ite_raised_eq_done_iff, done_eq_done_iff, not_lt, ne_eq, withMem]

theorem fgenResult_eq_done_iff : fgenResult s = .done u ↔
    s.fkind.toNat ≤ 1 ∧ s.sps.toNat ≠ 0 ∧ s.span.toNat % 2 = 0 ∧
      ∃ a, numOf s.rolloff.pattern = some a ∧ 0 ≤ a ∧ a ≤ 1 ∧
        s.span.toNat * s.sps.toNat + 1 ≤ s.params.caps.tap.size ∧
        withMem { s.mem with
          taps := filterTaps s.params.numerics s.fkind.toNat a s.span.toNat s.sps.toNat } s = u := by
  cases ha : numOf s.rolloff.pattern with
  | none => simp [fgenResult, ite_raised_eq_done_iff, ha]
  | some a =>
    simp only [fgenResult, ha, ite_raised_eq_done_iff, done_eq_done_iff, not_lt, not_or, ne_eq, not_not, withMem,
      Option.some.injEq, exists_eq_left', and_assoc]

theorem convResult_eq_done_iff : convResult s = .done u ↔
    s.mem.xbuf.length ≠ 0 ∧ s.mem.taps.length ≠ 0 ∧
      s.mem.xbuf.length + s.mem.taps.length - 1 ≤ s.params.caps.y.size ∧
      withMem { s.mem with ybuf := convolve s.params.numerics s.mem.taps s.mem.xbuf } s = u := by
  simp only [convResult, ite_raised_eq_done_iff, done_eq_done_iff, not_lt, ne_eq, withMem]

theorem trimResult_eq_done_iff : trimResult s = .done u ↔
    s.mem.taps.length ≠ 0 ∧ 2 * (s.mem.taps.length - 1) ≤ s.mem.ybuf.length ∧
      s.mem.ybuf.length - 2 * (s.mem.taps.length - 1) ≤ s.params.caps.z.size ∧
      withMem { s.mem with zbuf := trimEnds s.mem.ybuf (s.mem.taps.length - 1) } s = u := by
  simp only [trimResult, ite_raised_eq_done_iff, done_eq_done_iff, not_lt, ne_eq, withMem]

end

/-- A command that completes ends where its pseudocode does, CIX one higher. -/
theorem Completes.exists_done {i : Instr} {body : State → Result} {s t : State} (h : Completes i s t)
    (hexec : exec i = runInIdle body) : ∃ u, body s = .done u ∧ t = advanceIndex u := by
  obtain ⟨hidle, hx, ht⟩ := h
  rw [hexec, runInIdle_of_idle hidle] at hx
  cases hx
  cases hr : body s with
  | done u => exact ⟨u, rfl, rfl⟩
  | raised e u =>
    rw [hr] at ht
    cases ht

end Sys2Proof.Machine
end

section
/-! O20. The trimmed convolution of a circularly extended sequence as one period of a circular convolution (R231). -/

namespace Sys2Proof.Machine

/-- The periodic impulse train of a lane of the symbols: symbol `k / p` of the circle at the multiples `k` of `p`. -/
noncomputable def impulseTrain (lane : Cplx → Num) (symbols : List Cplx) (p : Nat) (k : ℤ) : ℝ :=
  if (p : ℤ) ∣ k then realAt (symbols.map lane) ((k / (p : ℤ)) % (symbols.length : ℤ)).toNat else 0

theorem realAt_map (lane : Cplx → Num) (l : List Cplx) (k : Nat) :
    realAt (l.map lane) k = ((l[k]?.map lane).getD Num.zero).toReal := by
  rw [realAt, List.getD_eq_getElem?_getD, List.getElem?_map]

/-- `(q − h) mod len` as a natural number. -/
theorem toNat_sub_emod {q h len : Nat} (hh : h ≤ len) :
    (((q : ℤ) - h) % (len : ℤ)).toNat = (q + len - h) % len := by
  have hcast : ((q + len - h : Nat) : ℤ) = (q : ℤ) - h + len := by omega
  rw [← Int.add_emod_right, ← hcast, ← Int.natCast_emod, Int.toNat_natCast]

/-- XBUF shows the impulse train, `SPAN/2` symbols late (R191, R192). -/
theorem realAt_zeroStuff_circularExtend (lane : Cplx → Num) (hzero : lane zeroSample = Num.zero) {symbols : List Cplx}
    {h p k : Nat} (hp : p ≠ 0) (hh : h ≤ symbols.length) (hk : k < (symbols.length + 2 * h) * p) :
    realAt ((zeroStuff (circularExtend symbols h) p).map lane) k =
      impulseTrain lane symbols p ((k : ℤ) - (h * p : Nat)) := by
  have hlen := circularExtend_length symbols hh
  have hdvd : (p : ℤ) ∣ (k : ℤ) - (h * p : Nat) ↔ k % p = 0 := by
    rw [dvd_sub_left (Int.natCast_dvd_natCast.2 (Nat.dvd_mul_left p h)), Int.natCast_dvd_natCast,
      Nat.dvd_iff_mod_eq_zero]
  rw [realAt_map, zeroStuff_getElem? hp _ (by rwa [hlen]), impulseTrain]
  by_cases hmod : k % p = 0
  · obtain ⟨q, rfl⟩ := Nat.dvd_of_mod_eq_zero hmod
    have hq : q < symbols.length + 2 * h := by
      rw [Nat.mul_comm p q] at hk
      exact Nat.lt_of_mul_lt_mul_right hk
    have hquot : (((p * q : Nat) : ℤ) - (h * p : Nat)) / (p : ℤ) = (q : ℤ) - h := by
      rw [show ((p * q : Nat) : ℤ) - (h * p : Nat) = p * ((q : ℤ) - h) by push_cast; ring]
      exact Int.mul_ediv_cancel_left _ (Nat.cast_ne_zero.2 hp)
    rw [if_pos hmod, if_pos (hdvd.2 hmod), hquot, toNat_sub_emod hh, realAt_map,
      Nat.mul_div_cancel_left q (Nat.pos_of_ne_zero hp), circularExtend_getElem? symbols hh hq]
  · rw [if_neg hmod, if_neg (mt hdvd.1 hmod), Option.map_some, Option.getD_some, hzero, Num.toReal_zero]

/-- An output sample of the full convolution where all the taps overlap the input, counted from the first input
sample under them. -/
theorem reference_sum_convProducts_inside (taps lane : List Num) {m n : Nat} (htaps : taps.length = n + 1)
    (hm : m + n < lane.length) :
    (Config.Numerics.reference.sum (convProducts .reference taps lane (m + n))).toReal =
      ∑ d ∈ Finset.range (n + 1), realAt taps (n - d) * realAt lane (m + d) := by
  have hwindow : Finset.Icc (m + n + 1 - taps.length) (min (m + n) (lane.length - 1)) =
      Finset.Ico m (m + (n + 1)) := by
    ext k
    simp only [Finset.mem_Icc, Finset.mem_Ico]
    omega
  rw [reference_sum_convProducts taps lane (m + n) (by omega), hwindow, Finset.sum_Ico_eq_sum_range,
    Nat.add_sub_cancel_left]
  refine Finset.sum_congr rfl fun d _ => ?_
  rw [Nat.add_sub_add_left]

section

variable {taps : List Num} {symbols : List Cplx} {h p : Nat} (hp : p ≠ 0) (hh : h ≤ symbols.length)
  (htaps : taps.length = 2 * (h * p) + 1)

include hp hh htaps

theorem trimmedConvolution_length (ν : Config.Numerics) :
    (trimEnds (convolve ν taps (zeroStuff (circularExtend symbols h) p)) (taps.length - 1)).length =
      symbols.length * p := by
  rw [trimEnds_length, convolve_length, zeroStuff_length _ hp, circularExtend_length _ hh, htaps, Nat.add_mul,
    Nat.mul_assoc 2 h p]
  omega

/-- Sample `m` of ZBUF is output sample `m + 2c` of the full convolution (R230). -/
theorem trimmedConvolution_getElem? (ν : Config.Numerics) {m : Nat} (hm : m < symbols.length * p) :
    (trimEnds (convolve ν taps (zeroStuff (circularExtend symbols h) p)) (taps.length - 1))[m]? =
      some (convSample ν taps (zeroStuff (circularExtend symbols h) p) (m + 2 * (h * p))) := by
  have hlen := trimmedConvolution_length hp hh htaps ν
  rw [trimEnds_length] at hlen
  rw [trimEnds_getElem? _ (by omega), convolve_getElem? _ _ _ (by rw [convolve_length] at hlen; omega), htaps,
    Nat.add_sub_cancel]

/-- A lane of that sample is the circular convolution, the filter delay `c` removed (R231). -/
theorem trimmedConvolution_lane (lane : Cplx → Num) (hzero : lane zeroSample = Num.zero) {m : Nat}
    (hm : m < symbols.length * p) :
    (Config.Numerics.reference.sum (convProducts .reference taps
        ((zeroStuff (circularExtend symbols h) p).map lane) (m + 2 * (h * p)))).toReal =
      ∑ d ∈ Finset.range (2 * (h * p) + 1), realAt taps (2 * (h * p) - d) *
        impulseTrain lane symbols p ((m : ℤ) + (d : ℤ) - (h * p : Nat)) := by
  have hroom : m + 2 * (h * p) < (symbols.length + 2 * h) * p := by
    rw [Nat.add_mul, Nat.mul_assoc 2 h p]
    omega
  rw [reference_sum_convProducts_inside _ _ htaps
    (by rwa [List.length_map, zeroStuff_length _ hp, circularExtend_length _ hh])]
  refine Finset.sum_congr rfl fun d hd => ?_
  have hd' := Finset.mem_range.1 hd
  rw [realAt_zeroStuff_circularExtend lane hzero hp hh (by omega), Nat.cast_add]

end

/-- Settles O20: the buffers of the five commands, and the trimmed convolution lane by lane. -/
theorem trimmedWaveformWraps : Obligations.TrimmedWaveformWraps := by
  intro s s1 s2 s3 s4 s5 href hcext hzstuff hfgen hconv htrim
  obtain ⟨u1, h1, rfl⟩ := hcext.exists_done rfl
  obtain ⟨heven, hh, -, rfl⟩ := cextResult_eq_done_iff.1 h1
  obtain ⟨u2, h2, rfl⟩ := hzstuff.exists_done rfl
  obtain ⟨hp, -, rfl⟩ := zstuffResult_eq_done_iff.1 h2
  obtain ⟨u3, h3, rfl⟩ := hfgen.exists_done rfl
  obtain ⟨-, -, -, a, -, -, -, -, rfl⟩ := fgenResult_eq_done_iff.1 h3
  obtain ⟨u4, h4, rfl⟩ := hconv.exists_done rfl
  obtain ⟨-, -, -, rfl⟩ := convResult_eq_done_iff.1 h4
  obtain ⟨u5, h5, rfl⟩ := htrim.exists_done rfl
  obtain ⟨-, -, -, rfl⟩ := trimResult_eq_done_iff.1 h5
  simp only [advanceIndex_mem, advanceIndex_sps, advanceIndex_span, advanceIndex_fkind, advanceIndex_params,
    withMem_mem, withMem_sps, withMem_span, withMem_fkind, withMem_params, href] at hp ⊢
  have htaps : (filterTaps .reference s.fkind.toNat a s.span.toNat s.sps.toNat).length =
      2 * (s.span.toNat / 2 * s.sps.toNat) + 1 := by
    rw [filterTaps_length, ← Nat.mul_assoc, Nat.mul_div_cancel' (Nat.dvd_of_mod_eq_zero heven)]
  exact ⟨trimmedConvolution_length hp hh htaps _, fun m hm =>
    ⟨_, trimmedConvolution_getElem? hp hh htaps _ hm, trimmedConvolution_lane hp hh htaps _ rfl hm,
      trimmedConvolution_lane hp hh htaps _ rfl hm⟩⟩

end Sys2Proof.Machine
end

section
/-! O21. NORM case by case, and the real number of a normalized lane (R235). -/

namespace Sys2Proof.Machine

section

variable {s : State}

theorem normResult_of_empty (hz : s.mem.zbuf.length = 0) : normResult s = .raised ⟨.seq, 5, 0, 1⟩ s := if_pos hz

variable (hz : s.mem.zbuf.length ≠ 0)

include hz

theorem normResult_of_no_room (hcap : s.params.caps.w.size < s.mem.zbuf.length) :
    normResult s = .raised (capacityFault 7 s.mem.zbuf.length s.params.caps.w) s :=
  (if_neg hz).trans (if_pos hcap)

theorem normResult_of_room (hcap : s.mem.zbuf.length ≤ s.params.caps.w.size) :
    normResult s =
      if s.params.numerics.eq (maxMag2 s.params.numerics s.mem.zbuf) Num.zero then .raised ⟨.divzero, 0, 0, 0⟩ s
      else .done { s with mem := { s.mem with
        wi := s.mem.zbuf.map fun v => normLane s.params.numerics (maxMag2 s.params.numerics s.mem.zbuf) v.i
        wq := s.mem.zbuf.map fun v => normLane s.params.numerics (maxMag2 s.params.numerics s.mem.zbuf) v.q } } :=
  (if_neg hz).trans (if_neg (Nat.not_lt.2 hcap))

end

/-- What NORM does in IDLE (R235). -/
theorem exec_norm_of_idle {s : State} (h : s.phase = .idle) : exec .norm s = .next (finish (normResult s)) :=
  runInIdle_of_idle h

end Sys2Proof.Machine

namespace Sys2Proof

/-- `n / Sqrt(m2)`, whether the root is taken at once or left pending (R236). -/
@[simp] theorem Sample.toReal_overRoot (n m2 : Num) :
    (Sample.overRoot n m2).toReal = n.toReal / Real.sqrt m2.toReal := by
  unfold Sample.overRoot
  split
  · rename_i q hq
    split
    · rename_i r hr
      rw [Sample.toReal_ofNum, Num.toReal_scale, Num.toReal_of_rat? hq, ← ratSqrt?_eq_sqrt hr]
      push_cast
      ring
    · rfl
  · rfl

namespace Machine

@[simp] theorem toReal_normLane_reference (m2 v : Num) :
    (normLane .reference m2 v).toReal = 707 / 1000 * v.toReal / Real.sqrt m2.toReal := by
  simp [normLane, Config.Numerics.overRoot, Config.Numerics.mul, Config.Numerics.ofRat, peak]

/-- Settles O21, test by test, and lane by lane. -/
theorem normScalesToThePeak : Obligations.NormScalesToThePeak := by
  intro s hs ν z cap m2
  rw [exec_norm_of_idle hs]
  refine ⟨fun hz => ?empty, fun ⟨hz, hcap⟩ => ?capacity, fun ⟨hz, hcap, hm2⟩ => ?zero, fun ⟨hz, hcap, hm2⟩ =>
    ⟨z.map fun v => normLane ν m2 v.i, z.map fun v => normLane ν m2 v.q, ?completes, List.length_map _,
      List.length_map _, fun href k hk => ⟨z[k], normLane ν m2 z[k].i, normLane ν m2 z[k].q, ?_⟩⟩⟩
  case empty => rw [normResult_of_empty hz]; rfl
  case capacity => rw [normResult_of_no_room hz hcap]; rfl
  case zero => rw [normResult_of_room hz hcap, if_pos hm2]; rfl
  case completes => rw [normResult_of_room hz hcap, if_neg (Bool.eq_false_iff.1 hm2)]; rfl
  simp [hk, href]

end Machine
end Sys2Proof
end

section
/-! O22. Rational closed forms are closed under `Mag2`, so that `M2` is the largest squared modulus of rational samples,
and NORM takes it to the square of PEAK (R236). -/

namespace Sys2Proof

/-- A closed form in rational form: no term, or the one term of a rational. -/
theorem Num.rat?_isSome_iff {a : Num} : a.rat?.isSome = true ↔ a.terms = [] ∨ ∃ c, a.terms = [⟨0, 0, c⟩] := by
  obtain ⟨ts⟩ := a
  match ts with
  | [] => simp [Num.rat?]
  | [⟨k, r, c⟩] => simp [Num.rat?, apply_ite Option.isSome]
  | _ :: _ :: _ => simp [Num.rat?]

theorem Num.rat?_isSome_insertTerm (c : ℚ) {ts : List Term} (h : (⟨ts⟩ : Num).rat?.isSome = true) :
    (⟨Num.insertTerm ⟨0, 0, c⟩ ts⟩ : Num).rat?.isSome = true := by
  rw [Num.rat?_isSome_iff] at h ⊢
  obtain rfl | ⟨d, rfl⟩ := h
  · by_cases hc : c = 0 <;> simp [Num.insertTerm, hc]
  · by_cases hc : c + d = 0 <;> simp [Num.insertTerm, hc]

theorem cosTerm_zero (q : ℚ) : cosTerm 0 0 q = ⟨0, 0, q⟩ := by
  have hfloor : Rat.floor 0 = 0 := rfl
  have hfold : foldAngle 0 = 0 := by simp [foldAngle, hfloor]
  norm_num [cosTerm, acuteTerm, hfold]

theorem Num.rat?_isSome_add {a b : Num} (ha : a.rat?.isSome = true) (hb : b.rat?.isSome = true) :
    (Num.add a b).rat?.isSome = true := by
  obtain hts | ⟨c, hts⟩ := Num.rat?_isSome_iff.1 ha
  · rwa [Num.add, hts]
  · rw [Num.add, hts]
    exact Num.rat?_isSome_insertTerm c hb

theorem Num.rat?_isSome_mul {a b : Num} (ha : a.rat?.isSome = true) (hb : b.rat?.isSome = true) :
    (Num.mul a b).rat?.isSome = true := by
  obtain hts | ⟨c, hts⟩ := Num.rat?_isSome_iff.1 ha
  · rw [Num.mul, hts]
    rfl
  obtain hus | ⟨d, hus⟩ := Num.rat?_isSome_iff.1 hb
  · rw [Num.mul, hts, hus]
    rfl
  · simp only [Num.mul, hts, hus, List.foldr_cons, List.foldr_nil, Num.mulTerm, add_zero, sub_zero, cosTerm_zero]
    exact Num.rat?_isSome_insertTerm _ (Num.rat?_isSome_insertTerm _ rfl)

/-- The order of the reference on rational closed forms is that of the reals. -/
theorem Num.lt_iff_toReal_lt {a b : Num} (ha : a.rat?.isSome = true) (hb : b.rat?.isSome = true) :
    a.lt b = true ↔ a.toReal < b.toReal := by
  obtain ⟨p, hp⟩ := Option.isSome_iff_exists.1 ha
  obtain ⟨q, hq⟩ := Option.isSome_iff_exists.1 hb
  rw [Num.toReal_of_rat? hp, Num.toReal_of_rat? hq, Num.lt, hp, hq, decide_eq_true_iff, Rat.cast_lt]

theorem Num.eq_iff_toReal_eq {a b : Num} (ha : a.rat?.isSome = true) (hb : b.rat?.isSome = true) :
    a.eq b = true ↔ a.toReal = b.toReal := by
  obtain ⟨p, hp⟩ := Option.isSome_iff_exists.1 ha
  obtain ⟨q, hq⟩ := Option.isSome_iff_exists.1 hb
  rw [Num.toReal_of_rat? hp, Num.toReal_of_rat? hq, Num.eq, hp, hq, decide_eq_true_iff, Rat.cast_inj]

namespace Machine

open Sys2Proof.Config

@[simp] theorem toReal_mag2_reference (z : Cplx) : (mag2 .reference z).toReal = z.i.toReal ^ 2 + z.q.toReal ^ 2 := by
  simp [mag2, Numerics.add, Numerics.mul, sq]

theorem rat?_isSome_mag2 {z : Cplx} (h : z.i.rat?.isSome = true ∧ z.q.rat?.isSome = true) :
    (mag2 .reference z).rat?.isSome = true :=
  Num.rat?_isSome_add (Num.rat?_isSome_mul h.1 h.1) (Num.rat?_isSome_mul h.2 h.2)

/-- `m` is rational and the largest squared modulus of the samples. -/
structure IsLargestMag2 (samples : List Cplx) (m : Num) : Prop where
  rational : m.rat?.isSome = true
  upper : ∀ z ∈ samples, (mag2 .reference z).toReal ≤ m.toReal
  attained : ∃ z ∈ samples, (mag2 .reference z).toReal = m.toReal

theorem isLargestMag2_singleton {z : Cplx} (h : z.i.rat?.isSome = true ∧ z.q.rat?.isSome = true) :
    IsLargestMag2 [z] (mag2 .reference z) where
  rational := rat?_isSome_mag2 h
  upper w hw := by rw [List.mem_singleton.1 hw]
  attained := ⟨z, List.mem_singleton_self z, rfl⟩

/-- One step of the search for `M2`: the larger of the best so far and the next sample's. -/
theorem IsLargestMag2.concat {samples : List Cplx} {m : Num} (h : IsLargestMag2 samples m) {z : Cplx}
    (hz : z.i.rat?.isSome = true ∧ z.q.rat?.isSome = true) :
    IsLargestMag2 (samples ++ [z]) (if Num.lt m (mag2 .reference z) then mag2 .reference z else m) := by
  have hlt := Num.lt_iff_toReal_lt h.rational (rat?_isSome_mag2 hz)
  obtain ⟨best, hmem, hbest⟩ := h.attained
  split
  · have hlarger := hlt.1 ‹_›
    refine ⟨rat?_isSome_mag2 hz, fun w hw => ?_, z, by simp, rfl⟩
    obtain hw | hw := List.mem_append.1 hw
    · exact (h.upper w hw).trans hlarger.le
    · rw [List.mem_singleton.1 hw]
  · have hsmaller := not_lt.1 (mt hlt.2 ‹_›)
    refine ⟨h.rational, fun w hw => ?_, best, List.mem_append_left _ hmem, hbest⟩
    obtain hw | hw := List.mem_append.1 hw
    · exact h.upper w hw
    · rwa [List.mem_singleton.1 hw]

theorem maxMag2_concat (ν : Numerics) {samples : List Cplx} (hne : samples ≠ []) (z : Cplx) :
    maxMag2 ν (samples ++ [z]) =
      if ν.lt (maxMag2 ν samples) (mag2 ν z) then mag2 ν z else maxMag2 ν samples := by
  obtain ⟨y, ys, rfl⟩ := List.exists_cons_of_ne_nil hne
  rw [List.cons_append, maxMag2, maxMag2, List.foldl_concat]

/-- `M2` of rational samples is their largest squared modulus (R235). -/
theorem maxMag2_isLargestMag2 {samples : List Cplx} (hne : samples ≠ []) (h : RationalSamples samples) :
    IsLargestMag2 samples (maxMag2 .reference samples) := by
  induction samples using List.reverseRecOn with
  | nil => exact absurd rfl hne
  | append_singleton samples z ih =>
    have hz := h z (by simp)
    by_cases hnil : samples = []
    · subst hnil
      exact isLargestMag2_singleton hz
    · rw [maxMag2_concat _ hnil]
      exact (ih hnil fun w hw => h w (List.mem_append_left _ hw)).concat hz

/-- NORM completes on samples with room for the lanes and an `M2` that is not 0 (R235). -/
theorem normResult_eq_done_iff {s u : State} : normResult s = .done u ↔
    s.mem.zbuf.length ≠ 0 ∧ s.mem.zbuf.length ≤ s.params.caps.w.size ∧
      s.params.numerics.eq (maxMag2 s.params.numerics s.mem.zbuf) Num.zero = false ∧
      withMem { s.mem with
        wi := s.mem.zbuf.map fun v => normLane s.params.numerics (maxMag2 s.params.numerics s.mem.zbuf) v.i
        wq := s.mem.zbuf.map fun v => normLane s.params.numerics (maxMag2 s.params.numerics s.mem.zbuf) v.q } s =
        u := by
  simp only [normResult, ite_raised_eq_done_iff, done_eq_done_iff, not_lt, ne_eq, Bool.not_eq_true, withMem]

/-- Every sample of a normalized lane, and the 0 outside it, is one multiple of ZBUF's lane. -/
theorem sampleAt_normLane (lane : Cplx → Num) (samples : List Cplx) (m2 : Num) (k : Nat) :
    sampleAt (samples.map fun v => normLane .reference m2 (lane v)) k =
      707 / 1000 / Real.sqrt m2.toReal * realAt (samples.map lane) k := by
  rw [realAt_map, sampleAt, List.getD_eq_getElem?_getD, List.getElem?_map]
  cases samples[k]? with
  | none => simp
  | some v => simp [mul_div_right_comm]

theorem IsLargestMag2.nonneg {samples : List Cplx} {m : Num} (h : IsLargestMag2 samples m) : 0 ≤ m.toReal := by
  obtain ⟨z, -, hz⟩ := h.attained
  rw [← hz, toReal_mag2_reference]
  positivity

/-- The squared modulus of element `k`, 0 outside the sequence, is at most `M2`. -/
theorem IsLargestMag2.realAt_le {samples : List Cplx} {m : Num} (h : IsLargestMag2 samples m) (k : Nat) :
    realAt (samples.map Cplx.i) k ^ 2 + realAt (samples.map Cplx.q) k ^ 2 ≤ m.toReal := by
  rw [realAt_map, realAt_map]
  cases hk : samples[k]? with
  | none => simpa using h.nonneg
  | some z => simpa using h.upper z (List.mem_of_getElem? hk)

theorem IsLargestMag2.exists_realAt {samples : List Cplx} {m : Num} (h : IsLargestMag2 samples m) :
    ∃ k < samples.length,
      realAt (samples.map Cplx.i) k ^ 2 + realAt (samples.map Cplx.q) k ^ 2 = m.toReal := by
  obtain ⟨z, hmem, hz⟩ := h.attained
  obtain ⟨k, hk, rfl⟩ := List.mem_iff_getElem.1 hmem
  refine ⟨k, hk, ?_⟩
  rw [← hz, toReal_mag2_reference, realAt_map, realAt_map, List.getElem?_eq_getElem hk]
  simp

/-- Settles O22: both lanes are ZBUF's times `PEAK / Sqrt(M2)`. -/
theorem normReachesThePeakExactly : Obligations.NormReachesThePeakExactly := by
  intro s t href hrational hnorm w z
  obtain ⟨u, hdone, rfl⟩ := hnorm.exists_done rfl
  obtain ⟨hz, -, hm2, rfl⟩ := normResult_eq_done_iff.1 hdone
  rw [href] at hm2
  have hmax := maxMag2_isLargestMag2 (List.length_pos_iff.1 (Nat.pos_of_ne_zero hz)) hrational
  set m2 := maxMag2 .reference s.mem.zbuf
  have hpos : 0 < m2.toReal :=
    lt_of_le_of_ne hmax.nonneg fun h => Bool.eq_false_iff.1 hm2 ((Num.eq_iff_toReal_eq hmax.rational rfl).2 h.symm)
  set g : ℝ := 707 / 1000 / Real.sqrt m2.toReal with hg
  have hgpos : 0 < g := by positivity
  have hgsq : g ^ 2 * m2.toReal = (707 / 1000) ^ 2 := by
    rw [hg, div_pow, Real.sq_sqrt hpos.le, div_mul_cancel₀ _ hpos.ne']
  have hw (k : Nat) : w k = (g * (z k).1, g * (z k).2) := by
    simp only [w, z, advanceIndex_mem, withMem_mem, href, sampleAt_normLane, hg, m2]
  have hmod (k : Nat) : (w k).1 ^ 2 + (w k).2 ^ 2 = g ^ 2 * ((z k).1 ^ 2 + (z k).2 ^ 2) := by
    rw [hw]
    ring
  have hle (k : Nat) : (w k).1 ^ 2 + (w k).2 ^ 2 ≤ (707 / 1000) ^ 2 := by
    rw [hmod, ← hgsq]
    exact mul_le_mul_of_nonneg_left (hmax.realAt_le k) (sq_nonneg g)
  refine ⟨⟨g, hgpos, hw⟩, hle, fun k => ⟨?_, ?_⟩, ?_⟩
  · exact abs_le_of_sq_le_sq (by linarith [hle k, sq_nonneg (w k).2]) (by norm_num)
  · exact abs_le_of_sq_le_sq (by linarith [hle k, sq_nonneg (w k).1]) (by norm_num)
  · obtain ⟨k, hk, hattained⟩ := hmax.exists_realAt
    exact ⟨k, hk, by rw [hmod, ← hgsq, ← hattained]⟩

end Machine
end Sys2Proof
end

section
/-! O23. The first failing test of DIGMOD (R240, part 1). -/

namespace Sys2Proof.Machine

/-- What DIGMOD does in IDLE (R240). -/
theorem exec_digmod_of_idle {s : State} (d : Bool) (h : s.phase = .idle) :
    exec (.digmod d) s = .next (finish (digmodResult d s)) :=
  runInIdle_of_idle h

/-- A failing test of part 1 is the fault of the whole DIGMOD, raised before anything is written. -/
theorem exec_digmod_of_precheck {s : State} {e : Raise} (d : Bool) (h : s.phase = .idle)
    (he : digmodPrecheck s = some e) : exec (.digmod d) s = .next (faulted e s) := by
  rw [exec_digmod_of_idle d h, digmodResult, he]
  rfl

section

variable {s : State}

theorem digmodPrecheck_of_unknownModulation (hm : 4 < s.modtype.toNat) :
    digmodPrecheck s = some (configFault 1 s.modtype.toNat 4) := if_pos hm

variable (hm : s.modtype.toNat ≤ 4)

include hm

theorem digmodPrecheck_of_unknownKind (hkind : 1 < s.fkind.toNat) :
    digmodPrecheck s = some (configFault 2 s.fkind.toNat 1) :=
  (if_neg (Nat.not_lt.2 hm)).trans (if_pos hkind)

variable (hkind : s.fkind.toNat ≤ 1)

include hkind

theorem digmodPrecheck_of_illegalOrder (hn : s.prbsord.toNat < 2 ∨ 32 < s.prbsord.toNat) :
    digmodPrecheck s = some (configFault 4 s.prbsord.toNat 32) :=
  (if_neg (Nat.not_lt.2 hm)).trans ((if_neg (Nat.not_lt.2 hkind)).trans (if_pos hn))

variable (horder : ¬ (s.prbsord.toNat < 2 ∨ 32 < s.prbsord.toNat))

include horder

theorem digmodPrecheck_of_zero (hp : s.sps.toNat = 0) : digmodPrecheck s = some (configFault 5 0 1) :=
  (if_neg (Nat.not_lt.2 hm)).trans ((if_neg (Nat.not_lt.2 hkind)).trans ((if_neg horder).trans (if_pos hp)))

variable (hp : s.sps.toNat ≠ 0)

include hp

theorem digmodPrecheck_of_odd (hodd : s.span.toNat % 2 ≠ 0) :
    digmodPrecheck s = some (configFault 6 s.span.toNat 2) :=
  (if_neg (Nat.not_lt.2 hm)).trans ((if_neg (Nat.not_lt.2 hkind)).trans ((if_neg horder).trans ((if_neg hp).trans
    (if_pos hodd))))

variable (heven : s.span.toNat % 2 = 0)

include heven

theorem digmodPrecheck_of_nonfinite (ha : numOf s.rolloff.pattern = none) :
    digmodPrecheck s = some (numfmtFault 1 s.rolloff.pattern) := by
  simp only [digmodPrecheck, Nat.not_lt.2 hm, Nat.not_lt.2 hkind, horder, hp, heven, ha, ne_eq, not_true_eq_false,
    if_false]

variable {a : Rat} (ha : numOf s.rolloff.pattern = some a)

include ha

theorem digmodPrecheck_of_outside (hout : a < 0 ∨ 1 < a) :
    digmodPrecheck s = some (configFault 7 s.rolloff.pattern.toInt 1) := by
  simp only [digmodPrecheck, Nat.not_lt.2 hm, Nat.not_lt.2 hkind, horder, hp, heven, ha, hout, ne_eq,
    not_true_eq_false, if_false, if_true]

theorem digmodPrecheck_of_legal (h0 : 0 ≤ a) (h1 : a ≤ 1) : digmodPrecheck s = none := by
  simp only [digmodPrecheck, Nat.not_lt.2 hm, Nat.not_lt.2 hkind, horder, hp, heven, ha, not_lt.2 h0, not_lt.2 h1,
    ne_eq, not_true_eq_false, or_self, if_false]

end

/-- Settles O23, test by test. -/
theorem digmodChecksTheConfigurationFirst : Obligations.DigmodChecksTheConfigurationFirst := by
  intro d s hs
  have hfault {e : Raise} (he : digmodPrecheck s = some e) : exec (.digmod d) s = .next (faulted e s) :=
    exec_digmod_of_precheck d hs he
  have horder (h2 : 2 ≤ s.prbsord.toNat) (h32 : s.prbsord.toNat ≤ 32) :
      ¬ (s.prbsord.toNat < 2 ∨ 32 < s.prbsord.toNat) := not_or.2 ⟨Nat.not_lt.2 h2, Nat.not_lt.2 h32⟩
  exact ⟨fun hm => hfault (digmodPrecheck_of_unknownModulation hm),
    fun ⟨hm, hkind⟩ => hfault (digmodPrecheck_of_unknownKind hm hkind),
    fun ⟨hm, hkind, hn⟩ => hfault (digmodPrecheck_of_illegalOrder hm hkind hn),
    fun ⟨hm, hkind, h2, h32, hp⟩ => hfault (digmodPrecheck_of_zero hm hkind (horder h2 h32) hp),
    fun ⟨hm, hkind, h2, h32, hp, hodd⟩ => hfault (digmodPrecheck_of_odd hm hkind (horder h2 h32) hp hodd),
    fun ⟨hm, hkind, h2, h32, hp, heven, ha⟩ =>
      hfault (digmodPrecheck_of_nonfinite hm hkind (horder h2 h32) hp heven ha),
    fun a ⟨hm, hkind, h2, h32, hp, heven, ha, hout⟩ =>
      hfault (digmodPrecheck_of_outside hm hkind (horder h2 h32) hp heven ha hout)⟩

end Sys2Proof.Machine
end

section
/-! O24. DIGMOD as the run of its steps' pseudocode, and that run against the steps given as commands (R240, part 2). -/

namespace Sys2Proof.Machine

/-! The configuration that passes part 1. -/

theorem digmodPrecheck_of_legalConfig {s : State} (h : LegalConfig s) : digmodPrecheck s = none := by
  obtain ⟨hm, hkind, h2, h32, hp, heven, a, ha, h0, h1⟩ := h
  exact digmodPrecheck_of_legal hm hkind (by omega) (Nat.pos_iff_ne_zero.1 hp) heven ha h0 h1

/-! The pseudocode of steps one after the other. -/

/-- The bodies one after the other, up to and with the first that raises (R240). -/
def runBodies : List (State → Result) → State → Result
  | [], s => .done s
  | body :: rest, s => (body s).andThen (runBodies rest)

theorem andThen_assoc (r : Result) (f g : State → Result) :
    (r.andThen f).andThen g = r.andThen fun s => (f s).andThen g := by
  cases r <;> rfl

theorem andThen_return (r : Result) : r.andThen .done = r := by cases r <;> rfl

/-- The commands of the steps of DIGMOD, each with its pseudocode (R240). -/
def digmodStages (d : Bool) : List (Instr × (State → Result)) :=
  (if d then [(.cmdef, cmdefResult)] else []) ++
    [(.prbs, prbsResult), (.brep, brepResult), (.map, mapResult), (.cext, cextResult), (.zstuff, zstuffResult),
      (.fgen, fgenResult), (.conv, convResult), (.trim, trimResult), (.norm, normResult)]

theorem digmodStages_commands (d : Bool) : (digmodStages d).map Prod.fst = digmodCommands d := by cases d <;> rfl

theorem digmodSteps_eq_runBodies (s : State) :
    digmodSteps s = runBodies ((digmodStages false).map Prod.snd) s := by
  rw [← andThen_return (digmodSteps s), digmodSteps]
  simp only [andThen_assoc]
  rfl

theorem digmodResult_eq_runBodies {s : State} (d : Bool) (h : LegalConfig s) :
    digmodResult d s = runBodies ((digmodStages d).map Prod.snd) s := by
  rw [digmodResult, digmodPrecheck_of_legalConfig h]
  cases d with
  | false => exact digmodSteps_eq_runBodies s
  | true => exact congrArg (cmdefResult s).andThen (funext digmodSteps_eq_runBodies)

/-! The pseudocode of a step does not read CIX. -/

/-- `s` with another command index. -/
def withCix (c : Word) (s : State) : State := { s with cix := c }

/-- Pseudocode that does not read CIX. -/
def IgnoresCix (f : State → Result) : Prop := ∀ (c : Word) (s : State), f (withCix c s) = (f s).map (withCix c)

theorem Result.map_ite {g : State → State} {p : Prop} [Decidable p] {r₁ r₂ r₁' r₂' : Result}
    (h₁ : r₁' = r₁.map g) (h₂ : r₂' = r₂.map g) : (if p then r₁' else r₂') = (if p then r₁ else r₂).map g := by
  split
  · exact h₁
  · exact h₂

theorem cmdefResult_ignoresCix : IgnoresCix cmdefResult := fun _ _ => Result.map_ite rfl rfl

theorem prbsResult_ignoresCix : IgnoresCix prbsResult := fun _ _ => Result.map_ite rfl (Result.map_ite rfl rfl)

theorem brepResult_ignoresCix : IgnoresCix brepResult := fun _ _ => Result.map_ite rfl (Result.map_ite rfl rfl)

theorem cextResult_ignoresCix : IgnoresCix cextResult := fun _ _ =>
  Result.map_ite rfl (Result.map_ite rfl (Result.map_ite rfl rfl))

theorem zstuffResult_ignoresCix : IgnoresCix zstuffResult := fun _ _ => Result.map_ite rfl (Result.map_ite rfl rfl)

theorem convResult_ignoresCix : IgnoresCix convResult := fun _ _ =>
  Result.map_ite rfl (Result.map_ite rfl (Result.map_ite rfl rfl))

theorem trimResult_ignoresCix : IgnoresCix trimResult := fun _ _ =>
  Result.map_ite rfl (Result.map_ite rfl (Result.map_ite rfl rfl))

theorem normResult_ignoresCix : IgnoresCix normResult := fun _ _ =>
  Result.map_ite rfl (Result.map_ite rfl (Result.map_ite rfl rfl))

theorem mapResult_ignoresCix : IgnoresCix mapResult := fun c s => by
  refine Result.map_ite rfl (Result.map_ite rfl ?_)
  have hmem : (withCix c s).mem = s.mem := rfl
  have hmod : (withCix c s).modtype = s.modtype := rfl
  simp only [hmem, hmod]
  split
  · rfl
  · exact Result.map_ite rfl rfl

theorem fgenResult_ignoresCix : IgnoresCix fgenResult := fun c s => by
  refine Result.map_ite rfl (Result.map_ite rfl (Result.map_ite rfl ?_))
  have hrolloff : (withCix c s).rolloff = s.rolloff := rfl
  rw [hrolloff]
  split
  · rfl
  · exact Result.map_ite rfl (Result.map_ite rfl rfl)

/-! The steps run as commands. -/

/-- `i` is accepted in IDLE only, and `body` is its pseudocode: it keeps what no command's pseudocode writes, and does not
read CIX. -/
structure HasBody (i : Instr) (body : State → Result) : Prop where
  exec_eq : exec i = runInIdle body
  keeps : ∀ s, (body s).All (Keeps s)
  ignoresCix : IgnoresCix body

theorem digmodStages_hasBody (d : Bool) : ∀ p ∈ digmodStages d, HasBody p.1 p.2 := by
  have hsteps : ∀ p ∈ digmodStages false, HasBody p.1 p.2 := by
    refine List.forall_mem_cons.2 ⟨⟨rfl, prbsResult_keeps, prbsResult_ignoresCix⟩, ?_⟩
    refine List.forall_mem_cons.2 ⟨⟨rfl, brepResult_keeps, brepResult_ignoresCix⟩, ?_⟩
    refine List.forall_mem_cons.2 ⟨⟨rfl, mapResult_keeps, mapResult_ignoresCix⟩, ?_⟩
    refine List.forall_mem_cons.2 ⟨⟨rfl, cextResult_keeps, cextResult_ignoresCix⟩, ?_⟩
    refine List.forall_mem_cons.2 ⟨⟨rfl, zstuffResult_keeps, zstuffResult_ignoresCix⟩, ?_⟩
    refine List.forall_mem_cons.2 ⟨⟨rfl, fgenResult_keeps, fgenResult_ignoresCix⟩, ?_⟩
    refine List.forall_mem_cons.2 ⟨⟨rfl, convResult_keeps, convResult_ignoresCix⟩, ?_⟩
    refine List.forall_mem_cons.2 ⟨⟨rfl, trimResult_keeps, trimResult_ignoresCix⟩, ?_⟩
    exact List.forall_mem_singleton.2 ⟨rfl, normResult_keeps, normResult_ignoresCix⟩
  cases d with
  | false => exact hsteps
  | true => exact List.forall_mem_cons.2 ⟨⟨rfl, cmdefResult_keeps, cmdefResult_ignoresCix⟩, hsteps⟩

/-- Commands given one after the other end in the state of their bodies run as one command at index `c`, but for CIX and
the fault's index. -/
theorem runCommands_eq_finish_runBodies (c : Word) {stages : List (Instr × (State → Result))}
    (h : ∀ p ∈ stages, HasBody p.1 p.2) {s : State} (hidle : s.phase = .idle) (hlatch : s.latch = none) :
    ∃ t, runCommands (stages.map Prod.fst) s = .next t ∧
      finish (runBodies (stages.map Prod.snd) (withCix c s)) =
        { t with cix := c + 1, latch := t.latch.map fun r => { r with index := c } } := by
  induction stages generalizing s with
  | nil =>
    refine ⟨s, rfl, ?_⟩
    rw [hlatch, Option.map_none, ← hlatch]
    rfl
  | cons p rest ih =>
    obtain ⟨⟨hexec, hkeeps, hcix⟩, hrest⟩ := List.forall_mem_cons.1 h
    have hx : exec p.1 s = .next (finish (p.2 s)) := by rw [hexec, runInIdle_of_idle hidle]
    have hkept := hkeeps s
    simp only [List.map_cons, runCommands, runBodies, hx, hcix c s]
    cases hr : p.2 s with
    | done u =>
      rw [hr] at hkept
      have hu : (advanceIndex u).phase = .idle := (Keeps.phase hkept).trans hidle
      obtain ⟨t, ht, hfinish⟩ := ih hrest hu ((Keeps.latch hkept).trans hlatch)
      exact ⟨t, (if_neg (by rw [finish_done, hu]; nofun)).trans ht, hfinish⟩
    | raised e u => exact ⟨takeFault e u, if_pos rfl, rfl⟩

/-- Settles O24, by the run of the steps' bodies. -/
theorem digmodRunsItsSteps : Obligations.DigmodRunsItsSteps := by
  intro d s hs hlatch hlegal
  obtain ⟨t, ht, hfinish⟩ := runCommands_eq_finish_runBodies s.cix (digmodStages_hasBody d) hs hlatch
  refine ⟨t, by rw [← digmodStages_commands, ht], ?_⟩
  rw [exec_digmod_of_idle d hs, digmodResult_eq_runBodies d hlegal, ← hfinish]
  rfl

end Sys2Proof.Machine
end

section
/-! O25. The buffers of DIGMOD, each from the one before it, where the configuration is legal and all of them fit (R240). -/

namespace Sys2Proof.Machine

section

variable {s u : State}

theorem prbsResult_eq_done_iff : prbsResult s = .done u ↔
    (2 ≤ s.prbsord.toNat ∧ s.prbsord.toNat ≤ 32) ∧ 2 ^ s.prbsord.toNat - 1 ≤ s.params.caps.bit.size ∧
      withMem { s.mem with bitbuf := prbsPeriod s.prbsord.toNat } s = u := by
  simp only [prbsResult, ite_raised_eq_done_iff, done_eq_done_iff, not_lt, not_or, withMem]

theorem brepResult_eq_done_iff : brepResult s = .done u ↔
    s.modtype.toNat ≤ 4 ∧
      repeatFactor s.mem.bitbuf.length (s.modtype.toNat + 1) * s.mem.bitbuf.length ≤ s.params.caps.bit.size ∧
      withMem { s.mem with
        bitbuf := repeatSeq s.mem.bitbuf (repeatFactor s.mem.bitbuf.length (s.modtype.toNat + 1)) } s = u := by
  simp only [brepResult, ite_raised_eq_done_iff, done_eq_done_iff, not_lt, withMem]

theorem mapResult_of_covered (hm : s.modtype.toNat ≤ 4) (hlen : s.mem.bitbuf.length % (s.modtype.toNat + 1) = 0)
    (hall : ∀ k < 2 ^ (s.modtype.toNat + 1), (cmapPoint s.mem k).isSome = true)
    (hcap : s.mem.bitbuf.length / (s.modtype.toNat + 1) ≤ s.params.caps.sym.size) :
    mapResult s = .done (withMem { s.mem with symbuf := mappedSymbols s.mem (s.modtype.toNat + 1) } s) :=
  (mapResult_of_whole hm hlen (lowestUnmapped_eq_none hall)).trans (if_neg (Nat.not_lt.2 hcap))

end

/-! The buffers. -/

section

variable (s : State) (a : Rat)

/-- Bits in BITBUF after `BREP`. -/
def digmodBitCount : Nat :=
  repeatFactor (2 ^ s.prbsord.toNat - 1) (s.modtype.toNat + 1) * (2 ^ s.prbsord.toNat - 1)

/-- Symbols in SYMBUF. -/
def digmodSymbolCount : Nat := digmodBitCount s / (s.modtype.toNat + 1)

/-- BITBUF. -/
def digmodBits : List Bool :=
  repeatSeq (prbsPeriod s.prbsord.toNat) (repeatFactor (2 ^ s.prbsord.toNat - 1) (s.modtype.toNat + 1))

/-- SYMBUF, mapped by the CMAP of `s`. -/
def digmodSymbols : List Cplx :=
  (List.range (digmodSymbolCount s)).map fun j =>
    mapPattern s.mem (patternAt (digmodBits s) (s.modtype.toNat + 1) j)

/-- XBUF. -/
def digmodImpulses : List Cplx := zeroStuff (circularExtend (digmodSymbols s) (s.span.toNat / 2)) s.sps.toNat

/-- TAPS with rolloff `a`. -/
def digmodTaps : List Num := filterTaps s.params.numerics s.fkind.toNat a s.span.toNat s.sps.toNat

/-- YBUF. -/
def digmodFiltered : List Cplx := convolve s.params.numerics (digmodTaps s a) (digmodImpulses s)

/-- ZBUF. -/
def digmodWave : List Cplx := trimEnds (digmodFiltered s a) (s.span.toNat * s.sps.toNat)

/-- `M2` of ZBUF. -/
def digmodM2 : Num := maxMag2 s.params.numerics (digmodWave s a)

/-- The buffers that DIGMOD leaves. -/
def digmodMemory : Memory :=
  { s.mem with
    bitbuf := digmodBits s
    symbuf := digmodSymbols s
    extbuf := circularExtend (digmodSymbols s) (s.span.toNat / 2)
    xbuf := digmodImpulses s
    taps := digmodTaps s a
    ybuf := digmodFiltered s a
    zbuf := digmodWave s a
    wi := (digmodWave s a).map fun v => normLane s.params.numerics (digmodM2 s a) v.i
    wq := (digmodWave s a).map fun v => normLane s.params.numerics (digmodM2 s a) v.q }

/-- What DIGMOD needs beside a legal configuration: a map that covers the patterns in use, room in every buffer, at least
`SPAN/2` symbols, and a waveform that is not all zero (R240). -/
structure DigmodFits : Prop where
  covered : ∀ k < 2 ^ (s.modtype.toNat + 1), (cmapPoint s.mem k).isSome = true
  bits : digmodBitCount s ≤ s.params.caps.bit.size
  symbols : digmodSymbolCount s ≤ s.params.caps.sym.size
  circle : s.span.toNat / 2 ≤ digmodSymbolCount s
  extended : digmodSymbolCount s + s.span.toNat ≤ s.params.caps.ext.size
  impulses : (digmodSymbolCount s + s.span.toNat) * s.sps.toNat ≤ s.params.caps.x.size
  taps : s.span.toNat * s.sps.toNat + 1 ≤ s.params.caps.tap.size
  filtered : (digmodSymbolCount s + s.span.toNat) * s.sps.toNat + s.span.toNat * s.sps.toNat ≤ s.params.caps.y.size
  wave : digmodSymbolCount s * s.sps.toNat ≤ s.params.caps.z.size
  lanes : digmodSymbolCount s * s.sps.toNat ≤ s.params.caps.w.size
  nonzero : s.params.numerics.eq (digmodM2 s a) Num.zero = false

end

/-! Their lengths. -/

section

variable {s : State} {a : Rat}

theorem digmodBits_length : (digmodBits s).length = digmodBitCount s := by
  rw [digmodBits, repeatSeq_length, prbsPeriod_length, digmodBitCount]

theorem digmodSymbols_length : (digmodSymbols s).length = digmodSymbolCount s := by
  rw [digmodSymbols, List.length_map, List.length_range]

theorem digmodTaps_length : (digmodTaps s a).length = s.span.toNat * s.sps.toNat + 1 := filterTaps_length _ _ _ _ _

/-- The repetitions make whole tuples. -/
theorem digmodBitCount_mod : digmodBitCount s % (s.modtype.toNat + 1) = 0 :=
  Nat.mod_eq_zero_of_dvd ((repeatFactor_dvd_iff _ _ (Nat.succ_pos _)).1 dvd_rfl)

/-- One period of the PRBS is part of the repeated bits. -/
theorem period_le_digmodBitCount : 2 ^ s.prbsord.toNat - 1 ≤ digmodBitCount s :=
  Nat.le_mul_of_pos_left _ (repeatFactor_pos _ (Nat.succ_pos _))

variable (hlegal : LegalConfig s)

include hlegal

theorem digmodSymbolCount_pos : 0 < digmodSymbolCount s := by
  obtain ⟨-, -, h2, -⟩ := hlegal
  have hperiod : 0 < digmodBitCount s :=
    (Nat.sub_pos_of_lt (Nat.one_lt_two_pow (by omega))).trans_le period_le_digmodBitCount
  exact Nat.div_pos (Nat.le_of_dvd hperiod (Nat.dvd_of_mod_eq_zero digmodBitCount_mod)) (Nat.succ_pos _)

variable (hcircle : s.span.toNat / 2 ≤ digmodSymbolCount s)

include hcircle

theorem digmodExtended_length :
    (circularExtend (digmodSymbols s) (s.span.toNat / 2)).length = digmodSymbolCount s + s.span.toNat := by
  obtain ⟨-, -, -, -, -, heven, -⟩ := hlegal
  rw [circularExtend_length _ (by rwa [digmodSymbols_length]), digmodSymbols_length]
  omega

theorem digmodImpulses_length :
    (digmodImpulses s).length = (digmodSymbolCount s + s.span.toNat) * s.sps.toNat := by
  have hlen := digmodExtended_length hlegal hcircle
  obtain ⟨-, -, -, -, hp, -⟩ := hlegal
  rw [digmodImpulses, zeroStuff_length _ (Nat.pos_iff_ne_zero.1 hp), hlen]

theorem digmodFiltered_length :
    (digmodFiltered s a).length =
      (digmodSymbolCount s + s.span.toNat) * s.sps.toNat + s.span.toNat * s.sps.toNat := by
  rw [digmodFiltered, convolve_length, digmodImpulses_length hlegal hcircle, digmodTaps_length]
  rfl

theorem digmodWave_length : (digmodWave s a).length = digmodSymbolCount s * s.sps.toNat := by
  rw [digmodWave, trimEnds_length, digmodFiltered_length hlegal hcircle, Nat.add_mul]
  omega

end

/-! Each step, in a memory that holds what the steps before it left. -/

section

variable {s : State} {a : Rat} {m : Memory} (hlegal : LegalConfig s) (hfits : DigmodFits s a)

include hlegal hfits

theorem prbsResult_of_fits :
    prbsResult s = .done (withMem { s.mem with bitbuf := prbsPeriod s.prbsord.toNat } s) := by
  obtain ⟨-, -, h2, h32, -⟩ := hlegal
  exact prbsResult_eq_done_iff.2 ⟨⟨h2, h32⟩, period_le_digmodBitCount.trans hfits.bits, rfl⟩

theorem brepResult_of_fits (hbits : m.bitbuf = prbsPeriod s.prbsord.toNat) :
    brepResult (withMem m s) = .done (withMem { m with bitbuf := digmodBits s } s) := by
  obtain ⟨hm, -⟩ := hlegal
  refine brepResult_eq_done_iff.2 ⟨hm, ?_, ?_⟩
  · rw [withMem_mem, hbits, prbsPeriod_length]
    exact hfits.bits
  · simp only [withMem_mem, withMem_modtype, withMem_withMem, hbits, prbsPeriod_length, digmodBits]

theorem mapResult_of_fits (hbits : m.bitbuf = digmodBits s) (hcmap : m.cmap = s.mem.cmap) :
    mapResult (withMem m s) = .done (withMem { m with symbuf := digmodSymbols s } s) := by
  obtain ⟨hm, -⟩ := hlegal
  have hlen : m.bitbuf.length = digmodBitCount s := by rw [hbits, digmodBits_length]
  have hpoint (k : Nat) : cmapPoint m k = cmapPoint s.mem k := by rw [cmapPoint, hcmap, cmapPoint]
  have hsymbols : mappedSymbols m (s.modtype.toNat + 1) = digmodSymbols s := by
    simp only [mappedSymbols, mapPattern, hpoint, hbits, digmodBits_length, digmodSymbols, digmodSymbolCount]
  rw [mapResult_of_covered (s := withMem m s) hm, withMem_mem, withMem_modtype, hsymbols, withMem_withMem]
  · rw [withMem_mem, hlen]
    exact digmodBitCount_mod
  · intro k hk
    rw [withMem_mem, hpoint]
    exact hfits.covered k hk
  · rw [withMem_mem, hlen]
    exact hfits.symbols

theorem cextResult_of_fits (hsymbols : m.symbuf = digmodSymbols s) :
    cextResult (withMem m s) =
      .done (withMem { m with extbuf := circularExtend (digmodSymbols s) (s.span.toNat / 2) } s) := by
  obtain ⟨-, -, -, -, -, heven, -⟩ := hlegal
  have hlen : m.symbuf.length = digmodSymbolCount s := by rw [hsymbols, digmodSymbols_length]
  have hspan : 2 * (s.span.toNat / 2) = s.span.toNat := Nat.mul_div_cancel' (Nat.dvd_of_mod_eq_zero heven)
  refine cextResult_eq_done_iff.2 ⟨heven, ?_, ?_, ?_⟩
  · rw [withMem_mem, hlen]
    exact hfits.circle
  · rw [withMem_mem, withMem_span, hlen, hspan]
    exact hfits.extended
  · simp only [withMem_mem, withMem_span, withMem_withMem, hsymbols]

theorem zstuffResult_of_fits (hext : m.extbuf = circularExtend (digmodSymbols s) (s.span.toNat / 2)) :
    zstuffResult (withMem m s) = .done (withMem { m with xbuf := digmodImpulses s } s) := by
  have hlen : m.extbuf.length = digmodSymbolCount s + s.span.toNat := by
    rw [hext, digmodExtended_length hlegal hfits.circle]
  obtain ⟨-, -, -, -, hp, -⟩ := hlegal
  refine zstuffResult_eq_done_iff.2 ⟨Nat.pos_iff_ne_zero.1 hp, ?_, ?_⟩
  · rw [withMem_mem, hlen]
    exact hfits.impulses
  · simp only [withMem_mem, withMem_sps, withMem_withMem, hext, digmodImpulses]

theorem fgenResult_of_fits (ha : numOf s.rolloff.pattern = some a) :
    fgenResult (withMem m s) = .done (withMem { m with taps := digmodTaps s a } s) := by
  obtain ⟨-, hkind, -, -, hp, heven, a', ha', h0, h1⟩ := hlegal
  obtain rfl : a' = a := Option.some.inj (ha'.symm.trans ha)
  exact fgenResult_eq_done_iff.2 ⟨hkind, Nat.pos_iff_ne_zero.1 hp, heven, a', ha, h0, h1, hfits.taps, rfl⟩

theorem convResult_of_fits (htaps : m.taps = digmodTaps s a) (himpulses : m.xbuf = digmodImpulses s) :
    convResult (withMem m s) = .done (withMem { m with ybuf := digmodFiltered s a } s) := by
  have hcount := digmodSymbolCount_pos hlegal
  have hlen := digmodImpulses_length hlegal hfits.circle
  obtain ⟨-, -, -, -, hp, -⟩ := hlegal
  refine convResult_eq_done_iff.2 ⟨?_, ?_, ?_, ?_⟩
  · rw [withMem_mem, himpulses, hlen]
    exact (Nat.mul_pos (Nat.add_pos_left hcount _) hp).ne'
  · rw [withMem_mem, htaps, digmodTaps_length]
    exact Nat.succ_ne_zero _
  · rw [withMem_mem, htaps, himpulses, hlen, digmodTaps_length]
    exact hfits.filtered
  · simp only [withMem_mem, withMem_params, withMem_withMem, htaps, himpulses, digmodFiltered]

theorem trimResult_of_fits (htaps : m.taps = digmodTaps s a) (hfiltered : m.ybuf = digmodFiltered s a) :
    trimResult (withMem m s) = .done (withMem { m with zbuf := digmodWave s a } s) := by
  have hlen := digmodFiltered_length (a := a) hlegal hfits.circle
  have hwave := digmodWave_length (a := a) hlegal hfits.circle
  rw [digmodWave, trimEnds_length] at hwave
  have hdrop : m.taps.length - 1 = s.span.toNat * s.sps.toNat := by rw [htaps, digmodTaps_length, Nat.add_sub_cancel]
  refine trimResult_eq_done_iff.2 ⟨?_, ?_, ?_, ?_⟩
  · rw [withMem_mem, htaps, digmodTaps_length]
    exact Nat.succ_ne_zero _
  · rw [withMem_mem, hdrop, hfiltered, hlen, Nat.add_mul]
    omega
  · rw [withMem_mem, hdrop, hfiltered, hwave]
    exact hfits.wave
  · simp only [withMem_mem, withMem_withMem, hdrop, hfiltered, digmodWave]

theorem normResult_of_fits (hwave : m.zbuf = digmodWave s a) :
    normResult (withMem m s) = .done (withMem { m with
      wi := (digmodWave s a).map fun v => normLane s.params.numerics (digmodM2 s a) v.i
      wq := (digmodWave s a).map fun v => normLane s.params.numerics (digmodM2 s a) v.q } s) := by
  have hcount := digmodSymbolCount_pos hlegal
  have hlen := digmodWave_length (a := a) hlegal hfits.circle
  obtain ⟨-, -, -, -, hp, -⟩ := hlegal
  refine normResult_eq_done_iff.2 ⟨?_, ?_, ?_, ?_⟩
  · rw [withMem_mem, hwave, hlen]
    exact (Nat.mul_pos hcount hp).ne'
  · rw [withMem_mem, hwave, hlen]
    exact hfits.lanes
  · rw [withMem_mem, withMem_params, hwave]
    exact hfits.nonzero
  · simp only [withMem_mem, withMem_params, withMem_withMem, hwave, digmodM2]

/-- The steps of DIGMOD, one after the other: none of them raises. -/
theorem digmodSteps_of_fits (ha : numOf s.rolloff.pattern = some a) :
    digmodSteps s = .done (withMem (digmodMemory s a) s) := by
  simp only [digmodSteps, andThen_done, prbsResult_of_fits hlegal hfits, brepResult_of_fits hlegal hfits,
    mapResult_of_fits hlegal hfits, cextResult_of_fits hlegal hfits, zstuffResult_of_fits hlegal hfits,
    fgenResult_of_fits hlegal hfits ha, convResult_of_fits hlegal hfits, trimResult_of_fits hlegal hfits,
    normResult_of_fits hlegal hfits, digmodMemory]

end

/-- With a legal configuration DIGMOD is its steps, in the memory that holds the default map where `D = 1`. -/
theorem digmodResult_of_legalConfig {s : State} (d : Bool) (h : LegalConfig s) :
    digmodResult d s = digmodSteps
      (withMem (if d then { s.mem with cmap := defaultMap s.params.numerics s.modtype.toNat } else s.mem) s) := by
  rw [digmodResult, digmodPrecheck_of_legalConfig h]
  obtain ⟨hm, -⟩ := h
  have hcmdef : cmdefResult s =
      .done (withMem { s.mem with cmap := defaultMap s.params.numerics s.modtype.toNat } s) :=
    if_neg (Nat.not_lt.2 hm)
  cases d with
  | false => rfl
  | true => exact congrArg (Result.andThen · digmodSteps) hcmdef

/-- Settles O25, step by step from the memory with the chosen map. -/
theorem digmodCompletes : Obligations.DigmodCompletes := by
  intro d s a ν caps b n p span r len mem bits symbols extended impulses taps filtered wave m2 hs hlegal ha hcovered
    hbits hsymbols hcircle hextended himpulses htaps hfiltered hwave hlanes hm2
  have hfits : DigmodFits (withMem mem s) a :=
    ⟨hcovered, hbits, hsymbols, hcircle, hextended, himpulses, htaps, hfiltered, hwave, hlanes, hm2⟩
  refine ⟨?_, digmodBits_length (s := s), digmodSymbols_length (s := withMem mem s),
    digmodWave_length (s := withMem mem s) hlegal hcircle⟩
  rw [exec_digmod_of_idle d hs, digmodResult_of_legalConfig d hlegal,
    digmodSteps_of_fits (s := withMem mem s) hlegal hfits ha]
  rfl

end Sys2Proof.Machine
end

section
/-! O26. PMODE case by case (R262). -/

namespace Sys2Proof.Machine

section

variable {s : State} {mode : BitVec 16}

theorem pmodeResult_of_no_entry (h : s.params.modeTable.lookup mode = none) :
    pmodeResult mode s = .raised (configFault 3 mode.toNat 0) s := by simp only [pmodeResult, modeEntry, h]

theorem pmodeResult_of_entry {e : Profile} (h : s.params.modeTable.lookup mode = some e) :
    pmodeResult mode s = .done { s with stage := e } := by simp only [pmodeResult, modeEntry, h]

end

/-- What PMODE does in IDLE (R262). -/
theorem exec_pmode_of_idle {s : State} (mode : BitVec 16) (h : s.phase = .idle) :
    exec (.pmode mode) s = .next (finish (pmodeResult mode s)) := runInIdle_of_idle h

/-- Settles O26, by what the mode table holds. -/
theorem pmodeLoadsTheEntry : Obligations.PmodeLoadsTheEntry := by
  intro mode s hs
  rw [exec_pmode_of_idle mode hs]
  refine ⟨fun hnone => ?unrecognized, fun e he => ?loads⟩
  case unrecognized => rw [pmodeResult_of_no_entry hnone]; rfl
  case loads => rw [pmodeResult_of_entry he]; rfl

end Sys2Proof.Machine
end

section
/-! O27. Every element of the interleaved lanes, and ILV case by case (R265). -/

namespace Sys2Proof.Machine

/-- Where every element gives `n` others, those of element `k` stand at `k × n` and after. -/
theorem getElem?_flatMap_const {α β : Type} {f : α → List β} {n : Nat} (hf : ∀ a, (f a).length = n) {l : List α}
    {a : α} {k j : Nat} (ha : l[k]? = some a) (hj : j < n) : (l.flatMap f)[k * n + j]? = (f a)[j]? := by
  induction l generalizing k with
  | nil => cases ha
  | cons b bs ih =>
    rw [List.flatMap_cons]
    cases k with
    | zero =>
      obtain rfl : b = a := Option.some.inj ha
      rw [Nat.zero_mul, Nat.zero_add, List.getElem?_append_left (by rwa [hf])]
    | succ k =>
      have hidx : (k + 1) * n + j = n + (k * n + j) := by ring
      rw [hidx, List.getElem?_append_right (by rw [hf]; omega), hf, Nat.add_sub_cancel_left]
      exact ih ha

theorem interleave_eq_flatMap_zip {α : Type} (i q : List α) :
    interleave i q = (i.zip q).flatMap fun v => [v.1, v.2] :=
  congrArg List.flatten List.map_uncurry_zip_eq_zipWith.symm

theorem interleave_getElem? {α : Type} {i q : List α} {j : Nat} (hi : j < i.length) (hq : j < q.length) :
    (interleave i q)[2 * j]? = i[j]? ∧ (interleave i q)[2 * j + 1]? = q[j]? := by
  have hpair : (i.zip q)[j]? = some (i[j], q[j]) := by
    rw [List.getElem?_eq_getElem (by rw [List.length_zip]; omega), List.getElem_zip]
  have helem {k : Nat} (hk : k < 2) : (interleave i q)[2 * j + k]? = [i[j], q[j]][k]? := by
    rw [interleave_eq_flatMap_zip, Nat.mul_comm]
    exact getElem?_flatMap_const (n := 2) (fun _ => rfl) hpair hk
  rw [List.getElem?_eq_getElem hi, List.getElem?_eq_getElem hq]
  exact ⟨helem Nat.two_pos, helem Nat.one_lt_two⟩

section

variable {s : State}

theorem ilvResult_of_mismatch (h : s.mem.wi.length ≠ s.mem.wq.length) :
    ilvResult s = .raised ⟨.mismatch, 0, s.mem.wi.length, s.mem.wq.length⟩ s := if_pos h

theorem ilvResult_of_match (h : s.mem.wi.length = s.mem.wq.length) :
    ilvResult s =
      if s.params.caps.ilv.size < 2 * s.mem.wi.length then
        .raised (capacityFault 9 (2 * s.mem.wi.length) s.params.caps.ilv) s
      else .done { s with mem := { s.mem with ilvbuf := interleave s.mem.wi s.mem.wq } } :=
  if_neg (not_not.2 h)

end

/-- What ILV does in IDLE (R265). -/
theorem exec_ilv_of_idle {s : State} (h : s.phase = .idle) : exec .ilv s = .next (finish (ilvResult s)) :=
  runInIdle_of_idle h

/-- Settles O27, test by test. -/
theorem ilvAlternatesTheLanes : Obligations.IlvAlternatesTheLanes := by
  intro s hs n cap
  rw [exec_ilv_of_idle hs]
  refine ⟨fun hne => ?mismatch, fun ⟨heq, hcap⟩ => ?capacity, fun ⟨heq, hcap⟩ =>
    ⟨interleave s.mem.wi s.mem.wq, ?completes, interleave_length _ _ heq,
      fun _ hj => interleave_getElem? hj (heq ▸ hj)⟩⟩
  case mismatch => rw [ilvResult_of_mismatch hne]; rfl
  case capacity => rw [ilvResult_of_match heq, if_pos hcap]; rfl
  case completes => rw [ilvResult_of_match heq, if_neg (Nat.not_lt.2 hcap)]; rfl

end Sys2Proof.Machine
end

section
/-! O29, O30. The checks of VQ test by test, and what VQ does where one fails and where all pass (R270, R272, R276). -/

namespace Sys2Proof.Machine

open Sys2Proof.Config

/-- A number of bits that S_WIDTH may hold (R272). -/
def LegalWidth (w : Nat) : Prop := w = 8 ∨ w = 16 ∨ w = 32 ∨ w = 64

/-- A profile that passes the first four tests of R272, those that do not look at the length. -/
structure LegalProfile (p : Profile) : Prop where
  gran : p.gran.toNat ≠ 0
  width : LegalWidth p.width.toNat
  shift : p.shift.toNat < p.width.toNat
  endian : p.endian.toNat ≤ 1

/-! The checks. -/

section

variable {caps : Caps} {p : Profile} {len : Nat}

theorem vqCheck_of_no_gran (hgran : p.gran.toNat = 0) : vqCheck caps p len = some (configFault 8 0 1) := if_pos hgran

theorem vqCheck_of_illegal_width (hgran : p.gran.toNat ≠ 0) (hwidth : ¬ LegalWidth p.width.toNat) :
    vqCheck caps p len = some (configFault 9 p.width.toNat 64) :=
  (if_neg hgran).trans (if_pos hwidth)

theorem vqCheck_of_wide_shift (hgran : p.gran.toNat ≠ 0) (hwidth : LegalWidth p.width.toNat)
    (hshift : p.width.toNat ≤ p.shift.toNat) :
    vqCheck caps p len = some (configFault 10 p.shift.toNat (p.width.toNat - 1)) :=
  (if_neg hgran).trans ((if_neg (not_not.2 hwidth)).trans (if_pos hshift))

theorem vqCheck_of_unknown_order (hgran : p.gran.toNat ≠ 0) (hwidth : LegalWidth p.width.toNat)
    (hshift : p.shift.toNat < p.width.toNat) (hendian : 1 < p.endian.toNat) :
    vqCheck caps p len = some (configFault 11 p.endian.toNat 1) :=
  (if_neg hgran).trans ((if_neg (not_not.2 hwidth)).trans ((if_neg (Nat.not_le.2 hshift)).trans (if_pos hendian)))

variable (h : LegalProfile p)

include h

/-- Under a legal profile three tests are left, all of the length. -/
theorem vqCheck_of_legalProfile :
    vqCheck caps p len =
      if len < p.minlen.toNat then some ⟨.length, 0, len, p.minlen.toNat⟩
      else if len % p.gran.toNat ≠ 0 then some ⟨.gran, 0, len, p.gran.toNat⟩
      else if caps.q.size < len * (p.width.toNat / 8) then some (capacityFault 10 (len * (p.width.toNat / 8)) caps.q)
      else none :=
  (if_neg h.gran).trans ((if_neg (not_not.2 h.width)).trans
    ((if_neg (Nat.not_le.2 h.shift)).trans (if_neg (Nat.not_lt.2 h.endian))))

theorem vqCheck_of_short (hlen : len < p.minlen.toNat) :
    vqCheck caps p len = some ⟨.length, 0, len, p.minlen.toNat⟩ :=
  (vqCheck_of_legalProfile h).trans (if_pos hlen)

theorem vqCheck_of_not_whole (hlen : p.minlen.toNat ≤ len) (hmod : len % p.gran.toNat ≠ 0) :
    vqCheck caps p len = some ⟨.gran, 0, len, p.gran.toNat⟩ := by
  rw [vqCheck_of_legalProfile h, if_neg (Nat.not_lt.2 hlen), if_pos hmod]

theorem vqCheck_of_no_room (hlen : p.minlen.toNat ≤ len) (hmod : len % p.gran.toNat = 0)
    (hcap : caps.q.size < len * (p.width.toNat / 8)) :
    vqCheck caps p len = some (capacityFault 10 (len * (p.width.toNat / 8)) caps.q) := by
  rw [vqCheck_of_legalProfile h, if_neg (Nat.not_lt.2 hlen), if_neg (not_not.2 hmod), if_pos hcap]

theorem vqCheck_of_room (hlen : p.minlen.toNat ≤ len) (hmod : len % p.gran.toNat = 0)
    (hcap : len * (p.width.toNat / 8) ≤ caps.q.size) : vqCheck caps p len = none := by
  rw [vqCheck_of_legalProfile h, if_neg (Nat.not_lt.2 hlen), if_neg (not_not.2 hmod), if_neg (Nat.not_lt.2 hcap)]

end

/-! The command. -/

/-- The source buffer by the legal values of `src` (R275). -/
theorem vqSource_eq_ite (m : Memory) (src : BitVec 2) :
    vqSource m src = if src = 0 then m.wi else if src = 1 then m.wq else m.ilvbuf :=
  match src with
  | 0#2 => rfl
  | 1#2 => rfl
  | 2#2 => rfl
  | 3#2 => rfl

/-- The bytes VQ puts in QBUF under the profile `p` (R273 to R275). -/
def vqBytes (params : Params) (p : Profile) (order : BitVec 2) (buf : List Sample) : List Byte :=
  buf.flatMap fun v => sampleBytes (vqBigEndian p order) (p.width.toNat / 8) (quantize params p v)

theorem vqBytes_length (params : Params) (p : Profile) (order : BitVec 2) (buf : List Sample) :
    (vqBytes params p order buf).length = buf.length * (p.width.toNat / 8) :=
  flatMap_length_const _ _ (fun _ => sampleBytes_length _ _ _) _

section

variable {s : State} {src order : BitVec 2}

/-- What VQ does in IDLE: the snapshot, then the conversion (R270, R275). -/
theorem exec_vq_of_idle (hs : s.phase = .idle) (hsrc : src ≠ 3) (horder : order ≠ 3) :
    exec (.vq src order) s = .next (finish (vqConvert src order (takeSnapshot s))) := by
  have hlegal : WellFormed (.vq src order) = true :=
    Bool.and_eq_true_iff.2 ⟨bne_iff_ne.2 hsrc, bne_iff_ne.2 horder⟩
  calc exec (.vq src order) s
    _ = .next (finish (vqResult src order s)) := runInIdle_of_idle hs
    _ = .next (finish (vqConvert src order (takeSnapshot s))) := by rw [vqResult, if_pos hlegal]

/-- A test of the staged profile that fails: its fault, the snapshot kept (R270, R272). -/
theorem exec_vq_of_vqCheck_some (hs : s.phase = .idle) (hsrc : src ≠ 3) (horder : order ≠ 3) {e : Raise}
    (he : vqCheck s.params.caps s.stage (vqSource s.mem src).length = some e) :
    exec (.vq src order) s = .next { faulted e s with snap := s.stage } := by
  have hfault : vqConvert src order (takeSnapshot s) = .raised e (takeSnapshot s) := by
    simp only [vqConvert, takeSnapshot_params, takeSnapshot_snap, takeSnapshot_mem, he]
  rw [exec_vq_of_idle hs hsrc horder, hfault]
  rfl

/-- Where no test of the staged profile fails, QBUF and the snapshot are written (R270, R275). -/
theorem exec_vq_of_vqCheck_none (hs : s.phase = .idle) (hsrc : src ≠ 3) (horder : order ≠ 3)
    (hnone : vqCheck s.params.caps s.stage (vqSource s.mem src).length = none) :
    exec (.vq src order) s = .next { completed s { s.mem with
      qbuf := vqBytes s.params s.stage order (vqSource s.mem src) } with snap := s.stage } := by
  have hdone : vqConvert src order (takeSnapshot s) = .done { takeSnapshot s with mem := { s.mem with
      qbuf := vqBytes s.params s.stage order (vqSource s.mem src) } } := by
    simp only [vqConvert, takeSnapshot_params, takeSnapshot_snap, takeSnapshot_mem, hnone, vqBytes]
  rw [exec_vq_of_idle hs hsrc horder, hdone]
  rfl

end

/-- Settles O29, test by test. -/
theorem vqChecksTheProfileThenTheLength : Obligations.VqChecksTheProfileThenTheLength := by
  intro src order s hs hsrc horder p len w gran cap after width
  have hlen : len = (vqSource s.mem src).length := congrArg List.length (vqSource_eq_ite s.mem src).symm
  have hfault {e : Raise} (he : vqCheck s.params.caps p len = some e) :
      exec (.vq src order) s = .next (after e) := exec_vq_of_vqCheck_some hs hsrc horder (hlen ▸ he)
  exact ⟨fun hgran => hfault (vqCheck_of_no_gran hgran),
    fun ⟨hgran, hwidth⟩ => hfault (vqCheck_of_illegal_width hgran hwidth),
    fun ⟨hgran, hwidth, hshift⟩ => hfault (vqCheck_of_wide_shift hgran hwidth hshift),
    fun ⟨hgran, hwidth, hshift, hendian⟩ => hfault (vqCheck_of_unknown_order hgran hwidth hshift hendian),
    fun ⟨hgran, hwidth, hshift, hendian, hshort⟩ => hfault (vqCheck_of_short ⟨hgran, hwidth, hshift, hendian⟩ hshort),
    fun ⟨hgran, hwidth, hshift, hendian, hmin, hmod⟩ =>
      hfault (vqCheck_of_not_whole ⟨hgran, hwidth, hshift, hendian⟩ hmin hmod),
    fun ⟨hgran, hwidth, hshift, hendian, hmin, hmod, hcap⟩ =>
      hfault (vqCheck_of_no_room ⟨hgran, hwidth, hshift, hendian⟩ hmin hmod hcap)⟩

/-- Settles O30: which of the tests of the length fails at each of the four lengths. -/
theorem validationOfTheMinimumLength : Obligations.ValidationOfTheMinimumLength := by
  intro s hs p w len minlen gran hgran hwidth hshift hendian hmod hcap
  have hlegal : LegalProfile s.stage := ⟨Nat.ne_of_gt hgran, hwidth, hshift, hendian⟩
  have hzero : (0 : BitVec 2) ≠ 3 := by decide
  refine ⟨fun hlen => ?passes, fun hlen => ?short, fun hlen hgran' => ?notWhole⟩
  case passes =>
    have hmin : minlen ≤ len := by omega
    have hwhole : len % gran = 0 := by
      obtain hlen | hlen := hlen
      · rw [hlen, hmod]
      · rw [hlen, Nat.add_mod_right, hmod]
    exact ⟨_, ⟨hs, exec_vq_of_vqCheck_none hs hzero hzero (vqCheck_of_room hlegal hmin hwhole hcap), hs⟩,
      vqBytes_length _ _ _ _⟩
  case short =>
    have hshort : len < minlen := by omega
    exact ⟨_, exec_vq_of_vqCheck_some hs hzero hzero (vqCheck_of_short hlegal hshort), rfl⟩
  case notWhole =>
    have hmin : minlen ≤ len := by omega
    have hrest : len % gran ≠ 0 := by
      rw [hlen, Nat.add_mod, hmod, Nat.zero_add, Nat.mod_mod, Nat.mod_eq_of_lt hgran']
      exact Nat.one_ne_zero
    exact ⟨_, exec_vq_of_vqCheck_some hs hzero hzero (vqCheck_of_not_whole hlegal hmin hrest), rfl⟩

end Sys2Proof.Machine
end

section
/-! O28. Every byte that VQ writes: the pattern of its sample, in the selected byte order (R271, R273, R274). -/

namespace Sys2Proof.Machine

open Sys2Proof.Config

/-- The byte order by the legal values of `end` (R271). -/
theorem vqBigEndian_iff (p : Profile) {order : BitVec 2} (horder : order ≠ 3) :
    vqBigEndian p order = true ↔ order = 2 ∨ order = 0 ∧ p.endian = 1 :=
  match order, horder with
  | 0#2, _ => by simp [vqBigEndian]
  | 1#2, _ => by simp [vqBigEndian]
  | 2#2, _ => by simp [vqBigEndian]
  | 3#2, h => absurd rfl h

theorem sampleBytes_getElem? (big : Bool) {n j : Nat} (q : Nat) (hj : j < n) :
    (sampleBytes big n q)[j]? = some (patternByte q (if big then n - 1 - j else j)) := by
  rw [sampleBytes, List.getElem?_map, List.getElem?_range hj, Option.map_some]

/-- A byte of a wrapped pattern, computed on the integers. -/
theorem patternByte_wrapShift (r : Int) (shift w i : Nat) :
    patternByte (wrapShift r shift w) i = BitVec.ofInt 8 (r * 2 ^ shift % 2 ^ w / 2 ^ (8 * i)) := by
  have hpos : 0 ≤ r * 2 ^ shift % 2 ^ w := Int.emod_nonneg _ (by positivity)
  have hcast : ((wrapShift r shift w / 2 ^ (8 * i) : Nat) : Int) = r * 2 ^ shift % 2 ^ w / 2 ^ (8 * i) := by
    rw [wrapShift]
    push_cast
    rw [Int.toNat_of_nonneg hpos]
  rw [patternByte, ← hcast, BitVec.ofInt_natCast]

/-- Byte `j` of the bytes of sample `k`. -/
theorem vqBytes_getElem? (params : Params) (p : Profile) {order : BitVec 2} {buf : List Sample} {v : Sample} {k j : Nat}
    (horder : order ≠ 3) (hv : buf[k]? = some v) (hj : j < p.width.toNat / 8) :
    (vqBytes params p order buf)[k * (p.width.toNat / 8) + j]? =
      some (BitVec.ofInt 8
        (params.numerics.roundProduct params.ties p.binmult.toNat v * 2 ^ p.shift.toNat % 2 ^ p.width.toNat /
          2 ^ (8 * if order = 2 ∨ order = 0 ∧ p.endian = 1 then p.width.toNat / 8 - 1 - j else j))) := by
  rw [vqBytes, getElem?_flatMap_const (fun _ => sampleBytes_length _ _ _) hv hj, sampleBytes_getElem? _ _ hj, quantize,
    patternByte_wrapShift, if_congr (vqBigEndian_iff p horder) rfl rfl]

/-- Settles O28, byte by byte. -/
theorem vqQuantizesEverySample : Obligations.VqQuantizesEverySample := by
  intro src order s hs hsrc horder p buf w n big hgran hwidth hshift hendian hmin hmod hcap
  have hlegal : LegalProfile p := ⟨Nat.ne_of_gt hgran, hwidth, hshift, hendian⟩
  have hbuf : vqSource s.mem src = buf := vqSource_eq_ite s.mem src
  have hnone : vqCheck s.params.caps p (vqSource s.mem src).length = none := by
    rw [hbuf]
    exact vqCheck_of_room hlegal hmin hmod hcap
  refine ⟨vqBytes s.params p order buf, ?_, vqBytes_length _ _ _ _,
    fun k v hv j hj => vqBytes_getElem? s.params p horder hv hj⟩
  rw [← hbuf]
  exact exec_vq_of_vqCheck_none hs hsrc horder hnone

end Sys2Proof.Machine
end

section
/-! O35. PDWCLR (R310). -/

namespace Sys2Proof.Machine

/-- What PDWCLR does in IDLE (R310). -/
theorem exec_pdwclr_of_idle {s : State} (h : s.phase = .idle) : exec .pdwclr s = .next (finish (pdwclrResult s)) :=
  runInIdle_of_idle h

/-- Settles O35: the body is the one assignment to RECBUF, after which CIX advances. -/
theorem pdwclrEmptiesTheRecords : Obligations.PdwclrEmptiesTheRecords := fun _ hs => exec_pdwclr_of_idle hs

end Sys2Proof.Machine
end

section
/-! O36. Every byte of the file, and PDWASM case by case (R322 to R324). -/

namespace Sys2Proof.Machine

open Sys2Proof.Config

theorem le4_getElem? (w : Word) {j : Nat} (hj : j < 4) : (le4 w)[j]? = some (w.extractLsb' (8 * j) 8) :=
  match j, hj with
  | 0, _ => rfl
  | 1, _ => rfl
  | 2, _ => rfl
  | 3, _ => rfl

/-! The parts of the file. -/

section

variable (p : Params) (records : List Word)

theorem assembleFile_eq_head_append :
    assembleFile p records = p.fileHeader ++
      (List.replicate (4096 - p.blockHeader.length - p.fileHeader.length) 0 ++
        (p.blockHeader ++ records.flatMap le4)) := by
  simp only [assembleFile, pdwOffset, List.append_assoc]

/-- The records stand after the file of no records, whose 4096 bytes do not depend on them. -/
theorem assembleFile_eq_append_records : assembleFile p records = assembleFile p [] ++ records.flatMap le4 := by
  simp only [assembleFile, List.flatMap_nil, List.append_nil]

theorem assembleFile_header_getElem? {k : Nat} (hk : k < p.fileHeader.length) :
    (assembleFile p records)[k]? = p.fileHeader[k]? := by
  rw [assembleFile_eq_head_append, List.getElem?_append_left hk]

theorem assembleFile_padding_getElem? {k : Nat} (hhead : p.fileHeader.length ≤ k)
    (hblock : k < 4096 - p.blockHeader.length) : (assembleFile p records)[k]? = some 0 := by
  have hpad : k - p.fileHeader.length < 4096 - p.blockHeader.length - p.fileHeader.length := by omega
  rw [assembleFile_eq_head_append, List.getElem?_append_right hhead,
    List.getElem?_append_left (by rwa [List.length_replicate]), List.getElem?_replicate_of_lt hpad]

theorem assembleFile_blockHeader_getElem? {k : Nat} (hk : k < p.blockHeader.length) :
    (assembleFile p records)[4096 - p.blockHeader.length + k]? = p.blockHeader[k]? := by
  have hfit := p.headersFit
  have hidx : 4096 - p.blockHeader.length + k - p.fileHeader.length -
      (4096 - p.blockHeader.length - p.fileHeader.length) = k := by omega
  rw [assembleFile_eq_head_append, List.getElem?_append_right (by omega),
    List.getElem?_append_right (by rw [List.length_replicate]; omega), List.length_replicate, hidx,
    List.getElem?_append_left hk]

theorem assembleFile_record_getElem? {i j : Nat} {w : Word} (hw : records[i]? = some w) (hj : j < 4) :
    (assembleFile p records)[4096 + 4 * i + j]? = some (w.extractLsb' (8 * j) 8) := by
  have hlen : (assembleFile p []).length = 4096 := assembleFile_length p []
  have hidx : 4096 + 4 * i + j = 4096 + (i * 4 + j) := by omega
  rw [assembleFile_eq_append_records, hidx, List.getElem?_append_right (by omega), hlen, Nat.add_sub_cancel_left,
    getElem?_flatMap_const le4_length hw hj, le4_getElem? w hj]

end

/-! The command. -/

/-- What PDWASM does in IDLE (R324). -/
theorem exec_pdwasm_of_idle {s : State} (h : s.phase = .idle) : exec .pdwasm s = .next (finish (pdwasmResult s)) :=
  runInIdle_of_idle h

section

variable {s : State}

theorem pdwasmResult_of_no_room (h : s.params.caps.file.size < 4096 + 4 * s.mem.recbuf.length) :
    pdwasmResult s = .raised (capacityFault 12 (4096 + 4 * s.mem.recbuf.length) s.params.caps.file) s := if_pos h

theorem pdwasmResult_of_room (h : 4096 + 4 * s.mem.recbuf.length ≤ s.params.caps.file.size) :
    pdwasmResult s = .done (withMem { s.mem with filebuf := assembleFile s.params s.mem.recbuf } s) :=
  if_neg (Nat.not_lt.2 h)

end

/-- Settles O36, part by part of the file. -/
theorem pdwasmLaysOutTheFile : Obligations.PdwasmLaysOutTheFile := by
  intro s hs n cap head block
  rw [exec_pdwasm_of_idle hs]
  refine ⟨fun hcap => ?capacity, fun hcap => ⟨assembleFile s.params s.mem.recbuf, ?completes,
    assembleFile_length s.params s.mem.recbuf,
    fun _ hk => assembleFile_header_getElem? s.params s.mem.recbuf hk,
    fun _ hhead hblock => assembleFile_padding_getElem? s.params s.mem.recbuf hhead hblock,
    fun _ hk => assembleFile_blockHeader_getElem? s.params s.mem.recbuf hk,
    fun _ _ hw _ hj => assembleFile_record_getElem? s.params s.mem.recbuf hw hj⟩⟩
  case capacity => rw [pdwasmResult_of_no_room hcap]; rfl
  case completes => rw [pdwasmResult_of_room hcap]; rfl

end Sys2Proof.Machine
end

section
/-! O33. Which field PDWENC finds to overflow, and what PDWENC does test by test (R306, R308). -/

namespace Sys2Proof.Machine

theorem FieldCheck.overflows_eq_false_iff (c : FieldCheck) :
    c.overflows = false ↔ 0 ≤ c.value ∧ c.value ≤ 2 ^ c.width - 1 := by
  rw [FieldCheck.overflows, decide_eq_false_iff_not, not_or, not_lt, not_lt]

/-- The encoded values in the order of R300. -/
def fieldValues (x : PdwFields) : List Int :=
  [x.op, x.freq, x.phase, x.time, x.power, x.markers, x.phctl, x.rfoff, x.widx, x.wmask]

/-- The widths of the fields in the order of R300. -/
def fieldWidths : List Nat := [2, 47, 12, 64, 15, 12, 1, 1, 16, 4]

/-- The check of the field at index `k` of R300, whose id is `k + 1`. -/
def fieldCheckAt (x : PdwFields) (k : Nat) : FieldCheck :=
  ⟨BitVec.ofNat 8 (k + 1), (fieldValues x).getD k 0, fieldWidths.getD k 0⟩

theorem fieldChecks_eq_map_range (x : PdwFields) : fieldChecks x = (List.range 10).map (fieldCheckAt x) := rfl

theorem firstOverflow_eq_none_iff (x : PdwFields) :
    firstOverflow x = none ↔ ∀ k < 10, (fieldCheckAt x k).overflows = false := by
  simp [firstOverflow, fieldChecks_eq_map_range]

/-- The field that overflows with none before it is the one found (R306). -/
theorem firstOverflow_eq_fieldCheckAt {x : PdwFields} {k : Nat} (hk : k < 10)
    (hover : (fieldCheckAt x k).overflows = true) (hfit : ∀ j < k, (fieldCheckAt x j).overflows = false) :
    firstOverflow x = some (fieldCheckAt x k) := by
  have hlen : k < (fieldChecks x).length := hk
  have hget {j : Nat} (hj : j < (fieldChecks x).length) : (fieldChecks x)[j] = fieldCheckAt x j := by
    simp only [fieldChecks_eq_map_range, List.getElem_map, List.getElem_range]
  refine List.find?_eq_some_iff_getElem.2 ⟨hover, k, hlen, hget hlen, fun j hj => ?_⟩
  rw [hget, hfit j hj]
  rfl

/-! The command. -/

section

variable {s : State} {x : PdwFields}

theorem appendRecord_of_overflow {c : FieldCheck} (h : firstOverflow x = some c) :
    appendRecord x s = .raised (overflowFault c) s := by
  rw [appendRecord, h]

variable (h : firstOverflow x = none)

include h

theorem appendRecord_of_no_room (hcap : s.params.caps.recs.size < s.mem.recbuf.length + 6) :
    appendRecord x s = .raised (capacityFault 11 (s.mem.recbuf.length + 6) s.params.caps.recs) s := by
  rw [appendRecord, h]
  exact if_pos hcap

theorem appendRecord_of_room (hcap : s.mem.recbuf.length + 6 ≤ s.params.caps.recs.size) :
    appendRecord x s =
      .done (withMem { s.mem with recbuf := s.mem.recbuf ++ recordWords s.params.formatTag x } s) := by
  rw [appendRecord, h]
  exact if_neg (Nat.not_lt.2 hcap)

end

/-- Where a record is appended, every field fits and there is room (R308). -/
theorem fits_of_appendRecord_eq_done {s u : State} {x : PdwFields} (h : appendRecord x s = .done u) :
    firstOverflow x = none ∧ s.mem.recbuf.length + 6 ≤ s.params.caps.recs.size := by
  cases hover : firstOverflow x with
  | some c =>
    rw [appendRecord_of_overflow hover] at h
    cases h
  | none =>
    refine ⟨rfl, Nat.not_lt.1 fun hcap => ?_⟩
    rw [appendRecord_of_no_room hover hcap] at h
    cases h

section

variable {s : State}

theorem pdwencResult_of_no_freq (hfreq : numOf s.pd.freq.pattern = none) :
    pdwencResult s = .raised (numfmtFault 2 s.pd.freq.pattern) s := by
  rw [pdwencResult, hfreq]

variable {freq : ℚ} (hfreq : numOf s.pd.freq.pattern = some freq)

include hfreq

theorem pdwencResult_of_no_phase (hphase : numOf s.pd.phase.pattern = none) :
    pdwencResult s = .raised (numfmtFault 3 s.pd.phase.pattern) s := by
  simp only [pdwencResult, hfreq, hphase]

variable {phase : ℚ} (hphase : numOf s.pd.phase.pattern = some phase)

include hphase

theorem pdwencResult_of_no_time (htime : numOf s.pd.time.pattern = none) :
    pdwencResult s = .raised (numfmtFault 4 s.pd.time.pattern) s := by
  simp only [pdwencResult, hfreq, hphase, htime]

variable {time : ℚ} (htime : numOf s.pd.time.pattern = some time)

include htime

theorem pdwencResult_of_no_power (hpower : numOf s.pd.power.pattern = none) :
    pdwencResult s = .raised (numfmtFault 5 s.pd.power.pattern) s := by
  simp only [pdwencResult, hfreq, hphase, htime, hpower]

theorem pdwencResult_of_numbers {power : ℚ} (hpower : numOf s.pd.power.pattern = some power) :
    pdwencResult s = appendRecord (encodeFields s.params s.pd freq phase time power) s := by
  simp only [pdwencResult, hfreq, hphase, htime, hpower]

end

/-- What PDWENC does in IDLE (R308). -/
theorem exec_pdwenc_of_idle {s : State} (h : s.phase = .idle) : exec .pdwenc s = .next (finish (pdwencResult s)) :=
  runInIdle_of_idle h

/-- Settles O33, test by test. -/
theorem pdwencChecksEveryField : Obligations.PdwencChecksEveryField := by
  intro s hs pd cap
  rw [exec_pdwenc_of_idle hs]
  refine ⟨fun hfreq => ?noFreq, fun ⟨hfreq, hphase⟩ => ?noPhase, fun ⟨hfreq, hphase, htime⟩ => ?noTime,
    fun ⟨hfreq, hphase, htime, hpower⟩ => ?noPower, fun freq phase time power hfreq hphase htime hpower => ?numbers⟩
  case noFreq => rw [pdwencResult_of_no_freq hfreq]; rfl
  case noPhase =>
    obtain ⟨freq, hfreq⟩ := Option.ne_none_iff_exists'.1 hfreq
    rw [pdwencResult_of_no_phase hfreq hphase]
    rfl
  case noTime =>
    obtain ⟨freq, hfreq⟩ := Option.ne_none_iff_exists'.1 hfreq
    obtain ⟨phase, hphase⟩ := Option.ne_none_iff_exists'.1 hphase
    rw [pdwencResult_of_no_time hfreq hphase htime]
    rfl
  case noPower =>
    obtain ⟨freq, hfreq⟩ := Option.ne_none_iff_exists'.1 hfreq
    obtain ⟨phase, hphase⟩ := Option.ne_none_iff_exists'.1 hphase
    obtain ⟨time, htime⟩ := Option.ne_none_iff_exists'.1 htime
    rw [pdwencResult_of_no_power hfreq hphase htime hpower]
    rfl
  case numbers =>
    rw [pdwencResult_of_numbers hfreq hphase htime hpower]
    intro x value width fits
    have hfits (k : Nat) : (fieldCheckAt x k).overflows = false ↔ fits k :=
      FieldCheck.overflows_eq_false_iff (fieldCheckAt x k)
    refine ⟨fun k hk hover hbefore => ?overflow, fun hall hcap => ?capacity⟩
    case overflow =>
      have hfound : firstOverflow x = some (fieldCheckAt x k) :=
        firstOverflow_eq_fieldCheckAt hk (Bool.eq_true_of_not_eq_false (mt (hfits k).1 hover))
          fun j hj => (hfits j).2 (hbefore j hj)
      rw [appendRecord_of_overflow hfound]
      rfl
    case capacity =>
      have hnone : firstOverflow x = none := (firstOverflow_eq_none_iff x).2 fun k hk => (hfits k).2 (hall k hk)
      rw [appendRecord_of_no_room hnone hcap]
      rfl

end Sys2Proof.Machine
end

section
/-! O32. The fields of the six words of a record, and PDWENC where every field fits (R300, R307, R308). -/

namespace Sys2Proof.Machine

/-- Every encoded value fits its unsigned field (R300, R306). -/
structure FieldsFit (x : PdwFields) : Prop where
  op : 0 ≤ x.op ∧ x.op < 2 ^ 2
  freq : 0 ≤ x.freq ∧ x.freq < 2 ^ 47
  phase : 0 ≤ x.phase ∧ x.phase < 2 ^ 12
  time : 0 ≤ x.time ∧ x.time < 2 ^ 64
  power : 0 ≤ x.power ∧ x.power < 2 ^ 15
  markers : 0 ≤ x.markers ∧ x.markers < 2 ^ 12
  phctl : 0 ≤ x.phctl ∧ x.phctl < 2
  rfoff : 0 ≤ x.rfoff ∧ x.rfoff < 2
  widx : 0 ≤ x.widx ∧ x.widx < 2 ^ 16
  wmask : 0 ≤ x.wmask ∧ x.wmask < 2 ^ 4

theorem firstOverflow_eq_none_iff_fieldsFit (x : PdwFields) : firstOverflow x = none ↔ FieldsFit x := by
  rw [firstOverflow, List.find?_eq_none]
  simp only [fieldChecks, List.forall_mem_cons, Bool.not_eq_true, FieldCheck.overflows_eq_false_iff,
    Int.le_sub_one_iff, pow_one, List.not_mem_nil, false_imp_iff, implies_true, and_true]
  exact ⟨fun ⟨hop, hfreq, hphase, htime, hpower, hmarkers, hphctl, hrfoff, hwidx, hwmask⟩ =>
      ⟨hop, hfreq, hphase, htime, hpower, hmarkers, hphctl, hrfoff, hwidx, hwmask⟩,
    fun h => ⟨h.op, h.freq, h.phase, h.time, h.power, h.markers, h.phctl, h.rfoff, h.widx, h.wmask⟩⟩

/-! The fields of the words. -/

/-- The `l` bits of a packed word from bit `a` on, as a quotient and a remainder. -/
theorem toNat_extractLsb'_ofNat {w a l : Nat} (n : Nat) (h : a + l ≤ w) :
    ((BitVec.ofNat w n).extractLsb' a l).toNat = n / 2 ^ a % 2 ^ l := by
  have hsplit : 2 ^ w = 2 ^ a * 2 ^ (w - a) := by rw [← Nat.pow_add, Nat.add_sub_cancel' (by omega)]
  have hdvd : 2 ^ l ∣ 2 ^ (w - a) := Nat.pow_dvd_pow 2 (by omega)
  rw [BitVec.extractLsb'_toNat, BitVec.toNat_ofNat, Nat.shiftRight_eq_div_pow, hsplit, Nat.mod_mul_right_div_self,
    Nat.mod_mod_of_dvd _ hdvd]

/-- A field of a packed word is `v` where the arithmetic of its place says so. -/
theorem field_eq_int {w a l n : Nat} {v : Int} (h : a + l ≤ w) (hv : ((n / 2 ^ a % 2 ^ l : Nat) : Int) = v) :
    (((BitVec.ofNat w n).extractLsb' a l).toNat : Int) = v := by
  rw [toNat_extractLsb'_ofNat n h, hv]

theorem field_eq_bitVec {w a l n : Nat} {v : BitVec l} (h : a + l ≤ w) (hv : n / 2 ^ a % 2 ^ l = v.toNat) :
    (BitVec.ofNat w n).extractLsb' a l = v :=
  BitVec.eq_of_toNat_eq ((toNat_extractLsb'_ofNat n h).trans hv)

section

variable (fmt : BitVec 3) {x : PdwFields} (h : FieldsFit x)

include h

theorem recordWords_word0 :
    let w := (recordWords fmt x)[0]
    w.extractLsb' 0 3 = fmt ∧ ((w.extractLsb' 3 2).toNat : Int) = x.op ∧
      ((w.extractLsb' 5 27).toNat : Int) = x.freq % 2 ^ 27 := by
  have hfmt := fmt.isLt
  obtain ⟨hop, hop'⟩ := h.op
  obtain ⟨hfreq, -⟩ := h.freq
  exact ⟨field_eq_bitVec (by decide) (by omega), field_eq_int (by decide) (by omega),
    field_eq_int (by decide) (by omega)⟩

theorem recordWords_word1 :
    let w := (recordWords fmt x)[1]
    ((w.extractLsb' 0 20).toNat : Int) = x.freq / 2 ^ 27 ∧ ((w.extractLsb' 20 12).toNat : Int) = x.phase := by
  obtain ⟨hfreq, hfreq'⟩ := h.freq
  obtain ⟨hphase, hphase'⟩ := h.phase
  exact ⟨field_eq_int (by decide) (by omega), field_eq_int (by decide) (by omega)⟩

theorem recordWords_word2_word3 :
    ((recordWords fmt x)[2].toNat : Int) = x.time % 2 ^ 32 ∧
      ((recordWords fmt x)[3].toNat : Int) = x.time / 2 ^ 32 := by
  obtain ⟨htime, htime'⟩ := h.time
  simp only [recordWords, List.getElem_cons_succ, List.getElem_cons_zero, BitVec.toNat_ofNat]
  omega

theorem recordWords_word4 :
    let w := (recordWords fmt x)[4]
    ((w.extractLsb' 0 15).toNat : Int) = x.power ∧ ((w.extractLsb' 15 12).toNat : Int) = x.markers ∧
      ((w.extractLsb' 27 1).toNat : Int) = x.phctl ∧ ((w.extractLsb' 28 1).toNat : Int) = x.rfoff ∧
      w.extractLsb' 29 3 = 0#3 := by
  obtain ⟨hpower, hpower'⟩ := h.power
  obtain ⟨hmarkers, hmarkers'⟩ := h.markers
  obtain ⟨hphctl, hphctl'⟩ := h.phctl
  obtain ⟨hrfoff, hrfoff'⟩ := h.rfoff
  exact ⟨field_eq_int (by decide) (by omega), field_eq_int (by decide) (by omega),
    field_eq_int (by decide) (by omega), field_eq_int (by decide) (by omega),
    field_eq_bitVec (by decide) (by rw [BitVec.toNat_zero]; omega)⟩

theorem recordWords_word5 :
    let w := (recordWords fmt x)[5]
    ((w.extractLsb' 0 16).toNat : Int) = x.widx ∧ w.extractLsb' 16 12 = 0#12 ∧
      ((w.extractLsb' 28 4).toNat : Int) = x.wmask := by
  obtain ⟨hwidx, hwidx'⟩ := h.widx
  obtain ⟨hwmask, hwmask'⟩ := h.wmask
  exact ⟨field_eq_int (by decide) (by omega), field_eq_bitVec (by decide) (by rw [BitVec.toNat_zero]; omega),
    field_eq_int (by decide) (by omega)⟩

end

/-- Settles O32, word by word. -/
theorem pdwencAppendsTheRecord : Obligations.PdwencAppendsTheRecord := by
  intro s freq phase time power hs hfreq hphase htime hpower x hop hf hph ht hpw hmarkers hphctl hrfoff hwidx hwmask
    hcap
  have hfit : FieldsFit x := ⟨hop, hf, hph, ht, hpw, hmarkers, hphctl, hrfoff, hwidx, hwmask⟩
  have hexec : exec .pdwenc s = .next (completed s { s.mem with
      recbuf := s.mem.recbuf ++ recordWords s.params.formatTag x }) := by
    rw [exec_pdwenc_of_idle hs, pdwencResult_of_numbers hfreq hphase htime hpower,
      appendRecord_of_room ((firstOverflow_eq_none_iff_fieldsFit x).2 hfit) hcap]
    rfl
  obtain ⟨htag, hop, hfreqLow⟩ := recordWords_word0 s.params.formatTag hfit
  obtain ⟨hfreqHigh, hphase⟩ := recordWords_word1 s.params.formatTag hfit
  obtain ⟨htimeLow, htimeHigh⟩ := recordWords_word2_word3 s.params.formatTag hfit
  obtain ⟨hpower, hmarkers, hphctl, hrfoff, hzero4⟩ := recordWords_word4 s.params.formatTag hfit
  obtain ⟨hwidx, hzero5, hwmask⟩ := recordWords_word5 s.params.formatTag hfit
  exact ⟨_, _, _, _, _, _, hexec, htag, hop, hfreqLow, hfreqHigh, hphase, htimeLow, htimeHigh, hpower, hmarkers, hphctl,
    hrfoff, hzero4, hwidx, hzero5, hwmask⟩

end Sys2Proof.Machine
end

section
/-! O34. The scaled numbers are rational, so that `Round` moves them by at most a half (R12, R301 to R304), and the
words of a record give its values back (R309). -/

namespace Sys2Proof

theorem Num.rat?_isSome_ofRat (q : ℚ) : (Num.ofRat q).rat?.isSome = true := by rw [Num.rat?_ofRat]; rfl

theorem Num.rat?_isSome_scale (q : ℚ) {a : Num} (ha : a.rat?.isSome = true) : (Num.scale q a).rat?.isSome = true := by
  rw [Num.scale]
  split
  · rfl
  · rw [Num.rat?_isSome_iff] at ha ⊢
    obtain hts | ⟨c, hts⟩ := ha
    · exact .inl (by rw [hts]; rfl)
    · exact .inr ⟨q * c, by rw [hts]; rfl⟩

/-- `Round` of a closed form in rational form is at most a half away from the rational it stands for. -/
theorem Num.abs_sub_round_le (ties : Config.RoundTies) {a : Num} {q : ℚ} (ha : a.rat?.isSome = true)
    (hq : a.toReal = q) : |q - a.round ties| ≤ 1 / 2 := by
  obtain ⟨r, hr⟩ := Option.isSome_iff_exists.1 ha
  obtain rfl : r = q := Rat.cast_injective ((Num.toReal_of_rat? hr).symm.trans hq)
  have hround : a.round ties = (Num.ofRat r).round ties := by
    rw [Num.round, Num.round, Num.floorAt_of_rat? hr, Num.floorAt_of_rat? (Num.rat?_ofRat r)]
  rw [hround]
  exact (isRoundOf_ratCast (Num.round_ofRat_isRoundOf ties r)).1

/-- A value rounded to `n` after scaling by `c` comes back within half a step of `1 / c`. -/
theorem abs_div_sub_le_half_step {c v : ℚ} {n : Nat} {r : Int} (hc : 0 < c) (h : |v * c - r| ≤ 1 / 2)
    (hn : (n : Int) = r) : |n / c - v| ≤ 1 / 2 / c := by
  have hdiff : n / c - v = -(v * c - r) / c := by
    rw [← hn, Int.cast_natCast]
    field_simp
    ring
  rw [hdiff, abs_div, abs_neg, abs_of_pos hc]
  gcongr

namespace Machine

open Sys2Proof.Config

/-! The four scaled fields in the reference numerics. -/

section

variable {p : Params} (href : p.numerics = .reference) (v : ℚ)

include href

theorem abs_sub_encodeFreq_le : |v * 1024 - encodeFreq p v| ≤ 1 / 2 := by
  rw [encodeFreq, href]
  exact Num.abs_sub_round_le p.ties (Num.rat?_isSome_mul (Num.rat?_isSome_ofRat v) (Num.rat?_isSome_ofRat 1024))
    (by simp [Numerics.mul, Numerics.ofRat])

theorem abs_sub_encodePhase_le : |v * (4096 / 360) - encodePhase p v| ≤ 1 / 2 := by
  rw [encodePhase, href]
  exact Num.abs_sub_round_le p.ties
    (Num.rat?_isSome_scale _ (Num.rat?_isSome_mul (Num.rat?_isSome_ofRat v) (Num.rat?_isSome_ofRat 4096)))
    (by
      simp only [Numerics.divRat, Numerics.mul, Numerics.ofRat, Num.toReal_scale, Num.toReal_mul, Num.toReal_ofRat]
      push_cast
      ring)

theorem abs_sub_encodeTime_le : |v * 10 ^ 12 - encodeTime p v| ≤ 1 / 2 := by
  rw [encodeTime, href]
  exact Num.abs_sub_round_le p.ties (Num.rat?_isSome_mul (Num.rat?_isSome_ofRat v) (Num.rat?_isSome_ofRat (10 ^ 12)))
    (by simp [Numerics.mul, Numerics.ofRat])

theorem abs_sub_encodePower_le : |(v + 140) * 200 - encodePower p v| ≤ 1 / 2 := by
  rw [encodePower, href]
  exact Num.abs_sub_round_le p.ties
    (Num.rat?_isSome_mul (Num.rat?_isSome_add (Num.rat?_isSome_ofRat v) (Num.rat?_isSome_ofRat 140))
      (Num.rat?_isSome_ofRat 200))
    (by simp [Numerics.mul, Numerics.add, Numerics.ofRat])

variable {v} {n : Nat}

theorem freq_within_half_step (hn : (n : Int) = encodeFreq p v) : |(n : ℚ) / 1024 - v| ≤ 1 / 2048 :=
  (abs_div_sub_le_half_step (by norm_num) (abs_sub_encodeFreq_le href v) hn).trans_eq (by norm_num)

theorem phase_within_half_step (hn : (n : Int) = encodePhase p v) : |(n : ℚ) * 360 / 4096 - v| ≤ 360 / 8192 := by
  rw [← div_div_eq_mul_div]
  exact (abs_div_sub_le_half_step (by norm_num) (abs_sub_encodePhase_le href v) hn).trans_eq (by norm_num)

theorem time_within_half_step (hn : (n : Int) = encodeTime p v) : |(n : ℚ) / 10 ^ 12 - v| ≤ 1 / (2 * 10 ^ 12) :=
  (abs_div_sub_le_half_step (by norm_num) (abs_sub_encodeTime_le href v) hn).trans_eq (by norm_num)

theorem power_within_half_step (hn : (n : Int) = encodePower p v) : |(n : ℚ) / 200 - 140 - v| ≤ 1 / 400 := by
  rw [sub_sub, add_comm]
  exact (abs_div_sub_le_half_step (by norm_num) (abs_sub_encodePower_le href v) hn).trans_eq (by norm_num)

end

/-- Settles O34: the fields O32 finds in the words, put together, are the encoded values. -/
theorem pdwRoundTrip : Obligations.PdwRoundTrip := by
  intro s t freq phase time power href hcompletes hfreq hphase htime hpower
  obtain ⟨u, hdone, -⟩ := hcompletes.exists_done (body := pdwencResult) rfl
  obtain ⟨hs, hexec, -⟩ := hcompletes
  rw [pdwencResult_of_numbers hfreq hphase htime hpower] at hdone
  obtain ⟨hnone, hcap⟩ := fits_of_appendRecord_eq_done hdone
  have hfit := (firstOverflow_eq_none_iff_fieldsFit _).1 hnone
  obtain ⟨w0, w1, w2, w3, w4, w5, hnext, -, hop, hfreqLow, hfreqHigh, hph, htimeLow, htimeHigh, hpw, hmarkers, hphctl,
    hrfoff, -, hwidx, -, hwmask⟩ := pdwencAppendsTheRecord s freq phase time power hs hfreq hphase htime hpower hfit.op
      hfit.freq hfit.phase hfit.time hfit.power hfit.markers hfit.phctl hfit.rfoff hfit.widx hfit.wmask hcap
  obtain rfl : t = _ := Host.Outcome.next.inj (hexec.symm.trans hnext)
  refine ⟨w0, w1, w2, w3, w4, w5, rfl, ?_⟩
  intro f ph ti pw
  have hf : (f : Int) = (encodeFields s.params s.pd freq phase time power).freq := by omega
  have hti : (ti : Int) = (encodeFields s.params s.pd freq phase time power).time := by omega
  exact ⟨freq_within_half_step href hf, phase_within_half_step href hph, time_within_half_step href hti,
    power_within_half_step href hpw, Int.ofNat.inj hop, Int.ofNat.inj hmarkers, Int.ofNat.inj hphctl,
    Int.ofNat.inj hrfoff, Int.ofNat.inj hwidx, Int.ofNat.inj hwmask⟩

end Machine
end Sys2Proof
end

section
/-! O1, O2. What NOP does in IDLE, and CLRERR in IDLE and in FAULT (R351, R352). -/

namespace Sys2Proof.Machine

/-- What NOP does in IDLE (R351). -/
theorem exec_nop_of_idle {s : State} (h : s.phase = .idle) : exec .nop s = .next (finish (.done s)) :=
  runInIdle_of_idle h

/-- Settles O1: the pseudocode is empty, after which CIX advances. -/
theorem nopOnlyAdvancesCix : Obligations.NopOnlyAdvancesCix := fun _ hs => exec_nop_of_idle hs

/-- What CLRERR does in IDLE and in FAULT (R352). -/
theorem exec_clrerr_of_ready {s : State} (h : Ready s) : exec .clrerr s = .next (advanceIndex (returnFromFault s)) :=
  runUnlessBusy_of_ready (f := fun t => advanceIndex (returnFromFault t)) h

theorem statusWord_of_idle {s : State} (h : s.phase = .idle) : statusWord s = 0 := by simp [statusWord, h]

/-- With no fault shown the error values are 0 (R34 to R36). -/
theorem errorValues_of_shown_none {s : State} (h : shownFault s = none) :
    errcodeWord s = 0 ∧ errcixWord s = 0 ∧ errval s = 0 ∧ errlim s = 0 := by
  simp [errcodeWord, errcixWord, errval, errlim, h]

/-- Settles O2: in the IDLE state that CLRERR leaves no fault is shown. -/
theorem clrerrReturnsFromTheFault : Obligations.ClrerrReturnsFromTheFault := by
  intro s hs
  have hexec := exec_clrerr_of_ready hs
  refine ⟨hexec, fun t ht => ?_⟩
  obtain rfl : _ = t := Host.Outcome.next.inj (hexec.symm.trans ht)
  have hidle : (advanceIndex (returnFromFault s)).phase = .idle := rfl
  exact ⟨statusWord_of_idle hidle, errorValues_of_shown_none (shownFault_of_idle hidle)⟩

end Sys2Proof.Machine
end

section
/-! O3. The state that SRESET and the hardware reset leave, and the steps of the hardware reset in each phase (R59,
R353, R420). -/

namespace Sys2Proof.Machine

/-- What SRESET does in IDLE and in FAULT (R353). -/
theorem exec_sreset_of_ready {s : State} (h : Ready s) : exec .sreset s = .next (resetBlock s) :=
  runUnlessBusy_of_ready h

/-! The state after reset. -/

/-- Everything the spec calls state is at its reset value in `t` (R59), and what is outside the block is as in `s`. -/
def ResetFrom (s t : State) : Prop :=
  SameOutside s t ∧ t.phase = .idle ∧ t.latch = none ∧ (∀ r, readReg t r = 0) ∧ t.wdat = Vector.replicate 4 0 ∧
    t.mem.cmap = Vector.replicate 32 none ∧ ∀ b, bufferLength t.mem b = 0

/-- No register shows what is outside the block (logs 3 to 5), so each reads as in the reset state. -/
theorem readReg_resetBlock (s : State) (r : Reg) : readReg (resetBlock s) r = 0 := by
  have houtside : readReg (resetBlock s) r = readReg (State.resetWith s.params) r := by cases r <;> rfl
  exact houtside.trans (readReg_resetWith s.params r)

theorem resetBlock_resetFrom (s : State) : ResetFrom s (resetBlock s) :=
  ⟨⟨rfl, rfl, rfl, rfl⟩, rfl, rfl, readReg_resetBlock s, rfl, rfl, bufferLength_reset⟩

/-! The hardware reset, as a step. -/

theorem step_reset_of_ready {s : State} (h : Ready s) (rest : List HostEvent) :
    step { s with bus := .reset :: rest } = .next (resetBlock { s with bus := rest }) :=
  step_ready (s := { s with bus := .reset :: rest }) h

theorem step_reset_of_busy {s : State} {c : Completion} (hp : s.phase = .busy c) (hleft : c.left ≠ 0)
    (rest : List HostEvent) :
    step { s with bus := .reset :: rest } = .next (resetBlock { s with bus := rest }) := by
  obtain ⟨n, hn⟩ := Nat.exists_eq_succ_of_ne_zero hleft
  exact step_busy_event hp hn .reset rest

/-- In BUSY with the length used up the command completes first, and the reset undoes what it did (log 13). -/
theorem run_reset_of_busy {s : State} {c : Completion} (hp : s.phase = .busy c) (rest : List HostEvent) :
    Sys2Proof.core.run (if c.left = 0 then 2 else 1) { s with bus := .reset :: rest } =
      .next (resetBlock { s with bus := rest }) := by
  by_cases hleft : c.left = 0
  · have hcomplete : step { s with bus := .reset :: rest } = .next (complete c { s with bus := .reset :: rest }) :=
      step_complete hp (.inl hleft)
    have hreset : step { complete c s with bus := .reset :: rest } =
        .next (resetBlock { complete c s with bus := rest }) :=
      step_reset_of_ready (complete_settled c s).ready rest
    rw [if_pos hleft]
    exact (run_succ hcomplete).trans (run_succ (n := 0) hreset)
  · rw [if_neg hleft]
    exact run_succ (n := 0) (step_reset_of_busy hp hleft rest)

/-- Settles O3: whether by SRESET or by the hardware reset, the block is left as `resetBlock` leaves it. -/
theorem sresetLeavesTheResetState : Obligations.SresetLeavesTheResetState :=
  ⟨fun s hs => ⟨resetBlock s, exec_sreset_of_ready hs, resetBlock_resetFrom s, step_reset_of_ready hs⟩,
    fun s _ hp => ⟨resetBlock s, run_reset_of_busy hp s.bus, resetBlock_resetFrom s⟩⟩

end Sys2Proof.Machine
end

section
/-! O48. In which states the pseudocode of a command can raise, and what a fault leaves (R240, R270, R380). -/

namespace Sys2Proof.Machine

/-- A property of the state in which a command's pseudocode raises, if it does. -/
def Result.RaisedIn (P : State → Prop) : Result → Prop
  | .done _ => True
  | .raised _ s => P s

/-- A branch of a command's pseudocode. -/
theorem Result.RaisedIn.ite {P : State → Prop} {c : Prop} [Decidable c] {r r' : Result} (h : r.RaisedIn P)
    (h' : r'.RaisedIn P) : (if c then r else r').RaisedIn P := by
  split
  · exact h
  · exact h'

theorem Result.RaisedIn.mono {P Q : State → Prop} (h : ∀ s, P s → Q s) {r : Result} (hr : r.RaisedIn P) :
    r.RaisedIn Q := by
  cases r with
  | done s => trivial
  | raised e s => exact h s hr

/-- Steps one after the other: what holds after the first is there for the second to raise in. -/
theorem Result.RaisedIn.andThen {P : State → Prop} {r : Result} {f : State → Result} (hr : r.All P)
    (hf : ∀ s, P s → (f s).RaisedIn P) : (r.andThen f).RaisedIn P := by
  cases r with
  | done s => exact hf s hr
  | raised e s => exact hr

/-! A command of one step makes its tests before its first assignment. -/

section

variable {P : State → Prop} {s : State} (h : P s)

include h

theorem prbsResult_raisedIn : (prbsResult s).RaisedIn P := .ite h (.ite h trivial)

theorem brepResult_raisedIn : (brepResult s).RaisedIn P := .ite h (.ite h trivial)

theorem cmdefResult_raisedIn : (cmdefResult s).RaisedIn P := .ite h trivial

theorem mapResult_raisedIn : (mapResult s).RaisedIn P := by
  refine .ite h (.ite h ?_)
  split
  · exact h
  · exact .ite h trivial

theorem cextResult_raisedIn : (cextResult s).RaisedIn P := .ite h (.ite h (.ite h trivial))

theorem zstuffResult_raisedIn : (zstuffResult s).RaisedIn P := .ite h (.ite h trivial)

theorem fgenResult_raisedIn : (fgenResult s).RaisedIn P := by
  refine .ite h (.ite h (.ite h ?_))
  split
  · exact h
  · exact .ite h (.ite h trivial)

theorem convResult_raisedIn : (convResult s).RaisedIn P := .ite h (.ite h (.ite h trivial))

theorem trimResult_raisedIn : (trimResult s).RaisedIn P := .ite h (.ite h (.ite h trivial))

theorem normResult_raisedIn : (normResult s).RaisedIn P := .ite h (.ite h (.ite h trivial))

theorem pmodeResult_raisedIn (mode : BitVec 16) : (pmodeResult mode s).RaisedIn P := by
  unfold pmodeResult
  split
  · exact h
  · trivial

theorem ilvResult_raisedIn : (ilvResult s).RaisedIn P := .ite h (.ite h trivial)

theorem vqConvert_raisedIn (src order : BitVec 2) : (vqConvert src order s).RaisedIn P := by
  simp only [vqConvert]
  split
  · exact h
  · trivial

theorem appendRecord_raisedIn (x : PdwFields) : (appendRecord x s).RaisedIn P := by
  unfold appendRecord
  split
  · exact h
  · exact .ite h trivial

theorem pdwencResult_raisedIn : (pdwencResult s).RaisedIn P := by
  unfold pdwencResult
  split
  · exact h
  split
  · exact h
  split
  · exact h
  split
  · exact h
  · exact appendRecord_raisedIn h _

theorem pdwasmResult_raisedIn : (pdwasmResult s).RaisedIn P := .ite h trivial

end

/-! DIGMOD writes the lanes WI and WQ in its last step only, after all the tests of that step (R240). -/

/-- `t` is `s` but for buffers other than WI and WQ, and CMAP. -/
structure OtherBuffers (s t : State) : Prop where
  onlyBuffers : OnlyBuffers s t
  wi : t.mem.wi = s.mem.wi
  wq : t.mem.wq = s.mem.wq

theorem OtherBuffers.refl (s : State) : OtherBuffers s s := ⟨.refl s, rfl, rfl⟩

theorem OtherBuffers.trans {s t u : State} (h : OtherBuffers s t) (h' : OtherBuffers t u) : OtherBuffers s u :=
  ⟨h.onlyBuffers.trans h'.onlyBuffers, h'.wi.trans h.wi, h'.wq.trans h.wq⟩

theorem OtherBuffers.withMem {s : State} {m : Memory} (hwi : m.wi = s.mem.wi) (hwq : m.wq = s.mem.wq) :
    OtherBuffers s { s with mem := m } :=
  ⟨.withMem s m, hwi, hwq⟩

theorem Result.All.andThen_otherBuffers {s : State} {r : Result} {f : State → Result} (h : r.All (OtherBuffers s))
    (hf : ∀ u, (f u).All (OtherBuffers u)) : (r.andThen f).All (OtherBuffers s) :=
  h.andThen fun u hu => (hf u).mono fun _ => hu.trans

section

variable (s : State)

theorem cmdefResult_otherBuffers : (cmdefResult s).All (OtherBuffers s) := .ite (.refl s) (.withMem rfl rfl)

theorem prbsResult_otherBuffers : (prbsResult s).All (OtherBuffers s) :=
  .ite (.refl s) (.ite (.refl s) (.withMem rfl rfl))

theorem brepResult_otherBuffers : (brepResult s).All (OtherBuffers s) :=
  .ite (.refl s) (.ite (.refl s) (.withMem rfl rfl))

theorem mapResult_otherBuffers : (mapResult s).All (OtherBuffers s) := by
  refine .ite (.refl s) (.ite (.refl s) ?_)
  split
  · exact .refl s
  · exact .ite (.refl s) (.withMem rfl rfl)

theorem cextResult_otherBuffers : (cextResult s).All (OtherBuffers s) :=
  .ite (.refl s) (.ite (.refl s) (.ite (.refl s) (.withMem rfl rfl)))

theorem zstuffResult_otherBuffers : (zstuffResult s).All (OtherBuffers s) :=
  .ite (.refl s) (.ite (.refl s) (.withMem rfl rfl))

theorem fgenResult_otherBuffers : (fgenResult s).All (OtherBuffers s) := by
  refine .ite (.refl s) (.ite (.refl s) (.ite (.refl s) ?_))
  split
  · exact .refl s
  · exact .ite (.refl s) (.ite (.refl s) (.withMem rfl rfl))

theorem convResult_otherBuffers : (convResult s).All (OtherBuffers s) :=
  .ite (.refl s) (.ite (.refl s) (.ite (.refl s) (.withMem rfl rfl)))

theorem trimResult_otherBuffers : (trimResult s).All (OtherBuffers s) :=
  .ite (.refl s) (.ite (.refl s) (.ite (.refl s) (.withMem rfl rfl)))

theorem digmodSteps_raisedIn : (digmodSteps s).RaisedIn (OtherBuffers s) := by
  have hfiltered := prbsResult_otherBuffers s |>.andThen_otherBuffers brepResult_otherBuffers
    |>.andThen_otherBuffers mapResult_otherBuffers |>.andThen_otherBuffers cextResult_otherBuffers
    |>.andThen_otherBuffers zstuffResult_otherBuffers |>.andThen_otherBuffers fgenResult_otherBuffers
    |>.andThen_otherBuffers convResult_otherBuffers |>.andThen_otherBuffers trimResult_otherBuffers
  exact .andThen hfiltered fun _ => normResult_raisedIn

theorem digmodResult_raisedIn (d : Bool) : (digmodResult d s).RaisedIn (OtherBuffers s) := by
  unfold digmodResult
  split
  · exact .refl s
  · exact .ite
      (.andThen (cmdefResult_otherBuffers s) fun u hu => (digmodSteps_raisedIn u).mono fun _ => hu.trans)
      (digmodSteps_raisedIn s)

end

/-! Faults. -/

/-- What a command `i` begun in `s` has left as it was where it raises (R380): the staging registers, the snapshot but for
VQ, every buffer but for DIGMOD, and WI and WQ. -/
structure FailsFast (i : Instr) (s t : State) : Prop where
  stage : t.stage = s.stage
  snap : (∃ src order, i = .vq src order) ∨ t.snap = s.snap
  mem : (∃ d, i = .digmod d) ∨ t.mem = s.mem
  wi : t.mem.wi = s.mem.wi
  wq : t.mem.wq = s.mem.wq

theorem FailsFast.refl (i : Instr) (s : State) : FailsFast i s s := ⟨rfl, .inr rfl, .inr rfl, rfl, rfl⟩

/-- DIGMOD keeps the results of its steps (R240). -/
theorem OtherBuffers.failsFast {s t : State} (h : OtherBuffers s t) (d : Bool) : FailsFast (.digmod d) s t where
  stage := h.onlyBuffers.stage
  snap := .inr (by rw [h.onlyBuffers])
  mem := .inl ⟨d, rfl⟩
  wi := h.wi
  wq := h.wq

/-- VQ keeps its snapshot (R270). -/
theorem vqResult_raisedIn (src order : BitVec 2) (s : State) :
    (vqResult src order s).RaisedIn (FailsFast (.vq src order) s) :=
  .ite (vqConvert_raisedIn ⟨rfl, .inl ⟨src, order, rfl⟩, .inr rfl, rfl, rfl⟩ src order) (.refl _ s)

/-- Every command but CLRERR and SRESET is accepted in IDLE only, and its pseudocode fails fast. -/
theorem exec_eq_runInIdle_failsFast (i : Instr) (hc : i ≠ .clrerr) (hr : i ≠ .sreset) :
    ∃ body : State → Result, exec i = runInIdle body ∧
      ∀ s, (body s).All (Keeps s) ∧ (body s).RaisedIn (FailsFast i s) := by
  have unchanged (s : State) : FailsFast i s s := .refl i s
  cases i with
  | clrerr => exact absurd rfl hc
  | sreset => exact absurd rfl hr
  | nop => exact ⟨_, rfl, fun s => ⟨Keeps.refl s, trivial⟩⟩
  | prbs => exact ⟨_, rfl, fun s => ⟨prbsResult_keeps s, prbsResult_raisedIn (unchanged s)⟩⟩
  | brep => exact ⟨_, rfl, fun s => ⟨brepResult_keeps s, brepResult_raisedIn (unchanged s)⟩⟩
  | cmclr => exact ⟨_, rfl, fun s => ⟨Keeps.withMem s _, trivial⟩⟩
  | cmdef => exact ⟨_, rfl, fun s => ⟨cmdefResult_keeps s, cmdefResult_raisedIn (unchanged s)⟩⟩
  | map => exact ⟨_, rfl, fun s => ⟨mapResult_keeps s, mapResult_raisedIn (unchanged s)⟩⟩
  | cext => exact ⟨_, rfl, fun s => ⟨cextResult_keeps s, cextResult_raisedIn (unchanged s)⟩⟩
  | zstuff => exact ⟨_, rfl, fun s => ⟨zstuffResult_keeps s, zstuffResult_raisedIn (unchanged s)⟩⟩
  | fgen => exact ⟨_, rfl, fun s => ⟨fgenResult_keeps s, fgenResult_raisedIn (unchanged s)⟩⟩
  | conv => exact ⟨_, rfl, fun s => ⟨convResult_keeps s, convResult_raisedIn (unchanged s)⟩⟩
  | trim => exact ⟨_, rfl, fun s => ⟨trimResult_keeps s, trimResult_raisedIn (unchanged s)⟩⟩
  | norm => exact ⟨_, rfl, fun s => ⟨normResult_keeps s, normResult_raisedIn (unchanged s)⟩⟩
  | digmod d =>
    exact ⟨_, rfl, fun s => ⟨digmodResult_keeps s d, (digmodResult_raisedIn s d).mono fun _ h => h.failsFast d⟩⟩
  | pmode mode => exact ⟨_, rfl, fun s => ⟨pmodeResult_keeps s mode, pmodeResult_raisedIn (unchanged s) mode⟩⟩
  | ilv => exact ⟨_, rfl, fun s => ⟨ilvResult_keeps s, ilvResult_raisedIn (unchanged s)⟩⟩
  | vq src order => exact ⟨_, rfl, fun s => ⟨vqResult_keeps s src order, vqResult_raisedIn src order s⟩⟩
  | pdwenc => exact ⟨_, rfl, fun s => ⟨pdwencResult_keeps s, pdwencResult_raisedIn (unchanged s)⟩⟩
  | pdwclr => exact ⟨_, rfl, fun s => ⟨Keeps.withMem s _, trivial⟩⟩
  | pdwasm => exact ⟨_, rfl, fun s => ⟨pdwasmResult_keeps s, pdwasmResult_raisedIn (unchanged s)⟩⟩

/-- A command accepted in IDLE that ends in FAULT raised there, and ends with the fault taken (R380). -/
theorem exists_raised_of_fault {P : State → Prop} {body : State → Result} {s t : State} (hidle : s.phase = .idle)
    (hx : runInIdle body s = .next t) (hfault : t.phase = .fault) (hkeeps : (body s).All (Keeps s))
    (hraised : (body s).RaisedIn P) : ∃ e u, Keeps s u ∧ P u ∧ t = takeFault e u := by
  rw [runInIdle_of_idle hidle] at hx
  cases hx
  cases hr : body s with
  | done u =>
    rw [hr] at hfault hkeeps
    have hphase : u.phase = .idle := (Keeps.phase hkeeps).trans hidle
    cases hphase.symm.trans hfault
  | raised e u =>
    rw [hr] at hkeeps hraised
    exact ⟨e, u, hkeeps, hraised, rfl⟩

/-- CLRERR and SRESET raise nothing: accepted in IDLE they end there (R352, R353). -/
theorem not_reset_of_fault {i : Instr} {s t : State} (hidle : s.phase = .idle) (hx : exec i s = .next t)
    (hfault : t.phase = .fault) : i ≠ .clrerr ∧ i ≠ .sreset := by
  constructor
  · rintro rfl
    cases (exec_clrerr_of_ready (.inl hidle)).symm.trans hx
    cases hfault
  · rintro rfl
    cases (exec_sreset_of_ready (.inl hidle)).symm.trans hx
    cases hfault

/-- Settles O48, by the state in which the command's pseudocode raises. -/
theorem faultsAreFailFast : Obligations.FaultsAreFailFast := by
  intro i s t hidle hx hfault
  obtain ⟨hc, hr⟩ := not_reset_of_fault hidle hx hfault
  obtain ⟨body, hbody, hall⟩ := exec_eq_runInIdle_failsFast i hc hr
  obtain ⟨hkeeps, hraised⟩ := hall s
  rw [hbody] at hx
  obtain ⟨e, u, hkept, hfails, rfl⟩ := exists_raised_of_fault hidle hx hfault hkeeps hraised
  refine ⟨⟨e, ?_⟩, ?_, hkept.operands, hkept.window, hkept.outside, hfails.stage, hfails.snap, hfails.mem, hfails.wi,
    hfails.wq⟩
  · rw [takeFault_latch, hkept.cix]
  · rw [takeFault_cix, hkept.cix]

end Sys2Proof.Machine
end

section
/-! O50. In FAULT nothing but CLRERR, SRESET and a reset touches STATE or the latch (R91, R113, R390). -/

namespace Sys2Proof.Machine

/-- FAULT with `l` in the latch. -/
def InFault (l : Option FaultRecord) (s : State) : Prop := s.phase = .fault ∧ s.latch = l

section

variable {l : Option FaultRecord} {s : State}

/-- A fault of a host write is dropped while one is latched (R91). -/
theorem hostWriteFault_of_fault (h : s.phase = .fault) (p : BitVec 64) : hostWriteFault s p = s :=
  (hostWriteFault_of_ready (.inr h) p).trans (if_neg (by simp [h]))

theorem hostWriteFault_inFault (p : BitVec 64) (h : InFault l s) : InFault l (hostWriteFault s p) := by
  rwa [hostWriteFault_of_fault h.1]

theorem pushBit_inFault (h : InFault l s) : InFault l (pushBit s) := by
  unfold pushBit
  split <;> exact h

theorem pushWi_inFault (h : InFault l s) : InFault l (pushWi s) := by
  unfold pushWi
  split
  · exact hostWriteFault_inFault _ h
  · split <;> exact h

theorem pushWq_inFault (h : InFault l s) : InFault l (pushWq s) := by
  unfold pushWq
  split
  · exact hostWriteFault_inFault _ h
  · split <;> exact h

theorem writeCmapEntry_inFault (h : InFault l s) : InFault l (writeCmapEntry s) := by
  unfold writeCmapEntry
  split
  · exact h
  split
  · exact hostWriteFault_inFault _ h
  split
  · exact hostWriteFault_inFault _ h
  · exact h

theorem commitWindow_inFault (k : Fin 4) (h : InFault l s) : InFault l (commitWindow s k) := by
  have hite {c : Prop} [Decidable c] {t : State} (ht : InFault l t) : InFault l (if c then t else s) := by
    split
    · exact ht
    · exact h
  unfold commitWindow
  split
  · exact hite (pushBit_inFault h)
  · exact hite (pushWi_inFault h)
  · exact hite (pushWq_inFault h)
  · exact hite (writeCmapEntry_inFault h)
  all_goals exact h

theorem busWrite_inFault (a : RegAddr) (v : Word) (h : InFault l s) : InFault l (busWrite s a v) := by
  unfold busWrite
  split
  · exact h
  · exact commitWindow_inFault (s := { s with wdat := _ }) _ h
  · rename_i r _ _
    have hcontrol := writeReg_sameControl s v r
    exact ⟨hcontrol.phase.trans h.1, hcontrol.latch.trans h.2⟩

theorem busRead_inFault {t : State} {a : RegAddr} (h : InFault l s) (hx : busRead s a = .next t) : InFault l t := by
  obtain ⟨idx, v, rfl⟩ := busRead_next hx
  exact h

end

/-- Settles O50, by what the host's next transaction can be. -/
theorem theFaultLatchIsSticky : Obligations.TheFaultLatchIsSticky := by
  intro s t hs hx hclrerr hsreset hreset
  have hbefore : InFault s.latch s := ⟨hs, rfl⟩
  have hready := hx
  rw [step_fault hs] at hready
  obtain ⟨-, heq⟩ | ⟨e, rest, hbus, heq⟩ := stepReady_cases s <;> rw [heq] at hready
  · cases hready
    exact hbefore
  cases e with
  | read a => exact busRead_inFault (s := { s with bus := rest }) hbefore hready
  | write a v =>
    by_cases ha : a = cmdAddr
    · subst ha
      have hdropped := droppedCommandsChangeNothing.1 s v rest hs (fun h => hclrerr rest (h ▸ hbus))
        (fun h => hsreset rest (h ▸ hbus)) hbus
      cases hdropped.symm.trans hx
      exact hbefore
    · cases (if_neg ha).symm.trans hready
      exact busWrite_inFault (s := { s with bus := rest }) a v hbefore
  | reset => exact absurd hbus (hreset rest)

end Sys2Proof.Machine
end

section
/-! O31. The patterns of rounded products that do not wrap (R439): `Round` is monotone, and every lane that NORM leaves has
a number that is rational and a positive rational under its root (R236, R273). -/

namespace Sys2Proof

/-! `Round` is monotone. -/

/-- At a tie between `k` and `k + 1` only one of them is the rounded value (R12). -/
theorem IsRoundOf.not_both {ties : Config.RoundTies} {k : ℤ} (hlow : IsRoundOf ties (k + 1 / 2) k)
    (hhigh : IsRoundOf ties (k + 1 / 2) (k + 1 : ℤ)) : False := by
  have hdist : |(k : ℝ) + 1 / 2 - k| = 1 / 2 := by rw [add_sub_cancel_left, abs_of_pos (by norm_num)]
  have hdist' : |(k : ℝ) + 1 / 2 - (k + 1 : ℤ)| = 1 / 2 := by
    push_cast
    rw [show (k : ℝ) + 1 / 2 - (k + 1) = -(1 / 2) by ring, abs_neg, abs_of_pos (by norm_num)]
  obtain ⟨heven, haway⟩ := hlow.2 hdist
  obtain ⟨heven', haway'⟩ := hhigh.2 hdist'
  cases ties with
  | halfEven =>
    have := heven rfl
    have := heven' rfl
    omega
  | halfAway =>
    obtain hk | hk := le_or_gt 0 k
    · have hk : (0 : ℝ) ≤ k := by exact_mod_cast hk
      have := haway rfl
      rw [abs_of_nonneg hk, abs_of_nonneg (by linarith)] at this
      linarith
    · have hk : ((k + 1 : ℤ) : ℝ) ≤ 0 := by exact_mod_cast Int.add_one_le_of_lt hk
      have := haway' rfl
      push_cast at hk this
      rw [abs_of_nonpos hk, abs_of_nonpos (by linarith)] at this
      linarith

theorem IsRoundOf.mono {ties : Config.RoundTies} {v w : ℝ} {r t : ℤ} (hv : IsRoundOf ties v r) (hw : IsRoundOf ties w t)
    (hle : v ≤ w) : r ≤ t := by
  by_contra hlt
  have hgap : (t : ℝ) + 1 ≤ r := by exact_mod_cast Int.add_one_le_of_lt (not_le.1 hlt)
  have hr := (abs_le.1 hv.1).1
  have ht := (abs_le.1 hw.1).2
  obtain rfl : w = t + 1 / 2 := by linarith
  obtain rfl : v = t + 1 / 2 := by linarith
  obtain rfl : r = t + 1 := by exact_mod_cast (by linarith : (r : ℝ) = t + 1)
  exact hw.not_both hv

theorem IsRoundOf.unique {ties : Config.RoundTies} {v : ℝ} {r t : ℤ} (hr : IsRoundOf ties v r)
    (ht : IsRoundOf ties v t) : r = t :=
  le_antisymm (hr.mono ht le_rfl) (ht.mono hr le_rfl)

/-- Where the largest value of a range rounds to less than `n`, every value of the range rounds into `-n .. n - 1`. -/
theorem IsRoundOf.bounds {ties : Config.RoundTies} {v w : ℝ} {r t n : ℤ} (hv : IsRoundOf ties v r)
    (hw : IsRoundOf ties w t) (habs : |v| ≤ w) (hlt : t < n) : -n ≤ r ∧ r < n := by
  obtain ⟨hlow, hhigh⟩ := abs_le.1 habs
  refine ⟨?_, (hv.mono hw hhigh).trans_lt hlt⟩
  have hn : (t : ℝ) + 1 ≤ n := by exact_mod_cast Int.add_one_le_of_lt hlt
  have hr := (abs_le.1 hv.1).2
  have ht := (abs_le.1 hw.1).2
  have hreal : -(n : ℝ) ≤ r := by linarith
  exact_mod_cast hreal

/-! Samples with rational parts. -/

/-- The sample's number is rational, and what stands under its root is a positive rational. -/
def Sample.RationalParts (v : Sample) : Prop := ∃ n d, v.num.rat? = some n ∧ v.rad.rat? = some d ∧ 0 < d

theorem Sample.rationalParts_mk {n m : Num} {d : ℚ} (hn : n.rat?.isSome = true) (hm : m.rat? = some d) (hd : 0 < d) :
    (⟨n, m⟩ : Sample).RationalParts := by
  obtain ⟨q, hq⟩ := Option.isSome_iff_exists.1 hn
  exact ⟨q, d, hq, hm, hd⟩

theorem Sample.rationalParts_ofNum {a : Num} (h : a.rat?.isSome = true) : (Sample.ofNum a).RationalParts :=
  Sample.rationalParts_mk h (Num.rat?_ofRat 1) one_pos

theorem Sample.RationalParts.scale {v : Sample} (h : v.RationalParts) (q : ℚ) : (v.scale q).RationalParts := by
  obtain ⟨n, d, hn, hd, hpos⟩ := h
  exact Sample.rationalParts_mk (Num.rat?_isSome_scale q (by rw [hn]; rfl)) hd hpos

/-- `n / Sqrt(m2)` of rationals, whether the root is taken at once or left pending (R236). -/
theorem Sample.rationalParts_overRoot {n m2 : Num} (hn : n.rat?.isSome = true) (hm2 : m2.rat?.isSome = true)
    (hpos : 0 < m2.toReal) : (Sample.overRoot n m2).RationalParts := by
  obtain ⟨q, hq⟩ := Option.isSome_iff_exists.1 hm2
  rw [Num.toReal_of_rat? hq, Rat.cast_pos] at hpos
  rw [Sample.overRoot, hq]
  simp only
  split
  · exact Sample.rationalParts_ofNum (Num.rat?_isSome_scale _ hn)
  · exact Sample.rationalParts_mk hn hq hpos

theorem Sample.RationalParts.round_isRoundOf {v : Sample} (h : v.RationalParts) (ties : Config.RoundTies) :
    IsRoundOf ties v.toReal (v.round ties) := by
  obtain ⟨n, d, hn, hd, hpos⟩ := h
  exact Sample.round_isRoundOf ties hn hd hpos

@[simp] theorem Sample.toReal_scale (q : ℚ) (v : Sample) : (v.scale q).toReal = q * v.toReal := by
  simp [Sample.scale, Sample.toReal, mul_div_assoc]

namespace Machine

open Sys2Proof.Config

/-! Patterns read as signed numbers. -/

/-- A `w`-bit pattern read as a two's-complement number. -/
def signedPattern (w q : Nat) : ℤ := if q < 2 ^ (w - 1) then q else (q : ℤ) - 2 ^ w

/-- The pattern of a number that fits `w` bits reads as that number (R273). -/
theorem signedPattern_wrapShift {r : ℤ} {shift w : Nat} (hshift : shift < w)
    (hr : -2 ^ (w - 1 - shift) ≤ r ∧ r < 2 ^ (w - 1 - shift)) :
    signedPattern w (wrapShift r shift w) = r * 2 ^ shift := by
  have hhalf : (2 : ℤ) ^ (w - 1 - shift) * 2 ^ shift = 2 ^ (w - 1) := by rw [← pow_add]; congr 1; omega
  have hwhole : (2 : ℤ) ^ w = 2 * 2 ^ (w - 1) := by rw [← pow_succ']; congr 1; omega
  have hpos : (0 : ℤ) < 2 ^ shift := by positivity
  have hlow : -2 ^ (w - 1) ≤ r * 2 ^ shift := by rw [← hhalf]; nlinarith [hr.1]
  have hhigh : r * 2 ^ shift < 2 ^ (w - 1) := by rw [← hhalf]; nlinarith [hr.2]
  have hcast : ((wrapShift r shift w : Nat) : ℤ) = r * 2 ^ shift % 2 ^ w :=
    Int.toNat_of_nonneg (Int.emod_nonneg _ (by positivity))
  have hlt : wrapShift r shift w < 2 ^ (w - 1) ↔ r * 2 ^ shift % 2 ^ w < 2 ^ (w - 1) := by
    rw [← hcast]
    exact_mod_cast Iff.rfl
  rw [signedPattern, if_congr hlt rfl rfl, hcast]
  generalize r * 2 ^ shift = x at *
  obtain hx | hx := le_or_gt 0 x
  · rw [Int.emod_eq_of_lt hx (by omega), if_pos hhigh]
  · rw [← Int.add_emod_right, Int.emod_eq_of_lt (by omega) (by omega), if_neg (by omega)]
    ring

/-- A profile under which the rounded product of the peak does not wrap (R439). -/
def FitsPeak (ties : RoundTies) (p : Profile) : Prop :=
  p.shift.toNat < p.width.toNat ∧
    (Num.ofRat (p.binmult.toNat * (707 / 1000))).round ties < 2 ^ (p.width.toNat - 1 - p.shift.toNat)

/-- The pattern of a sample within the peak reads as the rounded product, shifted (R273, R439). -/
theorem signedPattern_quantize {params : Params} {p : Profile} {v : Sample} (href : params.numerics = .reference)
    (hfits : FitsPeak params.ties p) (hv : v.RationalParts) (habs : |v.toReal| ≤ 707 / 1000) :
    signedPattern p.width.toNat (quantize params p v) =
      (v.scale p.binmult.toNat).round params.ties * 2 ^ p.shift.toNat := by
  obtain ⟨hshift, hpeak⟩ := hfits
  have hround := (hv.scale p.binmult.toNat).round_isRoundOf params.ties
  have hle : |(v.scale p.binmult.toNat).toReal| ≤ ((p.binmult.toNat * (707 / 1000) : ℚ) : ℝ) := by
    rw [Sample.toReal_scale, Rat.cast_natCast, abs_mul, Nat.abs_cast]
    push_cast
    gcongr
  have hbounds := hround.bounds (Num.round_ofRat_isRoundOf params.ties _) hle hpeak
  rw [quantize, href]
  exact signedPattern_wrapShift hshift hbounds

/-- The lanes that a completed NORM leaves on rational samples (R235, R236). -/
theorem rationalParts_of_completes_norm {s t : State} (href : s.params.numerics = .reference)
    (hrational : RationalSamples s.mem.zbuf) (hnorm : Completes .norm s t) :
    ∀ v ∈ t.mem.wi ++ t.mem.wq, v.RationalParts := by
  obtain ⟨u, hdone, rfl⟩ := hnorm.exists_done rfl
  obtain ⟨hz, -, hm2, rfl⟩ := normResult_eq_done_iff.1 hdone
  rw [href] at hm2
  have hmax := maxMag2_isLargestMag2 (List.length_pos_iff.1 (Nat.pos_of_ne_zero hz)) hrational
  have hpos : 0 < (maxMag2 .reference s.mem.zbuf).toReal :=
    lt_of_le_of_ne hmax.nonneg fun h => Bool.eq_false_iff.1 hm2 ((Num.eq_iff_toReal_eq hmax.rational rfl).2 h.symm)
  have hlane {a : Num} (ha : a.rat?.isSome = true) :
      (normLane .reference (maxMag2 .reference s.mem.zbuf) a).RationalParts :=
    Sample.rationalParts_overRoot (Num.rat?_isSome_mul (Num.rat?_isSome_ofRat peak) ha) hmax.rational hpos
  intro v hv
  simp only [advanceIndex_mem, withMem_mem, href, List.mem_append, List.mem_map] at hv
  obtain ⟨z, hz, rfl⟩ | ⟨z, hz, rfl⟩ := hv
  · exact hlane (hrational z hz).1
  · exact hlane (hrational z hz).2

theorem exists_sampleAt_of_mem {l : List Sample} {v : Sample} (h : v ∈ l) : ∃ k, sampleAt l k = v.toReal := by
  obtain ⟨k, hk, rfl⟩ := List.mem_iff_getElem.1 h
  exact ⟨k, by simp [sampleAt, hk]⟩

/-- No sample of either lane that a completed NORM leaves is above the peak (R236). -/
theorem abs_toReal_le_of_completes_norm {s t : State} (href : s.params.numerics = .reference)
    (hrational : RationalSamples s.mem.zbuf) (hnorm : Completes .norm s t) :
    ∀ v ∈ t.mem.wi ++ t.mem.wq, |v.toReal| ≤ 707 / 1000 := by
  obtain ⟨-, -, hpeak, -⟩ := normReachesThePeakExactly s t href hrational hnorm
  intro v hv
  obtain hv | hv := List.mem_append.1 hv
  · obtain ⟨k, hk⟩ := exists_sampleAt_of_mem hv
    exact hk ▸ (hpeak k).1
  · obtain ⟨k, hk⟩ := exists_sampleAt_of_mem hv
    exact hk ▸ (hpeak k).2

/-- Settles O31: `Round` is monotone, so that no product exceeds that of the peak, which fits. -/
theorem normalizedSamplesDoNotWrap : Obligations.NormalizedSamplesDoNotWrap := by
  unfold Obligations.NormalizedSamplesDoNotWrap
  intro signed round fits
  refine ⟨fun params p v href hfits hv => ?_, fun s t p href hrational hnorm hfits v hv => ?_⟩
  · have hparts : (Sample.ofNum (Num.ofRat v)).RationalParts :=
      Sample.rationalParts_ofNum (Num.rat?_isSome_ofRat v)
    have hreal : (Sample.ofNum (Num.ofRat v)).toReal = v := by simp
    have habs : |(Sample.ofNum (Num.ofRat v)).toReal| ≤ 707 / 1000 := by
      have hcast : ((|v| : ℚ) : ℝ) ≤ ((707 / 1000 : ℚ) : ℝ) := Rat.cast_le.2 hv
      push_cast at hcast
      rwa [hreal]
    have hproduct := (hparts.scale p.binmult.toNat).round_isRoundOf params.ties
    have hrational := Num.round_ofRat_isRoundOf params.ties (p.binmult.toNat * v)
    rw [Sample.toReal_scale, hreal, ← Rat.cast_mul] at hproduct
    rw [show round params.ties (p.binmult.toNat * v) = _ from hrational.unique hproduct]
    exact signedPattern_quantize href hfits hparts habs
  · have hparts := rationalParts_of_completes_norm href hrational hnorm v hv
    refine ⟨signedPattern_quantize href hfits hparts (abs_toReal_le_of_completes_norm href hrational hnorm v hv), ?_⟩
    have hnear := ((hparts.scale p.binmult.toNat).round_isRoundOf s.params.ties).1
    rwa [Sample.toReal_scale, Rat.cast_natCast] at hnear

end Machine
end Sys2Proof
end
